-- ==== Sys2Proof/Word.lean ====
section
/-!
DEFINITION. The word types of the DRC: the widths that 00_scope.md R10 and 30_encoding.md fix.
-/

namespace Sys2Proof

/-- One byte of ring memory (20_memory.md R71). -/
abbrev Byte := BitVec 8

/-- `IDX_W` = 24 bits: `head`, `tail`, `wrap_mask`, `shadow_tail`, `capacity` (R10), and the `arg` and
`value` fields of command and response words (30_encoding.md R110, R114). -/
abbrev Idx := BitVec 24

/-- A 32-bit word: command words, response words, the device's registers, the byte offsets of a batch. -/
abbrev Word32 := BitVec 32

/-- `REF_W` = 64 bits: a back-reference (R10, 10_state.md R43). -/
abbrev Ref := BitVec 64

/-- `TIME_W` = 64 bits: a time stamp (R10, 60_exceptions.md R356). -/
abbrev Time := BitVec 64

/-- `HWSTAT_W` = 16 bits: the opaque device status of a slot (R10, 10_state.md R42). -/
abbrev HwStat := BitVec 16

/-- The pool index of a batch record, 16 bits of its HANDLE record (30_encoding.md R117, R120). -/
abbrev Bid := BitVec 16

end Sys2Proof
end

