-- ==== Sys2Proof/Config.lean ====
section
/-!
DEFINITION. The parameters of the DRC (00_scope.md R9 to R11) and the free value the spec leaves open.
The parameters are arguments of the model (10_state.md R54): a `Params` stands in `State.cfg`, no step
writes it, and a claim about every state is a claim about every choice of parameters.
-/

namespace Sys2Proof

/-- The `OPEN` parameters (00_scope.md R9, R10) and the platform parameters (R11). -/
structure Params where
  /-- `CAP_MAX`, the largest legal capacity (R9). -/
  capMax : Nat
  /-- `DESC_SIZE`, bytes per descriptor slot (R10). -/
  descSize : Nat
  /-- `BATCH_POOL_SIZE`, batch records in the pool (R10). -/
  poolSize : Nat
  /-- `ADMIN_POLL_MAX`, status reads before an administrative operation times out (R10). -/
  pollMax : Nat
  /-- `REG_BASE`, the `base` of every register access (R11, R17). -/
  regBase : Nat
  /-- `OFF_DOORBELL` (R11). -/
  offDoorbell : Nat
  /-- `OFF_HW_HEAD` (R11). -/
  offHwHead : Nat
  /-- `OFF_ADMIN_CTRL` (R11). -/
  offAdminCtrl : Nat
  /-- `OFF_ADMIN_STATUS` (R11). -/
  offAdminStatus : Nat
  /-- `RING_BASE`, the bus address of slot 0 (R11, 20_memory.md R71). -/
  ringBase : Nat
  deriving DecidableEq, Repr

/-- `PAYLOAD_BYTES = DESC_SIZE - 16` (R10). -/
def Params.payloadBytes (p : Params) : Nat := p.descSize - 16

/-- The parameters `State.reset` carries: R10's defaults; R11 gives the platform parameters no value.
DESIGN CHOICE (log 1, log 2), unsafe for a claim that rests on the numbers. -/
def Params.default : Params where
  capMax := 1024
  descSize := 32
  poolSize := 4
  pollMax := 3
  regBase := 0
  offDoorbell := 0
  offHwHead := 4
  offAdminCtrl := 8
  offAdminStatus := 12
  ringBase := 4096

/-- FREE VALUE (log 11): which free record the `k`-th batch takes. The spec leaves it open ("a model
draws any free index", 10_state.md R45, 93 I18); nothing evaluates it and no proof knows its value. -/
opaque Config.freeChoice (k : Nat) : Nat

end Sys2Proof
end

