-- ==== Sys2Proof/Syntax.lean ====
section
/-!
DEFINITION. The command set: one constructor of `Instr` per row of spec/opcode_table.json, and the
records that go in with a command (30_encoding.md R110 to R118).
-/

namespace Sys2Proof

/-- `ctl.mode`: how completions are drained (10_state.md R36, 00_scope.md R12). -/
inductive Mode where
  | slot
  | batch
  deriving DecidableEq, Repr

/-- `ctl.policy`: the treatment of a malformed request (10_state.md R36, 42_submission.md R193). -/
inductive Policy where
  | failFast
  | bestEffort
  deriving DecidableEq, Repr

/-- `ctl.kind`: the descriptor layout variant (10_state.md R36, 40_geometry_config.md R158). -/
inductive Kind where
  | encode
  | decode
  deriving DecidableEq, Repr

/-- The twelve commands (30_encoding.md R111), operands as R113 and R127 give them. -/
inductive Instr where
  /-- CONFIGURE (40_geometry_config.md R155). -/
  | configure (kind : Kind) (policy : Policy) (mode : Mode) (requested : Idx)
  /-- FREE_COUNT (41_capacity.md R171). -/
  | freeCount
  /-- PENDING_COUNT (41_capacity.md R172). -/
  | pendingCount
  /-- ENQUEUE (42_submission.md R190). -/
  | enqueue (n : Idx)
  /-- DEQUEUE (43_completion.md R211). -/
  | dequeue (max : Idx)
  /-- SUBMIT_BATCH (44_batch.md R233). -/
  | submitBatch (n : Idx)
  /-- POLL_BATCH (44_batch.md R241). -/
  | pollBatch (max : Idx)
  /-- BATCH_AGE (44_batch.md R255). -/
  | batchAge
  /-- START (45_admin.md R272). -/
  | start
  /-- STOP (45_admin.md R273). -/
  | stop
  /-- FLUSH (45_admin.md R274). -/
  | flush
  /-- RDREG (45_admin.md R290). -/
  | rdreg (sel : BitVec 3)
  deriving DecidableEq, Repr

/-- The acceptance class of a command (10_state.md R53, 30_encoding.md R111). -/
inductive Class where
  /-- PSEQ and ASEQ idle. -/
  | producer
  /-- CSEQ and ASEQ idle. -/
  | consumer
  /-- PSEQ, CSEQ and ASEQ idle. -/
  | admin
  /-- ASEQ idle. -/
  | query
  deriving DecidableEq, Repr

/-- The class column of the table of 30_encoding.md R111. -/
def Instr.cls : Instr → Class
  | .configure _ _ _ _ => .admin
  | .freeCount => .query
  | .pendingCount => .query
  | .enqueue _ => .producer
  | .dequeue _ => .consumer
  | .submitBatch _ => .producer
  | .pollBatch _ => .consumer
  | .batchAge => .query
  | .start => .admin
  | .stop => .admin
  | .flush => .admin
  | .rdreg _ => .query

/-- How many request records a client hands in with the command (30_encoding.md R113, R128): `n` with
ENQUEUE and SUBMIT_BATCH, nothing with the others (R110). -/
def Instr.recordCount : Instr → Nat
  | .configure _ _ _ _ => 0
  | .freeCount => 0
  | .pendingCount => 0
  | .enqueue n => n.toNat
  | .dequeue _ => 0
  | .submitBatch n => n.toNat
  | .pollBatch _ => 0
  | .batchAge => 0
  | .start => 0
  | .stop => 0
  | .flush => 0
  | .rdreg _ => 0

/-- A request record as it stands on the port: one 128-bit word followed by its payload blobs
(30_encoding.md R117, R118). Its fields are read in Machine/Operands.lean. -/
structure ReqRecord where
  word : BitVec 128
  payload : List (List Byte)
  deriving DecidableEq, Repr

/-- A command as a client presents it: the command word and the records handed in (R110). -/
structure Command where
  word : Word32
  records : List ReqRecord
  deriving DecidableEq, Repr

end Sys2Proof
end

