-- ==== Sys2Proof/Machine/Operands.lean ====
section
/-!
DEFINITION. The operands of a command: the fields of its word (30_encoding.md R110, R126, R127) and of
the REQ records handed in with it (R117, R118, R128, R133).
-/

namespace Sys2Proof.Machine

/-- `op`, bits 31:28 of the command word (R110). -/
def opField (w : Word32) : BitVec 4 := w.extractLsb' 28 4

/-- `flags`, bits 27:24 (R110). -/
def flagsField (w : Word32) : BitVec 4 := w.extractLsb' 24 4

/-- `arg`, bits 23:0, an unsigned immediate (R110, R126). -/
def argField (w : Word32) : Idx := w.extractLsb' 0 24

/-- The word with the three fields `op`, `flags`, `arg` (R110). -/
def commandWord (op flags : BitVec 4) (arg : Idx) : Word32 := op ++ flags ++ arg

/-! ### REQ records -/

/-- `kind`, bits 127:124; a REQ has 1 (R117). -/
def recordKind (r : ReqRecord) : BitVec 4 := r.word.extractLsb' 124 4

/-- `ref`, bits 63:0, read whether or not the record is a sound REQ (R117, R133). -/
def recordRef (r : ReqRecord) : Ref := r.word.extractLsb' 0 64

/-- `ndesc`, bits 71:64 of a REQ (R117): the number of slots the request needs (R118). -/
def recordNdesc (r : ReqRecord) : Nat := (r.word.extractLsb' 64 8).toNat

/-- Bits 123:73 of a REQ are zero: 79:73 by its own line of R117, 83:80 (`code`) and 123:84 by the
general ones. -/
def recordReservedZero (r : ReqRecord) : Bool := r.word.extractLsb' 73 51 == 0#51

/-- The verdict the DRC acts on: bit 72 `valid`, taken as 0 in a record of another kind or with a
reserved bit set (R118, R133). -/
def recordValid (r : ReqRecord) : Bool :=
  r.word.getLsbD 72 && recordKind r == 1#4 && recordReservedZero r

/-- A request is well formed when `valid == 1` and `ndesc >= 1` and, in SLOT mode, `ndesc == 1` (R118). -/
def wellFormedRequest (mode : Mode) (r : ReqRecord) : Bool :=
  recordValid r && decide (1 ≤ recordNdesc r) &&
    match mode with
    | .slot => recordNdesc r == 1
    | .batch => true

/-- A REQ carries one blob of `PAYLOAD_BYTES` bytes for each of its `ndesc` descriptors (R117, R118). -/
def payloadFits (p : Params) (r : ReqRecord) : Bool :=
  r.payload.length == recordNdesc r && r.payload.all (fun b => b.length == p.payloadBytes)

/-- The number of records handed in equals `n` (R128). -/
def recordCountOk (n : Nat) (rs : List ReqRecord) : Bool := rs.length == n

/-- Every well-formed request brings the blobs its descriptors need; a malformed request is never
written, so its blobs are never read (42_submission.md R193). -/
def recordShapeOk (p : Params) (mode : Mode) (rs : List ReqRecord) : Bool :=
  rs.all (fun r => !wellFormedRequest mode r || payloadFits p r)

/-- The REQ record of R117 with these fields. -/
def reqRecord (ref : Ref) (valid : Bool) (ndesc : BitVec 8) (payload : List (List Byte)) : ReqRecord where
  word := 1#4 ++ 0#51 ++ BitVec.ofBool valid ++ ndesc ++ ref
  payload := payload

end Sys2Proof.Machine
end

