-- ==== Sys2Proof/WellFormed.lean ====
section
/-!
DEFINITION. Well-formedness: the constraints on the parameters (00_scope.md R9 to R11) and on a command
as a client presents it (30_encoding.md R113, R128). An `Instr` by itself has no ill-formed term: every
operand has exactly the width of its field in the word, and 24-bit values of `requested`, `n` and `max`
are all legal (R126), as are the eight selectors (R113). What can be ill-formed is the command: the word
together with the records.
-/

namespace Sys2Proof

/-- The four register offsets are distinct (R11). -/
def Params.offsetsDistinct (p : Params) : Bool :=
  decide ([p.offDoorbell, p.offHwHead, p.offAdminCtrl, p.offAdminStatus].Nodup)

/-- Each register offset is a multiple of 4 (R11). -/
def Params.offsetsAligned (p : Params) : Bool :=
  [p.offDoorbell, p.offHwHead, p.offAdminCtrl, p.offAdminStatus].all (fun o => o % 4 == 0)

/-- The constraints of R9, R10 and R11. -/
def Params.wf (p : Params) : Bool :=
  decide (1 ≤ p.capMax) && decide (p.capMax ≤ 2 ^ 23) &&
  p.descSize % 8 == 0 && decide (16 ≤ p.descSize) && decide (p.capMax * p.descSize ≤ 2 ^ 32) &&
  decide (1 ≤ p.poolSize) && decide (p.poolSize ≤ 2 ^ 16) &&
  decide (1 ≤ p.pollMax) &&
  p.offsetsDistinct && p.offsetsAligned &&
  p.ringBase % 8 == 0

/-- The records handed in with instruction `i` on a ring of mode `mode` are what the port protocol asks:
exactly `i.recordCount` of them (R128), each with the blobs its descriptors need (R118). -/
def recordsWf (p : Params) (mode : Mode) (i : Instr) (rs : List ReqRecord) : Bool :=
  Machine.recordCountOk i.recordCount rs && Machine.recordShapeOk p mode rs

end Sys2Proof
end

