-- ==== Sys2Proof/Decode.lean ====
section
/-!
DEFINITION. Decoding a command word (30_encoding.md R110 to R113, R126 to R134), total on every 32-bit
word and refusing by name, and the encoder. A command word is one 32-bit value on the port: the spec
gives it no byte order, and the decoder takes the value.
-/

namespace Sys2Proof

open Machine

/-- Why a word is no command. -/
inductive DecodeError where
  /-- `op` is 0x0, 0xD, 0xE or 0xF (R130). -/
  | reservedOpcode
  /-- `op` names a command and the word fails that command's mask (R131). -/
  | reservedBits
  deriving DecidableEq, Repr

/-- What the decoder answers. -/
inductive Decoded where
  | command (i : Instr)
  | illegal (e : DecodeError)
  deriving DecidableEq, Repr

/-- Bit 24 of CONFIGURE: 0 SLOT, 1 BATCH (R112). -/
def modeOfBit (b : Bool) : Mode := if b then .batch else .slot

/-- Bit 25 of CONFIGURE: 0 FAIL_FAST, 1 BEST_EFFORT (R112). -/
def policyOfBit (b : Bool) : Policy := if b then .bestEffort else .failFast

/-- Bit 26 of CONFIGURE: 0 ENCODE, 1 DECODE (R112). -/
def kindOfBit (b : Bool) : Kind := if b then .decode else .encode

/-- The bit of a mode (R112, 45_admin.md R290). -/
def bitOfMode : Mode → Bool
  | .slot => false
  | .batch => true

/-- The bit of a policy (R112, R290). -/
def bitOfPolicy : Policy → Bool
  | .failFast => false
  | .bestEffort => true

/-- The bit of a kind (R112, R290). -/
def bitOfKind : Kind → Bool
  | .encode => false
  | .decode => true

/-- The decoder (R111 to R113, R127, R129 to R132). -/
def decode (w : Word32) : Decoded :=
  let flags := flagsField w
  let arg := argField w
  let plain (i : Instr) : Decoded :=
    if flags = 0#4 ∧ arg = 0#24 then .command i else .illegal .reservedBits
  let counted (i : Idx → Instr) : Decoded :=
    if flags = 0#4 then .command (i arg) else .illegal .reservedBits
  match (opField w).toNat with
  | 1 =>
    if flags.getLsbD 3 then .illegal .reservedBits
    else .command (.configure (kindOfBit (flags.getLsbD 2)) (policyOfBit (flags.getLsbD 1))
      (modeOfBit (flags.getLsbD 0)) arg)
  | 2 => plain .freeCount
  | 3 => plain .pendingCount
  | 4 => counted .enqueue
  | 5 => counted .dequeue
  | 6 => counted .submitBatch
  | 7 => counted .pollBatch
  | 8 => plain .batchAge
  | 9 => plain .start
  | 10 => plain .stop
  | 11 => plain .flush
  | 12 =>
    if flags = 0#4 ∧ arg.extractLsb' 3 21 = 0#21 then .command (.rdreg (arg.extractLsb' 0 3))
    else .illegal .reservedBits
  | _ => .illegal .reservedOpcode

/-- The acceptance class, decided by bits 31:28 alone, of every word (10_state.md R53, 30_encoding.md
R111, R130, R131). -/
def classOfWord (w : Word32) : Class :=
  match (opField w).toNat with
  | 1 => .admin
  | 4 => .producer
  | 5 => .consumer
  | 6 => .producer
  | 7 => .consumer
  | 9 => .admin
  | 10 => .admin
  | 11 => .admin
  | _ => .query

/-- The option bits of CONFIGURE, bit 27 zero (R112). -/
def configureFlags (k : Kind) (p : Policy) (m : Mode) : BitVec 4 :=
  0#1 ++ BitVec.ofBool (bitOfKind k) ++ BitVec.ofBool (bitOfPolicy p) ++ BitVec.ofBool (bitOfMode m)

/-- The word of an instruction (R111 to R113, R129). -/
def encode : Instr → Word32
  | .configure k p m r => commandWord 0x1#4 (configureFlags k p m) r
  | .freeCount => commandWord 0x2#4 0#4 0#24
  | .pendingCount => commandWord 0x3#4 0#4 0#24
  | .enqueue n => commandWord 0x4#4 0#4 n
  | .dequeue max => commandWord 0x5#4 0#4 max
  | .submitBatch n => commandWord 0x6#4 0#4 n
  | .pollBatch max => commandWord 0x7#4 0#4 max
  | .batchAge => commandWord 0x8#4 0#4 0#24
  | .start => commandWord 0x9#4 0#4 0#24
  | .stop => commandWord 0xA#4 0#4 0#24
  | .flush => commandWord 0xB#4 0#4 0#24
  | .rdreg sel => commandWord 0xC#4 0#4 (0#21 ++ sel)

/-- A row of the table of 30_encoding.md R129: a word selects the command when `cw & mask == match`. -/
structure OpcodeRow where
  mask : Word32
  pattern : Word32
  deriving DecidableEq, Repr

/-- The row of R129's table that an instruction belongs to. -/
def Instr.row : Instr → OpcodeRow
  | .configure _ _ _ _ => ⟨0xF8000000#32, 0x10000000#32⟩
  | .freeCount => ⟨0xFFFFFFFF#32, 0x20000000#32⟩
  | .pendingCount => ⟨0xFFFFFFFF#32, 0x30000000#32⟩
  | .enqueue _ => ⟨0xFF000000#32, 0x40000000#32⟩
  | .dequeue _ => ⟨0xFF000000#32, 0x50000000#32⟩
  | .submitBatch _ => ⟨0xFF000000#32, 0x60000000#32⟩
  | .pollBatch _ => ⟨0xFF000000#32, 0x70000000#32⟩
  | .batchAge => ⟨0xFFFFFFFF#32, 0x80000000#32⟩
  | .start => ⟨0xFFFFFFFF#32, 0x90000000#32⟩
  | .stop => ⟨0xFFFFFFFF#32, 0xA0000000#32⟩
  | .flush => ⟨0xFFFFFFFF#32, 0xB0000000#32⟩
  | .rdreg _ => ⟨0xFFFFFFF8#32, 0xC0000000#32⟩

/-- The twelve rows of R129's table. -/
def opcodeRows : List OpcodeRow :=
  [⟨0xF8000000#32, 0x10000000#32⟩, ⟨0xFFFFFFFF#32, 0x20000000#32⟩, ⟨0xFFFFFFFF#32, 0x30000000#32⟩,
   ⟨0xFF000000#32, 0x40000000#32⟩, ⟨0xFF000000#32, 0x50000000#32⟩, ⟨0xFF000000#32, 0x60000000#32⟩,
   ⟨0xFF000000#32, 0x70000000#32⟩, ⟨0xFFFFFFFF#32, 0x80000000#32⟩, ⟨0xFFFFFFFF#32, 0x90000000#32⟩,
   ⟨0xFFFFFFFF#32, 0xA0000000#32⟩, ⟨0xFFFFFFFF#32, 0xB0000000#32⟩, ⟨0xFFFFFFF8#32, 0xC0000000#32⟩]

/-- The word of an opcode-table row's instruction: the `nbits` bits the table gives it, zero above. -/
def tableWord (nbits w : Nat) : Word32 := BitVec.ofNat 32 (w % 2 ^ nbits)

/-- The instruction the decoder reads from the bits `w` of a table row. -/
def decodeTableWord (nbits w : Nat) : Option Instr :=
  match decode (tableWord nbits w) with
  | .command i => some i
  | .illegal _ => none

end Sys2Proof
end

