-- ==== Sys2Proof/Machine/State.lean ====
section
/-!
DEFINITION. The state of one DRC instance (10_state.md), of the device behind it (46_actors.md R300) and
of the inputs that drive them (46_actors.md R315), all of it plain data; the reasons a step can stop; the
state after reset (10_state.md R55).
-/

namespace Sys2Proof.Machine

/-! ### What goes out with a response -/

/-- The eight status codes (30_encoding.md R115). -/
inductive Status where
  | ok
  | errGeometry
  | errTimeout
  | errIllegal
  | errState
  | errNoBatch
  | notReady
  | empty
  deriving DecidableEq, Repr

/-- The code of a DISP record (30_encoding.md R119). -/
inductive Disposition where
  | accepted
  | malformed
  deriving DecidableEq, Repr

/-- The request status of a COMPL record (30_encoding.md R119). -/
inductive ReqStatus where
  | ok
  | hwError
  deriving DecidableEq, Repr

/-- The four kinds of record that come out with a response (30_encoding.md R116, R119, R120). -/
inductive OutRecord where
  | disp (ref : Ref) (code : Disposition)
  | compl (ref : Ref) (code : ReqStatus) (hwstat : HwStat)
  | handle (bid : Bid)
  | age (bid : Bid) (submitTime : Time)
  deriving DecidableEq, Repr

/-- `respond(status, value, out)` (30_encoding.md R114). -/
structure Response where
  status : Status
  value : Idx
  out : List OutRecord
  deriving DecidableEq, Repr

/-- Who makes a memory or register access (20_memory.md R86). -/
inductive Agent where
  | pseq
  | cseq
  | aseq
  | device
  deriving DecidableEq, Repr

/-- What is observable from outside the DRC (46_actors.md R317), and the reset input. -/
inductive Event where
  /-- A read of ring memory: the bytes from `addr` on (20_memory.md R79). -/
  | memRead (agent : Agent) (addr : Nat) (bytes : List Byte)
  /-- A write of ring memory (20_memory.md R79). -/
  | memWrite (agent : Agent) (addr : Nat) (bytes : List Byte)
  /-- `read_u32(base, off)` (00_scope.md R17). -/
  | mmioRead (agent : Agent) (base off : Nat) (value : Word32)
  /-- `write_u32(base, off, value)` (00_scope.md R17). -/
  | mmioWrite (agent : Agent) (base off : Nat) (value : Word32)
  /-- `WMB()` (20_memory.md R93). -/
  | wmb
  /-- `RMB()` (20_memory.md R94). -/
  | rmb
  /-- The response to the command `word` (30_encoding.md R114). -/
  | respond (word : Word32) (response : Response)
  /-- The device signals the host for a completed slot (46_actors.md R307); nothing in the DRC sees it. -/
  | irq (slot : Idx)
  /-- The reset input was applied (70_reset_and_hazards.md R370). -/
  | reset
  deriving DecidableEq, Repr

/-! ### Batch state -/

/-- An in-use batch record (10_state.md R44, R48 (a)). -/
structure Batch where
  bid : Bid
  headOffset : Word32
  tailOffset : Word32
  refs : List Ref
  n : Nat
  descCount : Nat
  consumed : Nat
  complete : Bool
  submitTime : Time
  deriving DecidableEq, Repr

/-! ### Sequencer contexts (10_state.md R51) -/

/-- The operations PSEQ runs (10_state.md R50). -/
inductive POp where
  | enqueue
  | submitBatch
  deriving DecidableEq, Repr

/-- The numbered steps of ENQUEUE and SUBMIT_BATCH (42_submission.md R190, 44_batch.md R233). -/
inductive PPos where
  | s1
  | e1
  | e2
  | e4
  | e5
  | e6
  | e7
  | e8
  | s3
  | s4
  deriving DecidableEq, Repr

/-- The context of a running PSEQ: `avail`, `written`, `accepted`, `taken` (the rule's `i`), `old_tail`
and the disposition list (R51). -/
structure PCtx where
  op : POp
  word : Word32
  reqs : List ReqRecord
  pos : PPos
  oldTail : Idx
  avail : Nat
  written : Nat
  accepted : Nat
  taken : Nat
  disp : List OutRecord
  deriving DecidableEq, Repr

/-- The operations CSEQ runs (R50). -/
inductive COp where
  | dequeue
  | pollBatch
  deriving DecidableEq, Repr

/-- The numbered steps of DEQUEUE and POLL_BATCH (43_completion.md R211, 44_batch.md R241). -/
inductive CPos where
  | q1
  | q2
  | q3
  | q4
  | q5
  | q6
  | b1
  | b2
  | b3
  | b4
  | b5
  | b6
  | b7
  deriving DecidableEq, Repr

/-- The context of a running CSEQ: `avail`, `limit`, `confirmed`, the value read from `HW_HEAD` and the
completion list (R51). -/
structure CCtx where
  op : COp
  word : Word32
  pos : CPos
  avail : Nat
  limit : Nat
  confirmed : Nat
  hw : Word32
  out : List OutRecord
  deriving DecidableEq, Repr

/-- The operations ASEQ runs (R50). -/
inductive AOp where
  | configure (kind : Kind) (policy : Policy) (mode : Mode) (requested : Idx)
  | start
  | stop
  | flush
  deriving DecidableEq, Repr

/-- The steps of the administrative operations: A1 and T1, P1, L1 (`check`), T2, P2, L2 (`write`), each
iteration of T3, P3, L3 (`poll`), T4, P4, L4 (`expire`) (40_geometry_config.md R155, 45_admin.md R272 to
R274). -/
inductive APos where
  | check
  | write
  | poll
  | expire
  deriving DecidableEq, Repr

/-- The context of a running ASEQ, with the poll counter (R51). -/
structure ACtx where
  op : AOp
  word : Word32
  pos : APos
  polls : Nat
  deriving DecidableEq, Repr

/-! ### The device (46_actors.md R300) -/

/-- The state of the device actor: its four registers (10_state.md R49), `dev_head`, the capacity it was
told (20_memory.md R85), and what its contract makes it remember (46_actors.md R303, R306). -/
structure Device where
  /-- DOORBELL: the device's `db` (R300, R302). -/
  doorbell : Word32
  /-- `dev_head`: the next slot it will complete (R300). -/
  devHead : Idx
  /-- HW_HEAD, a byte offset (R305). -/
  hwHead : Word32
  /-- ADMIN_CTRL: the last code written (R300). -/
  adminCtrl : Word32
  /-- ADMIN_STATUS: bit 0 `enabled_ack`, bit 1 `flush_done` (30_encoding.md R124). -/
  adminStatus : Word32
  /-- The capacity the platform told it; 0 while it has been told nothing (log 5). -/
  capacity : Idx
  /-- The status fields of slot `dev_head` stand, its `done` bit does not yet (R303, log 17). -/
  statusWritten : Bool
  /-- How many slots `dev_head` is ahead of the reported head along the ring path, whole laps counted: the
  lag, which may be of any amount (R305, log 26). -/
  unreported : Nat
  /-- Start requests written and not acknowledged (R306, log 16). -/
  startsOwed : Nat
  /-- Stop requests written and not acknowledged (R306, log 16). -/
  stopsOwed : Nat
  /-- Flush requests written and not acknowledged (R306, log 16). -/
  flushesOwed : Nat
  deriving DecidableEq, Repr

/-- The steps of the device (46_actors.md R301, R303, R305, R306, R307) with its choices as arguments;
`dev.doorbell` and `dev.admin` happen inside the DRC step that makes the MMIO write (R315). -/
inductive DevStep where
  /-- The device reads the `ctrl` word of a slot (R301; 30_encoding.md R121, log 27). -/
  | readCtrl (slot : Idx)
  /-- The device reads the payload of a slot (R301; 30_encoding.md R121, log 27). -/
  | readPayload (slot : Idx)
  /-- `dev.complete` of slot `dev_head`, its `ctrl` word in one write; `result` are device-specific result
  bytes of the payload area, `keepNotify` whether `notify` is kept, `irq` whether it signals the host. -/
  | complete (error : Bool) (hwstat : HwStat) (result : List Byte) (keepNotify irq : Bool)
  /-- The first half of a split `dev.complete`: the status fields, `done` left as it stands; it may come more
  than once (log 29). -/
  | writeStatus (error : Bool) (hwstat : HwStat) (result : List Byte)
  /-- The second half: `done` is set. -/
  | setDone (keepNotify irq : Bool)
  /-- `dev.report`: the reported head moves on by `advance` slots along the ring path (R305). -/
  | report (advance : Nat)
  /-- `dev.ack enabled=b`. -/
  | ackEnabled (b : Bool)
  /-- `dev.ack flush_done=1`. -/
  | ackFlush
  deriving DecidableEq, Repr

/-! ### Inputs (46_actors.md R315) -/

/-- The transitions of the whole system. The schedule is input: `State.agenda` lists what happens next
(log 6). -/
inductive Act where
  /-- A client presents a command (30_encoding.md R110). -/
  | present (c : Command)
  /-- Acceptance of the `k`-th waiting command (10_state.md R53, log 31). -/
  | accept (k : Nat)
  /-- The `k`-th waiting command is accepted and carried to its response by its own steps, the device steps
  `window[j]` falling before its `j`-th own step and nothing else (46_actors.md R318, log 9, log 31). -/
  | run (k : Nat) (window : List (List DevStep))
  /-- One step of PSEQ. -/
  | pseq
  /-- One step of CSEQ. -/
  | cseq
  /-- One step of ASEQ. -/
  | aseq
  /-- One device step. -/
  | dev (d : DevStep)
  /-- The time input moves on (60_exceptions.md R356). -/
  | time (t : Time)
  /-- The platform tells the device the ring and brings its indexes to 0 (70_reset_and_hazards.md R377 (3)). -/
  | program
  /-- The reset input (70_reset_and_hazards.md R370, R372). -/
  | reset
  deriving DecidableEq, Repr

/-- Ring memory, a list of (bus address, byte) pairs, addresses rising, no entry equal to what an unlisted
address reads as; its operations and `Memory.wf` are in Machine/Ops.lean. -/
abbrev Memory := List Host.Cell

/-- The machine. -/
structure State where
  /-- The parameters (00_scope.md R9 to R11; 10_state.md R54). -/
  cfg : Params
  /-- `ctl.configured` (R36). -/
  configured : Bool
  /-- `ctl.enabled` (R36). -/
  enabled : Bool
  /-- `ctl.mode` (R36). -/
  mode : Mode
  /-- `ctl.policy` (R36). -/
  policy : Policy
  /-- `ctl.kind` (R36). -/
  kind : Kind
  /-- R32. -/
  capacity : Idx
  /-- R33. -/
  wrapMask : Idx
  /-- R34. -/
  head : Idx
  /-- R35. -/
  tail : Idx
  /-- R37. -/
  shadowTail : Idx
  /-- Ring memory (R40, 20_memory.md R71). -/
  mem : Memory
  /-- The batch FIFO, oldest first (R46); its records are the in-use ones of the pool (R45, log 21). -/
  fifo : List Batch
  /-- PSEQ: idle or running (R50, R51). -/
  pseq : Option PCtx
  /-- CSEQ: idle or running (R50, R51). -/
  cseq : Option CCtx
  /-- ASEQ: idle or running (R50, R51). -/
  aseq : Option ACtx
  /-- The device (46_actors.md R300). -/
  dev : Device
  /-- The time input `Now()` (60_exceptions.md R356). -/
  now : Time
  /-- Commands presented and not yet accepted (R53); their order is the model's own (log 31). -/
  port : List Command
  /-- The transitions to come (46_actors.md R315, log 6). -/
  agenda : List Act
  /-- The device steps that fall before each own step of a command `exec` carries through (log 9). -/
  window : List (List DevStep)
  /-- What has been observable, newest first (46_actors.md R317, log 22). -/
  trace : List Event
  /-- How many free records have been drawn: the argument of the free value `Config.freeChoice` (log 11). -/
  choices : Nat
  deriving DecidableEq, Repr

/-- The DRC raises no fault, so the type has no constructor: "no fault, no abort, no signal line"
(60_exceptions.md R330), no misalignment and no bounds fault (20_memory.md R77), no trap (R349). Log 20. -/
inductive Fault where
  deriving DecidableEq, Repr

/-- Why an instruction is given no meaning. -/
inductive Refusal where
  /-- Raised by `exec`'s arm of an instruction that has no meaning yet (none is left). Safe. -/
  | notModelled (mnemonic : String)
  /-- Raised by ENQUEUE and SUBMIT_BATCH when the number of REQ records is not `n`: "refuse it at the
  boundary" (30_encoding.md R128, 93 I23). Safe (log 12). -/
  | recordCount
  /-- Raised by ENQUEUE and SUBMIT_BATCH when a well-formed request does not bring one blob of
  `PAYLOAD_BYTES` bytes per descriptor (30_encoding.md R117, R118). Safe (log 13). -/
  | recordShape
  deriving DecidableEq, Repr

/-- What one step or one instruction answers. -/
abbrev Result := Host.Outcome State Fault Refusal

/-! ### Named updates: every write of a field goes through one of these -/

def State.setConfigured (s : State) (b : Bool) : State := { s with configured := b }
def State.setEnabled (s : State) (b : Bool) : State := { s with enabled := b }
def State.setOptions (s : State) (m : Mode) (p : Policy) (k : Kind) : State :=
  { s with mode := m, policy := p, kind := k }
def State.setGeometry (s : State) (c m : Idx) : State := { s with capacity := c, wrapMask := m }
def State.setHead (s : State) (x : Idx) : State := { s with head := x }
def State.setTail (s : State) (x : Idx) : State := { s with tail := x }
def State.setShadowTail (s : State) (x : Idx) : State := { s with shadowTail := x }
def State.setMem (s : State) (m : Memory) : State := { s with mem := m }
def State.setFifo (s : State) (l : List Batch) : State := { s with fifo := l }
def State.setPseq (s : State) (c : Option PCtx) : State := { s with pseq := c }
def State.setCseq (s : State) (c : Option CCtx) : State := { s with cseq := c }
def State.setAseq (s : State) (c : Option ACtx) : State := { s with aseq := c }
def State.setDev (s : State) (d : Device) : State := { s with dev := d }
def State.setNow (s : State) (t : Time) : State := { s with now := t }
def State.setPort (s : State) (l : List Command) : State := { s with port := l }
def State.setAgenda (s : State) (l : List Act) : State := { s with agenda := l }
def State.setWindow (s : State) (l : List (List DevStep)) : State := { s with window := l }
def State.setTrace (s : State) (l : List Event) : State := { s with trace := l }
def State.setChoices (s : State) (k : Nat) : State := { s with choices := k }

/-! ### Reset -/

/-- The device's registers and memory of requests, which DRC reset does not reach (70_reset_and_hazards.md
R372); the spec leaves their values open (10_state.md R55). DESIGN CHOICE zeros (log 4, log 5), unsafe for
a claim that rests on them. -/
def Device.initial : Device where
  doorbell := 0
  devHead := 0
  hwHead := 0
  adminCtrl := 0
  adminStatus := 0
  capacity := 0
  statusWritten := false
  unreported := 0
  startsOwed := 0
  stopsOwed := 0
  flushesOwed := 0

/-- The machine right after reset (10_state.md R55, 70_reset_and_hazards.md R370, R371). -/
def State.reset : State where
  cfg := Params.default
  configured := false
  enabled := false
  mode := .slot
  policy := .failFast
  kind := .encode
  capacity := 0
  wrapMask := 0
  head := 0
  tail := 0
  shadowTail := 0
  mem := []
  fifo := []
  pseq := none
  cseq := none
  aseq := none
  dev := Device.initial
  now := 0
  port := []
  agenda := []
  window := []
  trace := []
  choices := 0

end Sys2Proof.Machine
end

