-- ==== Sys2Proof/Machine/Flags.lean ====
section
/-!
DEFINITION. The flags: the `ctrl` word of a slot (30_encoding.md R122), the bits of ADMIN_STATUS (R124),
the CTRLSTAT register (45_admin.md R290), and the packed forms of what goes out with a response
(30_encoding.md R114, R115, R117).
-/

namespace Sys2Proof.Machine

/-! ### The `ctrl` word of a slot -/

/-- Bit 0 `done` (R122). -/
def ctrlDone (c : Word32) : Bool := c.getLsbD 0

/-- Bit 1 `error` (R122). -/
def ctrlError (c : Word32) : Bool := c.getLsbD 1

/-- Bit 2 `notify` (R122). -/
def ctrlNotify (c : Word32) : Bool := c.getLsbD 2

/-- Bits 31:16 `hwstat` (R122). -/
def ctrlHwstat (c : Word32) : HwStat := c.extractLsb' 16 16

/-- The word `{hwstat, 13 zero bits, notify, error, done}` (R122, 46_actors.md R303). -/
def ctrlWord (hwstat : HwStat) (notify error done : Bool) : Word32 :=
  hwstat ++ 0#13 ++ BitVec.ofBool notify ++ BitVec.ofBool error ++ BitVec.ofBool done

/-- What step E2 writes: `done`, `error`, `notify` and `hwstat` all 0 (42_submission.md R190). -/
def ctrlCleared : Word32 := 0x00000000#32

/-- What step E4 writes: `notify` alone (42_submission.md R190). -/
def ctrlNotifyOnly : Word32 := 0x00000004#32

/-! ### The administrative registers -/

/-- ADMIN_STATUS bit 0 (30_encoding.md R124). -/
def enabledAck (w : Word32) : Bool := w.getLsbD 0

/-- ADMIN_STATUS bit 1 (R124). -/
def flushDone (w : Word32) : Bool := w.getLsbD 1

/-- ADMIN_STATUS with bit 0 set to `b`, the other bits kept (46_actors.md R306). -/
def withEnabledAck (w : Word32) (b : Bool) : Word32 := w.extractLsb' 1 31 ++ BitVec.ofBool b

/-- ADMIN_STATUS with bit 1 set to `b`, the other bits kept (R306). -/
def withFlushDone (w : Word32) (b : Bool) : Word32 :=
  w.extractLsb' 2 30 ++ BitVec.ofBool b ++ BitVec.ofBool (w.getLsbD 0)

/-- The request codes of ADMIN_CTRL: 1 start, 2 stop, 3 flush (R124); CONFIGURE writes none
(40_geometry_config.md R159). -/
def adminCode : AOp → Word32
  | .configure _ _ _ _ => 0
  | .start => 1
  | .stop => 2
  | .flush => 3

/-- The bit value an administrative operation waits for (45_admin.md R272 to R274). -/
def acknowledged (op : AOp) (status : Word32) : Bool :=
  match op with
  | .configure _ _ _ _ => true
  | .start => enabledAck status
  | .stop => !enabledAck status
  | .flush => flushDone status

/-- `enabled` after the acknowledgement: 1, 0, unchanged (R272 to R274). -/
def enabledAfter (op : AOp) (enabled : Bool) : Bool :=
  match op with
  | .configure _ _ _ _ => enabled
  | .start => true
  | .stop => false
  | .flush => enabled

/-! ### CTRLSTAT -/

/-- "PSEQ is not idle" (10_state.md R36). -/
def State.pbusy (s : State) : Bool := s.pseq.isSome

/-- "CSEQ is not idle" (R36). -/
def State.cbusy (s : State) : Bool := s.cseq.isSome

/-- CTRLSTAT: bit 0 `configured`, 1 `enabled`, 2 `mode`, 3 `policy`, 4 `kind`, 5 `pbusy`, 6 `cbusy`,
23:7 zero (45_admin.md R290). -/
def State.ctrlstat (s : State) : Idx :=
  0#17 ++ BitVec.ofBool s.cbusy ++ BitVec.ofBool s.pbusy ++ BitVec.ofBool (bitOfKind s.kind) ++
    BitVec.ofBool (bitOfPolicy s.policy) ++ BitVec.ofBool (bitOfMode s.mode) ++
    BitVec.ofBool s.enabled ++ BitVec.ofBool s.configured

/-! ### The response word and the packed records -/

/-- The status code numbers (30_encoding.md R115). -/
def Status.code : Status → BitVec 4
  | .ok => 0
  | .errGeometry => 1
  | .errTimeout => 2
  | .errIllegal => 3
  | .errState => 4
  | .errNoBatch => 5
  | .notReady => 6
  | .empty => 7

/-- The response word: `status` in 31:28, 27:24 zero, `value` in 23:0 (R114). -/
def Response.word (r : Response) : Word32 := r.status.code ++ 0#4 ++ r.value

/-- DISP codes (R119). -/
def Disposition.code : Disposition → BitVec 4
  | .accepted => 0
  | .malformed => 1

/-- COMPL codes (R119). -/
def ReqStatus.code : ReqStatus → BitVec 4
  | .ok => 0
  | .hwError => 1

/-- The reference packing of a record: `kind` in 127:124, 123:84 zero, `code` in 83:80, 79:64, 63:0 (R117). -/
def packRecord (kind code : BitVec 4) (mid : BitVec 16) (low : BitVec 64) : BitVec 128 :=
  kind ++ 0#40 ++ code ++ mid ++ low

/-- The packed form of the records that go out (R117). -/
def OutRecord.pack : OutRecord → BitVec 128
  | .disp ref code => packRecord 2 code.code 0 ref
  | .compl ref code hwstat => packRecord 3 code.code hwstat ref
  | .handle bid => packRecord 4 0 bid 0
  | .age bid t => packRecord 5 0 bid t

end Sys2Proof.Machine
end

