-- ==== Sys2Proof/Machine/Ops.lean ====
section
/-!
DEFINITION. The named operations over memory and registers that the commands share: ring memory and its
byte order (20_memory.md), the register primitives (00_scope.md R17), index arithmetic and the capacity
tracker (41_capacity.md), the batch pool (10_state.md R45), acceptance (R53), and `respond`, the one way an
operation ends and the only way a condition is reported (00_scope.md R16, 60_exceptions.md R330, R349).
-/

namespace Sys2Proof.Machine

/-! ### Ring memory -/

/-- What an address that is not listed reads as. DESIGN CHOICE (log 3), unsafe for a claim that rests on
it: ring memory after reset is unspecified (10_state.md R40). -/
def Memory.unlisted : Byte := 0

/-- One byte. -/
def Memory.read : Memory → Nat → Byte
  | [], _ => Memory.unlisted
  | (a, v) :: m, x => if x = a then v else Memory.read m x

/-- One byte put in front of a memory whose addresses are all higher; the value an unlisted address reads
as is not listed. -/
def Memory.cons (a : Nat) (v : Byte) (m : Memory) : Memory :=
  if v = Memory.unlisted then m else (a, v) :: m

/-- One byte written; the canonical form is kept. -/
def Memory.write : Memory → Nat → Byte → Memory
  | [], x, v => Memory.cons x v []
  | (a, w) :: m, x, v =>
    if x < a then Memory.cons x v ((a, w) :: m)
    else if x = a then Memory.cons x v m
    else (a, w) :: Memory.write m x v

/-- The canonical form: addresses strictly rising, no entry equal to what an unlisted address reads as. -/
def Memory.wf : Memory → Bool
  | [] => true
  | (a, v) :: m => v != Memory.unlisted && m.all (fun c => decide (a < c.1)) && Memory.wf m

/-- `n` bytes from `a` up. -/
def Memory.readBytes (m : Memory) : Nat → Nat → List Byte
  | _, 0 => []
  | a, n + 1 => Memory.read m a :: Memory.readBytes m (a + 1) n

/-- The bytes `bs` written from `a` up. -/
def Memory.writeBytes : Memory → Nat → List Byte → Memory
  | m, _, [] => m
  | m, a, b :: bs => Memory.writeBytes (Memory.write m a b) (a + 1) bs

/-- The `n` low bytes of `v`, the byte at the lowest address first (little-endian, 20_memory.md R76). -/
def leBytes : Nat → Nat → List Byte
  | 0, _ => []
  | n + 1, v => BitVec.ofNat 8 v :: leBytes n (v / 256)

/-- The number whose little-endian bytes these are (R76). -/
def leValue : List Byte → Nat
  | [] => 0
  | b :: bs => b.toNat + 256 * leValue bs

/-- Ring memory together with the trace its accesses leave (46_actors.md R317). -/
structure Bus where
  mem : Memory
  trace : List Event
  deriving DecidableEq, Repr

/-- One write access (20_memory.md R79); a field of no bytes (`PAYLOAD_BYTES = 0`) makes none. -/
def Bus.write (b : Bus) (by_ : Agent) (a : Nat) (bytes : List Byte) : Bus :=
  match bytes with
  | [] => b
  | _ :: _ => ⟨b.mem.writeBytes a bytes, .memWrite by_ a bytes :: b.trace⟩

/-- The trace after one read access of `n` bytes; a read has no other effect (20_memory.md R82). -/
def Bus.logRead (b : Bus) (by_ : Agent) (a n : Nat) : Bus :=
  ⟨b.mem, .memRead by_ a (b.mem.readBytes a n) :: b.trace⟩

/-! ### Slots (20_memory.md R71, 30_encoding.md R121) -/

/-- The bus address of slot `i`: `RING_BASE + i * DESC_SIZE` (20_memory.md R71). -/
def slotAddr (p : Params) (i : Idx) : Nat := p.ringBase + i.toNat * p.descSize

/-- The byte offset of slot `i`: `i * DESC_SIZE` (20_memory.md R71, 30_encoding.md R123). -/
def byteOffset (p : Params) (i : Idx) : Word32 := BitVec.ofNat 32 (i.toNat * p.descSize)

/-- Offset and size of the slot fields of the reference layout (R121). -/
def offCtrl : Nat := 0
def offReserved : Nat := 4
def offRef : Nat := 8
def offPayload : Nat := 16

/-- The `ctrl` word of slot `i`. -/
def slotCtrl (p : Params) (m : Memory) (i : Idx) : Word32 :=
  BitVec.ofNat 32 (leValue (m.readBytes (slotAddr p i + offCtrl) 4))

/-- The `request_ref` of slot `i`. -/
def slotRef (p : Params) (m : Memory) (i : Idx) : Ref :=
  BitVec.ofNat 64 (leValue (m.readBytes (slotAddr p i + offRef) 8))

/-- The reserved word of slot `i`; no step reads it (R121). -/
def slotReserved (p : Params) (m : Memory) (i : Idx) : Word32 :=
  BitVec.ofNat 32 (leValue (m.readBytes (slotAddr p i + offReserved) 4))

/-- The payload bytes of slot `i`. -/
def slotPayload (p : Params) (m : Memory) (i : Idx) : List Byte :=
  m.readBytes (slotAddr p i + offPayload) p.payloadBytes

/-- A 4-byte write of `ctrl` (20_memory.md R79). -/
def Bus.writeCtrl (b : Bus) (by_ : Agent) (p : Params) (i : Idx) (c : Word32) : Bus :=
  b.write by_ (slotAddr p i + offCtrl) (leBytes 4 c.toNat)

/-- A 4-byte read of `ctrl` (R79). -/
def Bus.logCtrl (b : Bus) (by_ : Agent) (p : Params) (i : Idx) : Bus :=
  b.logRead by_ (slotAddr p i + offCtrl) 4

/-- An 8-byte read of `request_ref` (R79). -/
def Bus.logRef (b : Bus) (by_ : Agent) (p : Params) (i : Idx) : Bus :=
  b.logRead by_ (slotAddr p i + offRef) 8

/-- A read of `payload`, one event of `PAYLOAD_BYTES` bytes (R79); a payload of no bytes makes none. -/
def Bus.logPayload (b : Bus) (by_ : Agent) (p : Params) (i : Idx) : Bus :=
  if p.payloadBytes = 0 then b else b.logRead by_ (slotAddr p i + offPayload) p.payloadBytes

/-- Ring memory and trace of a state. -/
def State.bus (s : State) : Bus := ⟨s.mem, s.trace⟩

/-- A state after accesses to ring memory. -/
def State.setBus (s : State) (b : Bus) : State := (s.setMem b.mem).setTrace b.trace

/-- One more observable event. -/
def State.log (s : State) (e : Event) : State := s.setTrace (e :: s.trace)

/-! ### Index arithmetic (00_scope.md R14, 41_capacity.md R175, R176) -/

/-- `(x + n) & wrap_mask` (R152). -/
def wrapAdd (mask x : Idx) (n : Nat) : Idx := (x + BitVec.ofNat 24 n) &&& mask

/-- `(a - b) & wrap_mask`, also for `a < b` (R14, R176). -/
def wrapSub (mask a b : Idx) : Idx := (a - b) &&& mask

/-- `free_count(head, tail, capacity)` (41_capacity.md R170). -/
def freeCount (head tail capacity : Nat) : Nat :=
  if head > tail then head - tail - 1 else capacity + head - tail - 1

/-- The free count of the ring (R171). -/
def State.free (s : State) : Nat := freeCount s.head.toNat s.tail.toNat s.capacity.toNat

/-- The pending count of the ring: `(tail - head) & wrap_mask` (R172). -/
def State.pending (s : State) : Nat := (wrapSub s.wrapMask s.tail s.head).toNat

/-! ### Device registers (00_scope.md R17, 20_memory.md R72, R82) -/

/-- The device's side of a write of ADMIN_CTRL, `dev.admin` (46_actors.md R306): it records the code and the
request, which it may acknowledge once, and a flush request clears `flush_done`. -/
def Device.admin (d : Device) (code : Word32) : Device :=
  let d := { d with adminCtrl := code }
  if code = 1#32 then { d with startsOwed := d.startsOwed + 1 }
  else if code = 2#32 then { d with stopsOwed := d.stopsOwed + 1 }
  else if code = 3#32 then
    { d with flushesOwed := d.flushesOwed + 1, adminStatus := withFlushDone d.adminStatus false }
  else d

/-- `MmioWrite(OFF_DOORBELL, v)` and `dev.doorbell` (46_actors.md R302). -/
def State.writeDoorbell (s : State) (v : Word32) : State :=
  (s.log (.mmioWrite .pseq s.cfg.regBase s.cfg.offDoorbell v)).setDev { s.dev with doorbell := v }

/-- `MmioWrite(OFF_ADMIN_CTRL, code)` and `dev.admin` (46_actors.md R306). -/
def State.writeAdminCtrl (s : State) (code : Word32) : State :=
  (s.log (.mmioWrite .aseq s.cfg.regBase s.cfg.offAdminCtrl code)).setDev (s.dev.admin code)

/-- `MmioRead(OFF_HW_HEAD)`: the value is `s.dev.hwHead`, the access is observable and has no side effect
(20_memory.md R82). -/
def State.logHwHead (s : State) : State :=
  s.log (.mmioRead .cseq s.cfg.regBase s.cfg.offHwHead s.dev.hwHead)

/-- `MmioRead(OFF_ADMIN_STATUS)`: the value is `s.dev.adminStatus` (R82). -/
def State.logAdminStatus (s : State) : State :=
  s.log (.mmioRead .aseq s.cfg.regBase s.cfg.offAdminStatus s.dev.adminStatus)

/-! ### The batch pool (10_state.md R45, R46; log 21) -/

/-- The indices of the free records: those no record of the FIFO has. -/
def State.freeBids (s : State) : List Nat :=
  (List.range s.cfg.poolSize).filter (fun k => !s.fifo.any (fun b => b.bid.toNat == k))

/-- The number of free records (45_admin.md R290, R291). -/
def State.freeRecords (s : State) : Nat := s.cfg.poolSize - s.fifo.length

/-- The free record SUBMIT_BATCH takes: one of the free ones, which one is the free value (log 11). -/
def State.pickBid (s : State) : Bid :=
  BitVec.ofNat 16 (s.freeBids.getD (Config.freeChoice s.choices % s.freeBids.length) 0)

/-! ### Responses -/

/-- A refusal or a signal: `(status, 0, [])` (30_encoding.md R114, 60_exceptions.md R332 to R338). -/
def Response.bare (st : Status) : Response := ⟨st, 0, []⟩

/-- `respond` hands the client the response word and the records (00_scope.md R16, 30_encoding.md R114). -/
def State.respond (s : State) (word : Word32) (r : Response) : State := s.log (.respond word r)

/-- `respond` of an operation on PSEQ: the sequencer becomes idle (00_scope.md R16). -/
def State.respondP (s : State) (word : Word32) (r : Response) : State :=
  (s.respond word r).setPseq none

/-- `respond` of an operation on CSEQ. -/
def State.respondC (s : State) (word : Word32) (r : Response) : State :=
  (s.respond word r).setCseq none

/-- `respond` of an operation on ASEQ. -/
def State.respondA (s : State) (word : Word32) (r : Response) : State :=
  (s.respond word r).setAseq none

/-! ### Acceptance (10_state.md R53) -/

/-- The condition under which a command of a class is accepted (R53). -/
def State.accepts (s : State) : Class → Bool
  | .producer => s.pseq.isNone && s.aseq.isNone
  | .consumer => s.cseq.isNone && s.aseq.isNone
  | .admin => s.pseq.isNone && s.cseq.isNone && s.aseq.isNone
  | .query => s.aseq.isNone

/-- The records handed in with the command at the front of the port (30_encoding.md R110). -/
def State.handed (s : State) : List ReqRecord :=
  match s.port with
  | [] => []
  | c :: _ => c.records

/-- The accepted command leaves the port. -/
def State.takeCommand (s : State) : State := s.setPort s.port.tail

/-- The `k`-th waiting command comes to the front: which waiting command is accepted first is not
specified (60_exceptions.md R347). The order of the port is the model's own: the command stays in front also when
it has to wait, and a `k` beyond the port names the front command (DESIGN CHOICE, log 31). -/
def State.select (s : State) (k : Nat) : State :=
  s.setPort ((s.port[k]?).toList ++ s.port.eraseIdx k)

/-- A class Q command: one step, no sequencer (10_state.md R52). Not accepted, it waits unchanged (R53).
Records handed in with it are dropped (DESIGN CHOICE, log 28). -/
def State.answer (s : State) (word : Word32) (r : Response) : State :=
  if s.accepts .query then s.takeCommand.respond word r else s

/-- The context a class P command starts with: the command word, the records, the first step (R51). -/
def PCtx.start (op : POp) (word : Word32) (reqs : List ReqRecord) : PCtx where
  op := op
  word := word
  reqs := reqs
  pos := match op with
    | .enqueue => .e1
    | .submitBatch => .s1
  oldTail := 0
  avail := 0
  written := 0
  accepted := 0
  taken := 0
  disp := []

/-- The context a class C command starts with (R51). -/
def CCtx.start (op : COp) (word : Word32) : CCtx where
  op := op
  word := word
  pos := match op with
    | .dequeue => .q1
    | .pollBatch => .b1
  avail := 0
  limit := 0
  confirmed := 0
  hw := 0
  out := []

/-- The context a class A command starts with (R51). -/
def ACtx.start (op : AOp) (word : Word32) : ACtx where
  op := op
  word := word
  pos := .check
  polls := 0

/-- Acceptance of a class P command (R53). A number of records other than `n` is refused at the boundary,
whatever the state of the ring (30_encoding.md R128, log 12). The blobs are looked at where the records reach
the DRC, on a configured ring of the command's mode (log 13). -/
def State.acceptProducer (s : State) (op : POp) (mode : Mode) (n : Nat) (word : Word32) : Result :=
  if s.accepts .producer then
    if !recordCountOk n s.handed then .refused .recordCount
    else if s.configured && s.mode == mode && !recordShapeOk s.cfg mode s.handed then
      .refused .recordShape
    else .next (s.takeCommand.setPseq (some (PCtx.start op word s.handed)))
  else .next s

/-- Acceptance of a class C command (R53). Records handed in with a command that takes none are dropped
(DESIGN CHOICE, log 28). -/
def State.acceptConsumer (s : State) (op : COp) (word : Word32) : Result :=
  if s.accepts .consumer then .next (s.takeCommand.setCseq (some (CCtx.start op word)))
  else .next s

/-- Acceptance of a class A command (R53). Records handed in with it are dropped (DESIGN CHOICE, log 28). -/
def State.acceptAdmin (s : State) (op : AOp) (word : Word32) : Result :=
  if s.accepts .admin then .next (s.takeCommand.setAseq (some (ACtx.start op word)))
  else .next s

/-- A word that is no command: accepted under the class of its `op`, answered `ERR_ILLEGAL` in one step,
nothing else changed (30_encoding.md R130, R131, 60_exceptions.md R334); records that come with it are dropped
(DESIGN CHOICE, log 28). -/
def State.answerIllegal (s : State) (word : Word32) : State :=
  if s.accepts (classOfWord word) then s.takeCommand.respond word (Response.bare .errIllegal) else s

/-- What follows an answer that is a next state. -/
def onNext (r : Result) (f : State → State) : Result :=
  match r with
  | .next s => .next (f s)
  | .fault e => .fault e
  | .refused e => .refused e

/-! ### Reset (70_reset_and_hazards.md R370, R372) -/

/-- The reset input: every piece of DRC state takes the value of 10_state.md R55; running operations are
abandoned without a response; ring memory, the device and the parameters are not reached. -/
def State.applyReset (s : State) : State :=
  ((((((((((((s.setConfigured false).setEnabled false).setOptions .slot .failFast .encode).setGeometry
    0 0).setHead 0).setTail 0).setShadowTail 0).setFifo []).setPseq none).setCseq none).setAseq
    none).setWindow []).log .reset

end Sys2Proof.Machine
end

