-- ==== Sys2Proof/Machine/AdminSteps.lean ====
section
/-!
DEFINITION. Ring Geometry and the steps of the administrative sequencer: A1 of CONFIGURE
(40_geometry_config.md R155), T1 to T4, P1 to P4, L1 to L4 of START, STOP and FLUSH (45_admin.md R272 to
R275).
-/

namespace Sys2Proof.Machine

/-- The doubling loop of `RingSize`: at most `fuel` doublings from `c` (40_geometry_config.md R151). -/
def ringSizeFrom (requested : Nat) : Nat → Nat → Nat
  | 0, c => c
  | fuel + 1, c => if c < requested then ringSizeFrom requested fuel (2 * c) else c

/-- `RingSize(requested, CAP_MAX)`: the smallest power of two that is at least `requested`, or failure
when it exceeds `CAP_MAX`; the loop runs at most 24 times since `requested < 2^24` (R150, R151). -/
def ringSize (requested capMax : Nat) : Option Nat :=
  let c := ringSizeFrom requested 24 1
  if c > capMax then none else some c

/-- The effect of a successful CONFIGURE with capacity `c` (R155); ring memory and the device are not
touched (R159). -/
def State.constructRing (s : State) (k : Kind) (p : Policy) (m : Mode) (c : Nat) : State :=
  ((((((((s.setGeometry (BitVec.ofNat 24 c) (BitVec.ofNat 24 (c - 1))).setHead 0).setTail
    0).setShadowTail 0).setOptions m p k).setEnabled false).setConfigured true).setFifo [])

/-- Step A1 of CONFIGURE (R155, R156; order of checks 60_exceptions.md R346). -/
def State.stepA1 (s : State) (c : ACtx) (k : Kind) (p : Policy) (m : Mode) (requested : Idx) : State :=
  if s.configured then s.respondA c.word (Response.bare .errState)
  else
    match ringSize requested.toNat s.cfg.capMax with
    | none => s.respondA c.word (Response.bare .errGeometry)
    | some cap => (s.constructRing k p m cap).respondA c.word ⟨.ok, BitVec.ofNat 24 cap, []⟩

/-- Where the poll loop stands after `polls` reads: another read, or expiry once `ADMIN_POLL_MAX` reads
were made (45_admin.md R272 to R275). -/
def pollPos (p : Params) (polls : Nat) : APos := if polls < p.pollMax then .poll else .expire

/-- Steps T1, P1, L1 (R272 to R274). -/
def State.stepAdminCheck (s : State) (c : ACtx) : State :=
  if s.configured then s.setAseq (some { c with pos := .write })
  else s.respondA c.word (Response.bare .errState)

/-- Steps T2, P2, L2: the request code (R272 to R275). -/
def State.stepAdminWrite (s : State) (c : ACtx) : State :=
  (s.writeAdminCtrl (adminCode c.op)).setAseq (some { c with pos := pollPos s.cfg 0, polls := 0 })

/-- One iteration of T3, P3, L3: a read of ADMIN_STATUS and the test of one bit (R272 to R275). -/
def State.stepAdminPoll (s : State) (c : ACtx) : State :=
  let t := s.logAdminStatus
  if acknowledged c.op s.dev.adminStatus then
    (t.setEnabled (enabledAfter c.op s.enabled)).respondA c.word ⟨.ok, 0, []⟩
  else t.setAseq (some { c with pos := pollPos s.cfg (c.polls + 1), polls := c.polls + 1 })

/-- Steps T4, P4, L4: "the queue is left disabled" (R271 to R274, R277). -/
def State.stepAdminExpire (s : State) (c : ACtx) : State :=
  (s.setEnabled false).respondA c.word (Response.bare .errTimeout)

end Sys2Proof.Machine
end

