-- ==== Sys2Proof/Machine/SubmissionSteps.lean ====
section
/-!
DEFINITION. The numbered steps E1 to E8 of the Submission Path (42_submission.md R190), run by ENQUEUE and,
without E1's checks, by SUBMIT_BATCH (44_batch.md R233, R235).
-/

namespace Sys2Proof.Machine

/-- The locals of step E2 with ring memory and trace (42_submission.md R190). -/
structure Fill where
  bus : Bus
  avail : Nat
  written : Nat
  accepted : Nat
  taken : Nat
  disp : List OutRecord
  deriving DecidableEq, Repr

/-- One slot filled: `ctrl` first, with 0, then the reserved word, `request_ref` and `payload`
(R190, R192; 20_memory.md R79). `tail` is the value before step E5. -/
def fillSlot (p : Params) (mask tail : Idx) (ref : Ref) (blob : List Byte) (f : Fill) : Fill :=
  let a := slotAddr p (wrapAdd mask tail f.written)
  { f with
    bus := (((f.bus.write .pseq (a + offCtrl) (leBytes 4 ctrlCleared.toNat)).write .pseq
      (a + offReserved) (leBytes 4 0)).write .pseq (a + offRef) (leBytes 8 ref.toNat)).write .pseq
      (a + offPayload) blob
    avail := f.avail - 1
    written := f.written + 1 }

/-- The `ndesc` slots of one request: consecutive, all with its reference, `payload[k]` in order (R194). -/
def fillSlots (p : Params) (mask tail : Idx) (ref : Ref) : Nat → List (List Byte) → Fill → Fill
  | 0, _, f => f
  | k + 1, blobs, f =>
    fillSlots p mask tail ref k blobs.tail (fillSlot p mask tail ref (blobs.headD []) f)

/-- A malformed request: reported, counted as consumed, not written (R193). -/
def Fill.reject (f : Fill) (r : ReqRecord) : Fill :=
  { f with disp := f.disp ++ [.disp (recordRef r) .malformed], taken := f.taken + 1 }

/-- An accepted request: its slots filled, reported, counted (R190). -/
def Fill.accept (f : Fill) (p : Params) (mask tail : Idx) (r : ReqRecord) : Fill :=
  let g := fillSlots p mask tail (recordRef r) (recordNdesc r) r.payload f
  { g with
    disp := g.disp ++ [.disp (recordRef r) .accepted]
    accepted := g.accepted + 1
    taken := g.taken + 1 }

/-- Steps E2 and E3, the fill loop over the requests not yet looked at (R190, R192 to R195, R348). -/
def fillLoop (p : Params) (mode : Mode) (policy : Policy) (mask tail : Idx) :
    List ReqRecord → Fill → Fill
  | [], f => f
  | r :: rs, f =>
    if f.avail = 0 then f
    else if wellFormedRequest mode r then
      if recordNdesc r > f.avail then f
      else fillLoop p mode policy mask tail rs (f.accept p mask tail r)
    else
      match policy with
      | .failFast => f.reject r
      | .bestEffort => fillLoop p mode policy mask tail rs (f.reject r)

/-- Step E1 after its checks: one snapshot of `head` (R191). -/
def State.stepE1 (s : State) (c : PCtx) : State :=
  s.setPseq (some { c with pos := .e2, avail := s.free, written := 0, accepted := 0, taken := 0, disp := [] })

/-- Step E1 of ENQUEUE with its checks (R190, R191). -/
def State.stepE1Checked (s : State) (c : PCtx) : State :=
  if s.configured && s.mode == .slot then s.stepE1 c
  else s.respondP c.word (Response.bare .errState)

/-- The fill loop started from a context (R190). -/
def State.fill (s : State) (c : PCtx) : Fill :=
  fillLoop s.cfg s.mode s.policy s.wrapMask s.tail (c.reqs.drop c.taken)
    { bus := s.bus, avail := c.avail, written := c.written, accepted := c.accepted, taken := c.taken,
      disp := c.disp }

/-- Step E2, one atomic step (R192). -/
def State.stepE2 (s : State) (c : PCtx) : State :=
  let f := s.fill c
  (s.setBus f.bus).setPseq (some { c with
    pos := .e4, avail := f.avail, written := f.written, accepted := f.accepted, taken := f.taken,
    disp := f.disp })

/-- Step E4: the notify flag on the last written slot only (R198). -/
def State.stepE4 (s : State) (c : PCtx) : State :=
  let s := s.setPseq (some { c with pos := .e5 })
  if c.written > 0 then
    s.setBus (s.bus.writeCtrl .pseq s.cfg (wrapAdd s.wrapMask s.tail (c.written - 1)) ctrlNotifyOnly)
  else s

/-- Step E5: `tail` advances by the slots written (R199). -/
def State.stepE5 (s : State) (c : PCtx) : State :=
  (s.setTail (wrapAdd s.wrapMask s.tail c.written)).setPseq (some { c with pos := .e6 })

/-- Step E6: `WMB()`, on every path (R200). -/
def State.stepE6 (s : State) (c : PCtx) : State :=
  (s.log .wmb).setPseq (some { c with pos := .e7 })

/-- Step E7: the doorbell write, also when nothing was written (R201); ENQUEUE goes on to E8,
SUBMIT_BATCH to S3 (44_batch.md R233). -/
def State.stepE7 (s : State) (c : PCtx) : State :=
  ((s.writeDoorbell (s.tail.setWidth 32)).setShadowTail s.tail).setPseq (some { c with
    pos := match c.op with
      | .enqueue => .e8
      | .submitBatch => .s3 })

/-- Step E8: the count of accepted requests and one DISP record per consumed one (R202). -/
def State.stepE8 (s : State) (c : PCtx) : State :=
  s.respondP c.word ⟨.ok, BitVec.ofNat 24 c.accepted, c.disp⟩

end Sys2Proof.Machine
end

