-- ==== Sys2Proof/Machine/BatchSteps.lean ====
section
/-!
DEFINITION. The numbered steps of the Batch Coordinator: S1, S3 and S4 of SUBMIT_BATCH (44_batch.md R233; S2
is the Submission Path) and B1 to B7 of POLL_BATCH (R241).
-/

namespace Sys2Proof.Machine

/-- The references of the ACCEPTED requests of a disposition list, in input order (R233, R238). -/
def acceptedRefs : List OutRecord → List Ref
  | [] => []
  | .disp ref .accepted :: l => ref :: acceptedRefs l
  | .disp _ .malformed :: l => acceptedRefs l
  | .compl _ _ _ :: l => acceptedRefs l
  | .handle _ :: l => acceptedRefs l
  | .age _ _ :: l => acceptedRefs l

/-- Step S1: the mode, the pool, `old_tail` (44_batch.md R233, R234). -/
def State.stepS1 (s : State) (c : PCtx) : State :=
  if s.configured && s.mode == .batch then
    if s.freeRecords = 0 then s.respondP c.word (Response.bare .errNoBatch)
    else s.setPseq (some { c with pos := .e1, oldTail := s.tail })
  else s.respondP c.word (Response.bare .errState)

/-- Step S3: no empty batch (R237). -/
def State.stepS3 (s : State) (c : PCtx) : State :=
  if c.accepted = 0 then s.respondP c.word ⟨.ok, 0, c.disp⟩
  else s.setPseq (some { c with pos := .s4 })

/-- The record step S4 fills in (R233, R236, R238). -/
def State.newBatch (s : State) (c : PCtx) : Batch where
  bid := s.pickBid
  headOffset := byteOffset s.cfg c.oldTail
  tailOffset := byteOffset s.cfg s.tail
  refs := acceptedRefs c.disp
  n := c.accepted
  descCount := c.written
  consumed := 0
  complete := false
  submitTime := s.now

/-- Step S4: a free record is taken, filled in and pushed, in one step (R233, R291). -/
def State.stepS4 (s : State) (c : PCtx) : State :=
  let b := s.newBatch c
  ((s.setFifo (s.fifo ++ [b])).setChoices (s.choices + 1)).respondP c.word
    ⟨.ok, BitVec.ofNat 24 c.accepted, c.disp ++ [.handle b.bid]⟩

/-- The completion test of step B4: the reported head lies in the batch's span, taken around the ring
(R244). -/
def inProgress (headOffset tailOffset hw : Word32) : Bool :=
  if headOffset.toNat < tailOffset.toNat then
    decide (headOffset.toNat ≤ hw.toNat) && decide (hw.toNat < tailOffset.toNat)
  else decide (headOffset.toNat ≤ hw.toNat) || decide (hw.toNat < tailOffset.toNat)

/-- Step B1 (R241, R242). -/
def State.stepB1 (s : State) (c : CCtx) : State :=
  if s.configured && s.mode == .batch then
    if s.fifo.isEmpty then s.respondC c.word (Response.bare .empty)
    else s.setCseq (some { c with pos := .b2 })
  else s.respondC c.word (Response.bare .errState)

/-- Step B2: a latched batch goes to the drain without looking at the device (R241, R252). -/
def State.stepB2 (s : State) (c : CCtx) (b : Batch) : State :=
  s.setCseq (some { c with pos := if b.complete then .b6 else .b3 })

/-- Step B3: one read of HW_HEAD, not range-checked (R243). -/
def State.stepB3 (s : State) (c : CCtx) : State :=
  s.logHwHead.setCseq (some { c with pos := .b4, hw := s.dev.hwHead })

/-- Step B4 (R244). -/
def State.stepB4 (s : State) (c : CCtx) (b : Batch) : State :=
  if inProgress b.headOffset b.tailOffset c.hw then s.respondC c.word (Response.bare .notReady)
  else s.setCseq (some { c with pos := .b5 })

/-- Step B5: latch and release, once per batch (R246). -/
def State.stepB5 (s : State) (c : CCtx) (b : Batch) (rest : List Batch) : State :=
  ((s.setFifo ({ b with complete := true } :: rest)).setHead
    (wrapAdd s.wrapMask s.head b.descCount)).setCseq (some { c with pos := .b6 })

/-- How many back-references step B6 hands out: `min(max, n - consumed_count)` (R241, R248, R251). -/
def drainCount (c : CCtx) (b : Batch) : Nat := min (argField c.word).toNat (b.n - b.consumed)

/-- Step B6: the drain; every request is reported `REQ_OK` with `hwstat` 0 (R247, R248). -/
def State.stepB6 (s : State) (c : CCtx) (b : Batch) (rest : List Batch) : State :=
  let k := drainCount c b
  (s.setFifo ({ b with consumed := b.consumed + k } :: rest)).setCseq (some { c with
    pos := .b7, confirmed := k,
    out := ((b.refs.drop b.consumed).take k).map (fun r => .compl r .ok 0) })

/-- Step B7: a drained batch is popped and its record freed, in one step (R249, R291). -/
def State.stepB7 (s : State) (c : CCtx) (b : Batch) (rest : List Batch) : State :=
  let s := if b.consumed = b.n then s.setFifo rest else s
  s.respondC c.word ⟨.ok, BitVec.ofNat 24 c.confirmed, c.out⟩

/-- A step of POLL_BATCH after B1 works on the front batch, which cannot change under it (R242). With the
FIFO empty, which no run reaches there, the answer is B1's. -/
def State.withFront (s : State) (c : CCtx) (f : Batch → List Batch → State) : State :=
  match s.fifo with
  | [] => s.respondC c.word (Response.bare .empty)
  | b :: rest => f b rest

end Sys2Proof.Machine
end

