-- ==== Sys2Proof/Machine/CompletionSteps.lean ====
section
/-!
DEFINITION. The numbered steps Q1 to Q6 of the Completion Path (43_completion.md R211), run by DEQUEUE.
-/

namespace Sys2Proof.Machine

/-- Step Q2, the scan: `remaining` more slots from slot `head + i`; it stops at the first slot whose
`done` bit is 0 (43_completion.md R213, R214). Answers `confirmed` and the accesses made. -/
def scanDone (p : Params) (mask head : Idx) : Nat → Nat → Bus → Nat × Bus
  | 0, i, b => (i, b)
  | remaining + 1, i, b =>
    let slot := wrapAdd mask head i
    let b' := b.logCtrl .cseq p slot
    if ctrlDone (slotCtrl p b.mem slot) then scanDone p mask head remaining (i + 1) b' else (i, b')

/-- The COMPL record of a confirmed slot (R211, R216, R217). -/
def completionOf (p : Params) (m : Memory) (slot : Idx) : OutRecord :=
  .compl (slotRef p m slot)
    (if ctrlError (slotCtrl p m slot) then .hwError else .ok)
    (ctrlHwstat (slotCtrl p m slot))

/-- Step Q4, the extraction of `remaining` slots from slot `head + i` on, in slot order (R211, R216, R219). -/
def extract (p : Params) (mask head : Idx) : Nat → Nat → Bus → List OutRecord × Bus
  | 0, _, b => ([], b)
  | remaining + 1, i, b =>
    let slot := wrapAdd mask head i
    let r := extract p mask head remaining (i + 1) ((b.logCtrl .cseq p slot).logRef .cseq p slot)
    (completionOf p b.mem slot :: r.1, r.2)

/-- Step Q1 with its checks: one snapshot of `tail` (R211, R212). -/
def State.stepQ1 (s : State) (c : CCtx) : State :=
  if s.configured && s.mode == .slot then
    s.setCseq (some { c with
      pos := .q2, avail := s.pending, limit := min (argField c.word).toNat s.pending, confirmed := 0 })
  else s.respondC c.word (Response.bare .errState)

/-- Step Q2, one atomic step (R220). -/
def State.stepQ2 (s : State) (c : CCtx) : State :=
  let r := scanDone s.cfg s.wrapMask s.head c.limit 0 s.bus
  (s.setBus r.2).setCseq (some { c with pos := .q3, confirmed := r.1 })

/-- Step Q3: `RMB()`, on every path (R215). -/
def State.stepQ3 (s : State) (c : CCtx) : State :=
  (s.log .rmb).setCseq (some { c with pos := .q4 })

/-- Step Q4 (R216). -/
def State.stepQ4 (s : State) (c : CCtx) : State :=
  let r := extract s.cfg s.wrapMask s.head c.confirmed 0 s.bus
  (s.setBus r.2).setCseq (some { c with pos := .q5, out := r.1 })

/-- Step Q5: `head` advances by the slots confirmed (R218). -/
def State.stepQ5 (s : State) (c : CCtx) : State :=
  (s.setHead (wrapAdd s.wrapMask s.head c.confirmed)).setCseq (some { c with pos := .q6 })

/-- Step Q6 (R219). -/
def State.stepQ6 (s : State) (c : CCtx) : State :=
  s.respondC c.word ⟨.ok, BitVec.ofNat 24 c.confirmed, c.out⟩

end Sys2Proof.Machine
end

