-- ==== Sys2Proof/Machine/Device.lean ====
section
/-!
DEFINITION. The device and the platform (46_actors.md R300 to R309, 70_reset_and_hazards.md R377 (3)).
A device step the contract does not enable is no transition of the system: it leaves the state as it is
(premise P1, 70_reset_and_hazards.md R381; log 6).
-/

namespace Sys2Proof.Machine

/-- The device's own wrap mask: it knows the capacity by the platform's programming (46_actors.md R300). -/
def Device.mask (d : Device) : Idx := d.capacity - 1

/-- The device has work: it was told the ring and `dev_head != db` (R303). -/
def Device.hasWork (d : Device) : Bool := d.capacity != 0 && d.devHead.setWidth 32 != d.doorbell

/-- How far index `j` lies ahead of index `i` around the device's ring. -/
def Device.ahead (d : Device) (i j : Idx) : Nat := (wrapSub d.mask j i).toNat

/-- Slot `j` lies in `[dev_head, db)` taken around the ring (R301). -/
def Device.mayRead (d : Device) (j : Idx) : Bool :=
  d.capacity != 0 && decide (j.toNat < d.capacity.toNat) &&
    decide (d.ahead d.devHead j < d.ahead d.devHead (d.doorbell.setWidth 24))

/-- The index whose byte offset HW_HEAD last reported (R305). -/
def Device.reported (d : Device) (p : Params) : Idx := BitVec.ofNat 24 (d.hwHead.toNat / p.descSize)

/-- The index `n` slots on along the ring path from the reported one. -/
def Device.reportedAfter (d : Device) (p : Params) (n : Nat) : Idx := wrapAdd d.mask (d.reported p) n

/-- The index `n` slots on lies on the ring path from the previously reported index up to and including
`dev_head`, which is `unreported` slots on (R305). -/
def Device.mayReport (d : Device) (n : Nat) : Bool := d.capacity != 0 && decide (n ≤ d.unreported)

/-- The status fields and result bytes written to slot `dev_head` with the given `done` bit (R303). The result
bytes stay in the payload area; that they start at its front is the model's choice (log 17), and so is that they
are written in one event of their own length (DESIGN CHOICE, log 29). -/
def State.devWriteSlot (s : State) (hwstat : HwStat) (notify error done : Bool) (result : List Byte) :
    State :=
  s.setBus ((s.bus.write .device (slotAddr s.cfg s.dev.devHead + offPayload)
    (result.take s.cfg.payloadBytes)).writeCtrl .device s.cfg s.dev.devHead
    (ctrlWord hwstat notify error done))

/-- The `ctrl` word of the slot the device is at. -/
def State.devCtrl (s : State) : Word32 := slotCtrl s.cfg s.mem s.dev.devHead

/-- `dev_head` moves on (R303), and the reported head is one slot further behind it (R305). -/
def State.devAdvance (s : State) : State :=
  s.setDev { s.dev with
    devHead := wrapAdd s.dev.mask s.dev.devHead 1, statusWritten := false
    unreported := s.dev.unreported + 1 }

/-- The host signal of a completed slot whose `notify` bit is set (R307); that it comes in the transition that
sets `done` or never is the model's choice (DESIGN CHOICE, log 30). -/
def State.devSignal (s : State) (notify irq : Bool) (slot : Idx) : State :=
  if notify && irq then s.log (.irq slot) else s

/-- One device step (46_actors.md R301, R303, R305, R306, R307). The status fields may be written any number of
times before `done`, and the one-write completion may follow them (DESIGN CHOICE, log 29). -/
def State.devStep (s : State) (d : DevStep) : State :=
  match d with
  | .readCtrl slot =>
    if s.dev.mayRead slot then s.setBus (s.bus.logCtrl .device s.cfg slot) else s
  | .readPayload slot =>
    if s.dev.mayRead slot then s.setBus (s.bus.logPayload .device s.cfg slot) else s
  | .complete error hwstat result keepNotify irq =>
    if s.dev.hasWork then
      let notify := ctrlNotify s.devCtrl
      ((s.devWriteSlot hwstat (notify && keepNotify) error true result).devAdvance).devSignal notify irq
        s.dev.devHead
    else s
  | .writeStatus error hwstat result =>
    if s.dev.hasWork then
      let t := s.devWriteSlot hwstat (ctrlNotify s.devCtrl) error (ctrlDone s.devCtrl) result
      t.setDev { t.dev with statusWritten := true }
    else s
  | .setDone keepNotify irq =>
    if s.dev.hasWork && s.dev.statusWritten then
      let c := s.devCtrl
      ((s.devWriteSlot (ctrlHwstat c) (ctrlNotify c && keepNotify) (ctrlError c) true
        []).devAdvance).devSignal (ctrlNotify c) irq s.dev.devHead
    else s
  | .report advance =>
    if s.dev.mayReport advance then
      s.setDev { s.dev with
        hwHead := byteOffset s.cfg (s.dev.reportedAfter s.cfg advance)
        unreported := s.dev.unreported - advance }
    else s
  | .ackEnabled true =>
    if s.dev.startsOwed = 0 then s
    else s.setDev { s.dev with
      adminStatus := withEnabledAck s.dev.adminStatus true, startsOwed := s.dev.startsOwed - 1 }
  | .ackEnabled false =>
    if s.dev.stopsOwed = 0 then s
    else s.setDev { s.dev with
      adminStatus := withEnabledAck s.dev.adminStatus false, stopsOwed := s.dev.stopsOwed - 1 }
  | .ackFlush =>
    if s.dev.flushesOwed = 0 then s
    else s.setDev { s.dev with
      adminStatus := withFlushDone s.dev.adminStatus true, flushesOwed := s.dev.flushesOwed - 1 }

/-- Several device steps in a row. -/
def State.devSteps (s : State) : List DevStep → State
  | [] => s
  | d :: ds => (s.devStep d).devSteps ds

/-- The platform tells the device the ring's capacity and brings its indexes and its reported head to 0,
on a constructed ring that nothing has been submitted to (46_actors.md R300, 70_reset_and_hazards.md R377
(3), R384; log 5). -/
def State.programDevice (s : State) : State :=
  if s.configured && s.head == 0 && s.tail == 0 && s.pseq.isNone && s.cseq.isNone then
    s.setDev { s.dev with
      capacity := s.capacity, devHead := 0, doorbell := 0, hwHead := 0, statusWritten := false
      unreported := 0 }
  else s

/-- The time input moves on; it never goes back (60_exceptions.md R356). -/
def State.advanceTime (s : State) (t : Time) : State :=
  if s.now.toNat ≤ t.toNat then s.setNow t else s

end Sys2Proof.Machine
end

