-- ==== Sys2Proof/Machine/Sequencers.lean ====
section
/-!
DEFINITION. The three sequencers (10_state.md R50 to R52): one atomic step of each, and an operation carried
from its acceptance to its response by its own steps with the device's steps between them (46_actors.md
R316, R318).
-/

namespace Sys2Proof.Machine

/-- The next step of a running PSEQ (42_submission.md R190, 44_batch.md R233). -/
def State.pStep (s : State) (c : PCtx) : State :=
  match c.pos with
  | .s1 => s.stepS1 c
  | .e1 =>
    match c.op with
    | .enqueue => s.stepE1Checked c
    | .submitBatch => s.stepE1 c
  | .e2 => s.stepE2 c
  | .e4 => s.stepE4 c
  | .e5 => s.stepE5 c
  | .e6 => s.stepE6 c
  | .e7 => s.stepE7 c
  | .e8 => s.stepE8 c
  | .s3 => s.stepS3 c
  | .s4 => s.stepS4 c

/-- One step of PSEQ; idle, it has none (46_actors.md R315). -/
def State.pseqStep (s : State) : State :=
  match s.pseq with
  | none => s
  | some c => s.pStep c

/-- The next step of a running CSEQ (43_completion.md R211, 44_batch.md R241). -/
def State.cStep (s : State) (c : CCtx) : State :=
  match c.pos with
  | .q1 => s.stepQ1 c
  | .q2 => s.stepQ2 c
  | .q3 => s.stepQ3 c
  | .q4 => s.stepQ4 c
  | .q5 => s.stepQ5 c
  | .q6 => s.stepQ6 c
  | .b1 => s.stepB1 c
  | .b2 => s.withFront c (fun b _ => s.stepB2 c b)
  | .b3 => s.stepB3 c
  | .b4 => s.withFront c (fun b _ => s.stepB4 c b)
  | .b5 => s.withFront c (fun b rest => s.stepB5 c b rest)
  | .b6 => s.withFront c (fun b rest => s.stepB6 c b rest)
  | .b7 => s.withFront c (fun b rest => s.stepB7 c b rest)

/-- One step of CSEQ; idle, it has none (R315). -/
def State.cseqStep (s : State) : State :=
  match s.cseq with
  | none => s
  | some c => s.cStep c

/-- The next step of a running ASEQ (40_geometry_config.md R155, 45_admin.md R272 to R274). -/
def State.aStep (s : State) (c : ACtx) : State :=
  match c.pos with
  | .check =>
    match c.op with
    | .configure k p m requested => s.stepA1 c k p m requested
    | .start => s.stepAdminCheck c
    | .stop => s.stepAdminCheck c
    | .flush => s.stepAdminCheck c
  | .write => s.stepAdminWrite c
  | .poll => s.stepAdminPoll c
  | .expire => s.stepAdminExpire c

/-- One step of ASEQ; idle, it has none (R315). -/
def State.aseqStep (s : State) : State :=
  match s.aseq with
  | none => s
  | some c => s.aStep c

/-- The device steps that fall before the next own step of a command `exec` carries through (log 9). -/
def State.openWindow (s : State) : State :=
  match s.window with
  | [] => s
  | ds :: w => (s.setWindow w).devSteps ds

/-- PSEQ's operation carried on until PSEQ is idle, for at most `fuel` own steps. -/
def State.runP : Nat → State → State
  | 0, s => s
  | fuel + 1, s => if s.pseq.isNone then s else State.runP fuel s.openWindow.pseqStep

/-- CSEQ's operation carried on until CSEQ is idle. -/
def State.runC : Nat → State → State
  | 0, s => s
  | fuel + 1, s => if s.cseq.isNone then s else State.runC fuel s.openWindow.cseqStep

/-- ASEQ's operation carried on until ASEQ is idle. -/
def State.runA : Nat → State → State
  | 0, s => s
  | fuel + 1, s => if s.aseq.isNone then s else State.runA fuel s.openWindow.aseqStep

/-- ENQUEUE and SUBMIT_BATCH take at most 9 own steps (46_actors.md R316). -/
def stepsP : Nat := 9

/-- DEQUEUE takes at most 6 own steps, POLL_BATCH at most 7 (R316). -/
def stepsC : Nat := 7

/-- START, STOP, FLUSH take at most `ADMIN_POLL_MAX + 3` own steps, CONFIGURE 1 (R316). -/
def stepsA (p : Params) : Nat := p.pollMax + 3

/-- A class P command carried through: accepted, then run to its response; not accepted, it waits. -/
def State.carryProducer (s : State) (op : POp) (mode : Mode) (n : Nat) (word : Word32) : Result :=
  if s.accepts .producer then onNext (s.acceptProducer op mode n word) (State.runP stepsP) else .next s

/-- A class C command carried through. -/
def State.carryConsumer (s : State) (op : COp) (word : Word32) : Result :=
  if s.accepts .consumer then onNext (s.acceptConsumer op word) (State.runC stepsC) else .next s

/-- A class A command carried through. -/
def State.carryAdmin (s : State) (op : AOp) (word : Word32) : Result :=
  if s.accepts .admin then onNext (s.acceptAdmin op word) (State.runA (stepsA s.cfg)) else .next s

end Sys2Proof.Machine
end

