-- ==== Sys2Proof/Machine/Admin.lean ====
section
/-!
DEFINITION. The meanings of START, STOP, FLUSH (45_admin.md R272 to R274) and RDREG (R290).
-/

namespace Sys2Proof.Machine

/-- START: class A. -/
def execStart (s : State) : Result := s.carryAdmin .start (encode .start)

/-- STOP: class A. -/
def execStop (s : State) : Result := s.carryAdmin .stop (encode .stop)

/-- FLUSH: class A. -/
def execFlush (s : State) : Result := s.carryAdmin .flush (encode .flush)

/-- `reg(sel)`, the table of R290. -/
def State.register (s : State) (sel : BitVec 3) : Idx :=
  match sel.toNat with
  | 0 => s.ctrlstat
  | 1 => s.capacity
  | 2 => s.wrapMask
  | 3 => s.head
  | 4 => s.tail
  | 5 => s.shadowTail
  | 6 => BitVec.ofNat 24 s.fifo.length
  | _ => BitVec.ofNat 24 s.freeRecords

/-- RDREG: class Q, one step D1, legal before CONFIGURE and in both modes (R290). -/
def execRdreg (sel : BitVec 3) (s : State) : Result :=
  .next (s.answer (encode (.rdreg sel)) ⟨.ok, s.register sel, []⟩)

end Sys2Proof.Machine
end

