-- ==== Sys2Proof/Machine/Capacity.lean ====
section
/-!
DEFINITION. The meanings of FREE_COUNT and PENDING_COUNT (41_capacity.md R171, R172).
-/

namespace Sys2Proof.Machine

/-- Step F1 (R171). -/
def State.freeCountResponse (s : State) : Response :=
  if s.configured then ⟨.ok, BitVec.ofNat 24 s.free, []⟩ else Response.bare .errState

/-- Step N1 (R172). -/
def State.pendingCountResponse (s : State) : Response :=
  if s.configured then ⟨.ok, BitVec.ofNat 24 s.pending, []⟩ else Response.bare .errState

/-- FREE_COUNT: class Q, one step. -/
def execFreeCount (s : State) : Result := .next (s.answer (encode .freeCount) s.freeCountResponse)

/-- PENDING_COUNT: class Q, one step. -/
def execPendingCount (s : State) : Result :=
  .next (s.answer (encode .pendingCount) s.pendingCountResponse)

end Sys2Proof.Machine
end

