-- ==== Sys2Proof/Machine/Completion.lean ====
section
/-!
DEFINITION. The meaning of DEQUEUE (43_completion.md R211): steps Q1 to Q6 of Machine/CompletionSteps.lean on
CSEQ.
-/

namespace Sys2Proof.Machine

/-- DEQUEUE: class C. -/
def execDequeue (max : Idx) (s : State) : Result := s.carryConsumer .dequeue (encode (.dequeue max))

end Sys2Proof.Machine
end

