-- ==== Sys2Proof/Machine/Coordinator.lean ====
section
/-!
DEFINITION. The meanings of SUBMIT_BATCH (44_batch.md R233), POLL_BATCH (R241) and BATCH_AGE (R255): the
steps of Machine/BatchSteps.lean and Machine/SubmissionSteps.lean.
-/

namespace Sys2Proof.Machine

/-- SUBMIT_BATCH: class P. -/
def execSubmitBatch (n : Idx) (s : State) : Result :=
  s.carryProducer .submitBatch .batch n.toNat (encode (.submitBatch n))

/-- POLL_BATCH: class C. -/
def execPollBatch (max : Idx) (s : State) : Result :=
  s.carryConsumer .pollBatch (encode (.pollBatch max))

/-- Step G1: the time stamp of the batch POLL_BATCH would examine next (R255). -/
def State.batchAgeResponse (s : State) : Response :=
  if s.configured then
    match s.fifo with
    | [] => Response.bare .empty
    | b :: _ => ⟨.ok, 0, [.age b.bid b.submitTime]⟩
  else Response.bare .errState

/-- BATCH_AGE: class Q, one step. -/
def execBatchAge (s : State) : Result := .next (s.answer (encode .batchAge) s.batchAgeResponse)

end Sys2Proof.Machine
end

