-- ==== Sys2Proof/Machine/Geometry.lean ====
section
/-!
DEFINITION. The meaning of CONFIGURE (40_geometry_config.md R155).
-/

namespace Sys2Proof.Machine

/-- CONFIGURE: class A, one step A1 on ASEQ. -/
def execConfigure (k : Kind) (p : Policy) (m : Mode) (requested : Idx) (s : State) : Result :=
  s.carryAdmin (.configure k p m requested) (encode (.configure k p m requested))

end Sys2Proof.Machine
end

