-- ==== Sys2Proof/Machine/Submission.lean ====
section
/-!
DEFINITION. The meaning of ENQUEUE (42_submission.md R190): steps E1 to E8 of Machine/SubmissionSteps.lean on
PSEQ.
-/

namespace Sys2Proof.Machine

/-- ENQUEUE: class P. -/
def execEnqueue (n : Idx) (s : State) : Result :=
  s.carryProducer .enqueue .slot n.toNat (encode (.enqueue n))

end Sys2Proof.Machine
end

