-- ==== Sys2Proof/Machine/Dispatch.lean ====
section
/-!
DEFINITION. The dispatch: one arm per constructor of Instr, one meaning per arm.
-/

namespace Sys2Proof.Machine

/-- The meaning of a command presented at the front of the port. -/
def exec (i : Instr) (s : State) : Host.Outcome State Fault Refusal :=
  match i with
  | .configure k p m requested => Sys2Proof.Machine.execConfigure k p m requested s
  | .freeCount => Sys2Proof.Machine.execFreeCount s
  | .pendingCount => Sys2Proof.Machine.execPendingCount s
  | .enqueue n => Sys2Proof.Machine.execEnqueue n s
  | .dequeue max => Sys2Proof.Machine.execDequeue max s
  | .submitBatch n => Sys2Proof.Machine.execSubmitBatch n s
  | .pollBatch max => Sys2Proof.Machine.execPollBatch max s
  | .batchAge => Sys2Proof.Machine.execBatchAge s
  | .start => Sys2Proof.Machine.execStart s
  | .stop => Sys2Proof.Machine.execStop s
  | .flush => Sys2Proof.Machine.execFlush s
  | .rdreg sel => Sys2Proof.Machine.execRdreg sel s

end Sys2Proof.Machine
end

