-- ==== Sys2Proof/Machine/Run.lean ====
section
/-!
DEFINITION. The transitions of the whole system (46_actors.md R315): the acceptance of a waiting command,
the steps of the sequencers and of the device, and the inputs. `acceptInstr` starts an operation and leaves
its steps to later transitions; `exec` carries it through (R318). Both are made of the same steps.
-/

namespace Sys2Proof.Machine

/-- Acceptance of the command at the front of the port, which decodes to `i`: a class Q command is done in
this one step, any other is started on its sequencer (10_state.md R52, R53; log 24). -/
def acceptInstr (i : Instr) (s : State) : Result :=
  match i with
  | .configure k p m requested => s.acceptAdmin (.configure k p m requested) (encode i)
  | .freeCount => execFreeCount s
  | .pendingCount => execPendingCount s
  | .enqueue n => s.acceptProducer .enqueue .slot n.toNat (encode i)
  | .dequeue _ => s.acceptConsumer .dequeue (encode i)
  | .submitBatch n => s.acceptProducer .submitBatch .batch n.toNat (encode i)
  | .pollBatch _ => s.acceptConsumer .pollBatch (encode i)
  | .batchAge => execBatchAge s
  | .start => s.acceptAdmin .start (encode i)
  | .stop => s.acceptAdmin .stop (encode i)
  | .flush => s.acceptAdmin .flush (encode i)
  | .rdreg sel => execRdreg sel s

/-- The front command handed to `f` where it decodes, answered `ERR_ILLEGAL` where it does not
(30_encoding.md R130, R131); with no command waiting nothing happens (70_reset_and_hazards.md R371). -/
def State.withFrontCommand (s : State) (f : Instr → State → Result) : Result :=
  match s.port with
  | [] => .next s
  | c :: _ =>
    match decode c.word with
    | .command i => f i s
    | .illegal _ => .next (s.answerIllegal c.word)

/-- One transition (46_actors.md R315). -/
def State.perform (s : State) (a : Act) : Result :=
  match a with
  | .present c => .next (s.setPort (s.port ++ [c]))
  | .accept k => (s.select k).withFrontCommand acceptInstr
  | .run k w =>
    onNext (((s.select k).setWindow w).withFrontCommand exec) (fun t => t.setWindow [])
  | .pseq => .next s.pseqStep
  | .cseq => .next s.cseqStep
  | .aseq => .next s.aseqStep
  | .dev d => .next (s.devStep d)
  | .time t => .next (s.advanceTime t)
  | .program => .next s.programDevice
  | .reset => .next s.applyReset

/-- The next transition of the agenda; an empty agenda schedules nothing (log 6). -/
def State.nextTransition (s : State) : Result :=
  match s.agenda with
  | [] => .next s
  | a :: rest => (s.setAgenda rest).perform a

/-- The request records that go with a placed word: as many as an ENQUEUE or SUBMIT_BATCH word asks for,
each a well-formed REQ of one descriptor with reference 0 and a payload of zeros (log 8). -/
def fetchRecords (p : Params) (w : Word32) : List ReqRecord :=
  match decode w with
  | .command i =>
    List.replicate i.recordCount (reqRecord 0 true 1 [List.replicate p.payloadBytes 0])
  | .illegal _ => []

/-- A word placed so that the very next step runs it: presented at the front of the port, with the
transition that accepts it and carries it through scheduled first (log 7). -/
def State.place (s : State) (w : Word32) : State :=
  (s.setPort (⟨w, fetchRecords s.cfg w⟩ :: s.port)).setAgenda (.run 0 [] :: s.agenda)

end Sys2Proof.Machine
end

