-- ==== Sys2Proof/Machine/Step.lean ====
section
/-!
DEFINITION. One step of the machine, and the placing of a word for the host's probes.
-/

namespace Sys2Proof.Machine

/-- One transition of the system of 46_actors.md R315, the one the agenda names next. -/
def step (s : State) : Host.Outcome State Fault Refusal := s.nextTransition

/-- `s` with the command word of these bits presented, so that the next step runs it (log 7, log 8). -/
def State.withFetchWord (s : State) (nbits w : Nat) : State := s.place (tableWord nbits w)

end Sys2Proof.Machine
end

