-- ==== Sys2Proof/Safety.lean ====
section
/-!
DEFINITION. What a sound state is: the ring invariants (10_state.md R38), the exclusion of the sequencers
(R53, 45_admin.md R280), the batch pool and FIFO (R44 to R47, 45_admin.md R291), the spans that tile the
pending range (R46), and the words claims use for the content of the ring.
-/

namespace Sys2Proof.Machine

/-! ### The ring (R38) -/

/-- R38 (i) and (ii): the geometry and the ranges of the indexes on a constructed ring. -/
def State.ringInv (s : State) : Prop :=
  s.configured = true →
    (∃ k, k < 24 ∧ s.capacity.toNat = 2 ^ k) ∧ s.capacity.toNat ≤ s.cfg.capMax ∧
    s.wrapMask = s.capacity - 1 ∧
    s.head.toNat < s.capacity.toNat ∧ s.tail.toNat < s.capacity.toNat ∧
    s.shadowTail.toNat < s.capacity.toNat

/-- Before CONFIGURE there is no ring: the registers have their reset values (R55, R32 to R37). -/
def State.blankInv (s : State) : Prop :=
  s.configured = false →
    s.enabled = false ∧ s.mode = .slot ∧ s.policy = .failFast ∧ s.kind = .encode ∧
    s.capacity = 0 ∧ s.wrapMask = 0 ∧ s.head = 0 ∧ s.tail = 0 ∧ s.shadowTail = 0 ∧ s.fifo = []

/-! ### The batch FIFO and the pool (R44 to R47, R291) -/

/-- Slots occupied by the batches of a list that are not yet released: those whose latch is not set. -/
def pendingDesc : List Batch → Nat
  | [] => 0
  | b :: l => (if b.complete then 0 else b.descCount) + pendingDesc l

/-- The spans of the unreleased batches of a list, oldest first, lead from slot `i` to slot `j` without a
gap (R44's span equation and R46). -/
def spansTile (p : Params) (mask : Idx) : Idx → List Batch → Idx → Prop
  | i, [], j => i = j
  | i, b :: l, j =>
    if b.complete then spansTile p mask i l j
    else b.headOffset = byteOffset p i ∧
      b.tailOffset = byteOffset p (wrapAdd mask i b.descCount) ∧
      spansTile p mask (wrapAdd mask i b.descCount) l j

/-- A batch record (R44): `request_refs` has `n` entries, `1 <= n <= desc_count <= capacity - 1`,
`consumed_count <= n`, and nothing is handed out before the latch is set. -/
def batchInv (capacity : Nat) (b : Batch) : Prop :=
  b.refs.length = b.n ∧ 1 ≤ b.n ∧ b.n ≤ b.descCount ∧ b.descCount ≤ capacity - 1 ∧ b.consumed ≤ b.n ∧
    (b.complete = false → b.consumed = 0)

/-- Slots PSEQ has published for the batch it has not yet pushed (between E5 and S4). -/
def State.unpushed (s : State) : Nat :=
  match s.pseq with
  | none => 0
  | some c =>
    match c.op, c.pos with
    | .submitBatch, .e6 => c.written
    | .submitBatch, .e7 => c.written
    | .submitBatch, .s3 => c.written
    | .submitBatch, .s4 => c.written
    | _, _ => 0

/-- Where the spans of the FIFO end: at `tail`, or at `old_tail` of a SUBMIT_BATCH that has published but
not yet pushed. -/
def State.spansEnd (s : State) : Idx :=
  match s.pseq with
  | none => s.tail
  | some c =>
    match c.op, c.pos with
    | .submitBatch, .e6 => c.oldTail
    | .submitBatch, .e7 => c.oldTail
    | .submitBatch, .s3 => c.oldTail
    | .submitBatch, .s4 => c.oldTail
    | _, _ => s.tail

/-- R45, R46, R47, R291: the FIFO and the pool. -/
def State.fifoInv (s : State) : Prop :=
  (s.mode = .slot → s.fifo = []) ∧
  s.fifo.length ≤ s.cfg.poolSize ∧
  (s.fifo.map (fun b => b.bid.toNat)).Nodup ∧
  (∀ b ∈ s.fifo, b.bid.toNat < s.cfg.poolSize) ∧
  (∀ b ∈ s.fifo, batchInv s.capacity.toNat b) ∧
  (∀ b ∈ s.fifo.tail, b.complete = false) ∧
  (s.mode = .batch →
    s.pending = pendingDesc s.fifo + s.unpushed ∧
    spansTile s.cfg s.wrapMask s.head s.fifo s.spansEnd)

/-! ### The sequencers (R50 to R53) -/

/-- The mode an operation of PSEQ belongs to. -/
def POp.mode : POp → Mode
  | .enqueue => .slot
  | .submitBatch => .batch

/-- The positions an operation of PSEQ passes. -/
def POp.passes : POp → PPos → Bool
  | .enqueue, .s1 => false
  | .enqueue, .s3 => false
  | .enqueue, .s4 => false
  | .enqueue, _ => true
  | .submitBatch, .e8 => false
  | .submitBatch, _ => true

/-- The position of the operation's refusal checks. -/
def POp.first : POp → PPos
  | .enqueue => .e1
  | .submitBatch => .s1

/-- The steps after E2, where the counts of the submission stand. -/
def PPos.filled : PPos → Bool
  | .s1 => false
  | .e1 => false
  | .e2 => false
  | .e4 => true
  | .e5 => true
  | .e6 => true
  | .e7 => true
  | .e8 => true
  | .s3 => true
  | .s4 => true

/-- What holds of a running PSEQ: past its checks the ring is constructed and of the operation's mode; the
snapshot of step E1 never exceeds what is free; the counts of E2 agree; SUBMIT_BATCH still has its record
free and knows where its span begins; where the command is legal its records have the shape the port
protocol asks (42_submission.md R190, R197, 44_batch.md R233, R234, 30_encoding.md R118). -/
def State.pctxInv (s : State) (c : PCtx) : Prop :=
  c.op.passes c.pos = true ∧
  (s.configured = true → s.mode = c.op.mode → recordShapeOk s.cfg s.mode c.reqs = true) ∧
  (c.pos ≠ c.op.first → s.configured = true ∧ s.mode = c.op.mode) ∧
  (c.pos = .e2 → c.avail ≤ s.free ∧ c.written = 0 ∧ c.accepted = 0 ∧ c.taken = 0 ∧ c.disp = []) ∧
  (c.pos = .e4 ∨ c.pos = .e5 → c.written ≤ s.free) ∧
  (c.pos.filled = true →
    c.accepted ≤ c.written ∧ (c.accepted = 0 → c.written = 0) ∧ c.written ≤ s.capacity.toNat - 1 ∧
    (acceptedRefs c.disp).length = c.accepted) ∧
  (c.op = .submitBatch → c.pos ≠ .s1 → s.fifo.length < s.cfg.poolSize) ∧
  (c.op = .submitBatch → c.pos = .e1 ∨ c.pos = .e2 ∨ c.pos = .e4 ∨ c.pos = .e5 → c.oldTail = s.tail) ∧
  (c.op = .submitBatch → c.pos = .e6 ∨ c.pos = .e7 ∨ c.pos = .s3 ∨ c.pos = .s4 →
    s.tail = wrapAdd s.wrapMask c.oldTail c.written) ∧
  (c.pos = .s4 → 1 ≤ c.accepted)

/-- The positions an operation of CSEQ passes. -/
def COp.passes : COp → CPos → Bool
  | .dequeue, .q1 => true
  | .dequeue, .q2 => true
  | .dequeue, .q3 => true
  | .dequeue, .q4 => true
  | .dequeue, .q5 => true
  | .dequeue, .q6 => true
  | .dequeue, _ => false
  | .pollBatch, .q1 => false
  | .pollBatch, .q2 => false
  | .pollBatch, .q3 => false
  | .pollBatch, .q4 => false
  | .pollBatch, .q5 => false
  | .pollBatch, .q6 => false
  | .pollBatch, _ => true

/-- What holds of a running CSEQ: past its checks the ring is constructed and of the operation's mode; a
DEQUEUE never confirms more than is pending; a POLL_BATCH has a front batch whose latch agrees with its
position (43_completion.md R211 to R213, 44_batch.md R241, R242). -/
def State.cctxInv (s : State) (c : CCtx) : Prop :=
  c.op.passes c.pos = true ∧
  (c.op = .dequeue → c.pos ≠ .q1 → s.configured = true ∧ s.mode = .slot) ∧
  (c.op = .pollBatch → c.pos ≠ .b1 → s.configured = true ∧ s.mode = .batch ∧ s.fifo ≠ []) ∧
  (c.pos = .q2 → c.limit ≤ s.pending) ∧
  (c.pos = .q3 ∨ c.pos = .q4 ∨ c.pos = .q5 → c.confirmed ≤ s.pending) ∧
  (c.pos = .b3 ∨ c.pos = .b4 ∨ c.pos = .b5 → ∀ b ∈ s.fifo.head?, b.complete = false) ∧
  (c.pos = .b6 ∨ c.pos = .b7 → ∀ b ∈ s.fifo.head?, b.complete = true)

/-- What holds of a running ASEQ: it excludes the other two (R53, 45_admin.md R280), CONFIGURE has one step
only, and past the checks the ring is constructed. -/
def State.actxInv (s : State) (c : ACtx) : Prop :=
  s.pseq = none ∧ s.cseq = none ∧
  (c.pos ≠ .check → s.configured = true ∧ ∀ k p m r, c.op ≠ .configure k p m r)

/-- The sequencers. -/
def State.seqInv (s : State) : Prop :=
  (∀ c ∈ s.pseq, s.pctxInv c) ∧ (∀ c ∈ s.cseq, s.cctxInv c) ∧ (∀ c ∈ s.aseq, s.actxInv c)

/-! ### The device's ring path (46_actors.md R300, R305) -/

/-- A device that was told a ring: the reported head is a slot boundary, and `dev_head` lies `unreported`
slots on along the ring path (R305, log 26). -/
def Device.pathInv (d : Device) (p : Params) : Prop :=
  d.capacity ≠ 0 →
    (∃ k, k < 24 ∧ d.capacity.toNat = 2 ^ k) ∧ d.capacity.toNat ≤ p.capMax ∧
    d.devHead.toNat < d.capacity.toNat ∧ (d.reported p).toNat < d.capacity.toNat ∧
    d.hwHead = byteOffset p (d.reported p) ∧
    d.devHead = wrapAdd d.mask (d.reported p) d.unreported

/-- A sound state: sound parameters, ring memory in its canonical form, and the invariants of the device's
ring path, of the ring, of the batch FIFO and of the sequencers. -/
def State.Inv (s : State) : Prop :=
  s.cfg.wf = true ∧ Memory.wf s.mem = true ∧ s.dev.pathInv s.cfg ∧ s.ringInv ∧ s.blankInv ∧ s.fifoInv ∧
    s.seqInv

/-! ### The content of the ring -/

/-- The slot `k` places after `head`. -/
def State.pendingSlot (s : State) (k : Nat) : Idx := wrapAdd s.wrapMask s.head k

/-- The back-references of the pending slots, oldest first (00_scope.md R20, 43_completion.md R223). -/
def State.pendingRefs (s : State) : List Ref :=
  (List.range s.pending).map (fun k => slotRef s.cfg s.mem (s.pendingSlot k))

/-- How many of the first `n` slots from slot `i` on are done, up to the first that is not
(43_completion.md R214). -/
def donePrefix (p : Params) (m : Memory) (mask head : Idx) : Nat → Nat → Nat
  | 0, _ => 0
  | n + 1, i =>
    if ctrlDone (slotCtrl p m (wrapAdd mask head i)) then 1 + donePrefix p m mask head n (i + 1) else 0

/-- The bytes of slot `i` (20_memory.md R71). -/
def inSlot (p : Params) (i : Idx) (a : Nat) : Prop :=
  slotAddr p i ≤ a ∧ a < slotAddr p i + p.descSize

/-- CSEQ's read of the `ctrl` word of slot `i` (43_completion.md R211, R214). -/
def ctrlReadOf (p : Params) (m : Memory) (i : Idx) : Event :=
  .memRead .cseq (slotAddr p i + offCtrl) (m.readBytes (slotAddr p i + offCtrl) 4)

/-- CSEQ's read of the `request_ref` of slot `i` (R211, R216). -/
def refReadOf (p : Params) (m : Memory) (i : Idx) : Event :=
  .memRead .cseq (slotAddr p i + offRef) (m.readBytes (slotAddr p i + offRef) 8)

/-- The events of the scan of the first `n` pending slots, newest first. -/
def State.scanReads (s : State) (n : Nat) : List Event :=
  ((List.range n).map (fun k => ctrlReadOf s.cfg s.mem (s.pendingSlot k))).reverse

/-- The events of the extraction of the first `n` pending slots, `ctrl` and then `request_ref` of each,
newest first. -/
def State.extractReads (s : State) (n : Nat) : List Event :=
  ((List.range n).flatMap (fun k =>
    [ctrlReadOf s.cfg s.mem (s.pendingSlot k), refReadOf s.cfg s.mem (s.pendingSlot k)])).reverse

/-- A record as ENQUEUE on a SLOT ring accepts it: `valid` and one descriptor (30_encoding.md R118). -/
def plainRequest (r : ReqRecord) : Bool := wellFormedRequest .slot r

/-- The number of responses in a trace. -/
def responseCount : List Event → Nat
  | [] => 0
  | .respond _ _ :: l => responseCount l + 1
  | .memRead _ _ _ :: l => responseCount l
  | .memWrite _ _ _ :: l => responseCount l
  | .mmioRead _ _ _ _ :: l => responseCount l
  | .mmioWrite _ _ _ _ :: l => responseCount l
  | .wmb :: l => responseCount l
  | .rmb :: l => responseCount l
  | .irq _ :: l => responseCount l
  | .reset :: l => responseCount l

/-- The trace is `n` reads of ADMIN_STATUS with value `v`, newest first, on top of `l`. -/
def statusReads (p : Params) (v : Word32) : Nat → List Event → List Event
  | 0, l => l
  | n + 1, l => .mmioRead .aseq p.regBase p.offAdminStatus v :: statusReads p v n l

/-! ### The outcome of a command, in the words of the rules -/

/-- The command has left the port and `respond` has handed `r` to the client; nothing else is changed
(00_scope.md R16, 10_state.md R53). -/
def State.answered (s : State) (word : Word32) (r : Response) : State :=
  { s with port := s.port.tail, trace := .respond word r :: s.trace }

/-- Steps E1 and E2 on the requests `rs`: the fill loop with `avail` the free count of the present state
(42_submission.md R190 to R195). -/
def State.submission (s : State) (rs : List ReqRecord) : Fill :=
  fillLoop s.cfg s.mode s.policy s.wrapMask s.tail rs
    { bus := s.bus, avail := s.free, written := 0, accepted := 0, taken := 0, disp := [] }

/-- Step E4: ring memory and trace after the notify flag is set on the last written slot, if any slot was
written (42_submission.md R198). -/
def State.notified (s : State) (f : Fill) : Bus :=
  if f.written > 0 then
    f.bus.writeCtrl .pseq s.cfg (wrapAdd s.wrapMask s.tail (f.written - 1)) 0x00000004#32
  else f.bus

/-- `tail` after step E5: advanced by the slots written (42_submission.md R199). -/
def State.newTail (s : State) (f : Fill) : Idx := wrapAdd s.wrapMask s.tail f.written

/-- The state after steps E4 to E7 of a submission, the command taken off the port: the slots stand in ring
memory, `tail` and `shadow_tail` are the new tail, the write barrier and then the doorbell write of the
new tail are the last two events (42_submission.md R198 to R201). -/
def State.submitted (s : State) (f : Fill) : State :=
  { s with
    port := s.port.tail
    mem := (s.notified f).mem
    tail := s.newTail f
    shadowTail := s.newTail f
    dev := { s.dev with doorbell := (s.newTail f).setWidth 32 }
    trace := .mmioWrite .pseq s.cfg.regBase s.cfg.offDoorbell ((s.newTail f).setWidth 32) :: .wmb ::
      (s.notified f).trace }

/-- R38 (i), (ii), (iv), (v), (vi) of one state with a constructed ring. -/
def State.ringSound (s : State) : Prop :=
  s.ringInv ∧
  (s.configured = true →
    s.pending ≤ s.capacity.toNat - 1 ∧ s.free + s.pending = s.capacity.toNat - 1 ∧
    (s.head = s.tail ↔ s.pending = 0))

/-- The dispositions of requests consumed to the end: one DISP record each, in input order
(30_encoding.md R119). -/
def dispositions (mode : Mode) (rs : List ReqRecord) : List OutRecord :=
  rs.map (fun r => .disp (recordRef r) (if wellFormedRequest mode r then .accepted else .malformed))

/-- The slots of the accepted ones among consumed requests, each with its reference: `ndesc` times the
request's own (42_submission.md R194). -/
def slotRefs (mode : Mode) (rs : List ReqRecord) : List Ref :=
  rs.flatMap (fun r => if wellFormedRequest mode r then List.replicate (recordNdesc r) (recordRef r) else [])

/-- The reference of a COMPL record. -/
def completedRef : OutRecord → Option Ref
  | .disp _ _ => none
  | .compl ref _ _ => some ref
  | .handle _ => none
  | .age _ _ => none

/-- Back-reference and payload of the slots of the accepted ones among consumed requests, one entry per
descriptor, in order (42_submission.md R190, R194, 44_batch.md R235). -/
def slotContents (mode : Mode) (rs : List ReqRecord) : List (Ref × List Byte) :=
  rs.flatMap (fun r => if wellFormedRequest mode r then r.payload.map (fun b => (recordRef r, b)) else [])

/-- The slots the accepted ones among requests take: the sum of their `ndesc` (42_submission.md R197). -/
def slotsUsed (mode : Mode) (rs : List ReqRecord) : Nat :=
  ((rs.filter (wellFormedRequest mode)).map recordNdesc).sum

/-- An event is a write of ring memory by PSEQ whose bytes all lie in slot `i`. -/
def isSlotWrite (p : Params) (i : Idx) : Event → Prop
  | .memWrite .pseq a bs => slotAddr p i ≤ a ∧ a + bs.length ≤ slotAddr p i + p.descSize
  | _ => False

/-! ### The own steps of an instruction (46_actors.md R315, R316) -/

/-- The transition that is one own step of the sequencer an instruction runs on; a class Q command has
none beyond its acceptance. -/
def ownAct : Instr → Act
  | .configure _ _ _ _ => .aseq
  | .freeCount => .aseq
  | .pendingCount => .aseq
  | .enqueue _ => .pseq
  | .dequeue _ => .cseq
  | .submitBatch _ => .pseq
  | .pollBatch _ => .cseq
  | .batchAge => .aseq
  | .start => .aseq
  | .stop => .aseq
  | .flush => .aseq
  | .rdreg _ => .aseq

/-- R316's bounds on the own steps after acceptance; a class Q command is done when accepted. -/
def ownSteps (p : Params) : Instr → Nat
  | .configure _ _ _ _ => 1
  | .freeCount => 0
  | .pendingCount => 0
  | .enqueue _ => 9
  | .dequeue _ => 6
  | .submitBatch _ => 9
  | .pollBatch _ => 7
  | .batchAge => 0
  | .start => p.pollMax + 3
  | .stop => p.pollMax + 3
  | .flush => p.pollMax + 3
  | .rdreg _ => 0

/-- The cases of `ERR_STATE` (60_exceptions.md R335). -/
def errStateCase (configured : Bool) (mode : Mode) : Instr → Prop
  | .configure _ _ _ _ => configured = true
  | .freeCount => configured = false
  | .pendingCount => configured = false
  | .enqueue _ => configured = false ∨ mode = .batch
  | .dequeue _ => configured = false ∨ mode = .batch
  | .submitBatch _ => configured = false ∨ mode = .slot
  | .pollBatch _ => configured = false ∨ mode = .slot
  | .batchAge => configured = false
  | .start => configured = false
  | .stop => configured = false
  | .flush => configured = false
  | .rdreg _ => False

/-- An instruction's operation carried on for at most `n` own steps, the scheduled device steps before
each; a class Q command has none. -/
def carryOn (i : Instr) (n : Nat) (s : State) : State :=
  match i.cls with
  | .producer => State.runP n s
  | .consumer => State.runC n s
  | .admin => State.runA n s
  | .query => s

end Sys2Proof.Machine
end

