-- ==== Sys2Proof/Certificates/Slice0/Obligations.lean ====
section
/-!
DEFINITION. The statements for the provers. A statement about a command carried through by `exec` says
where device steps may fall: `s.window = []` means that none falls between the command's own steps
(46_actors.md R318, log 9).
-/

open Sys2Proof Sys2Proof.Machine

/-! ## Encoding (30_encoding.md) -/

/-- Decoding the word of an instruction gives the instruction back, every operand at every value (R110 to
R113, R127). -/
def Obligations.DecodeInvertsEncode : Prop := ∀ i : Instr, decode (encode i) = .command i

/-- R129: a word selects a command exactly when it matches the command's row, no word matches two rows,
and a word that matches none is reserved. -/
def Obligations.DecodeSelectsByMaskAndMatch : Prop :=
  (∀ (w : Word32) (i : Instr), decode w = .command i →
    i.row ∈ opcodeRows ∧ w &&& i.row.mask = i.row.pattern) ∧
  (∀ (w : Word32) (r : OpcodeRow), r ∈ opcodeRows → w &&& r.mask = r.pattern →
    ∃ i, decode w = .command i ∧ i.row = r) ∧
  (∀ (w : Word32) (r r' : OpcodeRow), r ∈ opcodeRows → r' ∈ opcodeRows →
    w &&& r.mask = r.pattern → w &&& r'.mask = r'.pattern → r = r') ∧
  (∀ w : Word32, (∀ r ∈ opcodeRows, w &&& r.mask ≠ r.pattern) → ∃ e, decode w = .illegal e)

/-- Words of 95_test_vectors.md section 3 decode as that section says. -/
def Obligations.SampleWordsDecode : Prop :=
  decode 0x10000004#32 = .command (.configure .encode .failFast .slot 4#24) ∧
  decode 0x11000004#32 = .command (.configure .encode .failFast .batch 4#24) ∧
  decode 0x12000008#32 = .command (.configure .encode .bestEffort .slot 8#24) ∧
  decode 0x17000000#32 = .command (.configure .decode .bestEffort .batch 0#24) ∧
  decode 0x40000003#32 = .command (.enqueue 3#24) ∧
  decode 0x50000002#32 = .command (.dequeue 2#24) ∧
  decode 0x60000002#32 = .command (.submitBatch 2#24) ∧
  decode 0x70000008#32 = .command (.pollBatch 8#24) ∧
  decode 0xC0000003#32 = .command (.rdreg 3#3) ∧
  decode 0x18000004#32 = .illegal .reservedBits ∧
  decode 0xC0000008#32 = .illegal .reservedBits ∧
  decode 0xE1234567#32 = .illegal .reservedOpcode

/-- R130: a word whose `op` is 0x0, 0xD, 0xE or 0xF is illegal, of class Q, and answered `(ERR_ILLEGAL, 0,
[])` in one step that changes nothing else; the all-zero word is one of them. -/
def Obligations.ReservedOpcodesAnswerIllegal : Prop :=
  decode 0#32 = .illegal .reservedOpcode ∧
  ∀ w : Word32, (w.extractLsb' 28 4).toNat ∈ [0x0, 0xD, 0xE, 0xF] →
    decode w = .illegal .reservedOpcode ∧ classOfWord w = .query ∧
    ∀ (s : State) (rs : List ReqRecord) (rest : List Command), s.port = ⟨w, rs⟩ :: rest →
      s.accepts .query = true →
      s.perform (.accept 0) = .next (s.answered w ⟨.errIllegal, 0, []⟩)

/-- R131: a word whose `op` names a command and that matches no row of R129 is illegal in the same way,
under the class of its `op`. -/
def Obligations.ReservedBitsAnswerIllegal : Prop :=
  ∀ w : Word32, 1 ≤ (w.extractLsb' 28 4).toNat → (w.extractLsb' 28 4).toNat ≤ 12 →
    (∀ r ∈ opcodeRows, w &&& r.mask ≠ r.pattern) →
    decode w = .illegal .reservedBits ∧
    (∀ i : Instr, (encode i).extractLsb' 28 4 = w.extractLsb' 28 4 → classOfWord w = i.cls) ∧
    ∀ (s : State) (rs : List ReqRecord) (rest : List Command), s.port = ⟨w, rs⟩ :: rest →
      s.accepts (classOfWord w) = true →
      s.perform (.accept 0) = .next (s.answered w ⟨.errIllegal, 0, []⟩)

/-! ## Acceptance and steps (10_state.md, 46_actors.md) -/

/-- R53: the condition of each class; the class of a word is the class of its `op`; a command whose
condition does not hold waits and nothing changes; one whose condition holds leaves the port, unless the
records handed in with it are refused at the boundary (30_encoding.md R128). -/
def Obligations.CommandsAcceptedByClass : Prop :=
  (∀ s : State,
    (s.accepts .producer = true ↔ s.pseq = none ∧ s.aseq = none) ∧
    (s.accepts .consumer = true ↔ s.cseq = none ∧ s.aseq = none) ∧
    (s.accepts .admin = true ↔ s.pseq = none ∧ s.cseq = none ∧ s.aseq = none) ∧
    (s.accepts .query = true ↔ s.aseq = none)) ∧
  (∀ w w' : Word32, w.extractLsb' 28 4 = w'.extractLsb' 28 4 → classOfWord w = classOfWord w') ∧
  (∀ i : Instr, classOfWord (encode i) = i.cls) ∧
  (∀ w : Word32, (w.extractLsb' 28 4).toNat ∈ [0x0, 0xD, 0xE, 0xF] → classOfWord w = .query) ∧
  (∀ (s : State) (c : Command) (rest : List Command), s.port = c :: rest →
    (s.accepts (classOfWord c.word) = false → s.perform (.accept 0) = .next s) ∧
    (s.accepts (classOfWord c.word) = true →
      (∃ t, s.perform (.accept 0) = .next t ∧ t.port = rest) ∨
      s.perform (.accept 0) = .refused .recordCount ∨
      s.perform (.accept 0) = .refused .recordShape))

/-- The model's own transition, log 9: a step whose agenda begins with `run k w` runs the instruction that
the word of the `k`-th waiting command decodes to, on the state with that command at the front of the port (log 31)
and the device steps `w` scheduled, and clears the schedule afterwards. -/
def Obligations.StepRunsTheDecodedInstruction : Prop :=
  ∀ (s : State) (k : Nat) (w : List (List DevStep)) (acts : List Act) (c : Command)
    (others : List Command) (i : Instr),
    s.agenda = .run k w :: acts → (s.select k).port = c :: others → decode c.word = .command i →
    step s = onNext (exec i (((s.setAgenda acts).select k).setWindow w)) (fun t => t.setWindow [])

/-- R315, R318, with the model's `exec` of log 9: with no device step in between, an accepted command carried
through by `exec` ends where the machine ends that takes one transition at a time off its agenda: the
acceptance, then the own steps of the command's sequencer, a step that finds its sequencer idle changing
nothing (log 24). -/
def Obligations.CarriedThroughIsOwnSteps : Prop :=
  ∀ (s t : State) (c : Command) (rest : List Command) (i : Instr) (acts : List Act),
    s.port = c :: rest → decode c.word = .command i → s.accepts i.cls = true → s.window = [] →
    exec i (s.setAgenda acts) = .next t →
    Host.Core.run Sys2Proof.core (ownSteps s.cfg i + 1)
      (s.setAgenda (.accept 0 :: (List.replicate (ownSteps s.cfg i) (ownAct i) ++ acts))) = .next t

/-- R330, R316: no instruction ends in a fault (the model's `Fault` has no constructor, log 20); every one
whose records, for ENQUEUE and SUBMIT_BATCH, keep the port protocol completes, whatever device steps fall
inside it; an accepted one has then handed the client exactly one response, its last event. Taken step by step
it has done so after the bounded number of own steps, and the three sequencers are as they were before it. -/
def Obligations.EveryCommandRespondsOnce : Prop :=
  (∀ (s : State) (i : Instr) f, exec i s ≠ .fault f) ∧
  (∀ (s : State) (i : Instr), (i.cls = .producer → recordsWf s.cfg s.mode i s.handed = true) →
    ∃ t, exec i s = .next t) ∧
  (∀ (s t : State) (i : Instr), s.accepts i.cls = true → exec i s = .next t →
    responseCount t.trace = responseCount s.trace + 1 ∧ ∃ r, t.trace.head? = some (.respond (encode i) r)) ∧
  (∀ (s u : State) (i : Instr), s.accepts i.cls = true → acceptInstr i s = .next u →
    let t := carryOn i (ownSteps s.cfg i) u
    responseCount t.trace = responseCount s.trace + 1 ∧
    t.pseq = s.pseq ∧ t.cseq = s.cseq ∧ t.aseq = s.aseq)

/-! ## The frame of every instruction -/

/-- 10_state.md R39, 45_admin.md R276: which registers an instruction can change at all, with any device
steps inside it: the geometry, mode, policy, kind and `configured` only under CONFIGURE; `enabled` only under
class A; `head` only under class C and CONFIGURE; `tail`, `shadow_tail`, DOORBELL only under class P and
CONFIGURE; the FIFO not under class Q, ENQUEUE, DEQUEUE, START, STOP, FLUSH; the parameters, the time, the
agenda and the sequencers never. -/
def Obligations.RegisterFrameOfInstructions : Prop :=
  ∀ (s t : State) (i : Instr), exec i s = .next t →
    (t.cfg = s.cfg ∧ t.now = s.now ∧ t.agenda = s.agenda ∧
      t.pseq = s.pseq ∧ t.cseq = s.cseq ∧ t.aseq = s.aseq) ∧
    ((∀ k p m r, i ≠ .configure k p m r) →
      t.configured = s.configured ∧ t.mode = s.mode ∧ t.policy = s.policy ∧ t.kind = s.kind ∧
      t.capacity = s.capacity ∧ t.wrapMask = s.wrapMask ∧
      (i.cls ≠ .consumer → t.head = s.head) ∧
      (i.cls ≠ .producer → t.tail = s.tail ∧ t.shadowTail = s.shadowTail) ∧
      ((∀ n, i ≠ .submitBatch n) → (∀ n, i ≠ .pollBatch n) → t.fifo = s.fifo)) ∧
    (i.cls ≠ .admin → t.enabled = s.enabled) ∧
    (i.cls ≠ .producer → t.dev.doorbell = s.dev.doorbell ∧ t.choices = s.choices)

/-- 20_memory.md R74, R71, 42_submission.md R192, R198: every byte outside the slots a submission writes
reads as before. ENQUEUE and SUBMIT_BATCH write the slots at `tail`, `tail + 1`, ... of the old `tail`, as many
as the fill loop counts; a submission that waits or is answered with an error (`ERR_STATE`, or `ERR_NOBATCH` for
SUBMIT_BATCH with every batch record in use, 44_batch.md R234), and every other command, writes no byte at all. -/
def Obligations.MemoryFrameOfInstructions : Prop :=
  ∀ (s t : State) (i : Instr) (a : Nat), exec i s = .next t → s.window = [] → 16 ≤ s.cfg.descSize →
    (i.cls ≠ .producer → Memory.read t.mem a = Memory.read s.mem a) ∧
    (s.accepts i.cls = false ∨ errStateCase s.configured s.mode i ∨
        ((∃ n, i = .submitBatch n) ∧ s.cfg.poolSize ≤ s.fifo.length) →
      Memory.read t.mem a = Memory.read s.mem a) ∧
    (i.cls = .producer →
      (∀ k, k < (s.submission s.handed).written → ¬ inSlot s.cfg (wrapAdd s.wrapMask s.tail k) a) →
      Memory.read t.mem a = Memory.read s.mem a)

/-! ## Ring Geometry and CONFIGURE (40_geometry_config.md) -/

/-- R150: the smallest power of two that is at least the request, or failure when it exceeds `CAP_MAX`. -/
def Obligations.RingSizeIsLeastPowerOfTwo : Prop :=
  ∀ (requested capMax : Nat), requested < 2 ^ 24 →
    ∃ k, requested ≤ 2 ^ k ∧ (∀ j, requested ≤ 2 ^ j → k ≤ j) ∧
      ringSize requested capMax = if 2 ^ k ≤ capMax then some (2 ^ k) else none

/-- R155: CONFIGURE completes in one step: `ERR_STATE` on a constructed ring, else `ERR_GEOMETRY` when
`RingSize` fails, else the ring is constructed and the capacity answered; nothing but what is named
changes. A word of CONFIGURE with bit 27 set is illegal. -/
def Obligations.ConfigureConstructsTheRing : Prop :=
  (∀ w : Word32, w.extractLsb' 28 4 = 1#4 → w.getLsbD 27 = true → decode w = .illegal .reservedBits) ∧
  ∀ (s : State) (k : Kind) (p : Policy) (m : Mode) (requested : Idx),
    s.accepts .admin = true → s.window = [] →
    (s.configured = true → exec (.configure k p m requested) s =
      .next (s.answered (encode (.configure k p m requested)) ⟨.errState, 0, []⟩)) ∧
    (s.configured = false → ringSize requested.toNat s.cfg.capMax = none →
      exec (.configure k p m requested) s =
        .next (s.answered (encode (.configure k p m requested)) ⟨.errGeometry, 0, []⟩)) ∧
    (∀ c, s.configured = false → ringSize requested.toNat s.cfg.capMax = some c →
      exec (.configure k p m requested) s =
        .next { s.answered (encode (.configure k p m requested)) ⟨.ok, BitVec.ofNat 24 c, []⟩ with
          capacity := BitVec.ofNat 24 c
          wrapMask := BitVec.ofNat 24 (c - 1)
          head := 0
          tail := 0
          shadowTail := 0
          mode := m
          policy := p
          kind := k
          enabled := false
          configured := true
          fifo := [] })

/-- R157: after a successful CONFIGURE the invariants of 10_state.md R38 hold with `head == tail == 0`,
nothing is pending, `capacity - 1` slots are free, and `enabled` is 0. -/
def Obligations.ConfiguredRingStartsEmpty : Prop :=
  ∀ (s t : State) (k : Kind) (p : Policy) (m : Mode) (requested : Idx),
    s.cfg.wf = true → s.configured = false → exec (.configure k p m requested) s = .next t →
    t.configured = true →
    t.ringSound ∧ t.head = 0 ∧ t.tail = 0 ∧ t.pending = 0 ∧ t.free = t.capacity.toNat - 1 ∧
      t.enabled = false

/-! ## Capacity Tracker (41_capacity.md) -/

/-- R174: `free_count + pending_count == capacity - 1`. -/
def Obligations.CapacityInvariant : Prop :=
  ∀ (capacity head tail : Idx), (∃ k, k < 24 ∧ capacity.toNat = 2 ^ k) →
    head.toNat < capacity.toNat → tail.toNat < capacity.toNat →
    freeCount head.toNat tail.toNat capacity.toNat + (wrapSub (capacity - 1) tail head).toNat =
      capacity.toNat - 1

/-- R171: FREE_COUNT completes in one step and writes nothing; on a constructed ring the count is at most
`capacity - 1`, it is `capacity - 1` for `head == tail` and 0 for `tail == head - 1` around the ring. -/
def Obligations.FreeCountAnswers : Prop :=
  (∀ s : State, s.accepts .query = true →
    exec .freeCount s = .next (s.answered 0x20000000#32
      (if s.configured then
        ⟨.ok, BitVec.ofNat 24
          (if s.head.toNat > s.tail.toNat then s.head.toNat - s.tail.toNat - 1
            else s.capacity.toNat + s.head.toNat - s.tail.toNat - 1), []⟩
      else ⟨.errState, 0, []⟩))) ∧
  (∀ s : State, s.ringInv → s.configured = true →
    s.free ≤ s.capacity.toNat - 1 ∧
    (s.head = s.tail → s.free = s.capacity.toNat - 1) ∧
    (s.tail = wrapSub s.wrapMask s.head 1 → s.free = 0))

/-- R172: PENDING_COUNT completes in one step and writes nothing; on a constructed ring the count is the
distance from `head` to `tail` around the ring, at most `capacity - 1`. -/
def Obligations.PendingCountAnswers : Prop :=
  (∀ s : State, s.accepts .query = true →
    exec .pendingCount s = .next (s.answered 0x30000000#32
      (if s.configured then ⟨.ok, (s.tail - s.head) &&& s.wrapMask, []⟩ else ⟨.errState, 0, []⟩))) ∧
  (∀ s : State, s.ringInv → s.configured = true →
    s.pending ≤ s.capacity.toNat - 1 ∧
    (s.head.toNat ≤ s.tail.toNat → s.pending = s.tail.toNat - s.head.toNat) ∧
    (s.tail.toNat < s.head.toNat → s.pending = s.capacity.toNat + s.tail.toNat - s.head.toNat))

/-! ## Submission Path (42_submission.md) -/

/-- R190: ENQUEUE completes. `submission` is the fill loop E2 from the snapshot of E1, `submitted` the
writes of E4 to E7; the response counts the accepted requests and lists the dispositions. -/
def Obligations.EnqueueCompletes : Prop :=
  ∀ (s : State) (n : Idx), s.accepts .producer = true → s.window = [] → s.configured = true →
    s.mode = .slot → recordsWf s.cfg .slot (.enqueue n) s.handed = true →
    let f := s.submission s.handed
    let u := s.submitted f
    exec (.enqueue n) s = .next { u with
      trace := .respond (encode (.enqueue n)) ⟨.ok, BitVec.ofNat 24 f.accepted, f.disp⟩ :: u.trace }

/-- R203: with all requests well formed, one descriptor each, ENQUEUE takes `min(n, free_count)` of them,
the first ones, and `tail` advances by as many slots. -/
def Obligations.EnqueueTakesWhatFits : Prop :=
  ∀ (s : State) (n : Idx), s.accepts .producer = true → s.window = [] → s.configured = true →
    s.mode = .slot → recordsWf s.cfg .slot (.enqueue n) s.handed = true →
    (∀ r ∈ s.handed, plainRequest r = true) →
    let m := min n.toNat s.free
    ∃ t, exec (.enqueue n) s = .next t ∧
      t.trace.head? = some (.respond (encode (.enqueue n))
        ⟨.ok, BitVec.ofNat 24 m, (s.handed.take m).map (fun r => .disp (recordRef r) .accepted)⟩) ∧
      t.tail = wrapAdd s.wrapMask s.tail m ∧ t.shadowTail = t.tail ∧
      t.dev.doorbell = t.tail.setWidth 32

/-- R204: on a full ring ENQUEUE writes no slot, leaves `tail`, repeats the doorbell value, and answers
`(OK, 0, [])`. -/
def Obligations.EnqueueOnFullRing : Prop :=
  ∀ (s : State) (n : Idx), s.accepts .producer = true → s.window = [] → s.configured = true →
    s.mode = .slot → s.ringInv → recordsWf s.cfg .slot (.enqueue n) s.handed = true → s.free = 0 →
    exec (.enqueue n) s = .next { s with
      port := s.port.tail
      shadowTail := s.tail
      dev := { s.dev with doorbell := s.tail.setWidth 32 }
      trace := .respond (encode (.enqueue n)) ⟨.ok, 0, []⟩ ::
        .mmioWrite .pseq s.cfg.regBase s.cfg.offDoorbell (s.tail.setWidth 32) :: .wmb :: s.trace }

/-- R193: a malformed request under the two policies. FAIL_FAST: behind `pre` well-formed requests, all of
which fit with room left, it ends the submission: it is reported, uses no slot, the requests after it are
not consumed, and the slots of `pre` stay written. BEST_EFFORT: while the well-formed requests fit with room
left, the malformed ones are reported, use no slot, and the submission goes on to the end of the list. -/
def Obligations.MalformedRequestPolicies : Prop :=
  (∀ (s : State) (pre post : List ReqRecord) (bad : ReqRecord), s.policy = .failFast →
    (∀ r ∈ pre, wellFormedRequest s.mode r = true) → wellFormedRequest s.mode bad = false →
    (pre.map recordNdesc).sum < s.free →
    let f := s.submission (pre ++ bad :: post)
    f.taken = pre.length + 1 ∧ f.accepted = pre.length ∧ f.written = (pre.map recordNdesc).sum ∧
    f.bus = (s.submission pre).bus ∧
    f.disp = pre.map (fun r => .disp (recordRef r) .accepted) ++ [.disp (recordRef bad) .malformed]) ∧
  (∀ (s : State) (rs : List ReqRecord), s.policy = .bestEffort →
    ((rs.filter (wellFormedRequest s.mode)).map recordNdesc).sum < s.free →
    let f := s.submission rs
    f.taken = rs.length ∧ f.disp = dispositions s.mode rs ∧
    f.accepted = (rs.filter (wellFormedRequest s.mode)).length ∧
    f.written = ((rs.filter (wellFormedRequest s.mode)).map recordNdesc).sum ∧
    f.bus = (s.submission (rs.filter (wellFormedRequest s.mode))).bus)

/-- R195, R197, R202, R348: how far a submission goes and its counts. `taken` requests from the front are
consumed, each with its DISP record; `accepted` of them are ACCEPTED; `written` is the slots these need and
never exceeds the free count; on a SLOT ring `written == accepted`. The ring was not full before any consumed
request, and under FAIL_FAST none but the last consumed one is malformed. The loop ends with the input
exhausted, the ring full, FAIL_FAST at a malformed request, or a well-formed request that needs more slots
than are left. -/
def Obligations.SubmissionCounts : Prop :=
  ∀ (s : State) (rs : List ReqRecord),
    let f := s.submission rs
    f.taken ≤ rs.length ∧ f.disp = dispositions s.mode (rs.take f.taken) ∧
    f.accepted = ((rs.take f.taken).filter (wellFormedRequest s.mode)).length ∧
    f.written = slotsUsed s.mode (rs.take f.taken) ∧
    f.written ≤ s.free ∧ f.avail = s.free - f.written ∧
    (s.mode = .slot → f.written = f.accepted) ∧
    (∀ i, i < f.taken → slotsUsed s.mode (rs.take i) < s.free) ∧
    (s.policy = .failFast →
      ∀ i r, i + 1 < f.taken → rs[i]? = some r → wellFormedRequest s.mode r = true) ∧
    (f.taken = rs.length ∨ f.avail = 0 ∨
      (s.policy = .failFast ∧
        ∃ i r, f.taken = i + 1 ∧ rs[i]? = some r ∧ wellFormedRequest s.mode r = false) ∨
      ∃ r, rs[f.taken]? = some r ∧ wellFormedRequest s.mode r = true ∧ f.avail < recordNdesc r)

/-- R190, R192, R194, R198, R235: the slots a submission fills, under both commands and both policies. The
`k`-th slot from the old `tail` holds the reference and the payload of the `k`-th descriptor of the accepted
requests, `payload[0]`, `payload[1]`, ... of one request in order; its reserved word is 0; its `ctrl` word is 0,
but for the last slot written, whose `ctrl` word is the notify bit alone. There are `written` of them. -/
def Obligations.SubmissionFillsSlotsInOrder : Prop :=
  ∀ (s : State) (i : Instr), i.cls = .producer → s.cfg.wf = true → Memory.wf s.mem = true → s.ringInv →
    s.accepts .producer = true → s.window = [] → s.configured = true →
    ((∃ n, i = .enqueue n) → s.mode = .slot) →
    ((∃ n, i = .submitBatch n) → s.mode = .batch ∧ s.fifo.length < s.cfg.poolSize) →
    recordsWf s.cfg s.mode i s.handed = true →
    let f := s.submission s.handed
    ∃ t, exec i s = .next t ∧
      (slotContents s.mode (s.handed.take f.taken)).length = f.written ∧
      ∀ (k : Nat) (c : Ref × List Byte), (slotContents s.mode (s.handed.take f.taken))[k]? = some c →
        slotRef s.cfg t.mem (wrapAdd s.wrapMask s.tail k) = c.1 ∧
        slotPayload s.cfg t.mem (wrapAdd s.wrapMask s.tail k) = c.2 ∧
        slotReserved s.cfg t.mem (wrapAdd s.wrapMask s.tail k) = 0 ∧
        slotCtrl s.cfg t.mem (wrapAdd s.wrapMask s.tail k) =
          (if k + 1 = f.written then 0x00000004#32 else 0x00000000#32)

/-- R206: the side effects of an ENQUEUE that passes its checks, in full: writes to the slots from the old
`tail` on, as many as it counts and at most `capacity - 1`, each write inside one of them and no other byte
changed; then one `WMB()`; then one MMIO write, the doorbell; one write each of `tail` and `shadow_tail`; no
read, no batch state. -/
def Obligations.EnqueueSideEffects : Prop :=
  ∀ (s : State) (n : Idx), s.cfg.wf = true → s.accepts .producer = true → s.window = [] →
    s.configured = true → s.mode = .slot → s.ringInv →
    recordsWf s.cfg .slot (.enqueue n) s.handed = true →
    let w := (s.submission s.handed).written
    ∃ (t : State) (r : Response) (writes : List Event), exec (.enqueue n) s = .next t ∧
      t.trace = .respond (encode (.enqueue n)) r ::
        .mmioWrite .pseq s.cfg.regBase s.cfg.offDoorbell (t.tail.setWidth 32) :: .wmb :: (writes ++ s.trace) ∧
      w ≤ s.capacity.toNat - 1 ∧
      (∀ e ∈ writes, ∃ k, k < w ∧ isSlotWrite s.cfg (wrapAdd s.wrapMask s.tail k) e) ∧
      (∀ a, (∀ k, k < w → ¬ inSlot s.cfg (wrapAdd s.wrapMask s.tail k) a) →
        Memory.read t.mem a = Memory.read s.mem a) ∧
      t.tail = wrapAdd s.wrapMask s.tail w ∧ t.shadowTail = t.tail ∧
      t.head = s.head ∧ t.enabled = s.enabled ∧ t.fifo = s.fifo ∧ t.choices = s.choices

/-- 10_state.md R38 with 42_submission.md R199: a submission that completes raises the pending count by the
slots it wrote and appends the references of the accepted requests, each as often as it has descriptors,
behind those that were pending. -/
def Obligations.SubmissionAppendsToPending : Prop :=
  ∀ (s t : State) (i : Instr), i.cls = .producer → s.cfg.wf = true → Memory.wf s.mem = true → s.ringInv →
    s.accepts .producer = true → s.window = [] → s.configured = true →
    ((∃ n, i = .enqueue n) → s.mode = .slot) →
    ((∃ n, i = .submitBatch n) → s.mode = .batch ∧ s.fifo.length < s.cfg.poolSize) →
    exec i s = .next t →
    t.pending = s.pending + (s.submission s.handed).written ∧
    t.pendingRefs = s.pendingRefs ++
      slotRefs s.mode (s.handed.take (s.submission s.handed).taken)

/-- 30_encoding.md R128: a number of records other than `n` gives an accepted command no meaning, whatever
the state of the ring; it is refused at the boundary, where the model's refusal stands (log 12). -/
def Obligations.WrongRecordCountRefused : Prop :=
  ∀ (s : State) (n : Idx), s.accepts .producer = true → s.handed.length ≠ n.toNat →
    exec (.enqueue n) s = .refused .recordCount ∧ exec (.submitBatch n) s = .refused .recordCount

/-! ## Completion Path (43_completion.md) -/

/-- R211, R214, R216, R217: DEQUEUE completes. The count is the number of done slots up to the first that
is not done, within `min(max, pending)`; the records are those of the counted slots in slot order, the
`error` bit and `hwstat` of each as they stand; `head` advances by the count. The scan reads the `ctrl` word of
each counted slot and of the one it stops at, in order; then the barrier; then the extraction reads `ctrl` and
`request_ref` of each counted slot, in order. -/
def Obligations.DequeueHandsBackTheDonePrefix : Prop :=
  ∀ (s : State) (max : Idx), s.accepts .consumer = true → s.window = [] → s.configured = true →
    s.mode = .slot →
    ∃ c : Nat,
      c ≤ min max.toNat s.pending ∧
      (∀ i, i < c → (slotCtrl s.cfg s.mem (s.pendingSlot i)).getLsbD 0 = true) ∧
      (c < min max.toNat s.pending → (slotCtrl s.cfg s.mem (s.pendingSlot c)).getLsbD 0 = false) ∧
      exec (.dequeue max) s = .next { s with
        port := s.port.tail
        head := wrapAdd s.wrapMask s.head c
        trace := .respond (encode (.dequeue max)) ⟨.ok, BitVec.ofNat 24 c,
          (List.range c).map (fun i => .compl (slotRef s.cfg s.mem (s.pendingSlot i))
            (if (slotCtrl s.cfg s.mem (s.pendingSlot i)).getLsbD 1 then .hwError else .ok)
            ((slotCtrl s.cfg s.mem (s.pendingSlot i)).extractLsb' 16 16))⟩ ::
          (s.extractReads c ++ .rmb :: (s.scanReads (min (c + 1) (min max.toNat s.pending)) ++ s.trace)) }

/-- R223: DEQUEUE hands back the oldest pending references in order and leaves the others pending in
order. -/
def Obligations.DequeueRemovesTheOldest : Prop :=
  ∀ (s t : State) (max : Idx), s.ringInv → s.accepts .consumer = true → s.window = [] →
    s.configured = true → s.mode = .slot → exec (.dequeue max) s = .next t →
    ∃ (c : Nat) (out : List OutRecord), c ≤ s.pending ∧
      t.trace.head? = some (.respond (encode (.dequeue max)) ⟨.ok, BitVec.ofNat 24 c, out⟩) ∧
      out.map completedRef = (s.pendingRefs.take c).map some ∧
      t.pendingRefs = s.pendingRefs.drop c ∧ t.pending = s.pending - c

/-! ## Batch Coordinator (44_batch.md) -/

/-- R233, R234, R237, R238: SUBMIT_BATCH completes on a BATCH ring. With every record in use it is answered
`ERR_NOBATCH` before anything is written. With a free record the Submission Path runs; when it accepted
nothing, no record is taken; else one record is taken and pushed with the byte offsets of old and new `tail`,
the accepted references, the counts, and the time, and its handle is answered. -/
def Obligations.SubmitBatchCompletes : Prop :=
  ∀ (s : State) (n : Idx), s.accepts .producer = true → s.window = [] → s.configured = true →
    s.mode = .batch → recordsWf s.cfg .batch (.submitBatch n) s.handed = true →
    let f := s.submission s.handed
    let u := s.submitted f
    (s.cfg.poolSize ≤ s.fifo.length →
      exec (.submitBatch n) s = .next (s.answered (encode (.submitBatch n)) ⟨.errNoBatch, 0, []⟩)) ∧
    (s.fifo.length < s.cfg.poolSize → f.accepted = 0 → exec (.submitBatch n) s = .next { u with
      trace := .respond (encode (.submitBatch n)) ⟨.ok, 0, f.disp⟩ :: u.trace }) ∧
    (s.fifo.length < s.cfg.poolSize → f.accepted ≠ 0 → exec (.submitBatch n) s = .next { u with
      choices := s.choices + 1
      fifo := s.fifo ++ [{
        bid := s.pickBid
        headOffset := BitVec.ofNat 32 (s.tail.toNat * s.cfg.descSize)
        tailOffset := BitVec.ofNat 32 ((s.newTail f).toNat * s.cfg.descSize)
        refs := acceptedRefs f.disp
        n := f.accepted
        descCount := f.written
        consumed := 0
        complete := false
        submitTime := s.now }]
      trace := .respond (encode (.submitBatch n))
        ⟨.ok, BitVec.ofNat 24 f.accepted, f.disp ++ [.handle s.pickBid]⟩ :: u.trace })

/-- 10_state.md R45: whatever the free value of log 11 is, the record SUBMIT_BATCH takes is one of the pool
that no batch of the FIFO has. -/
def Obligations.PickedRecordIsFree : Prop :=
  ∀ s : State, s.cfg.wf = true → s.fifoInv → s.fifo.length < s.cfg.poolSize →
    s.pickBid.toNat < s.cfg.poolSize ∧ ∀ b ∈ s.fifo, b.bid ≠ s.pickBid

/-- 45_admin.md R291: the records of the FIFO and the free records make up the pool. -/
def Obligations.PoolCountsAddUp : Prop :=
  ∀ s : State, s.fifoInv →
    s.fifo.length + s.freeRecords = s.cfg.poolSize ∧ s.freeRecords = s.freeBids.length

/-- R236, R253: the offsets of a span of 1 to `capacity - 1` slots differ; a span that runs past the end of
the ring has the smaller `tail_offset`, and one that ends with the last slot has `tail_offset == 0`. -/
def Obligations.SpanOffsets : Prop :=
  ∀ (p : Params) (capacity first : Idx) (k n : Nat), p.wf = true → k < 24 → capacity.toNat = 2 ^ k →
    capacity.toNat ≤ p.capMax → first.toNat < capacity.toNat → 1 ≤ n → n ≤ capacity.toNat - 1 →
    let last := wrapAdd (capacity - 1) first n
    byteOffset p first ≠ byteOffset p last ∧
    (first.toNat + n < capacity.toNat → (byteOffset p first).toNat < (byteOffset p last).toNat) ∧
    (capacity.toNat < first.toNat + n → (byteOffset p last).toNat < (byteOffset p first).toNat) ∧
    (first.toNat + n = capacity.toNat → byteOffset p last = 0)

/-- R244: for a reported head at a slot boundary, the batch is in progress exactly when the head is one of
the slots of its span, around the ring. -/
def Obligations.InProgressInsideTheSpan : Prop :=
  ∀ (p : Params) (capacity first at_ : Idx) (k n : Nat), p.wf = true → k < 24 → capacity.toNat = 2 ^ k →
    capacity.toNat ≤ p.capMax → first.toNat < capacity.toNat → at_.toNat < capacity.toNat → 1 ≤ n →
    n ≤ capacity.toNat - 1 →
    (inProgress (byteOffset p first) (byteOffset p (wrapAdd (capacity - 1) first n)) (byteOffset p at_) =
      true ↔ ∃ j, j < n ∧ at_ = wrapAdd (capacity - 1) first j)

/-- R241, R242, R243: POLL_BATCH on an empty FIFO answers `EMPTY` and touches nothing; on an unfinished
front batch it reads `HW_HEAD` once and answers `NOT_READY`. -/
def Obligations.PollBatchWithoutResult : Prop :=
  ∀ (s : State) (max : Idx), s.accepts .consumer = true → s.window = [] → s.configured = true →
    s.mode = .batch →
    (s.fifo = [] → exec (.pollBatch max) s =
      .next (s.answered (encode (.pollBatch max)) ⟨.empty, 0, []⟩)) ∧
    (∀ (b : Batch) (rest : List Batch), s.fifo = b :: rest → b.complete = false →
      inProgress b.headOffset b.tailOffset s.dev.hwHead = true →
      exec (.pollBatch max) s = .next { s with
        port := s.port.tail
        trace := .respond (encode (.pollBatch max)) ⟨.notReady, 0, []⟩ ::
          .mmioRead .cseq s.cfg.regBase s.cfg.offHwHead s.dev.hwHead :: s.trace })

/-- R241, R246 to R249, R251, R252: POLL_BATCH on a finished front batch. Not yet latched, it reads `HW_HEAD` once,
latches the batch and releases its slots; latched, it reads no register and `head` stays. Then it hands
back up to `max` of the remaining references in order, as `REQ_OK` with `hwstat` 0, and pops the batch
when none remains. -/
def Obligations.PollBatchDrainsTheFront : Prop :=
  ∀ (s : State) (max : Idx) (b : Batch) (rest : List Batch), s.accepts .consumer = true →
    s.window = [] → s.configured = true → s.mode = .batch → s.fifo = b :: rest →
    (b.complete = false → inProgress b.headOffset b.tailOffset s.dev.hwHead = false) →
    let k := min max.toNat (b.n - b.consumed)
    exec (.pollBatch max) s = .next { s with
      port := s.port.tail
      head := if b.complete then s.head else wrapAdd s.wrapMask s.head b.descCount
      fifo := if b.consumed + k = b.n then rest
        else { b with complete := true, consumed := b.consumed + k } :: rest
      trace := .respond (encode (.pollBatch max))
        ⟨.ok, BitVec.ofNat 24 k, ((b.refs.drop b.consumed).take k).map (fun r => .compl r .ok 0)⟩ ::
        (if b.complete then s.trace
          else .mmioRead .cseq s.cfg.regBase s.cfg.offHwHead s.dev.hwHead :: s.trace) }

/-- R255: BATCH_AGE completes in one step and writes nothing: `ERR_STATE` before CONFIGURE, `EMPTY` for an
empty FIFO, else the handle and the time stamp of the front batch. -/
def Obligations.BatchAgeAnswers : Prop :=
  ∀ s : State, s.accepts .query = true →
    (s.configured = false → exec .batchAge s = .next (s.answered 0x80000000#32 ⟨.errState, 0, []⟩)) ∧
    (s.configured = true → s.fifo = [] →
      exec .batchAge s = .next (s.answered 0x80000000#32 ⟨.empty, 0, []⟩)) ∧
    (∀ (b : Batch) (rest : List Batch), s.configured = true → s.fifo = b :: rest →
      exec .batchAge s = .next (s.answered 0x80000000#32 ⟨.ok, 0, [.age b.bid b.submitTime]⟩))

/-! ## Administrative operations and RDREG (45_admin.md) -/

/-- R272: START acknowledged. The device is silent for `k` polls and acknowledges before the next one,
within the poll window: START writes 1 to ADMIN_CTRL, reads ADMIN_STATUS `k + 1` times, sets `enabled` and
answers `OK`; nothing else of the DRC changes. -/
def Obligations.StartAcknowledged : Prop :=
  ∀ (s : State) (k : Nat), s.accepts .admin = true → s.configured = true → k < s.cfg.pollMax →
    s.dev.adminStatus.getLsbD 0 = false →
    s.window = List.replicate (k + 2) [] ++ [[.ackEnabled true]] →
    exec .start s = .next { s with
      port := s.port.tail
      window := []
      enabled := true
      dev := { s.dev with
        adminCtrl := 1#32, adminStatus := withEnabledAck s.dev.adminStatus true }
      trace := .respond 0x90000000#32 ⟨.ok, 0, []⟩ ::
        .mmioRead .aseq s.cfg.regBase s.cfg.offAdminStatus (withEnabledAck s.dev.adminStatus true) ::
        statusReads s.cfg s.dev.adminStatus k
          (.mmioWrite .aseq s.cfg.regBase s.cfg.offAdminCtrl 1#32 :: s.trace) }

/-- R273: STOP acknowledged in the same way: it writes 2, and `enabled` is 0 afterwards. -/
def Obligations.StopAcknowledged : Prop :=
  ∀ (s : State) (k : Nat), s.accepts .admin = true → s.configured = true → k < s.cfg.pollMax →
    s.dev.adminStatus.getLsbD 0 = true →
    s.window = List.replicate (k + 2) [] ++ [[.ackEnabled false]] →
    exec .stop s = .next { s with
      port := s.port.tail
      window := []
      enabled := false
      dev := { s.dev with
        adminCtrl := 2#32, adminStatus := withEnabledAck s.dev.adminStatus false }
      trace := .respond 0xA0000000#32 ⟨.ok, 0, []⟩ ::
        .mmioRead .aseq s.cfg.regBase s.cfg.offAdminStatus (withEnabledAck s.dev.adminStatus false) ::
        statusReads s.cfg s.dev.adminStatus k
          (.mmioWrite .aseq s.cfg.regBase s.cfg.offAdminCtrl 2#32 :: s.trace) }

/-- R274: FLUSH acknowledged: it writes 3, the device clears a stale `flush_done` and sets it again, and
`enabled` keeps its value. -/
def Obligations.FlushAcknowledged : Prop :=
  ∀ (s : State) (k : Nat), s.accepts .admin = true → s.configured = true → k < s.cfg.pollMax →
    s.window = List.replicate (k + 2) [] ++ [[.ackFlush]] →
    exec .flush s = .next { s with
      port := s.port.tail
      window := []
      dev := { s.dev with
        adminCtrl := 3#32, adminStatus := withFlushDone s.dev.adminStatus true }
      trace := .respond 0xB0000000#32 ⟨.ok, 0, []⟩ ::
        .mmioRead .aseq s.cfg.regBase s.cfg.offAdminStatus (withFlushDone s.dev.adminStatus true) ::
        statusReads s.cfg (withFlushDone s.dev.adminStatus false) k
          (.mmioWrite .aseq s.cfg.regBase s.cfg.offAdminCtrl 3#32 :: s.trace) }

/-- R277, R333: with no acknowledging step in the window, and the awaited value not already shown, START,
STOP and FLUSH read ADMIN_STATUS `ADMIN_POLL_MAX` times, leave `enabled` 0 and answer `ERR_TIMEOUT`; nothing
else of the DRC changes. -/
def Obligations.AdminTimesOut : Prop :=
  ∀ s : State, s.accepts .admin = true → s.configured = true → s.window = [] →
    (s.dev.adminStatus.getLsbD 0 = false → exec .start s = .next { s with
      port := s.port.tail
      enabled := false
      dev := { s.dev with adminCtrl := 1#32, startsOwed := s.dev.startsOwed + 1 }
      trace := .respond 0x90000000#32 ⟨.errTimeout, 0, []⟩ ::
        statusReads s.cfg s.dev.adminStatus s.cfg.pollMax
          (.mmioWrite .aseq s.cfg.regBase s.cfg.offAdminCtrl 1#32 :: s.trace) }) ∧
    (s.dev.adminStatus.getLsbD 0 = true → exec .stop s = .next { s with
      port := s.port.tail
      enabled := false
      dev := { s.dev with adminCtrl := 2#32, stopsOwed := s.dev.stopsOwed + 1 }
      trace := .respond 0xA0000000#32 ⟨.errTimeout, 0, []⟩ ::
        statusReads s.cfg s.dev.adminStatus s.cfg.pollMax
          (.mmioWrite .aseq s.cfg.regBase s.cfg.offAdminCtrl 2#32 :: s.trace) }) ∧
    (exec .flush s = .next { s with
      port := s.port.tail
      enabled := false
      dev := { s.dev with
        adminCtrl := 3#32, flushesOwed := s.dev.flushesOwed + 1
        adminStatus := withFlushDone s.dev.adminStatus false }
      trace := .respond 0xB0000000#32 ⟨.errTimeout, 0, []⟩ ::
        statusReads s.cfg (withFlushDone s.dev.adminStatus false) s.cfg.pollMax
          (.mmioWrite .aseq s.cfg.regBase s.cfg.offAdminCtrl 3#32 :: s.trace) })

/-- R278: START on a queue the device shows enabled, and STOP on one it shows disabled, end at their first
read. -/
def Obligations.AdminSucceedsAtFirstRead : Prop :=
  ∀ s : State, s.accepts .admin = true → s.configured = true → s.window = [] → 1 ≤ s.cfg.pollMax →
    (s.dev.adminStatus.getLsbD 0 = true → exec .start s = .next { s with
      port := s.port.tail
      enabled := true
      dev := { s.dev with adminCtrl := 1#32, startsOwed := s.dev.startsOwed + 1 }
      trace := .respond 0x90000000#32 ⟨.ok, 0, []⟩ ::
        .mmioRead .aseq s.cfg.regBase s.cfg.offAdminStatus s.dev.adminStatus ::
        .mmioWrite .aseq s.cfg.regBase s.cfg.offAdminCtrl 1#32 :: s.trace }) ∧
    (s.dev.adminStatus.getLsbD 0 = false → exec .stop s = .next { s with
      port := s.port.tail
      enabled := false
      dev := { s.dev with adminCtrl := 2#32, stopsOwed := s.dev.stopsOwed + 1 }
      trace := .respond 0xA0000000#32 ⟨.ok, 0, []⟩ ::
        .mmioRead .aseq s.cfg.regBase s.cfg.offAdminStatus s.dev.adminStatus ::
        .mmioWrite .aseq s.cfg.regBase s.cfg.offAdminCtrl 2#32 :: s.trace })

/-- R290: RDREG completes in one step, before CONFIGURE and in both modes, writes nothing and makes no
access, and answers the register of the table; CTRLSTAT has the seven flags in bits 0 to 6 and zeros
above. -/
def Obligations.RdregAnswersTheRegister : Prop :=
  ∀ s : State, s.accepts .query = true →
    (∃ v : Idx, exec (.rdreg 0) s = .next (s.answered 0xC0000000#32 ⟨.ok, v, []⟩) ∧
      v.getLsbD 0 = s.configured ∧ v.getLsbD 1 = s.enabled ∧
      v.getLsbD 2 = decide (s.mode = .batch) ∧ v.getLsbD 3 = decide (s.policy = .bestEffort) ∧
      v.getLsbD 4 = decide (s.kind = .decode) ∧ v.getLsbD 5 = s.pseq.isSome ∧
      v.getLsbD 6 = s.cseq.isSome ∧ v.extractLsb' 7 17 = 0#17) ∧
    exec (.rdreg 1) s = .next (s.answered 0xC0000001#32 ⟨.ok, s.capacity, []⟩) ∧
    exec (.rdreg 2) s = .next (s.answered 0xC0000002#32 ⟨.ok, s.wrapMask, []⟩) ∧
    exec (.rdreg 3) s = .next (s.answered 0xC0000003#32 ⟨.ok, s.head, []⟩) ∧
    exec (.rdreg 4) s = .next (s.answered 0xC0000004#32 ⟨.ok, s.tail, []⟩) ∧
    exec (.rdreg 5) s = .next (s.answered 0xC0000005#32 ⟨.ok, s.shadowTail, []⟩) ∧
    exec (.rdreg 6) s = .next (s.answered 0xC0000006#32 ⟨.ok, BitVec.ofNat 24 s.fifo.length, []⟩) ∧
    exec (.rdreg 7) s = .next (s.answered 0xC0000007#32
      ⟨.ok, BitVec.ofNat 24 (s.cfg.poolSize - s.fifo.length), []⟩)

/-! ## Status codes (60_exceptions.md) -/

/-- R335: an accepted command is answered `ERR_STATE` in exactly the listed cases, and then nothing else
happens; ENQUEUE and SUBMIT_BATCH are commands when they bring `n` records (30_encoding.md R128). -/
def Obligations.ErrStateExactly : Prop :=
  ∀ (s : State) (i : Instr), s.accepts i.cls = true → s.window = [] →
    (errStateCase s.configured s.mode i → (i.cls = .producer → s.handed.length = i.recordCount) →
      exec i s = .next (s.answered (encode i) ⟨.errState, 0, []⟩)) ∧
    (¬ errStateCase s.configured s.mode i →
      ∀ t r, exec i s = .next t → t.trace.head? = some (.respond (encode i) r) → r.status ≠ .errState)

/-- R332 to R334, R336 to R338: which commands raise which status, with any device steps inside them. -/
def Obligations.StatusesAreRaisedBy : Prop :=
  ∀ (s t : State) (i : Instr) (r : Response), s.accepts i.cls = true → exec i s = .next t →
    t.trace.head? = some (.respond (encode i) r) →
    (r.status = .errGeometry → ∃ k p m n, i = .configure k p m n) ∧
    (r.status = .errTimeout → i = .start ∨ i = .stop ∨ i = .flush) ∧
    (r.status = .errNoBatch → ∃ n, i = .submitBatch n) ∧
    (r.status = .notReady → ∃ max, i = .pollBatch max) ∧
    (r.status = .empty → i = .batchAge ∨ ∃ max, i = .pollBatch max) ∧
    r.status ≠ .errIllegal ∧
    (r.status ≠ .ok → r.value = 0 ∧ r.out = [])

/-- R340: the state after an `ERR_` response is the state before the command; after `ERR_TIMEOUT` only
`enabled` is 0 and the register accesses have been made. -/
def Obligations.ErrorsChangeNothing : Prop :=
  ∀ (s t : State) (i : Instr) (r : Response), s.accepts i.cls = true → s.window = [] →
    exec i s = .next t → t.trace.head? = some (.respond (encode i) r) →
    (r.status = .errGeometry ∨ r.status = .errState ∨ r.status = .errNoBatch →
      t = s.answered (encode i) r) ∧
    (r.status = .errTimeout →
      t = { s.answered (encode i) r with enabled := false, dev := t.dev, trace := t.trace })

/-! ## The device and the inputs (46_actors.md, 60_exceptions.md) -/

/-- R303: `dev.complete` on a device with work: the slot at `dev_head` gets `done`, the given `error` and
`hwstat`, `notify` kept or cleared; its reference stays; `dev_head` moves on. The result bytes go to its payload;
that they stand at its front is the model's choice, R303 says only "in the payload area" (log 17). Split in two,
the first half writes the status fields and leaves `done` and `dev_head`, and both halves together leave every
byte and the device as the one write does; the second half alone, or a device without work, does nothing. -/
def Obligations.DeviceCompletesTheNextSlot : Prop :=
  ∀ (s : State) (e keep irq : Bool) (h : HwStat) (result : List Byte), Memory.wf s.mem = true →
    let t := s.devStep (.complete e h result keep irq)
    let half := s.devStep (.writeStatus e h result)
    let whole := half.devStep (.setDone keep irq)
    (s.dev.hasWork = true →
      slotCtrl s.cfg t.mem s.dev.devHead = ctrlWord h (ctrlNotify s.devCtrl && keep) e true ∧
      slotRef s.cfg t.mem s.dev.devHead = slotRef s.cfg s.mem s.dev.devHead ∧
      slotPayload s.cfg t.mem s.dev.devHead =
        result.take s.cfg.payloadBytes ++ (slotPayload s.cfg s.mem s.dev.devHead).drop result.length ∧
      t.dev = { s.dev with
        devHead := wrapAdd s.dev.mask s.dev.devHead 1, statusWritten := false
        unreported := s.dev.unreported + 1 } ∧
      slotCtrl s.cfg half.mem s.dev.devHead =
        ctrlWord h (ctrlNotify s.devCtrl) e (ctrlDone s.devCtrl) ∧
      half.dev = { s.dev with statusWritten := true } ∧
      (∀ a, Memory.read whole.mem a = Memory.read t.mem a) ∧ whole.dev = t.dev) ∧
    (s.dev.statusWritten = false → s.devStep (.setDone keep irq) = s) ∧
    (s.dev.hasWork = false → t = s ∧ half = s ∧ s.devStep (.setDone keep irq) = s)

/-- R304: what no device step writes: any byte outside the slot at `dev_head`, any reference, any byte at
all when the device has no work, a DRC register, the FIFO, its own `db`. -/
def Obligations.DeviceNeverWrites : Prop :=
  ∀ (s : State) (d : DevStep), 16 ≤ s.cfg.descSize →
    let t := s.devStep d
    (∀ a, ¬ inSlot s.cfg s.dev.devHead a → Memory.read t.mem a = Memory.read s.mem a) ∧
    (∀ i, slotRef s.cfg t.mem i = slotRef s.cfg s.mem i) ∧
    (s.dev.hasWork = false → t.mem = s.mem) ∧
    t.head = s.head ∧ t.tail = s.tail ∧ t.shadowTail = s.shadowTail ∧ t.capacity = s.capacity ∧
    t.wrapMask = s.wrapMask ∧ t.enabled = s.enabled ∧ t.configured = s.configured ∧ t.fifo = s.fifo ∧
    t.pseq = s.pseq ∧ t.cseq = s.cseq ∧ t.aseq = s.aseq ∧ t.dev.doorbell = s.dev.doorbell

/-- R303: no device step turns a `done` bit back to 0. -/
def Obligations.DeviceNeverClearsDone : Prop :=
  ∀ (s : State) (d : DevStep) (i : Idx), Memory.wf s.mem = true → 16 ≤ s.cfg.descSize →
    ctrlDone (slotCtrl s.cfg s.mem i) = true → ctrlDone (slotCtrl s.cfg (s.devStep d).mem i) = true

/-- R305: the reported head. A report by `n` slots names the slot boundary `n` slots on along the ring path
from the previously reported index; it happens only for `n` up to and including `dev_head`, which is
`unreported` slots on (the lag may be of any amount, whole laps counted, log 26), and brings `dev_head` `n` slots
nearer. Any other report leaves the machine as it is, and every other device step leaves `HW_HEAD` as it is.
Every device step keeps the ring path sound. -/
def Obligations.DeviceReportMovesForward : Prop :=
  ∀ (s : State) (d : DevStep), s.cfg.wf = true → s.dev.pathInv s.cfg →
    let t := s.devStep d
    t.dev.pathInv s.cfg ∧
    ((∀ n, d ≠ .report n) → t.dev.hwHead = s.dev.hwHead) ∧
    (∀ n, d = .report n → s.dev.capacity = 0 ∨ s.dev.unreported < n → t = s) ∧
    (∀ n, d = .report n → s.dev.capacity ≠ 0 → n ≤ s.dev.unreported →
      t.dev.hwHead = byteOffset s.cfg (wrapAdd s.dev.mask (s.dev.reported s.cfg) n) ∧
      t.dev.reported s.cfg = wrapAdd s.dev.mask (s.dev.reported s.cfg) n ∧
      t.dev.devHead = s.dev.devHead ∧ t.dev.unreported + n = s.dev.unreported)

/-- R306: the bits of ADMIN_STATUS change only as an answer to a request of their kind that is not yet
answered, and the answer uses the request up; a request is counted when it is written, no device step adds one,
and a flush request clears `flush_done` in the step that makes it. That bits 31 to 2 never change is the model's
choice, not R306's (log 16). -/
def Obligations.DeviceAcksOnRequest : Prop :=
  (∀ (s : State) (d : DevStep),
    let a := s.dev.adminStatus
    let u := (s.devStep d).dev
    let b := u.adminStatus
    (b.getLsbD 0 ≠ a.getLsbD 0 →
      (b.getLsbD 0 = true → s.dev.startsOwed = u.startsOwed + 1) ∧
      (b.getLsbD 0 = false → s.dev.stopsOwed = u.stopsOwed + 1)) ∧
    (b.getLsbD 1 ≠ a.getLsbD 1 → b.getLsbD 1 = true ∧ s.dev.flushesOwed = u.flushesOwed + 1) ∧
    u.startsOwed ≤ s.dev.startsOwed ∧ u.stopsOwed ≤ s.dev.stopsOwed ∧
    u.flushesOwed ≤ s.dev.flushesOwed ∧
    (∀ j, 2 ≤ j → b.getLsbD j = a.getLsbD j)) ∧
  (∀ (s : State) (code : Word32),
    let u := (s.writeAdminCtrl code).dev
    u.adminCtrl = code ∧
    u.startsOwed = (if code = 1#32 then s.dev.startsOwed + 1 else s.dev.startsOwed) ∧
    u.stopsOwed = (if code = 2#32 then s.dev.stopsOwed + 1 else s.dev.stopsOwed) ∧
    u.flushesOwed = (if code = 3#32 then s.dev.flushesOwed + 1 else s.dev.flushesOwed) ∧
    (code = 3#32 → u.adminStatus.getLsbD 1 = false) ∧
    (∀ j, code ≠ 3#32 ∨ j ≠ 1 → u.adminStatus.getLsbD j = s.dev.adminStatus.getLsbD j))

/-- 60_exceptions.md R356: the time input never goes back. -/
def Obligations.TimeNeverGoesBack : Prop :=
  ∀ s t : State, step s = .next t → s.now.toNat ≤ t.now.toNat

/-! ## Reset (10_state.md R55, 70_reset_and_hazards.md) -/

/-- R55: the values after reset that the spec states. -/
def Obligations.ResetValues : Prop :=
  State.reset.configured = false ∧ State.reset.enabled = false ∧ bitOfMode State.reset.mode = false ∧
  bitOfPolicy State.reset.policy = false ∧ bitOfKind State.reset.kind = false ∧
  State.reset.capacity = 0 ∧ State.reset.wrapMask = 0 ∧ State.reset.head = 0 ∧ State.reset.tail = 0 ∧
  State.reset.shadowTail = 0 ∧ State.reset.pseq = none ∧ State.reset.cseq = none ∧
  State.reset.aseq = none ∧ State.reset.fifo = [] ∧ State.reset.freeRecords = State.reset.cfg.poolSize

/-- R370, R372: the reset input gives every piece of DRC state its reset value, hands out no response and
makes no register access; ring memory and the device stay. That the time, the waiting commands, the agenda and
the choice counter stay besides is the model's choice (log 18, log 23, log 6, log 11). -/
def Obligations.ResetInput : Prop :=
  ∀ s : State, s.perform .reset = .next { State.reset with
    cfg := s.cfg, mem := s.mem, dev := s.dev, now := s.now, port := s.port, agenda := s.agenda,
    choices := s.choices, trace := .reset :: s.trace }

/-! ## Invariants every step keeps -/

/-- Every step keeps ring memory in its canonical form. The form is the model's own: it rests on what an
unlisted address reads as (log 3); the spec's ring memory (20_memory.md R71) has none. -/
def Obligations.MemoryStaysCanonical : Prop :=
  ∀ s t : State, Memory.wf s.mem = true → step s = .next t → Memory.wf t.mem = true

/-- 10_state.md R38 (i), (ii): the geometry and the ranges of the indexes. -/
def Obligations.RingInvariantKept : Prop :=
  ∀ s t : State, s.cfg.wf = true → s.ringInv → step s = .next t → t.ringInv

/-- R38 (i), (ii), R44 to R47, R53, R305 and the rest of a sound state: every step keeps it. -/
def Obligations.SoundStateKept : Prop := ∀ s t : State, s.Inv → step s = .next t → t.Inv

/-- The model's state after reset is sound, its memory canonical. Beyond R55 this rests on the model's
default parameters (log 1, log 2), on its empty ring memory (log 3) and on its device that has been told no ring
(log 4, log 5). -/
def Obligations.ResetIsSound : Prop := State.reset.Inv ∧ Memory.wf State.reset.mem = true

/-- R156, R373, R54: between two resets the geometry, the mode, the policy and the kind of a constructed
ring never change, and the parameters never change at all. -/
def Obligations.GeometryFixedUntilReset : Prop :=
  ∀ s t : State, step s = .next t →
    t.cfg = s.cfg ∧
    (s.configured = true → s.agenda.head? ≠ some .reset →
      t.configured = true ∧ t.capacity = s.capacity ∧ t.wrapMask = s.wrapMask ∧ t.mode = s.mode ∧
      t.policy = s.policy ∧ t.kind = s.kind)

/-- R39: what one step of a sequencer may write. PSEQ moves `tail`, `shadow_tail` and slots, and pushes
batches at the end of the FIFO; CSEQ moves `head`, pops the front batch, or changes its latch and its
`consumed_count` and no other batch field; neither touches the other's registers, the geometry or `enabled`.
ASEQ writes no slot, and once the ring is constructed it moves no index. -/
def Obligations.SequencersOwnTheirRegisters : Prop :=
  (∀ s : State,
    let t := s.pseqStep
    t.head = s.head ∧ t.enabled = s.enabled ∧ t.configured = s.configured ∧ t.capacity = s.capacity ∧
    t.wrapMask = s.wrapMask ∧ t.mode = s.mode ∧ t.policy = s.policy ∧ t.kind = s.kind ∧
    (∃ l, t.fifo = s.fifo ++ l)) ∧
  (∀ s : State,
    let t := s.cseqStep
    t.tail = s.tail ∧ t.shadowTail = s.shadowTail ∧ t.enabled = s.enabled ∧ t.configured = s.configured ∧
    t.capacity = s.capacity ∧ t.wrapMask = s.wrapMask ∧ t.mode = s.mode ∧ t.policy = s.policy ∧
    t.kind = s.kind ∧ t.mem = s.mem ∧ t.dev = s.dev ∧
    (t.fifo = s.fifo ∨ t.fifo = s.fifo.tail ∨
      ∃ b rest latch count, s.fifo = b :: rest ∧
        t.fifo = { b with complete := latch, consumed := count } :: rest)) ∧
  (∀ s : State,
    let t := s.aseqStep
    t.mem = s.mem ∧ t.dev.doorbell = s.dev.doorbell ∧
    (s.configured = true →
      t.head = s.head ∧ t.tail = s.tail ∧ t.shadowTail = s.shadowTail ∧ t.fifo = s.fifo ∧
      t.capacity = s.capacity ∧ t.wrapMask = s.wrapMask ∧ t.mode = s.mode ∧ t.policy = s.policy ∧
      t.kind = s.kind ∧ t.configured = true))

/-- 43_completion.md R223, 10_state.md R39: what the transitions do to the pending references of a sound
state. PSEQ only appends, at step E5; CSEQ only takes from the front, at steps Q5 and B5; the device
changes none of them. -/
def Obligations.PendingReferencesMoveInOrder : Prop :=
  ∀ s : State, s.Inv → s.configured = true →
    (∃ l, s.pseqStep.pendingRefs = s.pendingRefs ++ l ∧
      (∀ c, s.pseq = some c → c.pos = .e5 → l.length = c.written) ∧
      ((∀ c, s.pseq = some c → c.pos ≠ .e5) → l = [])) ∧
    (∃ k, s.cseqStep.pendingRefs = s.pendingRefs.drop k ∧
      (∀ c, s.cseq = some c → c.pos = .q5 → k = c.confirmed) ∧
      (∀ c b rest, s.cseq = some c → c.pos = .b5 → s.fifo = b :: rest → k = b.descCount) ∧
      ((∀ c, s.cseq = some c → c.pos ≠ .q5 ∧ c.pos ≠ .b5) → k = 0)) ∧
    (∀ d, (s.devStep d).pendingRefs = s.pendingRefs)
end

