-- ==== Sys2Proof/Laws/Index.lean ====
section
/-!
SUPPORT. Index arithmetic on a ring whose capacity is a power of two (00_scope.md R14, 41_capacity.md R175,
R176) and the doubling loop of `RingSize` (40_geometry_config.md R151).
-/

namespace Sys2Proof.Machine

/-- The wrap mask of a power-of-two capacity. -/
theorem mask_toNat {capacity : Idx} {k : Nat} (hc : capacity.toNat = 2 ^ k) :
    (capacity - 1).toNat = 2 ^ k - 1 := by
  have := capacity.isLt
  have := Nat.two_pow_pos k
  rw [BitVec.toNat_sub, hc]
  simp only [BitVec.ofNat_eq_ofNat, BitVec.toNat_ofNat]
  omega

/-- Masking is the remainder (R14). -/
theorem and_mask_toNat {capacity : Idx} {k : Nat} (x : Idx) (hc : capacity.toNat = 2 ^ k) :
    (x &&& (capacity - 1)).toNat = x.toNat % 2 ^ k := by
  rw [BitVec.toNat_and, mask_toNat hc, Nat.and_two_pow_sub_one_eq_mod]

theorem pow_dvd_of_lt {k : Nat} (hk : k < 24) : 2 ^ k ∣ 2 ^ 24 :=
  Nat.pow_dvd_pow 2 (by omega)

/-- `(x + n) & wrap_mask` is `(x + n) mod capacity`, whatever the sum (R14, R175). -/
theorem wrapAdd_toNat {capacity : Idx} {k : Nat} (x : Idx) (n : Nat) (hk : k < 24)
    (hc : capacity.toNat = 2 ^ k) :
    (wrapAdd (capacity - 1) x n).toNat = (x.toNat + n) % 2 ^ k := by
  rw [wrapAdd, and_mask_toNat _ hc, BitVec.toNat_add, BitVec.toNat_ofNat,
    Nat.mod_mod_of_dvd _ (pow_dvd_of_lt hk), Nat.add_mod,
    Nat.mod_mod_of_dvd _ (pow_dvd_of_lt hk), ← Nat.add_mod]

/-- A masked index names a slot of the ring. -/
theorem wrapAdd_lt {capacity : Idx} {k : Nat} (x : Idx) (n : Nat) (hk : k < 24)
    (hc : capacity.toNat = 2 ^ k) : (wrapAdd (capacity - 1) x n).toNat < capacity.toNat := by
  rw [wrapAdd_toNat x n hk hc, hc]
  exact Nat.mod_lt _ (Nat.two_pow_pos k)

/-- `(a - b) & wrap_mask` of two indexes of the ring (R176). -/
theorem wrapSub_toNat {capacity a b : Idx} {k : Nat} (hk : k < 24) (hc : capacity.toNat = 2 ^ k)
    (ha : a.toNat < 2 ^ k) (hb : b.toNat < 2 ^ k) :
    (wrapSub (capacity - 1) a b).toNat = if b.toNat ≤ a.toNat then a.toNat - b.toNat
      else 2 ^ k + a.toNat - b.toNat := by
  rw [wrapSub, and_mask_toNat _ hc, BitVec.toNat_sub, Nat.mod_mod_of_dvd _ (pow_dvd_of_lt hk)]
  obtain ⟨q, hq⟩ := pow_dvd_of_lt hk
  have hq0 : 0 < q := by
    rcases Nat.eq_zero_or_pos q with rfl | h
    · simp at hq
    · exact h
  obtain ⟨q', rfl⟩ : ∃ q', q = q' + 1 := ⟨q - 1, by omega⟩
  have h24 : (2 : Nat) ^ 24 = 2 ^ k * q' + 2 ^ k := by rw [hq, Nat.mul_add, Nat.mul_one]
  split
  · rw [show 2 ^ 24 - b.toNat + a.toNat = (a.toNat - b.toNat) + 2 ^ k * (q' + 1) by
      rw [Nat.mul_add, Nat.mul_one]; omega, Nat.add_mul_mod_self_left, Nat.mod_eq_of_lt (by omega)]
  · rw [show 2 ^ 24 - b.toNat + a.toNat = (2 ^ k + a.toNat - b.toNat) + 2 ^ k * q' by omega,
      Nat.add_mul_mod_self_left, Nat.mod_eq_of_lt (by omega)]

/-- Advancing the minuend by `n` raises the difference by `n`, while there is room (R178). -/
theorem wrapSub_wrapAdd_left {capacity a b : Idx} {k n : Nat} (hk : k < 24)
    (hc : capacity.toNat = 2 ^ k) (ha : a.toNat < 2 ^ k) (hb : b.toNat < 2 ^ k)
    (hn : (wrapSub (capacity - 1) a b).toNat + n < 2 ^ k) :
    (wrapSub (capacity - 1) (wrapAdd (capacity - 1) a n) b).toNat =
      (wrapSub (capacity - 1) a b).toNat + n := by
  have hlt := wrapAdd_lt (capacity := capacity) a n hk hc
  rw [hc] at hlt
  rw [wrapSub_toNat hk hc ha hb] at hn
  rw [wrapSub_toNat hk hc hlt hb, wrapSub_toNat hk hc ha hb, wrapAdd_toNat a n hk hc]
  by_cases h : a.toNat + n < 2 ^ k
  · rw [Nat.mod_eq_of_lt h]
    split at hn <;> split <;> omega
  · rw [Nat.mod_eq_sub_mod (by omega), Nat.mod_eq_of_lt (by split at hn <;> omega)]
    split at hn <;> split <;> omega

/-- Advancing the subtrahend by `n` lowers the difference by `n`, while it lasts (R178). -/
theorem wrapSub_wrapAdd_right {capacity a b : Idx} {k n : Nat} (hk : k < 24)
    (hc : capacity.toNat = 2 ^ k) (ha : a.toNat < 2 ^ k) (hb : b.toNat < 2 ^ k)
    (hn : n ≤ (wrapSub (capacity - 1) a b).toNat) :
    (wrapSub (capacity - 1) a (wrapAdd (capacity - 1) b n)).toNat =
      (wrapSub (capacity - 1) a b).toNat - n := by
  have hlt := wrapAdd_lt (capacity := capacity) b n hk hc
  rw [hc] at hlt
  rw [wrapSub_toNat hk hc ha hb] at hn
  rw [wrapSub_toNat hk hc ha hlt, wrapSub_toNat hk hc ha hb, wrapAdd_toNat b n hk hc]
  by_cases h : b.toNat + n < 2 ^ k
  · rw [Nat.mod_eq_of_lt h]
    split at hn <;> split <;> omega
  · rw [Nat.mod_eq_sub_mod (by omega), Nat.mod_eq_of_lt (by split at hn <;> omega)]
    split at hn <;> split <;> omega

/-- Two advances in a row. -/
theorem wrapAdd_wrapAdd {capacity : Idx} {k : Nat} (x : Idx) (m n : Nat) (hk : k < 24)
    (hc : capacity.toNat = 2 ^ k) :
    wrapAdd (capacity - 1) (wrapAdd (capacity - 1) x m) n = wrapAdd (capacity - 1) x (m + n) := by
  apply BitVec.eq_of_toNat_eq
  rw [wrapAdd_toNat _ _ hk hc, wrapAdd_toNat _ _ hk hc, wrapAdd_toNat _ _ hk hc, Nat.mod_add_mod,
    Nat.add_assoc]

/-- Different distances below the capacity lead to different slots. -/
theorem wrapAdd_inj {capacity : Idx} {k m n : Nat} (x : Idx) (hk : k < 24)
    (hc : capacity.toNat = 2 ^ k) (hm : m < 2 ^ k) (hn : n < 2 ^ k)
    (h : wrapAdd (capacity - 1) x m = wrapAdd (capacity - 1) x n) : m = n := by
  have h' := congrArg BitVec.toNat h
  rw [wrapAdd_toNat _ _ hk hc, wrapAdd_toNat _ _ hk hc] at h'
  have : m % 2 ^ k = n % 2 ^ k := Nat.ModEq.add_left_cancel' x.toNat h'
  rwa [Nat.mod_eq_of_lt hm, Nat.mod_eq_of_lt hn] at this

/-! ### RingSize -/

/-- The doubling loop started at a power of two answers a power of two. -/
theorem ringSizeFrom_pow (requested fuel j : Nat) :
    ∃ i, ringSizeFrom requested fuel (2 ^ j) = 2 ^ (j + i) ∧ i ≤ fuel := by
  induction fuel generalizing j with
  | zero => exact ⟨0, rfl, by omega⟩
  | succ fuel ih =>
    unfold ringSizeFrom
    split
    · obtain ⟨i, hi, hle⟩ := ih (j + 1)
      rw [Nat.pow_succ, Nat.mul_comm] at hi
      exact ⟨i + 1, by rw [hi]; congr 1; omega, by omega⟩
    · exact ⟨0, rfl, by omega⟩

end Sys2Proof.Machine
end

