-- ==== Sys2Proof/Laws/Memory.lean ====
section
/-!
SUPPORT. Ring memory: every operation keeps the canonical form, a read after a write, the byte order.
-/

namespace Sys2Proof.Machine

/-! ### The canonical form -/

@[simp] theorem Memory.wf_nil : Memory.wf [] = true := rfl

theorem Memory.wf_cons_iff (c : Host.Cell) (m : Memory) :
    Memory.wf (c :: m) = true ↔
      c.2 ≠ Memory.unlisted ∧ (∀ d ∈ m, c.1 < d.1) ∧ Memory.wf m = true := by
  obtain ⟨a, v⟩ := c
  simp [Memory.wf, and_assoc]

/-- The addresses of a written memory: the written one and the old ones. -/
theorem Memory.mem_write_addr {m : Memory} {x : Nat} {v : Byte} {c : Host.Cell}
    (h : c ∈ Memory.write m x v) : c.1 = x ∨ c ∈ m := by
  induction m with
  | nil =>
    unfold Memory.write Memory.cons at h
    split at h <;> simp_all
  | cons d m ih =>
    obtain ⟨a, w⟩ := d
    unfold Memory.write Memory.cons at h
    grind

/-- A write keeps the canonical form. -/
theorem Memory.write_wf {m : Memory} (x : Nat) (v : Byte) (h : Memory.wf m = true) :
    Memory.wf (Memory.write m x v) = true := by
  induction m with
  | nil =>
    unfold Memory.write Memory.cons
    split <;> simp_all [Memory.wf]
  | cons d m ih =>
    obtain ⟨a, w⟩ := d
    obtain ⟨hw, hlt, hm⟩ := (Memory.wf_cons_iff _ _).1 h
    unfold Memory.write Memory.cons
    split
    · split
      · exact h
      · refine (Memory.wf_cons_iff _ _).2 ⟨by assumption, ?_, h⟩
        intro d hd
        rcases List.mem_cons.1 hd with rfl | hd
        · assumption
        · have := hlt d hd
          simp only at *
          omega
    · split
      · split
        · exact hm
        · refine (Memory.wf_cons_iff _ _).2 ⟨by assumption, ?_, hm⟩
          intro d hd
          have := hlt d hd
          simp only at *
          omega
      · refine (Memory.wf_cons_iff _ _).2 ⟨hw, ?_, ih hm⟩
        intro d hd
        rcases Memory.mem_write_addr hd with h1 | h1
        · simp only at *
          omega
        · exact hlt d h1

/-- A write of several bytes keeps the canonical form. -/
theorem Memory.writeBytes_wf {m : Memory} (a : Nat) (bs : List Byte) (h : Memory.wf m = true) :
    Memory.wf (m.writeBytes a bs) = true := by
  induction bs generalizing m a with
  | nil => exact h
  | cons b bs ih => exact ih (a + 1) (Memory.write_wf a b h)

/-! ### Reads after writes -/

/-- Addresses below every listed one read as unlisted. -/
theorem Memory.read_of_lt {m : Memory} {x : Nat} (h : ∀ d ∈ m, x < d.1) :
    Memory.read m x = Memory.unlisted := by
  induction m with
  | nil => rfl
  | cons d m ih =>
    obtain ⟨a, w⟩ := d
    have := h (a, w) (by simp)
    rw [Memory.read, if_neg (by simp only at this; omega)]
    exact ih (fun d hd => h d (by simp [hd]))

/-- The byte written is the byte read. -/
theorem Memory.read_write_same {m : Memory} (x : Nat) (v : Byte) (h : Memory.wf m = true) :
    Memory.read (Memory.write m x v) x = v := by
  induction m with
  | nil =>
    unfold Memory.write Memory.cons
    split <;> simp_all [Memory.read]
  | cons d m ih =>
    obtain ⟨a, w⟩ := d
    obtain ⟨-, hlt, hm⟩ := (Memory.wf_cons_iff _ _).1 h
    unfold Memory.write Memory.cons
    split
    · split
      · rename_i h1 h2
        rw [h2]
        refine Memory.read_of_lt (fun d hd => ?_)
        rcases List.mem_cons.1 hd with rfl | hd
        · exact h1
        · have := hlt d hd
          simp only at *
          omega
      · simp [Memory.read]
    · split
      · rename_i h1
        subst h1
        split
        · rename_i h2
          rw [h2]
          exact Memory.read_of_lt hlt
        · simp [Memory.read]
      · rw [Memory.read, if_neg (by assumption)]
        exact ih hm

/-- A write leaves every other byte alone, in any memory. -/
theorem Memory.read_write_other {m : Memory} {x y : Nat} (v : Byte) (hne : y ≠ x) :
    Memory.read (Memory.write m x v) y = Memory.read m y := by
  induction m with
  | nil =>
    unfold Memory.write Memory.cons
    split <;> simp_all [Memory.read]
  | cons d m ih =>
    obtain ⟨a, w⟩ := d
    unfold Memory.write Memory.cons
    grind [Memory.read]

/-- A write of several bytes leaves every byte outside them alone. -/
theorem Memory.read_writeBytes_outside {m : Memory} {a y : Nat} {bs : List Byte}
    (h : y < a ∨ a + bs.length ≤ y) : Memory.read (m.writeBytes a bs) y = Memory.read m y := by
  induction bs generalizing m a with
  | nil => rfl
  | cons b bs ih =>
    rw [Memory.writeBytes, ih (by simp at h; omega), Memory.read_write_other b (by simp at h; omega)]

/-- The bytes written are the bytes read. -/
theorem Memory.read_writeBytes_inside {m : Memory} {a k : Nat} {bs : List Byte}
    (hwf : Memory.wf m = true) (h : k < bs.length) :
    Memory.read (m.writeBytes a bs) (a + k) = bs[k] := by
  induction bs generalizing m a k with
  | nil => simp at h
  | cons b bs ih =>
    rw [Memory.writeBytes]
    cases k with
    | zero =>
      rw [Memory.read_writeBytes_outside (by omega)]
      simpa using Memory.read_write_same a b hwf
    | succ k =>
      have := ih (m := Memory.write m a b) (a := a + 1) (k := k) (Memory.write_wf a b hwf)
        (by simpa using h)
      simpa [Nat.add_assoc, Nat.add_comm 1 k] using this

@[simp] theorem Memory.readBytes_length (m : Memory) (a n : Nat) :
    (m.readBytes a n).length = n := by
  induction n generalizing a with
  | zero => rfl
  | succ n ih => simp [Memory.readBytes, ih]

/-- Two memories that agree on `n` bytes from `a` give the same bytes. -/
theorem Memory.readBytes_congr {m m' : Memory} {a n : Nat}
    (h : ∀ k, k < n → Memory.read m (a + k) = Memory.read m' (a + k)) :
    m.readBytes a n = m'.readBytes a n := by
  induction n generalizing a with
  | zero => rfl
  | succ n ih =>
    have h0 := h 0 (by omega)
    have ih' := ih (a := a + 1) (fun k hk => by
      have := h (k + 1) (by omega)
      rwa [show a + (k + 1) = a + 1 + k by omega] at this)
    simp only [Nat.add_zero] at h0
    rw [Memory.readBytes, Memory.readBytes, h0, ih']

/-- Reading back exactly the bytes written. -/
theorem Memory.readBytes_writeBytes_same {m : Memory} (a : Nat) (bs : List Byte)
    (hwf : Memory.wf m = true) : (m.writeBytes a bs).readBytes a bs.length = bs := by
  induction bs generalizing m a with
  | nil => rfl
  | cons b bs ih =>
    rw [List.length_cons, Memory.readBytes, Memory.writeBytes,
      Memory.read_writeBytes_outside (by omega), Memory.read_write_same a b hwf,
      ih (a + 1) (Memory.write_wf a b hwf)]

/-- Bytes outside a write are read as before. -/
theorem Memory.readBytes_writeBytes_other {m : Memory} {a y n : Nat} {bs : List Byte}
    (h : y + n ≤ a ∨ a + bs.length ≤ y) : (m.writeBytes a bs).readBytes y n = m.readBytes y n :=
  Memory.readBytes_congr (fun k hk => Memory.read_writeBytes_outside (by omega))

/-! ### Byte order -/

@[simp] theorem leBytes_length (n v : Nat) : (leBytes n v).length = n := by
  induction n generalizing v with
  | zero => rfl
  | succ n ih => simp [leBytes, ih]

/-- The bytes of a number, read back. -/
theorem leValue_leBytes (n v : Nat) : leValue (leBytes n v) = v % 256 ^ n := by
  induction n generalizing v with
  | zero => simp [leBytes, leValue, Nat.mod_one]
  | succ n ih =>
    have h : 256 ^ (n + 1) = 256 * 256 ^ n := by rw [Nat.pow_succ, Nat.mul_comm]
    rw [leBytes, leValue, ih, BitVec.toNat_ofNat, h, Nat.mod_mul]

/-- A number written little-endian and read back, with other bytes between read or written. -/
theorem leValue_readBytes_writeBytes {m : Memory} (a n v : Nat) (hwf : Memory.wf m = true) :
    leValue ((m.writeBytes a (leBytes n v)).readBytes a n) = v % 256 ^ n := by
  have h := Memory.readBytes_writeBytes_same a (leBytes n v) hwf
  rw [leBytes_length] at h
  rw [h, leValue_leBytes]

end Sys2Proof.Machine
end

