-- ==== Sys2Proof/Laws/State.lean ====
section
/-!
SUPPORT. The named updates of State: one lemma per field per update, so that no later proof unfolds a record
update.
-/

namespace Sys2Proof.Machine

/-! ### setConfigured -/

@[simp] theorem State.setConfigured_cfg (s : State) (b : Bool) : (s.setConfigured b).cfg = s.cfg := rfl
@[simp] theorem State.setConfigured_configured (s : State) (b : Bool) : (s.setConfigured b).configured = b := rfl
@[simp] theorem State.setConfigured_enabled (s : State) (b : Bool) : (s.setConfigured b).enabled = s.enabled := rfl
@[simp] theorem State.setConfigured_mode (s : State) (b : Bool) : (s.setConfigured b).mode = s.mode := rfl
@[simp] theorem State.setConfigured_policy (s : State) (b : Bool) : (s.setConfigured b).policy = s.policy := rfl
@[simp] theorem State.setConfigured_kind (s : State) (b : Bool) : (s.setConfigured b).kind = s.kind := rfl
@[simp] theorem State.setConfigured_capacity (s : State) (b : Bool) : (s.setConfigured b).capacity = s.capacity := rfl
@[simp] theorem State.setConfigured_wrapMask (s : State) (b : Bool) : (s.setConfigured b).wrapMask = s.wrapMask := rfl
@[simp] theorem State.setConfigured_head (s : State) (b : Bool) : (s.setConfigured b).head = s.head := rfl
@[simp] theorem State.setConfigured_tail (s : State) (b : Bool) : (s.setConfigured b).tail = s.tail := rfl
@[simp] theorem State.setConfigured_shadowTail (s : State) (b : Bool) : (s.setConfigured b).shadowTail = s.shadowTail := rfl
@[simp] theorem State.setConfigured_mem (s : State) (b : Bool) : (s.setConfigured b).mem = s.mem := rfl
@[simp] theorem State.setConfigured_fifo (s : State) (b : Bool) : (s.setConfigured b).fifo = s.fifo := rfl
@[simp] theorem State.setConfigured_pseq (s : State) (b : Bool) : (s.setConfigured b).pseq = s.pseq := rfl
@[simp] theorem State.setConfigured_cseq (s : State) (b : Bool) : (s.setConfigured b).cseq = s.cseq := rfl
@[simp] theorem State.setConfigured_aseq (s : State) (b : Bool) : (s.setConfigured b).aseq = s.aseq := rfl
@[simp] theorem State.setConfigured_dev (s : State) (b : Bool) : (s.setConfigured b).dev = s.dev := rfl
@[simp] theorem State.setConfigured_now (s : State) (b : Bool) : (s.setConfigured b).now = s.now := rfl
@[simp] theorem State.setConfigured_port (s : State) (b : Bool) : (s.setConfigured b).port = s.port := rfl
@[simp] theorem State.setConfigured_agenda (s : State) (b : Bool) : (s.setConfigured b).agenda = s.agenda := rfl
@[simp] theorem State.setConfigured_window (s : State) (b : Bool) : (s.setConfigured b).window = s.window := rfl
@[simp] theorem State.setConfigured_trace (s : State) (b : Bool) : (s.setConfigured b).trace = s.trace := rfl
@[simp] theorem State.setConfigured_choices (s : State) (b : Bool) : (s.setConfigured b).choices = s.choices := rfl

/-! ### setEnabled -/

@[simp] theorem State.setEnabled_cfg (s : State) (b : Bool) : (s.setEnabled b).cfg = s.cfg := rfl
@[simp] theorem State.setEnabled_configured (s : State) (b : Bool) : (s.setEnabled b).configured = s.configured := rfl
@[simp] theorem State.setEnabled_enabled (s : State) (b : Bool) : (s.setEnabled b).enabled = b := rfl
@[simp] theorem State.setEnabled_mode (s : State) (b : Bool) : (s.setEnabled b).mode = s.mode := rfl
@[simp] theorem State.setEnabled_policy (s : State) (b : Bool) : (s.setEnabled b).policy = s.policy := rfl
@[simp] theorem State.setEnabled_kind (s : State) (b : Bool) : (s.setEnabled b).kind = s.kind := rfl
@[simp] theorem State.setEnabled_capacity (s : State) (b : Bool) : (s.setEnabled b).capacity = s.capacity := rfl
@[simp] theorem State.setEnabled_wrapMask (s : State) (b : Bool) : (s.setEnabled b).wrapMask = s.wrapMask := rfl
@[simp] theorem State.setEnabled_head (s : State) (b : Bool) : (s.setEnabled b).head = s.head := rfl
@[simp] theorem State.setEnabled_tail (s : State) (b : Bool) : (s.setEnabled b).tail = s.tail := rfl
@[simp] theorem State.setEnabled_shadowTail (s : State) (b : Bool) : (s.setEnabled b).shadowTail = s.shadowTail := rfl
@[simp] theorem State.setEnabled_mem (s : State) (b : Bool) : (s.setEnabled b).mem = s.mem := rfl
@[simp] theorem State.setEnabled_fifo (s : State) (b : Bool) : (s.setEnabled b).fifo = s.fifo := rfl
@[simp] theorem State.setEnabled_pseq (s : State) (b : Bool) : (s.setEnabled b).pseq = s.pseq := rfl
@[simp] theorem State.setEnabled_cseq (s : State) (b : Bool) : (s.setEnabled b).cseq = s.cseq := rfl
@[simp] theorem State.setEnabled_aseq (s : State) (b : Bool) : (s.setEnabled b).aseq = s.aseq := rfl
@[simp] theorem State.setEnabled_dev (s : State) (b : Bool) : (s.setEnabled b).dev = s.dev := rfl
@[simp] theorem State.setEnabled_now (s : State) (b : Bool) : (s.setEnabled b).now = s.now := rfl
@[simp] theorem State.setEnabled_port (s : State) (b : Bool) : (s.setEnabled b).port = s.port := rfl
@[simp] theorem State.setEnabled_agenda (s : State) (b : Bool) : (s.setEnabled b).agenda = s.agenda := rfl
@[simp] theorem State.setEnabled_window (s : State) (b : Bool) : (s.setEnabled b).window = s.window := rfl
@[simp] theorem State.setEnabled_trace (s : State) (b : Bool) : (s.setEnabled b).trace = s.trace := rfl
@[simp] theorem State.setEnabled_choices (s : State) (b : Bool) : (s.setEnabled b).choices = s.choices := rfl

/-! ### setOptions -/

@[simp] theorem State.setOptions_cfg (s : State) (m : Mode) (p : Policy) (k : Kind) : (s.setOptions m p k).cfg = s.cfg := rfl
@[simp] theorem State.setOptions_configured (s : State) (m : Mode) (p : Policy) (k : Kind) : (s.setOptions m p k).configured = s.configured := rfl
@[simp] theorem State.setOptions_enabled (s : State) (m : Mode) (p : Policy) (k : Kind) : (s.setOptions m p k).enabled = s.enabled := rfl
@[simp] theorem State.setOptions_mode (s : State) (m : Mode) (p : Policy) (k : Kind) : (s.setOptions m p k).mode = m := rfl
@[simp] theorem State.setOptions_policy (s : State) (m : Mode) (p : Policy) (k : Kind) : (s.setOptions m p k).policy = p := rfl
@[simp] theorem State.setOptions_kind (s : State) (m : Mode) (p : Policy) (k : Kind) : (s.setOptions m p k).kind = k := rfl
@[simp] theorem State.setOptions_capacity (s : State) (m : Mode) (p : Policy) (k : Kind) : (s.setOptions m p k).capacity = s.capacity := rfl
@[simp] theorem State.setOptions_wrapMask (s : State) (m : Mode) (p : Policy) (k : Kind) : (s.setOptions m p k).wrapMask = s.wrapMask := rfl
@[simp] theorem State.setOptions_head (s : State) (m : Mode) (p : Policy) (k : Kind) : (s.setOptions m p k).head = s.head := rfl
@[simp] theorem State.setOptions_tail (s : State) (m : Mode) (p : Policy) (k : Kind) : (s.setOptions m p k).tail = s.tail := rfl
@[simp] theorem State.setOptions_shadowTail (s : State) (m : Mode) (p : Policy) (k : Kind) : (s.setOptions m p k).shadowTail = s.shadowTail := rfl
@[simp] theorem State.setOptions_mem (s : State) (m : Mode) (p : Policy) (k : Kind) : (s.setOptions m p k).mem = s.mem := rfl
@[simp] theorem State.setOptions_fifo (s : State) (m : Mode) (p : Policy) (k : Kind) : (s.setOptions m p k).fifo = s.fifo := rfl
@[simp] theorem State.setOptions_pseq (s : State) (m : Mode) (p : Policy) (k : Kind) : (s.setOptions m p k).pseq = s.pseq := rfl
@[simp] theorem State.setOptions_cseq (s : State) (m : Mode) (p : Policy) (k : Kind) : (s.setOptions m p k).cseq = s.cseq := rfl
@[simp] theorem State.setOptions_aseq (s : State) (m : Mode) (p : Policy) (k : Kind) : (s.setOptions m p k).aseq = s.aseq := rfl
@[simp] theorem State.setOptions_dev (s : State) (m : Mode) (p : Policy) (k : Kind) : (s.setOptions m p k).dev = s.dev := rfl
@[simp] theorem State.setOptions_now (s : State) (m : Mode) (p : Policy) (k : Kind) : (s.setOptions m p k).now = s.now := rfl
@[simp] theorem State.setOptions_port (s : State) (m : Mode) (p : Policy) (k : Kind) : (s.setOptions m p k).port = s.port := rfl
@[simp] theorem State.setOptions_agenda (s : State) (m : Mode) (p : Policy) (k : Kind) : (s.setOptions m p k).agenda = s.agenda := rfl
@[simp] theorem State.setOptions_window (s : State) (m : Mode) (p : Policy) (k : Kind) : (s.setOptions m p k).window = s.window := rfl
@[simp] theorem State.setOptions_trace (s : State) (m : Mode) (p : Policy) (k : Kind) : (s.setOptions m p k).trace = s.trace := rfl
@[simp] theorem State.setOptions_choices (s : State) (m : Mode) (p : Policy) (k : Kind) : (s.setOptions m p k).choices = s.choices := rfl

/-! ### setGeometry -/

@[simp] theorem State.setGeometry_cfg (s : State) (c m : Idx) : (s.setGeometry c m).cfg = s.cfg := rfl
@[simp] theorem State.setGeometry_configured (s : State) (c m : Idx) : (s.setGeometry c m).configured = s.configured := rfl
@[simp] theorem State.setGeometry_enabled (s : State) (c m : Idx) : (s.setGeometry c m).enabled = s.enabled := rfl
@[simp] theorem State.setGeometry_mode (s : State) (c m : Idx) : (s.setGeometry c m).mode = s.mode := rfl
@[simp] theorem State.setGeometry_policy (s : State) (c m : Idx) : (s.setGeometry c m).policy = s.policy := rfl
@[simp] theorem State.setGeometry_kind (s : State) (c m : Idx) : (s.setGeometry c m).kind = s.kind := rfl
@[simp] theorem State.setGeometry_capacity (s : State) (c m : Idx) : (s.setGeometry c m).capacity = c := rfl
@[simp] theorem State.setGeometry_wrapMask (s : State) (c m : Idx) : (s.setGeometry c m).wrapMask = m := rfl
@[simp] theorem State.setGeometry_head (s : State) (c m : Idx) : (s.setGeometry c m).head = s.head := rfl
@[simp] theorem State.setGeometry_tail (s : State) (c m : Idx) : (s.setGeometry c m).tail = s.tail := rfl
@[simp] theorem State.setGeometry_shadowTail (s : State) (c m : Idx) : (s.setGeometry c m).shadowTail = s.shadowTail := rfl
@[simp] theorem State.setGeometry_mem (s : State) (c m : Idx) : (s.setGeometry c m).mem = s.mem := rfl
@[simp] theorem State.setGeometry_fifo (s : State) (c m : Idx) : (s.setGeometry c m).fifo = s.fifo := rfl
@[simp] theorem State.setGeometry_pseq (s : State) (c m : Idx) : (s.setGeometry c m).pseq = s.pseq := rfl
@[simp] theorem State.setGeometry_cseq (s : State) (c m : Idx) : (s.setGeometry c m).cseq = s.cseq := rfl
@[simp] theorem State.setGeometry_aseq (s : State) (c m : Idx) : (s.setGeometry c m).aseq = s.aseq := rfl
@[simp] theorem State.setGeometry_dev (s : State) (c m : Idx) : (s.setGeometry c m).dev = s.dev := rfl
@[simp] theorem State.setGeometry_now (s : State) (c m : Idx) : (s.setGeometry c m).now = s.now := rfl
@[simp] theorem State.setGeometry_port (s : State) (c m : Idx) : (s.setGeometry c m).port = s.port := rfl
@[simp] theorem State.setGeometry_agenda (s : State) (c m : Idx) : (s.setGeometry c m).agenda = s.agenda := rfl
@[simp] theorem State.setGeometry_window (s : State) (c m : Idx) : (s.setGeometry c m).window = s.window := rfl
@[simp] theorem State.setGeometry_trace (s : State) (c m : Idx) : (s.setGeometry c m).trace = s.trace := rfl
@[simp] theorem State.setGeometry_choices (s : State) (c m : Idx) : (s.setGeometry c m).choices = s.choices := rfl

/-! ### setHead -/

@[simp] theorem State.setHead_cfg (s : State) (x : Idx) : (s.setHead x).cfg = s.cfg := rfl
@[simp] theorem State.setHead_configured (s : State) (x : Idx) : (s.setHead x).configured = s.configured := rfl
@[simp] theorem State.setHead_enabled (s : State) (x : Idx) : (s.setHead x).enabled = s.enabled := rfl
@[simp] theorem State.setHead_mode (s : State) (x : Idx) : (s.setHead x).mode = s.mode := rfl
@[simp] theorem State.setHead_policy (s : State) (x : Idx) : (s.setHead x).policy = s.policy := rfl
@[simp] theorem State.setHead_kind (s : State) (x : Idx) : (s.setHead x).kind = s.kind := rfl
@[simp] theorem State.setHead_capacity (s : State) (x : Idx) : (s.setHead x).capacity = s.capacity := rfl
@[simp] theorem State.setHead_wrapMask (s : State) (x : Idx) : (s.setHead x).wrapMask = s.wrapMask := rfl
@[simp] theorem State.setHead_head (s : State) (x : Idx) : (s.setHead x).head = x := rfl
@[simp] theorem State.setHead_tail (s : State) (x : Idx) : (s.setHead x).tail = s.tail := rfl
@[simp] theorem State.setHead_shadowTail (s : State) (x : Idx) : (s.setHead x).shadowTail = s.shadowTail := rfl
@[simp] theorem State.setHead_mem (s : State) (x : Idx) : (s.setHead x).mem = s.mem := rfl
@[simp] theorem State.setHead_fifo (s : State) (x : Idx) : (s.setHead x).fifo = s.fifo := rfl
@[simp] theorem State.setHead_pseq (s : State) (x : Idx) : (s.setHead x).pseq = s.pseq := rfl
@[simp] theorem State.setHead_cseq (s : State) (x : Idx) : (s.setHead x).cseq = s.cseq := rfl
@[simp] theorem State.setHead_aseq (s : State) (x : Idx) : (s.setHead x).aseq = s.aseq := rfl
@[simp] theorem State.setHead_dev (s : State) (x : Idx) : (s.setHead x).dev = s.dev := rfl
@[simp] theorem State.setHead_now (s : State) (x : Idx) : (s.setHead x).now = s.now := rfl
@[simp] theorem State.setHead_port (s : State) (x : Idx) : (s.setHead x).port = s.port := rfl
@[simp] theorem State.setHead_agenda (s : State) (x : Idx) : (s.setHead x).agenda = s.agenda := rfl
@[simp] theorem State.setHead_window (s : State) (x : Idx) : (s.setHead x).window = s.window := rfl
@[simp] theorem State.setHead_trace (s : State) (x : Idx) : (s.setHead x).trace = s.trace := rfl
@[simp] theorem State.setHead_choices (s : State) (x : Idx) : (s.setHead x).choices = s.choices := rfl

/-! ### setTail -/

@[simp] theorem State.setTail_cfg (s : State) (x : Idx) : (s.setTail x).cfg = s.cfg := rfl
@[simp] theorem State.setTail_configured (s : State) (x : Idx) : (s.setTail x).configured = s.configured := rfl
@[simp] theorem State.setTail_enabled (s : State) (x : Idx) : (s.setTail x).enabled = s.enabled := rfl
@[simp] theorem State.setTail_mode (s : State) (x : Idx) : (s.setTail x).mode = s.mode := rfl
@[simp] theorem State.setTail_policy (s : State) (x : Idx) : (s.setTail x).policy = s.policy := rfl
@[simp] theorem State.setTail_kind (s : State) (x : Idx) : (s.setTail x).kind = s.kind := rfl
@[simp] theorem State.setTail_capacity (s : State) (x : Idx) : (s.setTail x).capacity = s.capacity := rfl
@[simp] theorem State.setTail_wrapMask (s : State) (x : Idx) : (s.setTail x).wrapMask = s.wrapMask := rfl
@[simp] theorem State.setTail_head (s : State) (x : Idx) : (s.setTail x).head = s.head := rfl
@[simp] theorem State.setTail_tail (s : State) (x : Idx) : (s.setTail x).tail = x := rfl
@[simp] theorem State.setTail_shadowTail (s : State) (x : Idx) : (s.setTail x).shadowTail = s.shadowTail := rfl
@[simp] theorem State.setTail_mem (s : State) (x : Idx) : (s.setTail x).mem = s.mem := rfl
@[simp] theorem State.setTail_fifo (s : State) (x : Idx) : (s.setTail x).fifo = s.fifo := rfl
@[simp] theorem State.setTail_pseq (s : State) (x : Idx) : (s.setTail x).pseq = s.pseq := rfl
@[simp] theorem State.setTail_cseq (s : State) (x : Idx) : (s.setTail x).cseq = s.cseq := rfl
@[simp] theorem State.setTail_aseq (s : State) (x : Idx) : (s.setTail x).aseq = s.aseq := rfl
@[simp] theorem State.setTail_dev (s : State) (x : Idx) : (s.setTail x).dev = s.dev := rfl
@[simp] theorem State.setTail_now (s : State) (x : Idx) : (s.setTail x).now = s.now := rfl
@[simp] theorem State.setTail_port (s : State) (x : Idx) : (s.setTail x).port = s.port := rfl
@[simp] theorem State.setTail_agenda (s : State) (x : Idx) : (s.setTail x).agenda = s.agenda := rfl
@[simp] theorem State.setTail_window (s : State) (x : Idx) : (s.setTail x).window = s.window := rfl
@[simp] theorem State.setTail_trace (s : State) (x : Idx) : (s.setTail x).trace = s.trace := rfl
@[simp] theorem State.setTail_choices (s : State) (x : Idx) : (s.setTail x).choices = s.choices := rfl

/-! ### setShadowTail -/

@[simp] theorem State.setShadowTail_cfg (s : State) (x : Idx) : (s.setShadowTail x).cfg = s.cfg := rfl
@[simp] theorem State.setShadowTail_configured (s : State) (x : Idx) : (s.setShadowTail x).configured = s.configured := rfl
@[simp] theorem State.setShadowTail_enabled (s : State) (x : Idx) : (s.setShadowTail x).enabled = s.enabled := rfl
@[simp] theorem State.setShadowTail_mode (s : State) (x : Idx) : (s.setShadowTail x).mode = s.mode := rfl
@[simp] theorem State.setShadowTail_policy (s : State) (x : Idx) : (s.setShadowTail x).policy = s.policy := rfl
@[simp] theorem State.setShadowTail_kind (s : State) (x : Idx) : (s.setShadowTail x).kind = s.kind := rfl
@[simp] theorem State.setShadowTail_capacity (s : State) (x : Idx) : (s.setShadowTail x).capacity = s.capacity := rfl
@[simp] theorem State.setShadowTail_wrapMask (s : State) (x : Idx) : (s.setShadowTail x).wrapMask = s.wrapMask := rfl
@[simp] theorem State.setShadowTail_head (s : State) (x : Idx) : (s.setShadowTail x).head = s.head := rfl
@[simp] theorem State.setShadowTail_tail (s : State) (x : Idx) : (s.setShadowTail x).tail = s.tail := rfl
@[simp] theorem State.setShadowTail_shadowTail (s : State) (x : Idx) : (s.setShadowTail x).shadowTail = x := rfl
@[simp] theorem State.setShadowTail_mem (s : State) (x : Idx) : (s.setShadowTail x).mem = s.mem := rfl
@[simp] theorem State.setShadowTail_fifo (s : State) (x : Idx) : (s.setShadowTail x).fifo = s.fifo := rfl
@[simp] theorem State.setShadowTail_pseq (s : State) (x : Idx) : (s.setShadowTail x).pseq = s.pseq := rfl
@[simp] theorem State.setShadowTail_cseq (s : State) (x : Idx) : (s.setShadowTail x).cseq = s.cseq := rfl
@[simp] theorem State.setShadowTail_aseq (s : State) (x : Idx) : (s.setShadowTail x).aseq = s.aseq := rfl
@[simp] theorem State.setShadowTail_dev (s : State) (x : Idx) : (s.setShadowTail x).dev = s.dev := rfl
@[simp] theorem State.setShadowTail_now (s : State) (x : Idx) : (s.setShadowTail x).now = s.now := rfl
@[simp] theorem State.setShadowTail_port (s : State) (x : Idx) : (s.setShadowTail x).port = s.port := rfl
@[simp] theorem State.setShadowTail_agenda (s : State) (x : Idx) : (s.setShadowTail x).agenda = s.agenda := rfl
@[simp] theorem State.setShadowTail_window (s : State) (x : Idx) : (s.setShadowTail x).window = s.window := rfl
@[simp] theorem State.setShadowTail_trace (s : State) (x : Idx) : (s.setShadowTail x).trace = s.trace := rfl
@[simp] theorem State.setShadowTail_choices (s : State) (x : Idx) : (s.setShadowTail x).choices = s.choices := rfl

/-! ### setMem -/

@[simp] theorem State.setMem_cfg (s : State) (m : Memory) : (s.setMem m).cfg = s.cfg := rfl
@[simp] theorem State.setMem_configured (s : State) (m : Memory) : (s.setMem m).configured = s.configured := rfl
@[simp] theorem State.setMem_enabled (s : State) (m : Memory) : (s.setMem m).enabled = s.enabled := rfl
@[simp] theorem State.setMem_mode (s : State) (m : Memory) : (s.setMem m).mode = s.mode := rfl
@[simp] theorem State.setMem_policy (s : State) (m : Memory) : (s.setMem m).policy = s.policy := rfl
@[simp] theorem State.setMem_kind (s : State) (m : Memory) : (s.setMem m).kind = s.kind := rfl
@[simp] theorem State.setMem_capacity (s : State) (m : Memory) : (s.setMem m).capacity = s.capacity := rfl
@[simp] theorem State.setMem_wrapMask (s : State) (m : Memory) : (s.setMem m).wrapMask = s.wrapMask := rfl
@[simp] theorem State.setMem_head (s : State) (m : Memory) : (s.setMem m).head = s.head := rfl
@[simp] theorem State.setMem_tail (s : State) (m : Memory) : (s.setMem m).tail = s.tail := rfl
@[simp] theorem State.setMem_shadowTail (s : State) (m : Memory) : (s.setMem m).shadowTail = s.shadowTail := rfl
@[simp] theorem State.setMem_mem (s : State) (m : Memory) : (s.setMem m).mem = m := rfl
@[simp] theorem State.setMem_fifo (s : State) (m : Memory) : (s.setMem m).fifo = s.fifo := rfl
@[simp] theorem State.setMem_pseq (s : State) (m : Memory) : (s.setMem m).pseq = s.pseq := rfl
@[simp] theorem State.setMem_cseq (s : State) (m : Memory) : (s.setMem m).cseq = s.cseq := rfl
@[simp] theorem State.setMem_aseq (s : State) (m : Memory) : (s.setMem m).aseq = s.aseq := rfl
@[simp] theorem State.setMem_dev (s : State) (m : Memory) : (s.setMem m).dev = s.dev := rfl
@[simp] theorem State.setMem_now (s : State) (m : Memory) : (s.setMem m).now = s.now := rfl
@[simp] theorem State.setMem_port (s : State) (m : Memory) : (s.setMem m).port = s.port := rfl
@[simp] theorem State.setMem_agenda (s : State) (m : Memory) : (s.setMem m).agenda = s.agenda := rfl
@[simp] theorem State.setMem_window (s : State) (m : Memory) : (s.setMem m).window = s.window := rfl
@[simp] theorem State.setMem_trace (s : State) (m : Memory) : (s.setMem m).trace = s.trace := rfl
@[simp] theorem State.setMem_choices (s : State) (m : Memory) : (s.setMem m).choices = s.choices := rfl

/-! ### setFifo -/

@[simp] theorem State.setFifo_cfg (s : State) (l : List Batch) : (s.setFifo l).cfg = s.cfg := rfl
@[simp] theorem State.setFifo_configured (s : State) (l : List Batch) : (s.setFifo l).configured = s.configured := rfl
@[simp] theorem State.setFifo_enabled (s : State) (l : List Batch) : (s.setFifo l).enabled = s.enabled := rfl
@[simp] theorem State.setFifo_mode (s : State) (l : List Batch) : (s.setFifo l).mode = s.mode := rfl
@[simp] theorem State.setFifo_policy (s : State) (l : List Batch) : (s.setFifo l).policy = s.policy := rfl
@[simp] theorem State.setFifo_kind (s : State) (l : List Batch) : (s.setFifo l).kind = s.kind := rfl
@[simp] theorem State.setFifo_capacity (s : State) (l : List Batch) : (s.setFifo l).capacity = s.capacity := rfl
@[simp] theorem State.setFifo_wrapMask (s : State) (l : List Batch) : (s.setFifo l).wrapMask = s.wrapMask := rfl
@[simp] theorem State.setFifo_head (s : State) (l : List Batch) : (s.setFifo l).head = s.head := rfl
@[simp] theorem State.setFifo_tail (s : State) (l : List Batch) : (s.setFifo l).tail = s.tail := rfl
@[simp] theorem State.setFifo_shadowTail (s : State) (l : List Batch) : (s.setFifo l).shadowTail = s.shadowTail := rfl
@[simp] theorem State.setFifo_mem (s : State) (l : List Batch) : (s.setFifo l).mem = s.mem := rfl
@[simp] theorem State.setFifo_fifo (s : State) (l : List Batch) : (s.setFifo l).fifo = l := rfl
@[simp] theorem State.setFifo_pseq (s : State) (l : List Batch) : (s.setFifo l).pseq = s.pseq := rfl
@[simp] theorem State.setFifo_cseq (s : State) (l : List Batch) : (s.setFifo l).cseq = s.cseq := rfl
@[simp] theorem State.setFifo_aseq (s : State) (l : List Batch) : (s.setFifo l).aseq = s.aseq := rfl
@[simp] theorem State.setFifo_dev (s : State) (l : List Batch) : (s.setFifo l).dev = s.dev := rfl
@[simp] theorem State.setFifo_now (s : State) (l : List Batch) : (s.setFifo l).now = s.now := rfl
@[simp] theorem State.setFifo_port (s : State) (l : List Batch) : (s.setFifo l).port = s.port := rfl
@[simp] theorem State.setFifo_agenda (s : State) (l : List Batch) : (s.setFifo l).agenda = s.agenda := rfl
@[simp] theorem State.setFifo_window (s : State) (l : List Batch) : (s.setFifo l).window = s.window := rfl
@[simp] theorem State.setFifo_trace (s : State) (l : List Batch) : (s.setFifo l).trace = s.trace := rfl
@[simp] theorem State.setFifo_choices (s : State) (l : List Batch) : (s.setFifo l).choices = s.choices := rfl

/-! ### setPseq -/

@[simp] theorem State.setPseq_cfg (s : State) (c : Option PCtx) : (s.setPseq c).cfg = s.cfg := rfl
@[simp] theorem State.setPseq_configured (s : State) (c : Option PCtx) : (s.setPseq c).configured = s.configured := rfl
@[simp] theorem State.setPseq_enabled (s : State) (c : Option PCtx) : (s.setPseq c).enabled = s.enabled := rfl
@[simp] theorem State.setPseq_mode (s : State) (c : Option PCtx) : (s.setPseq c).mode = s.mode := rfl
@[simp] theorem State.setPseq_policy (s : State) (c : Option PCtx) : (s.setPseq c).policy = s.policy := rfl
@[simp] theorem State.setPseq_kind (s : State) (c : Option PCtx) : (s.setPseq c).kind = s.kind := rfl
@[simp] theorem State.setPseq_capacity (s : State) (c : Option PCtx) : (s.setPseq c).capacity = s.capacity := rfl
@[simp] theorem State.setPseq_wrapMask (s : State) (c : Option PCtx) : (s.setPseq c).wrapMask = s.wrapMask := rfl
@[simp] theorem State.setPseq_head (s : State) (c : Option PCtx) : (s.setPseq c).head = s.head := rfl
@[simp] theorem State.setPseq_tail (s : State) (c : Option PCtx) : (s.setPseq c).tail = s.tail := rfl
@[simp] theorem State.setPseq_shadowTail (s : State) (c : Option PCtx) : (s.setPseq c).shadowTail = s.shadowTail := rfl
@[simp] theorem State.setPseq_mem (s : State) (c : Option PCtx) : (s.setPseq c).mem = s.mem := rfl
@[simp] theorem State.setPseq_fifo (s : State) (c : Option PCtx) : (s.setPseq c).fifo = s.fifo := rfl
@[simp] theorem State.setPseq_pseq (s : State) (c : Option PCtx) : (s.setPseq c).pseq = c := rfl
@[simp] theorem State.setPseq_cseq (s : State) (c : Option PCtx) : (s.setPseq c).cseq = s.cseq := rfl
@[simp] theorem State.setPseq_aseq (s : State) (c : Option PCtx) : (s.setPseq c).aseq = s.aseq := rfl
@[simp] theorem State.setPseq_dev (s : State) (c : Option PCtx) : (s.setPseq c).dev = s.dev := rfl
@[simp] theorem State.setPseq_now (s : State) (c : Option PCtx) : (s.setPseq c).now = s.now := rfl
@[simp] theorem State.setPseq_port (s : State) (c : Option PCtx) : (s.setPseq c).port = s.port := rfl
@[simp] theorem State.setPseq_agenda (s : State) (c : Option PCtx) : (s.setPseq c).agenda = s.agenda := rfl
@[simp] theorem State.setPseq_window (s : State) (c : Option PCtx) : (s.setPseq c).window = s.window := rfl
@[simp] theorem State.setPseq_trace (s : State) (c : Option PCtx) : (s.setPseq c).trace = s.trace := rfl
@[simp] theorem State.setPseq_choices (s : State) (c : Option PCtx) : (s.setPseq c).choices = s.choices := rfl

/-! ### setCseq -/

@[simp] theorem State.setCseq_cfg (s : State) (c : Option CCtx) : (s.setCseq c).cfg = s.cfg := rfl
@[simp] theorem State.setCseq_configured (s : State) (c : Option CCtx) : (s.setCseq c).configured = s.configured := rfl
@[simp] theorem State.setCseq_enabled (s : State) (c : Option CCtx) : (s.setCseq c).enabled = s.enabled := rfl
@[simp] theorem State.setCseq_mode (s : State) (c : Option CCtx) : (s.setCseq c).mode = s.mode := rfl
@[simp] theorem State.setCseq_policy (s : State) (c : Option CCtx) : (s.setCseq c).policy = s.policy := rfl
@[simp] theorem State.setCseq_kind (s : State) (c : Option CCtx) : (s.setCseq c).kind = s.kind := rfl
@[simp] theorem State.setCseq_capacity (s : State) (c : Option CCtx) : (s.setCseq c).capacity = s.capacity := rfl
@[simp] theorem State.setCseq_wrapMask (s : State) (c : Option CCtx) : (s.setCseq c).wrapMask = s.wrapMask := rfl
@[simp] theorem State.setCseq_head (s : State) (c : Option CCtx) : (s.setCseq c).head = s.head := rfl
@[simp] theorem State.setCseq_tail (s : State) (c : Option CCtx) : (s.setCseq c).tail = s.tail := rfl
@[simp] theorem State.setCseq_shadowTail (s : State) (c : Option CCtx) : (s.setCseq c).shadowTail = s.shadowTail := rfl
@[simp] theorem State.setCseq_mem (s : State) (c : Option CCtx) : (s.setCseq c).mem = s.mem := rfl
@[simp] theorem State.setCseq_fifo (s : State) (c : Option CCtx) : (s.setCseq c).fifo = s.fifo := rfl
@[simp] theorem State.setCseq_pseq (s : State) (c : Option CCtx) : (s.setCseq c).pseq = s.pseq := rfl
@[simp] theorem State.setCseq_cseq (s : State) (c : Option CCtx) : (s.setCseq c).cseq = c := rfl
@[simp] theorem State.setCseq_aseq (s : State) (c : Option CCtx) : (s.setCseq c).aseq = s.aseq := rfl
@[simp] theorem State.setCseq_dev (s : State) (c : Option CCtx) : (s.setCseq c).dev = s.dev := rfl
@[simp] theorem State.setCseq_now (s : State) (c : Option CCtx) : (s.setCseq c).now = s.now := rfl
@[simp] theorem State.setCseq_port (s : State) (c : Option CCtx) : (s.setCseq c).port = s.port := rfl
@[simp] theorem State.setCseq_agenda (s : State) (c : Option CCtx) : (s.setCseq c).agenda = s.agenda := rfl
@[simp] theorem State.setCseq_window (s : State) (c : Option CCtx) : (s.setCseq c).window = s.window := rfl
@[simp] theorem State.setCseq_trace (s : State) (c : Option CCtx) : (s.setCseq c).trace = s.trace := rfl
@[simp] theorem State.setCseq_choices (s : State) (c : Option CCtx) : (s.setCseq c).choices = s.choices := rfl

/-! ### setAseq -/

@[simp] theorem State.setAseq_cfg (s : State) (c : Option ACtx) : (s.setAseq c).cfg = s.cfg := rfl
@[simp] theorem State.setAseq_configured (s : State) (c : Option ACtx) : (s.setAseq c).configured = s.configured := rfl
@[simp] theorem State.setAseq_enabled (s : State) (c : Option ACtx) : (s.setAseq c).enabled = s.enabled := rfl
@[simp] theorem State.setAseq_mode (s : State) (c : Option ACtx) : (s.setAseq c).mode = s.mode := rfl
@[simp] theorem State.setAseq_policy (s : State) (c : Option ACtx) : (s.setAseq c).policy = s.policy := rfl
@[simp] theorem State.setAseq_kind (s : State) (c : Option ACtx) : (s.setAseq c).kind = s.kind := rfl
@[simp] theorem State.setAseq_capacity (s : State) (c : Option ACtx) : (s.setAseq c).capacity = s.capacity := rfl
@[simp] theorem State.setAseq_wrapMask (s : State) (c : Option ACtx) : (s.setAseq c).wrapMask = s.wrapMask := rfl
@[simp] theorem State.setAseq_head (s : State) (c : Option ACtx) : (s.setAseq c).head = s.head := rfl
@[simp] theorem State.setAseq_tail (s : State) (c : Option ACtx) : (s.setAseq c).tail = s.tail := rfl
@[simp] theorem State.setAseq_shadowTail (s : State) (c : Option ACtx) : (s.setAseq c).shadowTail = s.shadowTail := rfl
@[simp] theorem State.setAseq_mem (s : State) (c : Option ACtx) : (s.setAseq c).mem = s.mem := rfl
@[simp] theorem State.setAseq_fifo (s : State) (c : Option ACtx) : (s.setAseq c).fifo = s.fifo := rfl
@[simp] theorem State.setAseq_pseq (s : State) (c : Option ACtx) : (s.setAseq c).pseq = s.pseq := rfl
@[simp] theorem State.setAseq_cseq (s : State) (c : Option ACtx) : (s.setAseq c).cseq = s.cseq := rfl
@[simp] theorem State.setAseq_aseq (s : State) (c : Option ACtx) : (s.setAseq c).aseq = c := rfl
@[simp] theorem State.setAseq_dev (s : State) (c : Option ACtx) : (s.setAseq c).dev = s.dev := rfl
@[simp] theorem State.setAseq_now (s : State) (c : Option ACtx) : (s.setAseq c).now = s.now := rfl
@[simp] theorem State.setAseq_port (s : State) (c : Option ACtx) : (s.setAseq c).port = s.port := rfl
@[simp] theorem State.setAseq_agenda (s : State) (c : Option ACtx) : (s.setAseq c).agenda = s.agenda := rfl
@[simp] theorem State.setAseq_window (s : State) (c : Option ACtx) : (s.setAseq c).window = s.window := rfl
@[simp] theorem State.setAseq_trace (s : State) (c : Option ACtx) : (s.setAseq c).trace = s.trace := rfl
@[simp] theorem State.setAseq_choices (s : State) (c : Option ACtx) : (s.setAseq c).choices = s.choices := rfl

/-! ### setDev -/

@[simp] theorem State.setDev_cfg (s : State) (d : Device) : (s.setDev d).cfg = s.cfg := rfl
@[simp] theorem State.setDev_configured (s : State) (d : Device) : (s.setDev d).configured = s.configured := rfl
@[simp] theorem State.setDev_enabled (s : State) (d : Device) : (s.setDev d).enabled = s.enabled := rfl
@[simp] theorem State.setDev_mode (s : State) (d : Device) : (s.setDev d).mode = s.mode := rfl
@[simp] theorem State.setDev_policy (s : State) (d : Device) : (s.setDev d).policy = s.policy := rfl
@[simp] theorem State.setDev_kind (s : State) (d : Device) : (s.setDev d).kind = s.kind := rfl
@[simp] theorem State.setDev_capacity (s : State) (d : Device) : (s.setDev d).capacity = s.capacity := rfl
@[simp] theorem State.setDev_wrapMask (s : State) (d : Device) : (s.setDev d).wrapMask = s.wrapMask := rfl
@[simp] theorem State.setDev_head (s : State) (d : Device) : (s.setDev d).head = s.head := rfl
@[simp] theorem State.setDev_tail (s : State) (d : Device) : (s.setDev d).tail = s.tail := rfl
@[simp] theorem State.setDev_shadowTail (s : State) (d : Device) : (s.setDev d).shadowTail = s.shadowTail := rfl
@[simp] theorem State.setDev_mem (s : State) (d : Device) : (s.setDev d).mem = s.mem := rfl
@[simp] theorem State.setDev_fifo (s : State) (d : Device) : (s.setDev d).fifo = s.fifo := rfl
@[simp] theorem State.setDev_pseq (s : State) (d : Device) : (s.setDev d).pseq = s.pseq := rfl
@[simp] theorem State.setDev_cseq (s : State) (d : Device) : (s.setDev d).cseq = s.cseq := rfl
@[simp] theorem State.setDev_aseq (s : State) (d : Device) : (s.setDev d).aseq = s.aseq := rfl
@[simp] theorem State.setDev_dev (s : State) (d : Device) : (s.setDev d).dev = d := rfl
@[simp] theorem State.setDev_now (s : State) (d : Device) : (s.setDev d).now = s.now := rfl
@[simp] theorem State.setDev_port (s : State) (d : Device) : (s.setDev d).port = s.port := rfl
@[simp] theorem State.setDev_agenda (s : State) (d : Device) : (s.setDev d).agenda = s.agenda := rfl
@[simp] theorem State.setDev_window (s : State) (d : Device) : (s.setDev d).window = s.window := rfl
@[simp] theorem State.setDev_trace (s : State) (d : Device) : (s.setDev d).trace = s.trace := rfl
@[simp] theorem State.setDev_choices (s : State) (d : Device) : (s.setDev d).choices = s.choices := rfl

/-! ### setNow -/

@[simp] theorem State.setNow_cfg (s : State) (t : Time) : (s.setNow t).cfg = s.cfg := rfl
@[simp] theorem State.setNow_configured (s : State) (t : Time) : (s.setNow t).configured = s.configured := rfl
@[simp] theorem State.setNow_enabled (s : State) (t : Time) : (s.setNow t).enabled = s.enabled := rfl
@[simp] theorem State.setNow_mode (s : State) (t : Time) : (s.setNow t).mode = s.mode := rfl
@[simp] theorem State.setNow_policy (s : State) (t : Time) : (s.setNow t).policy = s.policy := rfl
@[simp] theorem State.setNow_kind (s : State) (t : Time) : (s.setNow t).kind = s.kind := rfl
@[simp] theorem State.setNow_capacity (s : State) (t : Time) : (s.setNow t).capacity = s.capacity := rfl
@[simp] theorem State.setNow_wrapMask (s : State) (t : Time) : (s.setNow t).wrapMask = s.wrapMask := rfl
@[simp] theorem State.setNow_head (s : State) (t : Time) : (s.setNow t).head = s.head := rfl
@[simp] theorem State.setNow_tail (s : State) (t : Time) : (s.setNow t).tail = s.tail := rfl
@[simp] theorem State.setNow_shadowTail (s : State) (t : Time) : (s.setNow t).shadowTail = s.shadowTail := rfl
@[simp] theorem State.setNow_mem (s : State) (t : Time) : (s.setNow t).mem = s.mem := rfl
@[simp] theorem State.setNow_fifo (s : State) (t : Time) : (s.setNow t).fifo = s.fifo := rfl
@[simp] theorem State.setNow_pseq (s : State) (t : Time) : (s.setNow t).pseq = s.pseq := rfl
@[simp] theorem State.setNow_cseq (s : State) (t : Time) : (s.setNow t).cseq = s.cseq := rfl
@[simp] theorem State.setNow_aseq (s : State) (t : Time) : (s.setNow t).aseq = s.aseq := rfl
@[simp] theorem State.setNow_dev (s : State) (t : Time) : (s.setNow t).dev = s.dev := rfl
@[simp] theorem State.setNow_now (s : State) (t : Time) : (s.setNow t).now = t := rfl
@[simp] theorem State.setNow_port (s : State) (t : Time) : (s.setNow t).port = s.port := rfl
@[simp] theorem State.setNow_agenda (s : State) (t : Time) : (s.setNow t).agenda = s.agenda := rfl
@[simp] theorem State.setNow_window (s : State) (t : Time) : (s.setNow t).window = s.window := rfl
@[simp] theorem State.setNow_trace (s : State) (t : Time) : (s.setNow t).trace = s.trace := rfl
@[simp] theorem State.setNow_choices (s : State) (t : Time) : (s.setNow t).choices = s.choices := rfl

/-! ### setPort -/

@[simp] theorem State.setPort_cfg (s : State) (l : List Command) : (s.setPort l).cfg = s.cfg := rfl
@[simp] theorem State.setPort_configured (s : State) (l : List Command) : (s.setPort l).configured = s.configured := rfl
@[simp] theorem State.setPort_enabled (s : State) (l : List Command) : (s.setPort l).enabled = s.enabled := rfl
@[simp] theorem State.setPort_mode (s : State) (l : List Command) : (s.setPort l).mode = s.mode := rfl
@[simp] theorem State.setPort_policy (s : State) (l : List Command) : (s.setPort l).policy = s.policy := rfl
@[simp] theorem State.setPort_kind (s : State) (l : List Command) : (s.setPort l).kind = s.kind := rfl
@[simp] theorem State.setPort_capacity (s : State) (l : List Command) : (s.setPort l).capacity = s.capacity := rfl
@[simp] theorem State.setPort_wrapMask (s : State) (l : List Command) : (s.setPort l).wrapMask = s.wrapMask := rfl
@[simp] theorem State.setPort_head (s : State) (l : List Command) : (s.setPort l).head = s.head := rfl
@[simp] theorem State.setPort_tail (s : State) (l : List Command) : (s.setPort l).tail = s.tail := rfl
@[simp] theorem State.setPort_shadowTail (s : State) (l : List Command) : (s.setPort l).shadowTail = s.shadowTail := rfl
@[simp] theorem State.setPort_mem (s : State) (l : List Command) : (s.setPort l).mem = s.mem := rfl
@[simp] theorem State.setPort_fifo (s : State) (l : List Command) : (s.setPort l).fifo = s.fifo := rfl
@[simp] theorem State.setPort_pseq (s : State) (l : List Command) : (s.setPort l).pseq = s.pseq := rfl
@[simp] theorem State.setPort_cseq (s : State) (l : List Command) : (s.setPort l).cseq = s.cseq := rfl
@[simp] theorem State.setPort_aseq (s : State) (l : List Command) : (s.setPort l).aseq = s.aseq := rfl
@[simp] theorem State.setPort_dev (s : State) (l : List Command) : (s.setPort l).dev = s.dev := rfl
@[simp] theorem State.setPort_now (s : State) (l : List Command) : (s.setPort l).now = s.now := rfl
@[simp] theorem State.setPort_port (s : State) (l : List Command) : (s.setPort l).port = l := rfl
@[simp] theorem State.setPort_agenda (s : State) (l : List Command) : (s.setPort l).agenda = s.agenda := rfl
@[simp] theorem State.setPort_window (s : State) (l : List Command) : (s.setPort l).window = s.window := rfl
@[simp] theorem State.setPort_trace (s : State) (l : List Command) : (s.setPort l).trace = s.trace := rfl
@[simp] theorem State.setPort_choices (s : State) (l : List Command) : (s.setPort l).choices = s.choices := rfl

/-! ### setAgenda -/

@[simp] theorem State.setAgenda_cfg (s : State) (l : List Act) : (s.setAgenda l).cfg = s.cfg := rfl
@[simp] theorem State.setAgenda_configured (s : State) (l : List Act) : (s.setAgenda l).configured = s.configured := rfl
@[simp] theorem State.setAgenda_enabled (s : State) (l : List Act) : (s.setAgenda l).enabled = s.enabled := rfl
@[simp] theorem State.setAgenda_mode (s : State) (l : List Act) : (s.setAgenda l).mode = s.mode := rfl
@[simp] theorem State.setAgenda_policy (s : State) (l : List Act) : (s.setAgenda l).policy = s.policy := rfl
@[simp] theorem State.setAgenda_kind (s : State) (l : List Act) : (s.setAgenda l).kind = s.kind := rfl
@[simp] theorem State.setAgenda_capacity (s : State) (l : List Act) : (s.setAgenda l).capacity = s.capacity := rfl
@[simp] theorem State.setAgenda_wrapMask (s : State) (l : List Act) : (s.setAgenda l).wrapMask = s.wrapMask := rfl
@[simp] theorem State.setAgenda_head (s : State) (l : List Act) : (s.setAgenda l).head = s.head := rfl
@[simp] theorem State.setAgenda_tail (s : State) (l : List Act) : (s.setAgenda l).tail = s.tail := rfl
@[simp] theorem State.setAgenda_shadowTail (s : State) (l : List Act) : (s.setAgenda l).shadowTail = s.shadowTail := rfl
@[simp] theorem State.setAgenda_mem (s : State) (l : List Act) : (s.setAgenda l).mem = s.mem := rfl
@[simp] theorem State.setAgenda_fifo (s : State) (l : List Act) : (s.setAgenda l).fifo = s.fifo := rfl
@[simp] theorem State.setAgenda_pseq (s : State) (l : List Act) : (s.setAgenda l).pseq = s.pseq := rfl
@[simp] theorem State.setAgenda_cseq (s : State) (l : List Act) : (s.setAgenda l).cseq = s.cseq := rfl
@[simp] theorem State.setAgenda_aseq (s : State) (l : List Act) : (s.setAgenda l).aseq = s.aseq := rfl
@[simp] theorem State.setAgenda_dev (s : State) (l : List Act) : (s.setAgenda l).dev = s.dev := rfl
@[simp] theorem State.setAgenda_now (s : State) (l : List Act) : (s.setAgenda l).now = s.now := rfl
@[simp] theorem State.setAgenda_port (s : State) (l : List Act) : (s.setAgenda l).port = s.port := rfl
@[simp] theorem State.setAgenda_agenda (s : State) (l : List Act) : (s.setAgenda l).agenda = l := rfl
@[simp] theorem State.setAgenda_window (s : State) (l : List Act) : (s.setAgenda l).window = s.window := rfl
@[simp] theorem State.setAgenda_trace (s : State) (l : List Act) : (s.setAgenda l).trace = s.trace := rfl
@[simp] theorem State.setAgenda_choices (s : State) (l : List Act) : (s.setAgenda l).choices = s.choices := rfl

/-! ### setWindow -/

@[simp] theorem State.setWindow_cfg (s : State) (l : List (List DevStep)) : (s.setWindow l).cfg = s.cfg := rfl
@[simp] theorem State.setWindow_configured (s : State) (l : List (List DevStep)) : (s.setWindow l).configured = s.configured := rfl
@[simp] theorem State.setWindow_enabled (s : State) (l : List (List DevStep)) : (s.setWindow l).enabled = s.enabled := rfl
@[simp] theorem State.setWindow_mode (s : State) (l : List (List DevStep)) : (s.setWindow l).mode = s.mode := rfl
@[simp] theorem State.setWindow_policy (s : State) (l : List (List DevStep)) : (s.setWindow l).policy = s.policy := rfl
@[simp] theorem State.setWindow_kind (s : State) (l : List (List DevStep)) : (s.setWindow l).kind = s.kind := rfl
@[simp] theorem State.setWindow_capacity (s : State) (l : List (List DevStep)) : (s.setWindow l).capacity = s.capacity := rfl
@[simp] theorem State.setWindow_wrapMask (s : State) (l : List (List DevStep)) : (s.setWindow l).wrapMask = s.wrapMask := rfl
@[simp] theorem State.setWindow_head (s : State) (l : List (List DevStep)) : (s.setWindow l).head = s.head := rfl
@[simp] theorem State.setWindow_tail (s : State) (l : List (List DevStep)) : (s.setWindow l).tail = s.tail := rfl
@[simp] theorem State.setWindow_shadowTail (s : State) (l : List (List DevStep)) : (s.setWindow l).shadowTail = s.shadowTail := rfl
@[simp] theorem State.setWindow_mem (s : State) (l : List (List DevStep)) : (s.setWindow l).mem = s.mem := rfl
@[simp] theorem State.setWindow_fifo (s : State) (l : List (List DevStep)) : (s.setWindow l).fifo = s.fifo := rfl
@[simp] theorem State.setWindow_pseq (s : State) (l : List (List DevStep)) : (s.setWindow l).pseq = s.pseq := rfl
@[simp] theorem State.setWindow_cseq (s : State) (l : List (List DevStep)) : (s.setWindow l).cseq = s.cseq := rfl
@[simp] theorem State.setWindow_aseq (s : State) (l : List (List DevStep)) : (s.setWindow l).aseq = s.aseq := rfl
@[simp] theorem State.setWindow_dev (s : State) (l : List (List DevStep)) : (s.setWindow l).dev = s.dev := rfl
@[simp] theorem State.setWindow_now (s : State) (l : List (List DevStep)) : (s.setWindow l).now = s.now := rfl
@[simp] theorem State.setWindow_port (s : State) (l : List (List DevStep)) : (s.setWindow l).port = s.port := rfl
@[simp] theorem State.setWindow_agenda (s : State) (l : List (List DevStep)) : (s.setWindow l).agenda = s.agenda := rfl
@[simp] theorem State.setWindow_window (s : State) (l : List (List DevStep)) : (s.setWindow l).window = l := rfl
@[simp] theorem State.setWindow_trace (s : State) (l : List (List DevStep)) : (s.setWindow l).trace = s.trace := rfl
@[simp] theorem State.setWindow_choices (s : State) (l : List (List DevStep)) : (s.setWindow l).choices = s.choices := rfl

/-! ### setTrace -/

@[simp] theorem State.setTrace_cfg (s : State) (l : List Event) : (s.setTrace l).cfg = s.cfg := rfl
@[simp] theorem State.setTrace_configured (s : State) (l : List Event) : (s.setTrace l).configured = s.configured := rfl
@[simp] theorem State.setTrace_enabled (s : State) (l : List Event) : (s.setTrace l).enabled = s.enabled := rfl
@[simp] theorem State.setTrace_mode (s : State) (l : List Event) : (s.setTrace l).mode = s.mode := rfl
@[simp] theorem State.setTrace_policy (s : State) (l : List Event) : (s.setTrace l).policy = s.policy := rfl
@[simp] theorem State.setTrace_kind (s : State) (l : List Event) : (s.setTrace l).kind = s.kind := rfl
@[simp] theorem State.setTrace_capacity (s : State) (l : List Event) : (s.setTrace l).capacity = s.capacity := rfl
@[simp] theorem State.setTrace_wrapMask (s : State) (l : List Event) : (s.setTrace l).wrapMask = s.wrapMask := rfl
@[simp] theorem State.setTrace_head (s : State) (l : List Event) : (s.setTrace l).head = s.head := rfl
@[simp] theorem State.setTrace_tail (s : State) (l : List Event) : (s.setTrace l).tail = s.tail := rfl
@[simp] theorem State.setTrace_shadowTail (s : State) (l : List Event) : (s.setTrace l).shadowTail = s.shadowTail := rfl
@[simp] theorem State.setTrace_mem (s : State) (l : List Event) : (s.setTrace l).mem = s.mem := rfl
@[simp] theorem State.setTrace_fifo (s : State) (l : List Event) : (s.setTrace l).fifo = s.fifo := rfl
@[simp] theorem State.setTrace_pseq (s : State) (l : List Event) : (s.setTrace l).pseq = s.pseq := rfl
@[simp] theorem State.setTrace_cseq (s : State) (l : List Event) : (s.setTrace l).cseq = s.cseq := rfl
@[simp] theorem State.setTrace_aseq (s : State) (l : List Event) : (s.setTrace l).aseq = s.aseq := rfl
@[simp] theorem State.setTrace_dev (s : State) (l : List Event) : (s.setTrace l).dev = s.dev := rfl
@[simp] theorem State.setTrace_now (s : State) (l : List Event) : (s.setTrace l).now = s.now := rfl
@[simp] theorem State.setTrace_port (s : State) (l : List Event) : (s.setTrace l).port = s.port := rfl
@[simp] theorem State.setTrace_agenda (s : State) (l : List Event) : (s.setTrace l).agenda = s.agenda := rfl
@[simp] theorem State.setTrace_window (s : State) (l : List Event) : (s.setTrace l).window = s.window := rfl
@[simp] theorem State.setTrace_trace (s : State) (l : List Event) : (s.setTrace l).trace = l := rfl
@[simp] theorem State.setTrace_choices (s : State) (l : List Event) : (s.setTrace l).choices = s.choices := rfl

/-! ### setChoices -/

@[simp] theorem State.setChoices_cfg (s : State) (k : Nat) : (s.setChoices k).cfg = s.cfg := rfl
@[simp] theorem State.setChoices_configured (s : State) (k : Nat) : (s.setChoices k).configured = s.configured := rfl
@[simp] theorem State.setChoices_enabled (s : State) (k : Nat) : (s.setChoices k).enabled = s.enabled := rfl
@[simp] theorem State.setChoices_mode (s : State) (k : Nat) : (s.setChoices k).mode = s.mode := rfl
@[simp] theorem State.setChoices_policy (s : State) (k : Nat) : (s.setChoices k).policy = s.policy := rfl
@[simp] theorem State.setChoices_kind (s : State) (k : Nat) : (s.setChoices k).kind = s.kind := rfl
@[simp] theorem State.setChoices_capacity (s : State) (k : Nat) : (s.setChoices k).capacity = s.capacity := rfl
@[simp] theorem State.setChoices_wrapMask (s : State) (k : Nat) : (s.setChoices k).wrapMask = s.wrapMask := rfl
@[simp] theorem State.setChoices_head (s : State) (k : Nat) : (s.setChoices k).head = s.head := rfl
@[simp] theorem State.setChoices_tail (s : State) (k : Nat) : (s.setChoices k).tail = s.tail := rfl
@[simp] theorem State.setChoices_shadowTail (s : State) (k : Nat) : (s.setChoices k).shadowTail = s.shadowTail := rfl
@[simp] theorem State.setChoices_mem (s : State) (k : Nat) : (s.setChoices k).mem = s.mem := rfl
@[simp] theorem State.setChoices_fifo (s : State) (k : Nat) : (s.setChoices k).fifo = s.fifo := rfl
@[simp] theorem State.setChoices_pseq (s : State) (k : Nat) : (s.setChoices k).pseq = s.pseq := rfl
@[simp] theorem State.setChoices_cseq (s : State) (k : Nat) : (s.setChoices k).cseq = s.cseq := rfl
@[simp] theorem State.setChoices_aseq (s : State) (k : Nat) : (s.setChoices k).aseq = s.aseq := rfl
@[simp] theorem State.setChoices_dev (s : State) (k : Nat) : (s.setChoices k).dev = s.dev := rfl
@[simp] theorem State.setChoices_now (s : State) (k : Nat) : (s.setChoices k).now = s.now := rfl
@[simp] theorem State.setChoices_port (s : State) (k : Nat) : (s.setChoices k).port = s.port := rfl
@[simp] theorem State.setChoices_agenda (s : State) (k : Nat) : (s.setChoices k).agenda = s.agenda := rfl
@[simp] theorem State.setChoices_window (s : State) (k : Nat) : (s.setChoices k).window = s.window := rfl
@[simp] theorem State.setChoices_trace (s : State) (k : Nat) : (s.setChoices k).trace = s.trace := rfl
@[simp] theorem State.setChoices_choices (s : State) (k : Nat) : (s.setChoices k).choices = k := rfl

/-! ### The composed updates of Machine/Ops.lean -/

@[simp] theorem State.setBus_cfg (s : State) (b : Bus) :
    (s.setBus b).cfg = s.cfg := rfl
@[simp] theorem State.setBus_configured (s : State) (b : Bus) :
    (s.setBus b).configured = s.configured := rfl
@[simp] theorem State.setBus_enabled (s : State) (b : Bus) :
    (s.setBus b).enabled = s.enabled := rfl
@[simp] theorem State.setBus_mode (s : State) (b : Bus) :
    (s.setBus b).mode = s.mode := rfl
@[simp] theorem State.setBus_policy (s : State) (b : Bus) :
    (s.setBus b).policy = s.policy := rfl
@[simp] theorem State.setBus_kind (s : State) (b : Bus) :
    (s.setBus b).kind = s.kind := rfl
@[simp] theorem State.setBus_capacity (s : State) (b : Bus) :
    (s.setBus b).capacity = s.capacity := rfl
@[simp] theorem State.setBus_wrapMask (s : State) (b : Bus) :
    (s.setBus b).wrapMask = s.wrapMask := rfl
@[simp] theorem State.setBus_head (s : State) (b : Bus) :
    (s.setBus b).head = s.head := rfl
@[simp] theorem State.setBus_tail (s : State) (b : Bus) :
    (s.setBus b).tail = s.tail := rfl
@[simp] theorem State.setBus_shadowTail (s : State) (b : Bus) :
    (s.setBus b).shadowTail = s.shadowTail := rfl
@[simp] theorem State.setBus_mem (s : State) (b : Bus) :
    (s.setBus b).mem = b.mem := rfl
@[simp] theorem State.setBus_fifo (s : State) (b : Bus) :
    (s.setBus b).fifo = s.fifo := rfl
@[simp] theorem State.setBus_pseq (s : State) (b : Bus) :
    (s.setBus b).pseq = s.pseq := rfl
@[simp] theorem State.setBus_cseq (s : State) (b : Bus) :
    (s.setBus b).cseq = s.cseq := rfl
@[simp] theorem State.setBus_aseq (s : State) (b : Bus) :
    (s.setBus b).aseq = s.aseq := rfl
@[simp] theorem State.setBus_dev (s : State) (b : Bus) :
    (s.setBus b).dev = s.dev := rfl
@[simp] theorem State.setBus_now (s : State) (b : Bus) :
    (s.setBus b).now = s.now := rfl
@[simp] theorem State.setBus_port (s : State) (b : Bus) :
    (s.setBus b).port = s.port := rfl
@[simp] theorem State.setBus_agenda (s : State) (b : Bus) :
    (s.setBus b).agenda = s.agenda := rfl
@[simp] theorem State.setBus_window (s : State) (b : Bus) :
    (s.setBus b).window = s.window := rfl
@[simp] theorem State.setBus_trace (s : State) (b : Bus) :
    (s.setBus b).trace = b.trace := rfl
@[simp] theorem State.setBus_choices (s : State) (b : Bus) :
    (s.setBus b).choices = s.choices := rfl

@[simp] theorem State.log_cfg (s : State) (e : Event) :
    (s.log e).cfg = s.cfg := rfl
@[simp] theorem State.log_configured (s : State) (e : Event) :
    (s.log e).configured = s.configured := rfl
@[simp] theorem State.log_enabled (s : State) (e : Event) :
    (s.log e).enabled = s.enabled := rfl
@[simp] theorem State.log_mode (s : State) (e : Event) :
    (s.log e).mode = s.mode := rfl
@[simp] theorem State.log_policy (s : State) (e : Event) :
    (s.log e).policy = s.policy := rfl
@[simp] theorem State.log_kind (s : State) (e : Event) :
    (s.log e).kind = s.kind := rfl
@[simp] theorem State.log_capacity (s : State) (e : Event) :
    (s.log e).capacity = s.capacity := rfl
@[simp] theorem State.log_wrapMask (s : State) (e : Event) :
    (s.log e).wrapMask = s.wrapMask := rfl
@[simp] theorem State.log_head (s : State) (e : Event) :
    (s.log e).head = s.head := rfl
@[simp] theorem State.log_tail (s : State) (e : Event) :
    (s.log e).tail = s.tail := rfl
@[simp] theorem State.log_shadowTail (s : State) (e : Event) :
    (s.log e).shadowTail = s.shadowTail := rfl
@[simp] theorem State.log_mem (s : State) (e : Event) :
    (s.log e).mem = s.mem := rfl
@[simp] theorem State.log_fifo (s : State) (e : Event) :
    (s.log e).fifo = s.fifo := rfl
@[simp] theorem State.log_pseq (s : State) (e : Event) :
    (s.log e).pseq = s.pseq := rfl
@[simp] theorem State.log_cseq (s : State) (e : Event) :
    (s.log e).cseq = s.cseq := rfl
@[simp] theorem State.log_aseq (s : State) (e : Event) :
    (s.log e).aseq = s.aseq := rfl
@[simp] theorem State.log_dev (s : State) (e : Event) :
    (s.log e).dev = s.dev := rfl
@[simp] theorem State.log_now (s : State) (e : Event) :
    (s.log e).now = s.now := rfl
@[simp] theorem State.log_port (s : State) (e : Event) :
    (s.log e).port = s.port := rfl
@[simp] theorem State.log_agenda (s : State) (e : Event) :
    (s.log e).agenda = s.agenda := rfl
@[simp] theorem State.log_window (s : State) (e : Event) :
    (s.log e).window = s.window := rfl
@[simp] theorem State.log_trace (s : State) (e : Event) :
    (s.log e).trace = e :: s.trace := rfl
@[simp] theorem State.log_choices (s : State) (e : Event) :
    (s.log e).choices = s.choices := rfl

@[simp] theorem State.respond_cfg (s : State) (w : Word32) (r : Response) :
    (s.respond w r).cfg = s.cfg := rfl
@[simp] theorem State.respond_configured (s : State) (w : Word32) (r : Response) :
    (s.respond w r).configured = s.configured := rfl
@[simp] theorem State.respond_enabled (s : State) (w : Word32) (r : Response) :
    (s.respond w r).enabled = s.enabled := rfl
@[simp] theorem State.respond_mode (s : State) (w : Word32) (r : Response) :
    (s.respond w r).mode = s.mode := rfl
@[simp] theorem State.respond_policy (s : State) (w : Word32) (r : Response) :
    (s.respond w r).policy = s.policy := rfl
@[simp] theorem State.respond_kind (s : State) (w : Word32) (r : Response) :
    (s.respond w r).kind = s.kind := rfl
@[simp] theorem State.respond_capacity (s : State) (w : Word32) (r : Response) :
    (s.respond w r).capacity = s.capacity := rfl
@[simp] theorem State.respond_wrapMask (s : State) (w : Word32) (r : Response) :
    (s.respond w r).wrapMask = s.wrapMask := rfl
@[simp] theorem State.respond_head (s : State) (w : Word32) (r : Response) :
    (s.respond w r).head = s.head := rfl
@[simp] theorem State.respond_tail (s : State) (w : Word32) (r : Response) :
    (s.respond w r).tail = s.tail := rfl
@[simp] theorem State.respond_shadowTail (s : State) (w : Word32) (r : Response) :
    (s.respond w r).shadowTail = s.shadowTail := rfl
@[simp] theorem State.respond_mem (s : State) (w : Word32) (r : Response) :
    (s.respond w r).mem = s.mem := rfl
@[simp] theorem State.respond_fifo (s : State) (w : Word32) (r : Response) :
    (s.respond w r).fifo = s.fifo := rfl
@[simp] theorem State.respond_pseq (s : State) (w : Word32) (r : Response) :
    (s.respond w r).pseq = s.pseq := rfl
@[simp] theorem State.respond_cseq (s : State) (w : Word32) (r : Response) :
    (s.respond w r).cseq = s.cseq := rfl
@[simp] theorem State.respond_aseq (s : State) (w : Word32) (r : Response) :
    (s.respond w r).aseq = s.aseq := rfl
@[simp] theorem State.respond_dev (s : State) (w : Word32) (r : Response) :
    (s.respond w r).dev = s.dev := rfl
@[simp] theorem State.respond_now (s : State) (w : Word32) (r : Response) :
    (s.respond w r).now = s.now := rfl
@[simp] theorem State.respond_port (s : State) (w : Word32) (r : Response) :
    (s.respond w r).port = s.port := rfl
@[simp] theorem State.respond_agenda (s : State) (w : Word32) (r : Response) :
    (s.respond w r).agenda = s.agenda := rfl
@[simp] theorem State.respond_window (s : State) (w : Word32) (r : Response) :
    (s.respond w r).window = s.window := rfl
@[simp] theorem State.respond_trace (s : State) (w : Word32) (r : Response) :
    (s.respond w r).trace = .respond w r :: s.trace := rfl
@[simp] theorem State.respond_choices (s : State) (w : Word32) (r : Response) :
    (s.respond w r).choices = s.choices := rfl

@[simp] theorem State.respondP_cfg (s : State) (w : Word32) (r : Response) :
    (s.respondP w r).cfg = s.cfg := rfl
@[simp] theorem State.respondP_configured (s : State) (w : Word32) (r : Response) :
    (s.respondP w r).configured = s.configured := rfl
@[simp] theorem State.respondP_enabled (s : State) (w : Word32) (r : Response) :
    (s.respondP w r).enabled = s.enabled := rfl
@[simp] theorem State.respondP_mode (s : State) (w : Word32) (r : Response) :
    (s.respondP w r).mode = s.mode := rfl
@[simp] theorem State.respondP_policy (s : State) (w : Word32) (r : Response) :
    (s.respondP w r).policy = s.policy := rfl
@[simp] theorem State.respondP_kind (s : State) (w : Word32) (r : Response) :
    (s.respondP w r).kind = s.kind := rfl
@[simp] theorem State.respondP_capacity (s : State) (w : Word32) (r : Response) :
    (s.respondP w r).capacity = s.capacity := rfl
@[simp] theorem State.respondP_wrapMask (s : State) (w : Word32) (r : Response) :
    (s.respondP w r).wrapMask = s.wrapMask := rfl
@[simp] theorem State.respondP_head (s : State) (w : Word32) (r : Response) :
    (s.respondP w r).head = s.head := rfl
@[simp] theorem State.respondP_tail (s : State) (w : Word32) (r : Response) :
    (s.respondP w r).tail = s.tail := rfl
@[simp] theorem State.respondP_shadowTail (s : State) (w : Word32) (r : Response) :
    (s.respondP w r).shadowTail = s.shadowTail := rfl
@[simp] theorem State.respondP_mem (s : State) (w : Word32) (r : Response) :
    (s.respondP w r).mem = s.mem := rfl
@[simp] theorem State.respondP_fifo (s : State) (w : Word32) (r : Response) :
    (s.respondP w r).fifo = s.fifo := rfl
@[simp] theorem State.respondP_pseq (s : State) (w : Word32) (r : Response) :
    (s.respondP w r).pseq = none := rfl
@[simp] theorem State.respondP_cseq (s : State) (w : Word32) (r : Response) :
    (s.respondP w r).cseq = s.cseq := rfl
@[simp] theorem State.respondP_aseq (s : State) (w : Word32) (r : Response) :
    (s.respondP w r).aseq = s.aseq := rfl
@[simp] theorem State.respondP_dev (s : State) (w : Word32) (r : Response) :
    (s.respondP w r).dev = s.dev := rfl
@[simp] theorem State.respondP_now (s : State) (w : Word32) (r : Response) :
    (s.respondP w r).now = s.now := rfl
@[simp] theorem State.respondP_port (s : State) (w : Word32) (r : Response) :
    (s.respondP w r).port = s.port := rfl
@[simp] theorem State.respondP_agenda (s : State) (w : Word32) (r : Response) :
    (s.respondP w r).agenda = s.agenda := rfl
@[simp] theorem State.respondP_window (s : State) (w : Word32) (r : Response) :
    (s.respondP w r).window = s.window := rfl
@[simp] theorem State.respondP_trace (s : State) (w : Word32) (r : Response) :
    (s.respondP w r).trace = .respond w r :: s.trace := rfl
@[simp] theorem State.respondP_choices (s : State) (w : Word32) (r : Response) :
    (s.respondP w r).choices = s.choices := rfl

@[simp] theorem State.respondC_cfg (s : State) (w : Word32) (r : Response) :
    (s.respondC w r).cfg = s.cfg := rfl
@[simp] theorem State.respondC_configured (s : State) (w : Word32) (r : Response) :
    (s.respondC w r).configured = s.configured := rfl
@[simp] theorem State.respondC_enabled (s : State) (w : Word32) (r : Response) :
    (s.respondC w r).enabled = s.enabled := rfl
@[simp] theorem State.respondC_mode (s : State) (w : Word32) (r : Response) :
    (s.respondC w r).mode = s.mode := rfl
@[simp] theorem State.respondC_policy (s : State) (w : Word32) (r : Response) :
    (s.respondC w r).policy = s.policy := rfl
@[simp] theorem State.respondC_kind (s : State) (w : Word32) (r : Response) :
    (s.respondC w r).kind = s.kind := rfl
@[simp] theorem State.respondC_capacity (s : State) (w : Word32) (r : Response) :
    (s.respondC w r).capacity = s.capacity := rfl
@[simp] theorem State.respondC_wrapMask (s : State) (w : Word32) (r : Response) :
    (s.respondC w r).wrapMask = s.wrapMask := rfl
@[simp] theorem State.respondC_head (s : State) (w : Word32) (r : Response) :
    (s.respondC w r).head = s.head := rfl
@[simp] theorem State.respondC_tail (s : State) (w : Word32) (r : Response) :
    (s.respondC w r).tail = s.tail := rfl
@[simp] theorem State.respondC_shadowTail (s : State) (w : Word32) (r : Response) :
    (s.respondC w r).shadowTail = s.shadowTail := rfl
@[simp] theorem State.respondC_mem (s : State) (w : Word32) (r : Response) :
    (s.respondC w r).mem = s.mem := rfl
@[simp] theorem State.respondC_fifo (s : State) (w : Word32) (r : Response) :
    (s.respondC w r).fifo = s.fifo := rfl
@[simp] theorem State.respondC_pseq (s : State) (w : Word32) (r : Response) :
    (s.respondC w r).pseq = s.pseq := rfl
@[simp] theorem State.respondC_cseq (s : State) (w : Word32) (r : Response) :
    (s.respondC w r).cseq = none := rfl
@[simp] theorem State.respondC_aseq (s : State) (w : Word32) (r : Response) :
    (s.respondC w r).aseq = s.aseq := rfl
@[simp] theorem State.respondC_dev (s : State) (w : Word32) (r : Response) :
    (s.respondC w r).dev = s.dev := rfl
@[simp] theorem State.respondC_now (s : State) (w : Word32) (r : Response) :
    (s.respondC w r).now = s.now := rfl
@[simp] theorem State.respondC_port (s : State) (w : Word32) (r : Response) :
    (s.respondC w r).port = s.port := rfl
@[simp] theorem State.respondC_agenda (s : State) (w : Word32) (r : Response) :
    (s.respondC w r).agenda = s.agenda := rfl
@[simp] theorem State.respondC_window (s : State) (w : Word32) (r : Response) :
    (s.respondC w r).window = s.window := rfl
@[simp] theorem State.respondC_trace (s : State) (w : Word32) (r : Response) :
    (s.respondC w r).trace = .respond w r :: s.trace := rfl
@[simp] theorem State.respondC_choices (s : State) (w : Word32) (r : Response) :
    (s.respondC w r).choices = s.choices := rfl

@[simp] theorem State.respondA_cfg (s : State) (w : Word32) (r : Response) :
    (s.respondA w r).cfg = s.cfg := rfl
@[simp] theorem State.respondA_configured (s : State) (w : Word32) (r : Response) :
    (s.respondA w r).configured = s.configured := rfl
@[simp] theorem State.respondA_enabled (s : State) (w : Word32) (r : Response) :
    (s.respondA w r).enabled = s.enabled := rfl
@[simp] theorem State.respondA_mode (s : State) (w : Word32) (r : Response) :
    (s.respondA w r).mode = s.mode := rfl
@[simp] theorem State.respondA_policy (s : State) (w : Word32) (r : Response) :
    (s.respondA w r).policy = s.policy := rfl
@[simp] theorem State.respondA_kind (s : State) (w : Word32) (r : Response) :
    (s.respondA w r).kind = s.kind := rfl
@[simp] theorem State.respondA_capacity (s : State) (w : Word32) (r : Response) :
    (s.respondA w r).capacity = s.capacity := rfl
@[simp] theorem State.respondA_wrapMask (s : State) (w : Word32) (r : Response) :
    (s.respondA w r).wrapMask = s.wrapMask := rfl
@[simp] theorem State.respondA_head (s : State) (w : Word32) (r : Response) :
    (s.respondA w r).head = s.head := rfl
@[simp] theorem State.respondA_tail (s : State) (w : Word32) (r : Response) :
    (s.respondA w r).tail = s.tail := rfl
@[simp] theorem State.respondA_shadowTail (s : State) (w : Word32) (r : Response) :
    (s.respondA w r).shadowTail = s.shadowTail := rfl
@[simp] theorem State.respondA_mem (s : State) (w : Word32) (r : Response) :
    (s.respondA w r).mem = s.mem := rfl
@[simp] theorem State.respondA_fifo (s : State) (w : Word32) (r : Response) :
    (s.respondA w r).fifo = s.fifo := rfl
@[simp] theorem State.respondA_pseq (s : State) (w : Word32) (r : Response) :
    (s.respondA w r).pseq = s.pseq := rfl
@[simp] theorem State.respondA_cseq (s : State) (w : Word32) (r : Response) :
    (s.respondA w r).cseq = s.cseq := rfl
@[simp] theorem State.respondA_aseq (s : State) (w : Word32) (r : Response) :
    (s.respondA w r).aseq = none := rfl
@[simp] theorem State.respondA_dev (s : State) (w : Word32) (r : Response) :
    (s.respondA w r).dev = s.dev := rfl
@[simp] theorem State.respondA_now (s : State) (w : Word32) (r : Response) :
    (s.respondA w r).now = s.now := rfl
@[simp] theorem State.respondA_port (s : State) (w : Word32) (r : Response) :
    (s.respondA w r).port = s.port := rfl
@[simp] theorem State.respondA_agenda (s : State) (w : Word32) (r : Response) :
    (s.respondA w r).agenda = s.agenda := rfl
@[simp] theorem State.respondA_window (s : State) (w : Word32) (r : Response) :
    (s.respondA w r).window = s.window := rfl
@[simp] theorem State.respondA_trace (s : State) (w : Word32) (r : Response) :
    (s.respondA w r).trace = .respond w r :: s.trace := rfl
@[simp] theorem State.respondA_choices (s : State) (w : Word32) (r : Response) :
    (s.respondA w r).choices = s.choices := rfl

@[simp] theorem State.takeCommand_cfg (s : State) :
    (s.takeCommand).cfg = s.cfg := rfl
@[simp] theorem State.takeCommand_configured (s : State) :
    (s.takeCommand).configured = s.configured := rfl
@[simp] theorem State.takeCommand_enabled (s : State) :
    (s.takeCommand).enabled = s.enabled := rfl
@[simp] theorem State.takeCommand_mode (s : State) :
    (s.takeCommand).mode = s.mode := rfl
@[simp] theorem State.takeCommand_policy (s : State) :
    (s.takeCommand).policy = s.policy := rfl
@[simp] theorem State.takeCommand_kind (s : State) :
    (s.takeCommand).kind = s.kind := rfl
@[simp] theorem State.takeCommand_capacity (s : State) :
    (s.takeCommand).capacity = s.capacity := rfl
@[simp] theorem State.takeCommand_wrapMask (s : State) :
    (s.takeCommand).wrapMask = s.wrapMask := rfl
@[simp] theorem State.takeCommand_head (s : State) :
    (s.takeCommand).head = s.head := rfl
@[simp] theorem State.takeCommand_tail (s : State) :
    (s.takeCommand).tail = s.tail := rfl
@[simp] theorem State.takeCommand_shadowTail (s : State) :
    (s.takeCommand).shadowTail = s.shadowTail := rfl
@[simp] theorem State.takeCommand_mem (s : State) :
    (s.takeCommand).mem = s.mem := rfl
@[simp] theorem State.takeCommand_fifo (s : State) :
    (s.takeCommand).fifo = s.fifo := rfl
@[simp] theorem State.takeCommand_pseq (s : State) :
    (s.takeCommand).pseq = s.pseq := rfl
@[simp] theorem State.takeCommand_cseq (s : State) :
    (s.takeCommand).cseq = s.cseq := rfl
@[simp] theorem State.takeCommand_aseq (s : State) :
    (s.takeCommand).aseq = s.aseq := rfl
@[simp] theorem State.takeCommand_dev (s : State) :
    (s.takeCommand).dev = s.dev := rfl
@[simp] theorem State.takeCommand_now (s : State) :
    (s.takeCommand).now = s.now := rfl
@[simp] theorem State.takeCommand_port (s : State) :
    (s.takeCommand).port = s.port.tail := rfl
@[simp] theorem State.takeCommand_agenda (s : State) :
    (s.takeCommand).agenda = s.agenda := rfl
@[simp] theorem State.takeCommand_window (s : State) :
    (s.takeCommand).window = s.window := rfl
@[simp] theorem State.takeCommand_trace (s : State) :
    (s.takeCommand).trace = s.trace := rfl
@[simp] theorem State.takeCommand_choices (s : State) :
    (s.takeCommand).choices = s.choices := rfl

@[simp] theorem State.select_cfg (s : State) (k : Nat) :
    (s.select k).cfg = s.cfg := rfl
@[simp] theorem State.select_configured (s : State) (k : Nat) :
    (s.select k).configured = s.configured := rfl
@[simp] theorem State.select_enabled (s : State) (k : Nat) :
    (s.select k).enabled = s.enabled := rfl
@[simp] theorem State.select_mode (s : State) (k : Nat) :
    (s.select k).mode = s.mode := rfl
@[simp] theorem State.select_policy (s : State) (k : Nat) :
    (s.select k).policy = s.policy := rfl
@[simp] theorem State.select_kind (s : State) (k : Nat) :
    (s.select k).kind = s.kind := rfl
@[simp] theorem State.select_capacity (s : State) (k : Nat) :
    (s.select k).capacity = s.capacity := rfl
@[simp] theorem State.select_wrapMask (s : State) (k : Nat) :
    (s.select k).wrapMask = s.wrapMask := rfl
@[simp] theorem State.select_head (s : State) (k : Nat) :
    (s.select k).head = s.head := rfl
@[simp] theorem State.select_tail (s : State) (k : Nat) :
    (s.select k).tail = s.tail := rfl
@[simp] theorem State.select_shadowTail (s : State) (k : Nat) :
    (s.select k).shadowTail = s.shadowTail := rfl
@[simp] theorem State.select_mem (s : State) (k : Nat) :
    (s.select k).mem = s.mem := rfl
@[simp] theorem State.select_fifo (s : State) (k : Nat) :
    (s.select k).fifo = s.fifo := rfl
@[simp] theorem State.select_pseq (s : State) (k : Nat) :
    (s.select k).pseq = s.pseq := rfl
@[simp] theorem State.select_cseq (s : State) (k : Nat) :
    (s.select k).cseq = s.cseq := rfl
@[simp] theorem State.select_aseq (s : State) (k : Nat) :
    (s.select k).aseq = s.aseq := rfl
@[simp] theorem State.select_dev (s : State) (k : Nat) :
    (s.select k).dev = s.dev := rfl
@[simp] theorem State.select_now (s : State) (k : Nat) :
    (s.select k).now = s.now := rfl
@[simp] theorem State.select_port (s : State) (k : Nat) :
    (s.select k).port = (s.port[k]?).toList ++ s.port.eraseIdx k := rfl
@[simp] theorem State.select_agenda (s : State) (k : Nat) :
    (s.select k).agenda = s.agenda := rfl
@[simp] theorem State.select_window (s : State) (k : Nat) :
    (s.select k).window = s.window := rfl
@[simp] theorem State.select_trace (s : State) (k : Nat) :
    (s.select k).trace = s.trace := rfl
@[simp] theorem State.select_choices (s : State) (k : Nat) :
    (s.select k).choices = s.choices := rfl

@[simp] theorem State.logHwHead_cfg (s : State) :
    (s.logHwHead).cfg = s.cfg := rfl
@[simp] theorem State.logHwHead_configured (s : State) :
    (s.logHwHead).configured = s.configured := rfl
@[simp] theorem State.logHwHead_enabled (s : State) :
    (s.logHwHead).enabled = s.enabled := rfl
@[simp] theorem State.logHwHead_mode (s : State) :
    (s.logHwHead).mode = s.mode := rfl
@[simp] theorem State.logHwHead_policy (s : State) :
    (s.logHwHead).policy = s.policy := rfl
@[simp] theorem State.logHwHead_kind (s : State) :
    (s.logHwHead).kind = s.kind := rfl
@[simp] theorem State.logHwHead_capacity (s : State) :
    (s.logHwHead).capacity = s.capacity := rfl
@[simp] theorem State.logHwHead_wrapMask (s : State) :
    (s.logHwHead).wrapMask = s.wrapMask := rfl
@[simp] theorem State.logHwHead_head (s : State) :
    (s.logHwHead).head = s.head := rfl
@[simp] theorem State.logHwHead_tail (s : State) :
    (s.logHwHead).tail = s.tail := rfl
@[simp] theorem State.logHwHead_shadowTail (s : State) :
    (s.logHwHead).shadowTail = s.shadowTail := rfl
@[simp] theorem State.logHwHead_mem (s : State) :
    (s.logHwHead).mem = s.mem := rfl
@[simp] theorem State.logHwHead_fifo (s : State) :
    (s.logHwHead).fifo = s.fifo := rfl
@[simp] theorem State.logHwHead_pseq (s : State) :
    (s.logHwHead).pseq = s.pseq := rfl
@[simp] theorem State.logHwHead_cseq (s : State) :
    (s.logHwHead).cseq = s.cseq := rfl
@[simp] theorem State.logHwHead_aseq (s : State) :
    (s.logHwHead).aseq = s.aseq := rfl
@[simp] theorem State.logHwHead_dev (s : State) :
    (s.logHwHead).dev = s.dev := rfl
@[simp] theorem State.logHwHead_now (s : State) :
    (s.logHwHead).now = s.now := rfl
@[simp] theorem State.logHwHead_port (s : State) :
    (s.logHwHead).port = s.port := rfl
@[simp] theorem State.logHwHead_agenda (s : State) :
    (s.logHwHead).agenda = s.agenda := rfl
@[simp] theorem State.logHwHead_window (s : State) :
    (s.logHwHead).window = s.window := rfl
@[simp] theorem State.logHwHead_trace (s : State) :
    (s.logHwHead).trace = .mmioRead .cseq s.cfg.regBase s.cfg.offHwHead s.dev.hwHead :: s.trace := rfl
@[simp] theorem State.logHwHead_choices (s : State) :
    (s.logHwHead).choices = s.choices := rfl

@[simp] theorem State.logAdminStatus_cfg (s : State) :
    (s.logAdminStatus).cfg = s.cfg := rfl
@[simp] theorem State.logAdminStatus_configured (s : State) :
    (s.logAdminStatus).configured = s.configured := rfl
@[simp] theorem State.logAdminStatus_enabled (s : State) :
    (s.logAdminStatus).enabled = s.enabled := rfl
@[simp] theorem State.logAdminStatus_mode (s : State) :
    (s.logAdminStatus).mode = s.mode := rfl
@[simp] theorem State.logAdminStatus_policy (s : State) :
    (s.logAdminStatus).policy = s.policy := rfl
@[simp] theorem State.logAdminStatus_kind (s : State) :
    (s.logAdminStatus).kind = s.kind := rfl
@[simp] theorem State.logAdminStatus_capacity (s : State) :
    (s.logAdminStatus).capacity = s.capacity := rfl
@[simp] theorem State.logAdminStatus_wrapMask (s : State) :
    (s.logAdminStatus).wrapMask = s.wrapMask := rfl
@[simp] theorem State.logAdminStatus_head (s : State) :
    (s.logAdminStatus).head = s.head := rfl
@[simp] theorem State.logAdminStatus_tail (s : State) :
    (s.logAdminStatus).tail = s.tail := rfl
@[simp] theorem State.logAdminStatus_shadowTail (s : State) :
    (s.logAdminStatus).shadowTail = s.shadowTail := rfl
@[simp] theorem State.logAdminStatus_mem (s : State) :
    (s.logAdminStatus).mem = s.mem := rfl
@[simp] theorem State.logAdminStatus_fifo (s : State) :
    (s.logAdminStatus).fifo = s.fifo := rfl
@[simp] theorem State.logAdminStatus_pseq (s : State) :
    (s.logAdminStatus).pseq = s.pseq := rfl
@[simp] theorem State.logAdminStatus_cseq (s : State) :
    (s.logAdminStatus).cseq = s.cseq := rfl
@[simp] theorem State.logAdminStatus_aseq (s : State) :
    (s.logAdminStatus).aseq = s.aseq := rfl
@[simp] theorem State.logAdminStatus_dev (s : State) :
    (s.logAdminStatus).dev = s.dev := rfl
@[simp] theorem State.logAdminStatus_now (s : State) :
    (s.logAdminStatus).now = s.now := rfl
@[simp] theorem State.logAdminStatus_port (s : State) :
    (s.logAdminStatus).port = s.port := rfl
@[simp] theorem State.logAdminStatus_agenda (s : State) :
    (s.logAdminStatus).agenda = s.agenda := rfl
@[simp] theorem State.logAdminStatus_window (s : State) :
    (s.logAdminStatus).window = s.window := rfl
@[simp] theorem State.logAdminStatus_trace (s : State) :
    (s.logAdminStatus).trace = .mmioRead .aseq s.cfg.regBase s.cfg.offAdminStatus s.dev.adminStatus :: s.trace := rfl
@[simp] theorem State.logAdminStatus_choices (s : State) :
    (s.logAdminStatus).choices = s.choices := rfl

@[simp] theorem State.writeDoorbell_cfg (s : State) (v : Word32) :
    (s.writeDoorbell v).cfg = s.cfg := rfl
@[simp] theorem State.writeDoorbell_configured (s : State) (v : Word32) :
    (s.writeDoorbell v).configured = s.configured := rfl
@[simp] theorem State.writeDoorbell_enabled (s : State) (v : Word32) :
    (s.writeDoorbell v).enabled = s.enabled := rfl
@[simp] theorem State.writeDoorbell_mode (s : State) (v : Word32) :
    (s.writeDoorbell v).mode = s.mode := rfl
@[simp] theorem State.writeDoorbell_policy (s : State) (v : Word32) :
    (s.writeDoorbell v).policy = s.policy := rfl
@[simp] theorem State.writeDoorbell_kind (s : State) (v : Word32) :
    (s.writeDoorbell v).kind = s.kind := rfl
@[simp] theorem State.writeDoorbell_capacity (s : State) (v : Word32) :
    (s.writeDoorbell v).capacity = s.capacity := rfl
@[simp] theorem State.writeDoorbell_wrapMask (s : State) (v : Word32) :
    (s.writeDoorbell v).wrapMask = s.wrapMask := rfl
@[simp] theorem State.writeDoorbell_head (s : State) (v : Word32) :
    (s.writeDoorbell v).head = s.head := rfl
@[simp] theorem State.writeDoorbell_tail (s : State) (v : Word32) :
    (s.writeDoorbell v).tail = s.tail := rfl
@[simp] theorem State.writeDoorbell_shadowTail (s : State) (v : Word32) :
    (s.writeDoorbell v).shadowTail = s.shadowTail := rfl
@[simp] theorem State.writeDoorbell_mem (s : State) (v : Word32) :
    (s.writeDoorbell v).mem = s.mem := rfl
@[simp] theorem State.writeDoorbell_fifo (s : State) (v : Word32) :
    (s.writeDoorbell v).fifo = s.fifo := rfl
@[simp] theorem State.writeDoorbell_pseq (s : State) (v : Word32) :
    (s.writeDoorbell v).pseq = s.pseq := rfl
@[simp] theorem State.writeDoorbell_cseq (s : State) (v : Word32) :
    (s.writeDoorbell v).cseq = s.cseq := rfl
@[simp] theorem State.writeDoorbell_aseq (s : State) (v : Word32) :
    (s.writeDoorbell v).aseq = s.aseq := rfl
@[simp] theorem State.writeDoorbell_dev (s : State) (v : Word32) :
    (s.writeDoorbell v).dev = { s.dev with doorbell := v } := rfl
@[simp] theorem State.writeDoorbell_now (s : State) (v : Word32) :
    (s.writeDoorbell v).now = s.now := rfl
@[simp] theorem State.writeDoorbell_port (s : State) (v : Word32) :
    (s.writeDoorbell v).port = s.port := rfl
@[simp] theorem State.writeDoorbell_agenda (s : State) (v : Word32) :
    (s.writeDoorbell v).agenda = s.agenda := rfl
@[simp] theorem State.writeDoorbell_window (s : State) (v : Word32) :
    (s.writeDoorbell v).window = s.window := rfl
@[simp] theorem State.writeDoorbell_trace (s : State) (v : Word32) :
    (s.writeDoorbell v).trace = .mmioWrite .pseq s.cfg.regBase s.cfg.offDoorbell v :: s.trace := rfl
@[simp] theorem State.writeDoorbell_choices (s : State) (v : Word32) :
    (s.writeDoorbell v).choices = s.choices := rfl

@[simp] theorem State.writeAdminCtrl_cfg (s : State) (v : Word32) :
    (s.writeAdminCtrl v).cfg = s.cfg := rfl
@[simp] theorem State.writeAdminCtrl_configured (s : State) (v : Word32) :
    (s.writeAdminCtrl v).configured = s.configured := rfl
@[simp] theorem State.writeAdminCtrl_enabled (s : State) (v : Word32) :
    (s.writeAdminCtrl v).enabled = s.enabled := rfl
@[simp] theorem State.writeAdminCtrl_mode (s : State) (v : Word32) :
    (s.writeAdminCtrl v).mode = s.mode := rfl
@[simp] theorem State.writeAdminCtrl_policy (s : State) (v : Word32) :
    (s.writeAdminCtrl v).policy = s.policy := rfl
@[simp] theorem State.writeAdminCtrl_kind (s : State) (v : Word32) :
    (s.writeAdminCtrl v).kind = s.kind := rfl
@[simp] theorem State.writeAdminCtrl_capacity (s : State) (v : Word32) :
    (s.writeAdminCtrl v).capacity = s.capacity := rfl
@[simp] theorem State.writeAdminCtrl_wrapMask (s : State) (v : Word32) :
    (s.writeAdminCtrl v).wrapMask = s.wrapMask := rfl
@[simp] theorem State.writeAdminCtrl_head (s : State) (v : Word32) :
    (s.writeAdminCtrl v).head = s.head := rfl
@[simp] theorem State.writeAdminCtrl_tail (s : State) (v : Word32) :
    (s.writeAdminCtrl v).tail = s.tail := rfl
@[simp] theorem State.writeAdminCtrl_shadowTail (s : State) (v : Word32) :
    (s.writeAdminCtrl v).shadowTail = s.shadowTail := rfl
@[simp] theorem State.writeAdminCtrl_mem (s : State) (v : Word32) :
    (s.writeAdminCtrl v).mem = s.mem := rfl
@[simp] theorem State.writeAdminCtrl_fifo (s : State) (v : Word32) :
    (s.writeAdminCtrl v).fifo = s.fifo := rfl
@[simp] theorem State.writeAdminCtrl_pseq (s : State) (v : Word32) :
    (s.writeAdminCtrl v).pseq = s.pseq := rfl
@[simp] theorem State.writeAdminCtrl_cseq (s : State) (v : Word32) :
    (s.writeAdminCtrl v).cseq = s.cseq := rfl
@[simp] theorem State.writeAdminCtrl_aseq (s : State) (v : Word32) :
    (s.writeAdminCtrl v).aseq = s.aseq := rfl
@[simp] theorem State.writeAdminCtrl_dev (s : State) (v : Word32) :
    (s.writeAdminCtrl v).dev = s.dev.admin v := rfl
@[simp] theorem State.writeAdminCtrl_now (s : State) (v : Word32) :
    (s.writeAdminCtrl v).now = s.now := rfl
@[simp] theorem State.writeAdminCtrl_port (s : State) (v : Word32) :
    (s.writeAdminCtrl v).port = s.port := rfl
@[simp] theorem State.writeAdminCtrl_agenda (s : State) (v : Word32) :
    (s.writeAdminCtrl v).agenda = s.agenda := rfl
@[simp] theorem State.writeAdminCtrl_window (s : State) (v : Word32) :
    (s.writeAdminCtrl v).window = s.window := rfl
@[simp] theorem State.writeAdminCtrl_trace (s : State) (v : Word32) :
    (s.writeAdminCtrl v).trace = .mmioWrite .aseq s.cfg.regBase s.cfg.offAdminCtrl v :: s.trace := rfl
@[simp] theorem State.writeAdminCtrl_choices (s : State) (v : Word32) :
    (s.writeAdminCtrl v).choices = s.choices := rfl

@[simp] theorem State.bus_mem (s : State) : s.bus.mem = s.mem := rfl
@[simp] theorem State.bus_trace (s : State) : s.bus.trace = s.trace := rfl

end Sys2Proof.Machine
end

