-- ==== Sys2Proof/Laws/Slots.lean ====
section
/-!
SUPPORT. Slot accesses: what an access changes, the fields of one slot do not overlap, and neither do the
bytes of two slots (30_encoding.md R121, 20_memory.md R71, R77).
-/

namespace Sys2Proof.Machine

/-! ### Accesses -/

@[simp] theorem Bus.write_mem (b : Bus) (g : Agent) (a : Nat) (bs : List Byte) :
    (b.write g a bs).mem = b.mem.writeBytes a bs := by
  cases bs <;> rfl

@[simp] theorem Bus.logRead_mem (b : Bus) (g : Agent) (a n : Nat) : (b.logRead g a n).mem = b.mem := rfl

@[simp] theorem Bus.logRead_trace (b : Bus) (g : Agent) (a n : Nat) :
    (b.logRead g a n).trace = .memRead g a (b.mem.readBytes a n) :: b.trace := rfl

@[simp] theorem Bus.logCtrl_mem (b : Bus) (g : Agent) (p : Params) (i : Idx) :
    (b.logCtrl g p i).mem = b.mem := rfl

@[simp] theorem Bus.logRef_mem (b : Bus) (g : Agent) (p : Params) (i : Idx) :
    (b.logRef g p i).mem = b.mem := rfl

@[simp] theorem Bus.writeCtrl_mem (b : Bus) (g : Agent) (p : Params) (i : Idx) (c : Word32) :
    (b.writeCtrl g p i c).mem = b.mem.writeBytes (slotAddr p i + offCtrl) (leBytes 4 c.toNat) :=
  Bus.write_mem b g _ _

/-- A write access keeps the canonical form. -/
theorem Bus.write_wf {b : Bus} (g : Agent) (a : Nat) (bs : List Byte) (h : Memory.wf b.mem = true) :
    Memory.wf (b.write g a bs).mem = true := by
  rw [Bus.write_mem]
  exact Memory.writeBytes_wf a bs h

/-- A `ctrl` write keeps the canonical form. -/
theorem Bus.writeCtrl_wf {b : Bus} (g : Agent) (p : Params) (i : Idx) (c : Word32)
    (h : Memory.wf b.mem = true) : Memory.wf (b.writeCtrl g p i c).mem = true :=
  Bus.write_wf g _ _ h

/-! ### Distinct slots do not overlap -/

theorem slotAddr_separated {p : Params} {i j : Idx} (h : i ≠ j) :
    slotAddr p i + p.descSize ≤ slotAddr p j ∨ slotAddr p j + p.descSize ≤ slotAddr p i := by
  have hne : i.toNat ≠ j.toNat := fun e => h (BitVec.eq_of_toNat_eq e)
  unfold slotAddr
  rcases Nat.lt_or_gt_of_ne hne with hlt | hlt
  · left
    have : (i.toNat + 1) * p.descSize ≤ j.toNat * p.descSize := Nat.mul_le_mul_right _ hlt
    rw [Nat.add_mul, Nat.one_mul] at this
    omega
  · right
    have : (j.toNat + 1) * p.descSize ≤ i.toNat * p.descSize := Nat.mul_le_mul_right _ hlt
    rw [Nat.add_mul, Nat.one_mul] at this
    omega

/-! ### The `ctrl` word -/

theorem slotCtrl_congr {p : Params} {m m' : Memory} {i : Idx}
    (h : ∀ k, k < 4 → Memory.read m (slotAddr p i + offCtrl + k) =
      Memory.read m' (slotAddr p i + offCtrl + k)) : slotCtrl p m i = slotCtrl p m' i := by
  unfold slotCtrl
  rw [Memory.readBytes_congr h]

theorem slotRef_congr {p : Params} {m m' : Memory} {i : Idx}
    (h : ∀ k, k < 8 → Memory.read m (slotAddr p i + offRef + k) =
      Memory.read m' (slotAddr p i + offRef + k)) : slotRef p m i = slotRef p m' i := by
  unfold slotRef
  rw [Memory.readBytes_congr h]

/-- The `ctrl` word written is the one read. -/
theorem slotCtrl_writeCtrl_same {b : Bus} (g : Agent) (p : Params) (i : Idx) (c : Word32)
    (h : Memory.wf b.mem = true) : slotCtrl p (b.writeCtrl g p i c).mem i = c := by
  rw [Bus.writeCtrl_mem, slotCtrl, leValue_readBytes_writeBytes _ _ _ h]
  apply BitVec.eq_of_toNat_eq
  have := c.isLt
  simp
  omega

/-- A `ctrl` write leaves the `ctrl` words of other slots alone. -/
theorem slotCtrl_writeCtrl_other {b : Bus} (g : Agent) {p : Params} {i j : Idx} (c : Word32)
    (hsize : 16 ≤ p.descSize) (hne : j ≠ i) :
    slotCtrl p (b.writeCtrl g p i c).mem j = slotCtrl p b.mem j := by
  refine slotCtrl_congr (fun k hk => ?_)
  rw [Bus.writeCtrl_mem, Memory.read_writeBytes_outside]
  have := slotAddr_separated (p := p) hne
  simp only [leBytes_length, offCtrl]
  omega

/-- A `ctrl` write leaves every back-reference alone. -/
theorem slotRef_writeCtrl {b : Bus} (g : Agent) {p : Params} {i j : Idx} (c : Word32)
    (hsize : 16 ≤ p.descSize) : slotRef p (b.writeCtrl g p i c).mem j = slotRef p b.mem j := by
  refine slotRef_congr (fun k hk => ?_)
  rw [Bus.writeCtrl_mem, Memory.read_writeBytes_outside]
  simp only [leBytes_length, offCtrl, offRef]
  by_cases hij : j = i
  · subst hij
    omega
  · have := slotAddr_separated (p := p) hij
    omega

/-- A `ctrl` write leaves every byte outside those four alone. -/
theorem read_writeCtrl_outside {b : Bus} (g : Agent) {p : Params} {i : Idx} (c : Word32) {a : Nat}
    (h : a < slotAddr p i ∨ slotAddr p i + 4 ≤ a) :
    Memory.read (b.writeCtrl g p i c).mem a = Memory.read b.mem a := by
  rw [Bus.writeCtrl_mem, Memory.read_writeBytes_outside]
  simp only [leBytes_length, offCtrl]
  omega

end Sys2Proof.Machine
end

