-- ==== Sys2Proof/Laws/Submission.lean ====
section
/-!
SUPPORT. The fill loop of the Submission Path (42_submission.md R190): what filling a slot, a request and
the whole loop do to the counts, to the disposition list and to ring memory.
-/

namespace Sys2Proof.Machine

/-! ### One slot -/

@[simp] theorem fillSlot_avail (p : Params) (mask tail : Idx) (ref : Ref) (blob : List Byte) (f : Fill) :
    (fillSlot p mask tail ref blob f).avail = f.avail - 1 := rfl

@[simp] theorem fillSlot_written (p : Params) (mask tail : Idx) (ref : Ref) (blob : List Byte)
    (f : Fill) : (fillSlot p mask tail ref blob f).written = f.written + 1 := rfl

@[simp] theorem fillSlot_accepted (p : Params) (mask tail : Idx) (ref : Ref) (blob : List Byte)
    (f : Fill) : (fillSlot p mask tail ref blob f).accepted = f.accepted := rfl

@[simp] theorem fillSlot_taken (p : Params) (mask tail : Idx) (ref : Ref) (blob : List Byte) (f : Fill) :
    (fillSlot p mask tail ref blob f).taken = f.taken := rfl

@[simp] theorem fillSlot_disp (p : Params) (mask tail : Idx) (ref : Ref) (blob : List Byte) (f : Fill) :
    (fillSlot p mask tail ref blob f).disp = f.disp := rfl

/-- Ring memory after one slot is filled, as four writes (20_memory.md R79). -/
theorem fillSlot_mem (p : Params) (mask tail : Idx) (ref : Ref) (blob : List Byte) (f : Fill) :
    (fillSlot p mask tail ref blob f).bus.mem =
      (((f.bus.mem.writeBytes (slotAddr p (wrapAdd mask tail f.written) + offCtrl)
        (leBytes 4 ctrlCleared.toNat)).writeBytes
        (slotAddr p (wrapAdd mask tail f.written) + offReserved) (leBytes 4 0)).writeBytes
        (slotAddr p (wrapAdd mask tail f.written) + offRef) (leBytes 8 ref.toNat)).writeBytes
        (slotAddr p (wrapAdd mask tail f.written) + offPayload) blob := by
  simp [fillSlot]

theorem fillSlot_wf {p : Params} {mask tail : Idx} {ref : Ref} {blob : List Byte} {f : Fill}
    (h : Memory.wf f.bus.mem = true) :
    Memory.wf (fillSlot p mask tail ref blob f).bus.mem = true := by
  rw [fillSlot_mem]
  exact Memory.writeBytes_wf _ _ (Memory.writeBytes_wf _ _ (Memory.writeBytes_wf _ _
    (Memory.writeBytes_wf _ _ h)))

/-- Filling a slot leaves every byte outside the slot alone. -/
theorem fillSlot_read_outside {p : Params} {mask tail : Idx} {ref : Ref} {blob : List Byte} {f : Fill}
    {a : Nat} (hsize : 16 + blob.length ≤ p.descSize)
    (h : a < slotAddr p (wrapAdd mask tail f.written) ∨
      slotAddr p (wrapAdd mask tail f.written) + p.descSize ≤ a) :
    Memory.read (fillSlot p mask tail ref blob f).bus.mem a = Memory.read f.bus.mem a := by
  rw [fillSlot_mem, Memory.read_writeBytes_outside (by simp only [offPayload]; omega),
    Memory.read_writeBytes_outside (by simp only [leBytes_length, offRef]; omega),
    Memory.read_writeBytes_outside (by simp only [leBytes_length, offReserved]; omega),
    Memory.read_writeBytes_outside (by simp only [leBytes_length, offCtrl]; omega)]

/-- The filled slot's `ctrl` word is 0. -/
theorem fillSlot_ctrl {p : Params} {mask tail : Idx} {ref : Ref} {blob : List Byte} {f : Fill}
    (h : Memory.wf f.bus.mem = true) :
    slotCtrl p (fillSlot p mask tail ref blob f).bus.mem (wrapAdd mask tail f.written) = 0#32 := by
  rw [slotCtrl, fillSlot_mem,
    Memory.readBytes_writeBytes_other (by simp only [offCtrl, offPayload]; omega),
    Memory.readBytes_writeBytes_other (by simp only [offCtrl, offRef]; omega),
    Memory.readBytes_writeBytes_other (by simp only [offCtrl, offReserved]; omega)]
  rw [leValue_readBytes_writeBytes _ _ _ h]
  rfl

/-- The filled slot's back-reference is the request's. -/
theorem fillSlot_ref {p : Params} {mask tail : Idx} {ref : Ref} {blob : List Byte} {f : Fill}
    (h : Memory.wf f.bus.mem = true) :
    slotRef p (fillSlot p mask tail ref blob f).bus.mem (wrapAdd mask tail f.written) = ref := by
  rw [slotRef, fillSlot_mem,
    Memory.readBytes_writeBytes_other (by simp only [offRef, offPayload]; omega)]
  rw [leValue_readBytes_writeBytes _ _ _
    (Memory.writeBytes_wf _ _ (Memory.writeBytes_wf _ _ h))]
  apply BitVec.eq_of_toNat_eq
  have := ref.isLt
  simp
  omega

/-! ### The slots of one request -/

/-- Everything but ring memory: `n` slots are counted. -/
theorem fillSlots_counts (p : Params) (mask tail : Idx) (ref : Ref) (n : Nat) (blobs : List (List Byte))
    (f : Fill) :
    (fillSlots p mask tail ref n blobs f).written = f.written + n ∧
    (fillSlots p mask tail ref n blobs f).avail = f.avail - n ∧
    (fillSlots p mask tail ref n blobs f).accepted = f.accepted ∧
    (fillSlots p mask tail ref n blobs f).taken = f.taken ∧
    (fillSlots p mask tail ref n blobs f).disp = f.disp := by
  induction n generalizing blobs f with
  | zero => simp [fillSlots]
  | succ n ih =>
    obtain ⟨h1, h2, h3, h4, h5⟩ := ih blobs.tail (fillSlot p mask tail ref (blobs.headD []) f)
    rw [fillSlot_written] at h1
    rw [fillSlot_avail] at h2
    exact ⟨by rw [fillSlots, h1]; omega, by rw [fillSlots, h2]; omega, h3, h4, h5⟩

theorem fillSlots_wf {p : Params} {mask tail : Idx} {ref : Ref} {n : Nat} {blobs : List (List Byte)}
    {f : Fill} (h : Memory.wf f.bus.mem = true) :
    Memory.wf (fillSlots p mask tail ref n blobs f).bus.mem = true := by
  induction n generalizing blobs f with
  | zero => exact h
  | succ n ih => exact ih (fillSlot_wf h)

/-! ### One request -/

/-- What accepting a request does to the counts (42_submission.md R190, R197). -/
theorem Fill.accept_counts (f : Fill) (p : Params) (mask tail : Idx) (r : ReqRecord) :
    (f.accept p mask tail r).written = f.written + recordNdesc r ∧
    (f.accept p mask tail r).avail = f.avail - recordNdesc r ∧
    (f.accept p mask tail r).accepted = f.accepted + 1 ∧
    (f.accept p mask tail r).taken = f.taken + 1 ∧
    (f.accept p mask tail r).disp = f.disp ++ [.disp (recordRef r) .accepted] := by
  obtain ⟨h1, h2, h3, h4, h5⟩ :=
    fillSlots_counts p mask tail (recordRef r) (recordNdesc r) r.payload f
  simp [Fill.accept, h1, h2, h3, h4, h5]

/-- What rejecting a request does: no slot, no change of `avail` (R193). -/
theorem Fill.reject_counts (f : Fill) (r : ReqRecord) :
    (f.reject r).bus = f.bus ∧ (f.reject r).written = f.written ∧ (f.reject r).avail = f.avail ∧
    (f.reject r).accepted = f.accepted ∧ (f.reject r).taken = f.taken + 1 ∧
    (f.reject r).disp = f.disp ++ [.disp (recordRef r) .malformed] := ⟨rfl, rfl, rfl, rfl, rfl, rfl⟩

theorem Fill.accept_wf {f : Fill} {p : Params} {mask tail : Idx} {r : ReqRecord}
    (h : Memory.wf f.bus.mem = true) : Memory.wf (f.accept p mask tail r).bus.mem = true :=
  fillSlots_wf (f := f) h

theorem one_le_ndesc_of_wellFormed {mode : Mode} {r : ReqRecord}
    (h : wellFormedRequest mode r = true) : 1 ≤ recordNdesc r := by
  simp only [wellFormedRequest, Bool.and_eq_true, decide_eq_true_eq] at h
  exact h.1.2

/-! ### The loop -/

/-- The ways one turn of the loop can go (R195): it ends, or it goes on after a rejected or an accepted
request. Every property of the loop follows by this induction. -/
theorem fillLoop_induction {p : Params} {mode : Mode} {policy : Policy} {mask tail : Idx}
    (P : Fill → Prop)
    (hreject : ∀ f r, f.avail ≠ 0 → wellFormedRequest mode r = false → P f → P (f.reject r))
    (haccept : ∀ f r, f.avail ≠ 0 → wellFormedRequest mode r = true → recordNdesc r ≤ f.avail →
      P f → P (f.accept p mask tail r))
    (rs : List ReqRecord) (f : Fill) (hf : P f) : P (fillLoop p mode policy mask tail rs f) := by
  induction rs generalizing f with
  | nil => exact hf
  | cons r rs ih =>
    unfold fillLoop
    split
    · exact hf
    · rename_i h0
      split
      · rename_i hw
        split
        · exact hf
        · exact ih _ (haccept f r h0 hw (by omega) hf)
      · rename_i hw
        have hw' : wellFormedRequest mode r = false := by simpa using hw
        cases policy with
        | failFast => exact hreject f r h0 hw' hf
        | bestEffort => exact ih _ (hreject f r h0 hw' hf)

/-- The loop keeps the canonical form of ring memory. -/
theorem fillLoop_wf {p : Params} {mode : Mode} {policy : Policy} {mask tail : Idx}
    {rs : List ReqRecord} {f : Fill} (h : Memory.wf f.bus.mem = true) :
    Memory.wf (fillLoop p mode policy mask tail rs f).bus.mem = true :=
  fillLoop_induction (fun f => Memory.wf f.bus.mem = true) (fun _ _ _ _ h => h)
    (fun _ _ _ _ _ h => Fill.accept_wf h) rs f h

/-- The loop fills no more slots than it was given: `avail + written` stays as it was (R192). -/
theorem fillLoop_avail_add_written {p : Params} {mode : Mode} {policy : Policy} {mask tail : Idx}
    {rs : List ReqRecord} {f : Fill} :
    (fillLoop p mode policy mask tail rs f).avail + (fillLoop p mode policy mask tail rs f).written =
      f.avail + f.written := by
  refine fillLoop_induction (fun g => g.avail + g.written = f.avail + f.written) ?_ ?_ rs f rfl
  · intro g r _ _ hg
    exact hg
  · intro g r _ _ hle hg
    obtain ⟨h1, h2, -⟩ := g.accept_counts p mask tail r
    rw [h1, h2]
    omega

theorem acceptedRefs_append (l l' : List OutRecord) :
    acceptedRefs (l ++ l') = acceptedRefs l ++ acceptedRefs l' := by
  induction l with
  | nil => rfl
  | cons o l ih =>
    cases o with
    | disp ref code => cases code <;> simp [acceptedRefs, ih]
    | compl => simp [acceptedRefs, ih]
    | handle => simp [acceptedRefs, ih]
    | age => simp [acceptedRefs, ih]

/-- The counts of the loop agree with the disposition list: one entry per consumed request, one ACCEPTED
entry per accepted one, and at least one slot per accepted request (R197, R202). -/
theorem fillLoop_counts_agree {p : Params} {mode : Mode} {policy : Policy} {mask tail : Idx}
    {rs : List ReqRecord} {f : Fill} (h1 : f.disp.length = f.taken)
    (h2 : (acceptedRefs f.disp).length = f.accepted) (h3 : f.accepted ≤ f.written)
    (h4 : f.accepted = 0 → f.written = 0) :
    let g := fillLoop p mode policy mask tail rs f
    g.disp.length = g.taken ∧ (acceptedRefs g.disp).length = g.accepted ∧ g.accepted ≤ g.written ∧
      (g.accepted = 0 → g.written = 0) := by
  refine fillLoop_induction (fun g => g.disp.length = g.taken ∧
    (acceptedRefs g.disp).length = g.accepted ∧ g.accepted ≤ g.written ∧
      (g.accepted = 0 → g.written = 0)) ?_ ?_ rs f ⟨h1, h2, h3, h4⟩
  · intro g r _ _ ⟨a, b, c, d⟩
    obtain ⟨-, e1, -, e3, e4, e5⟩ := g.reject_counts r
    refine ⟨?_, ?_, ?_, ?_⟩
    · rw [e5, e4]; simp [a]
    · rw [e5, e3, acceptedRefs_append, List.length_append, b]; rfl
    · rw [e3, e1]; exact c
    · rw [e3, e1]; exact d
  · intro g r _ hw _ ⟨a, b, c, d⟩
    obtain ⟨e1, -, e3, e4, e5⟩ := g.accept_counts p mask tail r
    have := one_le_ndesc_of_wellFormed hw
    refine ⟨?_, ?_, ?_, ?_⟩
    · rw [e5, e4]; simp [a]
    · rw [e5, e3, acceptedRefs_append, List.length_append, b]; rfl
    · rw [e3, e1]; omega
    · rw [e3]; omega

/-! ### Where the loop writes -/

/-- Filling the slots of one request leaves every byte outside them alone. -/
theorem fillSlots_read_outside {p : Params} {mask tail : Idx} {ref : Ref} {n : Nat}
    {blobs : List (List Byte)} {f : Fill} {a : Nat} (hsize : 16 ≤ p.descSize)
    (hblobs : ∀ b ∈ blobs, b.length = p.payloadBytes)
    (h : ∀ j, f.written ≤ j → j < f.written + n → a < slotAddr p (wrapAdd mask tail j) ∨
      slotAddr p (wrapAdd mask tail j) + p.descSize ≤ a) :
    Memory.read (fillSlots p mask tail ref n blobs f).bus.mem a = Memory.read f.bus.mem a := by
  induction n generalizing blobs f with
  | zero => rfl
  | succ n ih =>
    rw [fillSlots, ih (fun b hb => hblobs b (List.mem_of_mem_tail hb))
      (fun j h1 h2 => h j (by simp only [fillSlot_written] at h1; omega)
        (by simp only [fillSlot_written] at h2; omega))]
    refine fillSlot_read_outside ?_ (h f.written (Nat.le_refl _) (by omega))
    cases blobs with
    | nil => simpa using hsize
    | cons b l =>
      have := hblobs b (by simp)
      simp only [List.headD_cons, this, Params.payloadBytes]
      omega

/-- Records of the shape the port protocol asks bring blobs of `PAYLOAD_BYTES` bytes, one per descriptor. -/
theorem recordShapeOk_cons {p : Params} {mode : Mode} {r : ReqRecord} {rs : List ReqRecord}
    (h : recordShapeOk p mode (r :: rs) = true) :
    recordShapeOk p mode rs = true ∧ (wellFormedRequest mode r = true →
      r.payload.length = recordNdesc r ∧ ∀ b ∈ r.payload, b.length = p.payloadBytes) := by
  simp only [recordShapeOk, List.all_cons, Bool.and_eq_true] at h
  refine ⟨h.2, fun hw => ?_⟩
  have := h.1
  simp only [hw, Bool.not_true, Bool.false_or, payloadFits, Bool.and_eq_true, beq_iff_eq,
    List.all_eq_true] at this
  exact this

/-- The loop never takes slots back. -/
theorem fillLoop_written_le {p : Params} {mode : Mode} {policy : Policy} {mask tail : Idx}
    {rs : List ReqRecord} {f : Fill} : f.written ≤ (fillLoop p mode policy mask tail rs f).written := by
  refine fillLoop_induction (fun g => f.written ≤ g.written) ?_ ?_ rs f (Nat.le_refl _)
  · exact fun _ _ _ _ h => h
  · intro g r _ _ _ h
    rw [(g.accept_counts p mask tail r).1]
    omega

/-- The loop writes no byte outside the slots it counts (42_submission.md R190, 20_memory.md R74). -/
theorem fillLoop_read_outside {p : Params} {mode : Mode} {policy : Policy} {mask tail : Idx}
    {rs : List ReqRecord} {f : Fill} {a : Nat} (hsize : 16 ≤ p.descSize)
    (hshape : recordShapeOk p mode rs = true)
    (h : ∀ j, f.written ≤ j → j < (fillLoop p mode policy mask tail rs f).written →
      a < slotAddr p (wrapAdd mask tail j) ∨ slotAddr p (wrapAdd mask tail j) + p.descSize ≤ a) :
    Memory.read (fillLoop p mode policy mask tail rs f).bus.mem a = Memory.read f.bus.mem a := by
  induction rs generalizing f with
  | nil => rfl
  | cons r rs ih =>
    obtain ⟨hrs, hr⟩ := recordShapeOk_cons hshape
    unfold fillLoop at h ⊢
    split
    · rfl
    · rename_i h0
      rw [if_neg h0] at h
      split
      · rename_i hw
        rw [if_pos hw] at h
        split
        · rfl
        · rename_i hn
          rw [if_neg hn] at h
          have hle := fillLoop_written_le (p := p) (mode := mode) (policy := policy) (mask := mask)
            (tail := tail) (rs := rs) (f := f.accept p mask tail r)
          have hacc := (f.accept_counts p mask tail r).1
          rw [ih hrs (fun j h1 h2 => h j (by omega) h2)]
          exact fillSlots_read_outside hsize (hr hw).2 (fun j h1 h2 => h j h1 (by omega))
      · rename_i hw
        rw [if_neg hw] at h
        cases policy with
        | failFast => rfl
        | bestEffort => exact ih hrs h

end Sys2Proof.Machine
end

