-- ==== Sys2Proof/Laws/Transitions.lean ====
section
/-!
SUPPORT. What acceptance, an operation carried through, one transition and one step can do, each said once;
and the induction every property of all steps follows by.
-/

namespace Sys2Proof.Machine

@[simp] theorem onNext_next (s : State) (f : State → State) : onNext (.next s) f = .next (f s) := rfl

@[simp] theorem onNext_refused (e : Refusal) (f : State → State) :
    onNext (.refused e) f = .refused e := rfl

theorem onNext_eq_next {r : Result} {f : State → State} {t : State} (h : onNext r f = .next t) :
    ∃ s, r = .next s ∧ t = f s := by
  cases r with
  | next s => exact ⟨s, rfl, by simpa using h.symm⟩
  | fault e => cases h
  | refused e => cases h

/-! ### Acceptance (10_state.md R53) -/

@[simp] theorem State.accepts_producer (s : State) :
    s.accepts .producer = (s.pseq.isNone && s.aseq.isNone) := rfl

@[simp] theorem State.accepts_consumer (s : State) :
    s.accepts .consumer = (s.cseq.isNone && s.aseq.isNone) := rfl

@[simp] theorem State.accepts_admin (s : State) :
    s.accepts .admin = (s.pseq.isNone && s.cseq.isNone && s.aseq.isNone) := rfl

@[simp] theorem State.accepts_query (s : State) : s.accepts .query = s.aseq.isNone := rfl

/-- A class P command waits, is refused at the boundary, or starts on PSEQ. -/
theorem acceptProducer_next {s t : State} {op : POp} {mode : Mode} {n : Nat} {word : Word32}
    (h : s.acceptProducer op mode n word = .next t) :
    (s.accepts .producer = false ∧ t = s) ∨
    (s.accepts .producer = true ∧ recordCountOk n s.handed = true ∧
      (s.configured = true → s.mode = mode → recordShapeOk s.cfg s.mode s.handed = true) ∧
      t = s.takeCommand.setPseq (some (PCtx.start op word s.handed))) := by
  unfold State.acceptProducer at h
  split at h
  · rename_i ha
    split at h
    · cases h
    · split at h
      · cases h
      · rename_i h1 h2
        refine .inr ⟨ha, by simpa using h1, fun hc hm => ?_, by simpa using h.symm⟩
        subst hm
        simpa [hc] using h2
  · rename_i ha
    exact .inl ⟨Bool.eq_false_iff.2 ha, by simpa using h.symm⟩

/-- A class C command waits or starts on CSEQ. -/
theorem acceptConsumer_next {s t : State} {op : COp} {word : Word32}
    (h : s.acceptConsumer op word = .next t) :
    (s.accepts .consumer = false ∧ t = s) ∨
    (s.accepts .consumer = true ∧ t = s.takeCommand.setCseq (some (CCtx.start op word))) := by
  unfold State.acceptConsumer at h
  split at h
  · exact .inr ⟨by assumption, by simpa using h.symm⟩
  · rename_i ha
    exact .inl ⟨Bool.eq_false_iff.2 ha, by simpa using h.symm⟩

/-- A class A command waits or starts on ASEQ. -/
theorem acceptAdmin_next {s t : State} {op : AOp} {word : Word32}
    (h : s.acceptAdmin op word = .next t) :
    (s.accepts .admin = false ∧ t = s) ∨
    (s.accepts .admin = true ∧ t = s.takeCommand.setAseq (some (ACtx.start op word))) := by
  unfold State.acceptAdmin at h
  split at h
  · exact .inr ⟨by assumption, by simpa using h.symm⟩
  · rename_i ha
    exact .inl ⟨Bool.eq_false_iff.2 ha, by simpa using h.symm⟩

/-- A class Q command waits or is answered in one step. -/
theorem answer_cases (s : State) (word : Word32) (r : Response) :
    (s.accepts .query = false ∧ s.answer word r = s) ∨
    (s.accepts .query = true ∧ s.answer word r = s.takeCommand.respond word r) := by
  unfold State.answer
  split
  · exact .inr ⟨by assumption, rfl⟩
  · rename_i ha
    exact .inl ⟨Bool.eq_false_iff.2 ha, rfl⟩

/-- An illegal word waits or is answered in one step. -/
theorem answerIllegal_cases (s : State) (word : Word32) :
    (s.accepts (classOfWord word) = false ∧ s.answerIllegal word = s) ∨
    (s.accepts (classOfWord word) = true ∧
      s.answerIllegal word = s.takeCommand.respond word (Response.bare .errIllegal)) := by
  unfold State.answerIllegal
  split
  · exact .inr ⟨by assumption, rfl⟩
  · rename_i ha
    exact .inl ⟨Bool.eq_false_iff.2 ha, rfl⟩

/-! ### Sequencers -/

@[simp] theorem State.pseqStep_idle {s : State} (h : s.pseq = none) : s.pseqStep = s := by
  unfold State.pseqStep
  rw [h]

@[simp] theorem State.cseqStep_idle {s : State} (h : s.cseq = none) : s.cseqStep = s := by
  unfold State.cseqStep
  rw [h]

@[simp] theorem State.aseqStep_idle {s : State} (h : s.aseq = none) : s.aseqStep = s := by
  unfold State.aseqStep
  rw [h]

theorem State.pseqStep_running {s : State} {c : PCtx} (h : s.pseq = some c) :
    s.pseqStep = s.pStep c := by
  unfold State.pseqStep
  rw [h]

theorem State.cseqStep_running {s : State} {c : CCtx} (h : s.cseq = some c) :
    s.cseqStep = s.cStep c := by
  unfold State.cseqStep
  rw [h]

theorem State.aseqStep_running {s : State} {c : ACtx} (h : s.aseq = some c) :
    s.aseqStep = s.aStep c := by
  unfold State.aseqStep
  rw [h]

@[simp] theorem State.openWindow_nil {s : State} (h : s.window = []) : s.openWindow = s := by
  unfold State.openWindow
  rw [h]

theorem State.runP_idle {s : State} (n : Nat) (h : s.pseq = none) : State.runP n s = s := by
  cases n with
  | zero => rfl
  | succ n => simp [State.runP, h]

theorem State.runC_idle {s : State} (n : Nat) (h : s.cseq = none) : State.runC n s = s := by
  cases n with
  | zero => rfl
  | succ n => simp [State.runC, h]

theorem State.runA_idle {s : State} (n : Nat) (h : s.aseq = none) : State.runA n s = s := by
  cases n with
  | zero => rfl
  | succ n => simp [State.runA, h]

theorem State.runP_running {s : State} {c : PCtx} (n : Nat) (h : s.pseq = some c) :
    State.runP (n + 1) s = State.runP n s.openWindow.pseqStep := by
  simp [State.runP, h]

theorem State.runC_running {s : State} {c : CCtx} (n : Nat) (h : s.cseq = some c) :
    State.runC (n + 1) s = State.runC n s.openWindow.cseqStep := by
  simp [State.runC, h]

theorem State.runA_running {s : State} {c : ACtx} (n : Nat) (h : s.aseq = some c) :
    State.runA (n + 1) s = State.runA n s.openWindow.aseqStep := by
  simp [State.runA, h]

/-! ### What the window and an operation carried through keep -/

theorem devSteps_keeps {P : State → Prop} (hd : ∀ s d, P s → P (s.devStep d)) (ds : List DevStep)
    (s : State) (h : P s) : P (s.devSteps ds) := by
  induction ds generalizing s with
  | nil => exact h
  | cons d ds ih => exact ih _ (hd s d h)

theorem openWindow_keeps {P : State → Prop} (hw : ∀ s l, P s → P (s.setWindow l))
    (hd : ∀ s d, P s → P (s.devStep d)) (s : State) (h : P s) : P s.openWindow := by
  unfold State.openWindow
  split
  · exact h
  · exact devSteps_keeps hd _ _ (hw _ _ h)

/-- What the device and the steps of PSEQ keep, an operation of PSEQ carried through keeps. -/
theorem runP_keeps {P : State → Prop} (hw : ∀ s l, P s → P (s.setWindow l))
    (hd : ∀ s d, P s → P (s.devStep d)) (hp : ∀ s, P s → P s.pseqStep) (n : Nat) (s : State)
    (h : P s) : P (State.runP n s) := by
  induction n generalizing s with
  | zero => exact h
  | succ n ih =>
    unfold State.runP
    split
    · exact h
    · exact ih _ (hp _ (openWindow_keeps hw hd s h))

/-- What the device and the steps of CSEQ keep, an operation of CSEQ carried through keeps. -/
theorem runC_keeps {P : State → Prop} (hw : ∀ s l, P s → P (s.setWindow l))
    (hd : ∀ s d, P s → P (s.devStep d)) (hc : ∀ s, P s → P s.cseqStep) (n : Nat) (s : State)
    (h : P s) : P (State.runC n s) := by
  induction n generalizing s with
  | zero => exact h
  | succ n ih =>
    unfold State.runC
    split
    · exact h
    · exact ih _ (hc _ (openWindow_keeps hw hd s h))

/-- What the device and the steps of ASEQ keep, an operation of ASEQ carried through keeps. -/
theorem runA_keeps {P : State → Prop} (hw : ∀ s l, P s → P (s.setWindow l))
    (hd : ∀ s d, P s → P (s.devStep d)) (ha : ∀ s, P s → P s.aseqStep) (n : Nat) (s : State)
    (h : P s) : P (State.runA n s) := by
  induction n generalizing s with
  | zero => exact h
  | succ n ih =>
    unfold State.runA
    split
    · exact h
    · exact ih _ (ha _ (openWindow_keeps hw hd s h))

/-! ### What every transition keeps -/

/-- A property that every elementary change but the reset input keeps: the inputs, the device, acceptance,
one step of each sequencer. -/
structure Kept (P : State → Prop) : Prop where
  port : ∀ s l, P s → P (s.setPort l)
  agenda : ∀ s l, P s → P (s.setAgenda l)
  window : ∀ s l, P s → P (s.setWindow l)
  now : ∀ s t, s.now.toNat ≤ t.toNat → P s → P (s.setNow t)
  respond : ∀ s w r, P s → P (s.respond w r)
  dev : ∀ s d, P s → P (s.devStep d)
  program : ∀ s, P s → P s.programDevice
  startP : ∀ s op w rs, s.pseq = none → s.aseq = none →
    (s.configured = true → s.mode = op.mode → recordShapeOk s.cfg s.mode rs = true) → P s →
    P (s.setPseq (some (PCtx.start op w rs)))
  startC : ∀ s op w, s.cseq = none → s.aseq = none → P s → P (s.setCseq (some (CCtx.start op w)))
  startA : ∀ s op w, s.pseq = none → s.cseq = none → s.aseq = none → P s →
    P (s.setAseq (some (ACtx.start op w)))
  pseq : ∀ s, P s → P s.pseqStep
  cseq : ∀ s, P s → P s.cseqStep
  aseq : ∀ s, P s → P s.aseqStep

namespace Kept

variable {P : State → Prop}

theorem runP (k : Kept P) (n : Nat) (s : State) (h : P s) : P (State.runP n s) :=
  runP_keeps k.window k.dev k.pseq n s h

theorem runC (k : Kept P) (n : Nat) (s : State) (h : P s) : P (State.runC n s) :=
  runC_keeps k.window k.dev k.cseq n s h

theorem runA (k : Kept P) (n : Nat) (s : State) (h : P s) : P (State.runA n s) :=
  runA_keeps k.window k.dev k.aseq n s h

theorem acceptProducer (k : Kept P) {s t : State} {op : POp} {mode : Mode} {n : Nat} {word : Word32}
    (hm : mode = op.mode) (h : P s) (ht : s.acceptProducer op mode n word = .next t) : P t := by
  subst hm
  rcases acceptProducer_next ht with ⟨-, rfl⟩ | ⟨ha, -, hs, rfl⟩
  · exact h
  · simp at ha
    exact k.startP _ _ _ _ (by simpa using ha.1) (by simpa using ha.2)
      hs (k.port _ _ h)

theorem acceptConsumer (k : Kept P) {s t : State} {op : COp} {word : Word32}
    (h : P s) (ht : s.acceptConsumer op word = .next t) : P t := by
  rcases acceptConsumer_next ht with ⟨-, rfl⟩ | ⟨ha, rfl⟩
  · exact h
  · simp at ha
    exact k.startC _ _ _ (by simpa using ha.1) (by simpa using ha.2) (k.port _ _ h)

theorem acceptAdmin (k : Kept P) {s t : State} {op : AOp} {word : Word32}
    (h : P s) (ht : s.acceptAdmin op word = .next t) : P t := by
  rcases acceptAdmin_next ht with ⟨-, rfl⟩ | ⟨ha, rfl⟩
  · exact h
  · simp at ha
    exact k.startA _ _ _ (by simpa using ha.1.1) (by simpa using ha.1.2) (by simpa using ha.2)
      (k.port _ _ h)

theorem answer (k : Kept P) {s : State} (h : P s) (word : Word32) (r : Response) :
    P (s.answer word r) := by
  rcases answer_cases s word r with ⟨-, e⟩ | ⟨-, e⟩ <;> rw [e]
  · exact h
  · exact k.respond _ _ _ (k.port _ _ h)

theorem answerIllegal (k : Kept P) {s : State} (h : P s) (word : Word32) :
    P (s.answerIllegal word) := by
  rcases answerIllegal_cases s word with ⟨-, e⟩ | ⟨-, e⟩ <;> rw [e]
  · exact h
  · exact k.respond _ _ _ (k.port _ _ h)

theorem carryProducer (k : Kept P) {s t : State} {op : POp} {mode : Mode} {n : Nat} {word : Word32}
    (hm : mode = op.mode) (h : P s) (ht : s.carryProducer op mode n word = .next t) : P t := by
  unfold State.carryProducer at ht
  split at ht
  · obtain ⟨u, hu, rfl⟩ := onNext_eq_next ht
    exact k.runP _ _ (k.acceptProducer hm h hu)
  · cases ht
    exact h

theorem carryConsumer (k : Kept P) {s t : State} {op : COp} {word : Word32}
    (h : P s) (ht : s.carryConsumer op word = .next t) : P t := by
  unfold State.carryConsumer at ht
  split at ht
  · obtain ⟨u, hu, rfl⟩ := onNext_eq_next ht
    exact k.runC _ _ (k.acceptConsumer h hu)
  · cases ht
    exact h

theorem carryAdmin (k : Kept P) {s t : State} {op : AOp} {word : Word32}
    (h : P s) (ht : s.carryAdmin op word = .next t) : P t := by
  unfold State.carryAdmin at ht
  split at ht
  · obtain ⟨u, hu, rfl⟩ := onNext_eq_next ht
    exact k.runA _ _ (k.acceptAdmin h hu)
  · cases ht
    exact h

/-- Every instruction keeps it. -/
theorem exec (k : Kept P) {i : Instr} {s t : State} (h : P s) (ht : Machine.exec i s = .next t) :
    P t := by
  cases i with
  | configure => exact k.carryAdmin h ht
  | freeCount => cases ht; exact k.answer h _ _
  | pendingCount => cases ht; exact k.answer h _ _
  | enqueue => exact k.carryProducer rfl h ht
  | dequeue => exact k.carryConsumer h ht
  | submitBatch => exact k.carryProducer rfl h ht
  | pollBatch => exact k.carryConsumer h ht
  | batchAge => cases ht; exact k.answer h _ _
  | start => exact k.carryAdmin h ht
  | stop => exact k.carryAdmin h ht
  | flush => exact k.carryAdmin h ht
  | rdreg => cases ht; exact k.answer h _ _

/-- Every acceptance keeps it. -/
theorem acceptInstr (k : Kept P) {i : Instr} {s t : State} (h : P s)
    (ht : Machine.acceptInstr i s = .next t) : P t := by
  cases i with
  | configure => exact k.acceptAdmin h ht
  | freeCount => cases ht; exact k.answer h _ _
  | pendingCount => cases ht; exact k.answer h _ _
  | enqueue => exact k.acceptProducer (op := .enqueue) (mode := .slot) rfl h ht
  | dequeue => exact k.acceptConsumer h ht
  | submitBatch => exact k.acceptProducer (op := .submitBatch) (mode := .batch) rfl h ht
  | pollBatch => exact k.acceptConsumer h ht
  | batchAge => cases ht; exact k.answer h _ _
  | start => exact k.acceptAdmin h ht
  | stop => exact k.acceptAdmin h ht
  | flush => exact k.acceptAdmin h ht
  | rdreg => cases ht; exact k.answer h _ _

theorem withFrontCommand (k : Kept P) {f : Instr → State → Result}
    (hf : ∀ i s t, P s → f i s = .next t → P t) {s t : State} (h : P s)
    (ht : s.withFrontCommand f = .next t) : P t := by
  unfold State.withFrontCommand at ht
  split at ht
  · cases ht; exact h
  · split at ht
    · exact hf _ _ _ h ht
    · cases ht; exact k.answerIllegal h _

/-- Every transition keeps it, the reset input where it does. -/
theorem perform (k : Kept P) {a : Act} {s t : State} (hr : a = .reset → P s.applyReset) (h : P s)
    (ht : s.perform a = .next t) : P t := by
  cases a with
  | present c => cases ht; exact k.port _ _ h
  | accept n => exact k.withFrontCommand (fun _ _ _ hs he => k.acceptInstr hs he) (k.port _ _ h) ht
  | run n w =>
    obtain ⟨u, hu, rfl⟩ := onNext_eq_next ht
    exact k.window _ _ (k.withFrontCommand (fun _ _ _ hs he => k.exec hs he)
      (k.window _ _ (k.port _ _ h)) hu)
  | pseq => cases ht; exact k.pseq _ h
  | cseq => cases ht; exact k.cseq _ h
  | aseq => cases ht; exact k.aseq _ h
  | dev d => cases ht; exact k.dev _ _ h
  | time t =>
    cases ht
    unfold State.advanceTime
    split
    · exact k.now _ _ (by assumption) h
    · exact h
  | program => cases ht; exact k.program _ h
  | reset => cases ht; exact hr rfl

end Kept

/-- What a step can do: nothing is scheduled, or the first transition of the agenda is performed. -/
theorem step_cases {s t : State} (h : step s = .next t) :
    (s.agenda = [] ∧ t = s) ∨
    (∃ a rest, s.agenda = a :: rest ∧ (s.setAgenda rest).perform a = .next t) := by
  unfold step State.nextTransition at h
  split at h
  · exact .inl ⟨by assumption, by simpa using h.symm⟩
  · exact .inr ⟨_, _, by assumption, h⟩

/-- A property every elementary change keeps is kept by every step. -/
theorem step_keeps {P : State → Prop} (k : Kept P) (hr : ∀ s, P s → P s.applyReset) {s t : State}
    (h : P s) (ht : step s = .next t) : P t := by
  rcases step_cases ht with ⟨-, rfl⟩ | ⟨a, rest, -, hp⟩
  · exact h
  · exact k.perform (fun _ => hr _ (k.agenda _ _ h)) (k.agenda _ _ h) hp

/-- A property every elementary change but reset keeps is kept by every step that is no reset. -/
theorem step_keeps_unless_reset {P : State → Prop} (k : Kept P) {s t : State}
    (hne : s.agenda.head? ≠ some .reset) (h : P s) (ht : step s = .next t) : P t := by
  rcases step_cases ht with ⟨-, rfl⟩ | ⟨a, rest, ha, hp⟩
  · exact h
  · refine k.perform (fun e => ?_) (k.agenda _ _ h) hp
    subst e
    exact absurd (by rw [ha]; rfl) hne

end Sys2Proof.Machine
end

