-- ==== Sys2Proof/Laws/Carried.lean ====
section
/-!
SUPPORT. One own step of each sequencer as an equation on `u.setPseq`, `u.setCseq`, `u.setAseq`, and the
operations carried from acceptance to response when no device step is scheduled inside them.
-/

namespace Sys2Proof.Machine

/-! ### One own step with an empty schedule -/

theorem runP_step {u : State} {c : PCtx} (n : Nat) (h : u.window = []) :
    State.runP (n + 1) (u.setPseq (some c)) = State.runP n ((u.setPseq (some c)).pStep c) := by
  rw [State.runP_running n (c := c) rfl, State.openWindow_nil (by exact h)]
  rfl

theorem runC_step {u : State} {c : CCtx} (n : Nat) (h : u.window = []) :
    State.runC (n + 1) (u.setCseq (some c)) = State.runC n ((u.setCseq (some c)).cStep c) := by
  rw [State.runC_running n (c := c) rfl, State.openWindow_nil (by exact h)]
  rfl

theorem runA_step {u : State} {c : ACtx} (n : Nat) (h : u.window = []) :
    State.runA (n + 1) (u.setAseq (some c)) = State.runA n ((u.setAseq (some c)).aStep c) := by
  rw [State.runA_running n (c := c) rfl, State.openWindow_nil (by exact h)]
  rfl

/-- A sequencer that is idle stays as it is when its context is cleared. -/
theorem State.setPseq_none {s : State} (h : s.pseq = none) : s.setPseq none = s := by
  cases s
  simp only at h
  subst h
  rfl

theorem State.setCseq_none {s : State} (h : s.cseq = none) : s.setCseq none = s := by
  cases s
  simp only at h
  subst h
  rfl

theorem State.setAseq_none {s : State} (h : s.aseq = none) : s.setAseq none = s := by
  cases s
  simp only at h
  subst h
  rfl

/-! ### Steps of PSEQ (42_submission.md R190, 44_batch.md R233) -/

section Producer

variable (u : State) (n : Nat) (op : POp) (word : Word32) (reqs : List ReqRecord) (oldTail : Idx)
  (avail written accepted taken : Nat) (disp : List OutRecord)

theorem runP_e1_enqueue (hw : u.window = []) (hc : u.configured = true) (hm : u.mode = .slot) :
    State.runP (n + 1) (u.setPseq (some ⟨.enqueue, word, reqs, .e1, oldTail, avail, written, accepted,
      taken, disp⟩)) =
      State.runP n (u.setPseq (some ⟨.enqueue, word, reqs, .e2, oldTail, u.free, 0, 0, 0, []⟩)) := by
  rw [runP_step n hw]
  simp only [State.pStep, State.stepE1Checked, State.setPseq_configured, State.setPseq_mode, hc, hm,
    Bool.true_and, beq_self_eq_true, if_true]
  rfl

theorem runP_e1_submitBatch (hw : u.window = []) :
    State.runP (n + 1) (u.setPseq (some ⟨.submitBatch, word, reqs, .e1, oldTail, avail, written, accepted,
      taken, disp⟩)) =
      State.runP n (u.setPseq (some ⟨.submitBatch, word, reqs, .e2, oldTail, u.free, 0, 0, 0, []⟩)) := by
  rw [runP_step n hw]
  rfl

theorem runP_e2 (hw : u.window = []) :
    State.runP (n + 1) (u.setPseq (some ⟨op, word, reqs, .e2, oldTail, u.free, 0, 0, 0, []⟩)) =
      State.runP n ((u.setBus (u.submission reqs).bus).setPseq (some ⟨op, word, reqs, .e4, oldTail,
        (u.submission reqs).avail, (u.submission reqs).written, (u.submission reqs).accepted,
        (u.submission reqs).taken, (u.submission reqs).disp⟩)) := by
  rw [runP_step n hw]
  rfl

theorem runP_e4 (f : Fill) (hw : u.window = []) :
    State.runP (n + 1) ((u.setBus f.bus).setPseq (some ⟨op, word, reqs, .e4, oldTail, f.avail, f.written,
      f.accepted, f.taken, f.disp⟩)) =
      State.runP n ((u.setBus (u.notified f)).setPseq (some ⟨op, word, reqs, .e5, oldTail, f.avail,
        f.written, f.accepted, f.taken, f.disp⟩)) := by
  rw [runP_step (u := u.setBus f.bus) n hw]
  congr 1
  simp only [State.pStep, State.stepE4, State.notified]
  split <;> rfl

theorem runP_e5 (hw : u.window = []) :
    State.runP (n + 1) (u.setPseq (some ⟨op, word, reqs, .e5, oldTail, avail, written, accepted, taken,
      disp⟩)) =
      State.runP n ((u.setTail (wrapAdd u.wrapMask u.tail written)).setPseq (some ⟨op, word, reqs, .e6,
        oldTail, avail, written, accepted, taken, disp⟩)) := by
  rw [runP_step n hw]
  rfl

theorem runP_e6 (hw : u.window = []) :
    State.runP (n + 1) (u.setPseq (some ⟨op, word, reqs, .e6, oldTail, avail, written, accepted, taken,
      disp⟩)) =
      State.runP n ((u.log .wmb).setPseq (some ⟨op, word, reqs, .e7, oldTail, avail, written, accepted,
        taken, disp⟩)) := by
  rw [runP_step n hw]
  rfl

/-- The position after step E7 (44_batch.md R233). -/
theorem runP_e7_enqueue (hw : u.window = []) :
    State.runP (n + 1) (u.setPseq (some ⟨.enqueue, word, reqs, .e7, oldTail, avail, written, accepted,
      taken, disp⟩)) =
      State.runP n (((u.writeDoorbell (u.tail.setWidth 32)).setShadowTail u.tail).setPseq (some
        ⟨.enqueue, word, reqs, .e8, oldTail, avail, written, accepted, taken, disp⟩)) := by
  rw [runP_step n hw]
  rfl

theorem runP_e7_submitBatch (hw : u.window = []) :
    State.runP (n + 1) (u.setPseq (some ⟨.submitBatch, word, reqs, .e7, oldTail, avail, written, accepted,
      taken, disp⟩)) =
      State.runP n (((u.writeDoorbell (u.tail.setWidth 32)).setShadowTail u.tail).setPseq (some
        ⟨.submitBatch, word, reqs, .s3, oldTail, avail, written, accepted, taken, disp⟩)) := by
  rw [runP_step n hw]
  rfl

/-- What steps E4 to E7 leave, put together. -/
theorem submitted_eq (f : Fill) :
    (((((u.setBus (u.notified f)).setTail (u.newTail f)).log .wmb).writeDoorbell
      ((u.newTail f).setWidth 32)).setShadowTail (u.newTail f)) =
      { u.submitted f with port := u.port } := by
  simp only [State.submitted, State.setShadowTail, State.writeDoorbell, State.setDev, State.log,
    State.setTrace, State.setTail, State.setBus, State.setMem]

/-- Steps E2 to E7 of ENQUEUE in a row. -/
theorem runP_submission_enqueue (hw : u.window = []) :
    State.runP (n + 5) (u.setPseq (some ⟨.enqueue, word, reqs, .e2, oldTail, u.free, 0, 0, 0, []⟩)) =
      State.runP n (({ u.submitted (u.submission reqs) with port := u.port }).setPseq (some
        ⟨.enqueue, word, reqs, .e8, oldTail, (u.submission reqs).avail, (u.submission reqs).written,
          (u.submission reqs).accepted, (u.submission reqs).taken, (u.submission reqs).disp⟩)) := by
  rw [runP_e2 _ _ _ _ _ _ hw]
  generalize u.submission reqs = f
  rw [runP_e4 _ _ _ _ _ _ f hw, runP_e5 (u.setBus (u.notified f)) _ _ _ _ _ _ _ _ _ _ hw,
    runP_e6 ((u.setBus (u.notified f)).setTail _) _ _ _ _ _ _ _ _ _ _ hw,
    runP_e7_enqueue (((u.setBus (u.notified f)).setTail _).log .wmb) _ _ _ _ _ _ _ _ _ hw,
    ← submitted_eq]
  simp only [State.newTail, State.log_tail, State.setTail_tail, State.setBus_wrapMask, State.setBus_tail]

/-- Steps E2 to E7 of SUBMIT_BATCH in a row. -/
theorem runP_submission_submitBatch (hw : u.window = []) :
    State.runP (n + 5) (u.setPseq (some ⟨.submitBatch, word, reqs, .e2, oldTail, u.free, 0, 0, 0, []⟩)) =
      State.runP n (({ u.submitted (u.submission reqs) with port := u.port }).setPseq (some
        ⟨.submitBatch, word, reqs, .s3, oldTail, (u.submission reqs).avail, (u.submission reqs).written,
          (u.submission reqs).accepted, (u.submission reqs).taken, (u.submission reqs).disp⟩)) := by
  rw [runP_e2 _ _ _ _ _ _ hw]
  generalize u.submission reqs = f
  rw [runP_e4 _ _ _ _ _ _ f hw, runP_e5 (u.setBus (u.notified f)) _ _ _ _ _ _ _ _ _ _ hw,
    runP_e6 ((u.setBus (u.notified f)).setTail _) _ _ _ _ _ _ _ _ _ _ hw,
    runP_e7_submitBatch (((u.setBus (u.notified f)).setTail _).log .wmb) _ _ _ _ _ _ _ _ _ hw,
    ← submitted_eq]
  simp only [State.newTail, State.log_tail, State.setTail_tail, State.setBus_wrapMask, State.setBus_tail]

theorem runP_e8 (hw : u.window = []) (hu : u.pseq = none) :
    State.runP (n + 1) (u.setPseq (some ⟨op, word, reqs, .e8, oldTail, avail, written, accepted, taken,
      disp⟩)) = u.respond word ⟨.ok, BitVec.ofNat 24 accepted, disp⟩ := by
  rw [runP_step n hw, State.runP_idle n rfl]
  exact State.setPseq_none (s := u.respond word ⟨.ok, BitVec.ofNat 24 accepted, disp⟩) hu

theorem runP_s1 (hw : u.window = []) (hc : u.configured = true) (hm : u.mode = .batch)
    (hf : u.freeRecords ≠ 0) :
    State.runP (n + 1) (u.setPseq (some ⟨op, word, reqs, .s1, oldTail, avail, written, accepted, taken,
      disp⟩)) =
      State.runP n (u.setPseq (some ⟨op, word, reqs, .e1, u.tail, avail, written, accepted, taken,
        disp⟩)) := by
  have hf' : (u.setPseq (some ⟨op, word, reqs, .s1, oldTail, avail, written, accepted, taken,
      disp⟩)).freeRecords = u.freeRecords := rfl
  rw [runP_step n hw]
  simp only [State.pStep, State.stepS1, State.setPseq_configured, State.setPseq_mode, hc, hm,
    Bool.true_and, beq_self_eq_true, if_true, hf', if_neg hf]
  rfl

theorem runP_s3 (hw : u.window = []) (ha : accepted ≠ 0) :
    State.runP (n + 1) (u.setPseq (some ⟨op, word, reqs, .s3, oldTail, avail, written, accepted, taken,
      disp⟩)) =
      State.runP n (u.setPseq (some ⟨op, word, reqs, .s4, oldTail, avail, written, accepted, taken,
        disp⟩)) := by
  rw [runP_step n hw]
  simp only [State.pStep, State.stepS3, if_neg ha]
  rfl

/-- Step S3 with nothing accepted: no batch (44_batch.md R237). -/
theorem runP_s3_empty (hw : u.window = []) (hu : u.pseq = none) :
    State.runP (n + 1) (u.setPseq (some ⟨op, word, reqs, .s3, oldTail, avail, written, 0, taken, disp⟩)) =
      u.respond word ⟨.ok, 0, disp⟩ := by
  rw [runP_step n hw, State.runP_idle n rfl]
  exact State.setPseq_none (s := u.respond word ⟨.ok, 0, disp⟩) hu

theorem runP_s4 (hw : u.window = []) (hu : u.pseq = none) :
    State.runP (n + 1) (u.setPseq (some ⟨op, word, reqs, .s4, oldTail, avail, written, accepted, taken,
      disp⟩)) =
      ((u.setFifo (u.fifo ++ [⟨u.pickBid, byteOffset u.cfg oldTail, byteOffset u.cfg u.tail,
        acceptedRefs disp, accepted, written, 0, false, u.now⟩])).setChoices (u.choices + 1)).respond word
        ⟨.ok, BitVec.ofNat 24 accepted, disp ++ [.handle u.pickBid]⟩ := by
  rw [runP_step n hw, State.runP_idle n rfl]
  exact State.setPseq_none (s := ((u.setFifo (u.fifo ++ [⟨u.pickBid, byteOffset u.cfg oldTail,
    byteOffset u.cfg u.tail, acceptedRefs disp, accepted, written, 0, false, u.now⟩])).setChoices
      (u.choices + 1)).respond word ⟨.ok, BitVec.ofNat 24 accepted, disp ++ [.handle u.pickBid]⟩) hu

/-- A refused ENQUEUE (42_submission.md R191). -/
theorem runP_e1_refused (hw : u.window = []) (hu : u.pseq = none)
    (h : (u.configured && u.mode == .slot) = false) :
    State.runP (n + 1) (u.setPseq (some ⟨.enqueue, word, reqs, .e1, oldTail, avail, written, accepted,
      taken, disp⟩)) = u.respond word (Response.bare .errState) := by
  have h' : ((u.setPseq (some ⟨.enqueue, word, reqs, .e1, oldTail, avail, written, accepted, taken,
      disp⟩)).configured && (u.setPseq (some ⟨.enqueue, word, reqs, .e1, oldTail, avail, written, accepted,
      taken, disp⟩)).mode == .slot) = false := h
  rw [runP_step n hw]
  simp only [State.pStep, State.stepE1Checked, h', Bool.false_eq_true, if_false]
  rw [State.runP_idle n rfl]
  exact State.setPseq_none (s := u.respond word (Response.bare .errState)) hu

/-- A SUBMIT_BATCH refused for its mode (44_batch.md R231). -/
theorem runP_s1_refused (hw : u.window = []) (hu : u.pseq = none)
    (h : (u.configured && u.mode == .batch) = false) :
    State.runP (n + 1) (u.setPseq (some ⟨op, word, reqs, .s1, oldTail, avail, written, accepted, taken,
      disp⟩)) = u.respond word (Response.bare .errState) := by
  have h' : ((u.setPseq (some ⟨op, word, reqs, .s1, oldTail, avail, written, accepted, taken,
      disp⟩)).configured && (u.setPseq (some ⟨op, word, reqs, .s1, oldTail, avail, written, accepted,
      taken, disp⟩)).mode == .batch) = false := h
  rw [runP_step n hw]
  simp only [State.pStep, State.stepS1, h', Bool.false_eq_true, if_false]
  rw [State.runP_idle n rfl]
  exact State.setPseq_none (s := u.respond word (Response.bare .errState)) hu

/-- A SUBMIT_BATCH refused for want of a record (44_batch.md R234). -/
theorem runP_s1_noRecord (hw : u.window = []) (hu : u.pseq = none) (hc : u.configured = true)
    (hm : u.mode = .batch) (hf : u.freeRecords = 0) :
    State.runP (n + 1) (u.setPseq (some ⟨op, word, reqs, .s1, oldTail, avail, written, accepted, taken,
      disp⟩)) = u.respond word (Response.bare .errNoBatch) := by
  have hf' : (u.setPseq (some ⟨op, word, reqs, .s1, oldTail, avail, written, accepted, taken,
      disp⟩)).freeRecords = u.freeRecords := rfl
  rw [runP_step n hw]
  simp only [State.pStep, State.stepS1, State.setPseq_configured, State.setPseq_mode, hc, hm,
    Bool.true_and, beq_self_eq_true, if_true, hf', hf]
  rw [State.runP_idle n rfl]
  exact State.setPseq_none (s := u.respond word (Response.bare .errNoBatch)) hu

end Producer

/-! ### Steps of CSEQ (43_completion.md R211, 44_batch.md R241) -/

section Consumer

variable (u : State) (n : Nat) (op : COp) (word : Word32) (avail limit confirmed : Nat) (hw_ : Word32)
  (out : List OutRecord)

theorem runC_q1 (hw : u.window = []) (hc : u.configured = true) (hm : u.mode = .slot) :
    State.runC (n + 1) (u.setCseq (some ⟨op, word, .q1, avail, limit, confirmed, hw_, out⟩)) =
      State.runC n (u.setCseq (some ⟨op, word, .q2, u.pending, min (argField word).toNat u.pending, 0, hw_,
        out⟩)) := by
  rw [runC_step n hw]
  simp only [State.cStep, State.stepQ1, State.setCseq_configured, State.setCseq_mode, hc, hm,
    Bool.true_and, beq_self_eq_true, if_true]
  rfl

theorem runC_q1_refused (hw : u.window = []) (hu : u.cseq = none)
    (h : (u.configured && u.mode == .slot) = false) :
    State.runC (n + 1) (u.setCseq (some ⟨op, word, .q1, avail, limit, confirmed, hw_, out⟩)) =
      u.respond word (Response.bare .errState) := by
  have h' : ((u.setCseq (some ⟨op, word, .q1, avail, limit, confirmed, hw_, out⟩)).configured &&
      (u.setCseq (some ⟨op, word, .q1, avail, limit, confirmed, hw_, out⟩)).mode == .slot) = false := h
  rw [runC_step n hw]
  simp only [State.cStep, State.stepQ1, h', Bool.false_eq_true, if_false]
  rw [State.runC_idle n rfl]
  exact State.setCseq_none (s := u.respond word (Response.bare .errState)) hu

theorem runC_q2 (hw : u.window = []) :
    State.runC (n + 1) (u.setCseq (some ⟨op, word, .q2, avail, limit, confirmed, hw_, out⟩)) =
      State.runC n ((u.setBus (scanDone u.cfg u.wrapMask u.head limit 0 u.bus).2).setCseq (some
        ⟨op, word, .q3, avail, limit, (scanDone u.cfg u.wrapMask u.head limit 0 u.bus).1, hw_, out⟩)) := by
  rw [runC_step n hw]
  rfl

theorem runC_q3 (hw : u.window = []) :
    State.runC (n + 1) (u.setCseq (some ⟨op, word, .q3, avail, limit, confirmed, hw_, out⟩)) =
      State.runC n ((u.log .rmb).setCseq (some ⟨op, word, .q4, avail, limit, confirmed, hw_, out⟩)) := by
  rw [runC_step n hw]
  rfl

theorem runC_q4 (hw : u.window = []) :
    State.runC (n + 1) (u.setCseq (some ⟨op, word, .q4, avail, limit, confirmed, hw_, out⟩)) =
      State.runC n ((u.setBus (extract u.cfg u.wrapMask u.head confirmed 0 u.bus).2).setCseq (some
        ⟨op, word, .q5, avail, limit, confirmed, hw_,
          (extract u.cfg u.wrapMask u.head confirmed 0 u.bus).1⟩)) := by
  rw [runC_step n hw]
  rfl

theorem runC_q5 (hw : u.window = []) :
    State.runC (n + 1) (u.setCseq (some ⟨op, word, .q5, avail, limit, confirmed, hw_, out⟩)) =
      State.runC n ((u.setHead (wrapAdd u.wrapMask u.head confirmed)).setCseq (some
        ⟨op, word, .q6, avail, limit, confirmed, hw_, out⟩)) := by
  rw [runC_step n hw]
  rfl

theorem runC_q6 (hw : u.window = []) (hu : u.cseq = none) :
    State.runC (n + 1) (u.setCseq (some ⟨op, word, .q6, avail, limit, confirmed, hw_, out⟩)) =
      u.respond word ⟨.ok, BitVec.ofNat 24 confirmed, out⟩ := by
  rw [runC_step n hw, State.runC_idle n rfl]
  exact State.setCseq_none (s := u.respond word ⟨.ok, BitVec.ofNat 24 confirmed, out⟩) hu

theorem runC_b1_refused (hw : u.window = []) (hu : u.cseq = none)
    (h : (u.configured && u.mode == .batch) = false) :
    State.runC (n + 1) (u.setCseq (some ⟨op, word, .b1, avail, limit, confirmed, hw_, out⟩)) =
      u.respond word (Response.bare .errState) := by
  have h' : ((u.setCseq (some ⟨op, word, .b1, avail, limit, confirmed, hw_, out⟩)).configured &&
      (u.setCseq (some ⟨op, word, .b1, avail, limit, confirmed, hw_, out⟩)).mode == .batch) = false := h
  rw [runC_step n hw]
  simp only [State.cStep, State.stepB1, h', Bool.false_eq_true, if_false]
  rw [State.runC_idle n rfl]
  exact State.setCseq_none (s := u.respond word (Response.bare .errState)) hu

theorem runC_b1_empty (hw : u.window = []) (hu : u.cseq = none) (hc : u.configured = true)
    (hm : u.mode = .batch) (hf : u.fifo = []) :
    State.runC (n + 1) (u.setCseq (some ⟨op, word, .b1, avail, limit, confirmed, hw_, out⟩)) =
      u.respond word (Response.bare .empty) := by
  rw [runC_step n hw]
  simp only [State.cStep, State.stepB1, State.setCseq_configured, State.setCseq_mode,
    State.setCseq_fifo, hc, hm, hf, Bool.true_and, beq_self_eq_true, if_true, List.isEmpty_nil]
  rw [State.runC_idle n rfl]
  exact State.setCseq_none (s := u.respond word (Response.bare .empty)) hu

variable (b : Batch) (rest : List Batch)

theorem runC_b1 (hw : u.window = []) (hc : u.configured = true) (hm : u.mode = .batch)
    (hf : u.fifo = b :: rest) :
    State.runC (n + 1) (u.setCseq (some ⟨op, word, .b1, avail, limit, confirmed, hw_, out⟩)) =
      State.runC n (u.setCseq (some ⟨op, word, .b2, avail, limit, confirmed, hw_, out⟩)) := by
  rw [runC_step n hw]
  simp only [State.cStep, State.stepB1, State.setCseq_configured, State.setCseq_mode,
    State.setCseq_fifo, hc, hm, hf, Bool.true_and, beq_self_eq_true, if_true, List.isEmpty_cons,
    Bool.false_eq_true, if_false]
  rfl

theorem runC_b2 (hw : u.window = []) (hf : u.fifo = b :: rest) :
    State.runC (n + 1) (u.setCseq (some ⟨op, word, .b2, avail, limit, confirmed, hw_, out⟩)) =
      State.runC n (u.setCseq (some ⟨op, word, if b.complete then .b6 else .b3, avail, limit, confirmed,
        hw_, out⟩)) := by
  rw [runC_step n hw]
  simp only [State.cStep, State.withFront, State.setCseq_fifo, hf]
  rfl

theorem runC_b3 (hw : u.window = []) :
    State.runC (n + 1) (u.setCseq (some ⟨op, word, .b3, avail, limit, confirmed, hw_, out⟩)) =
      State.runC n (u.logHwHead.setCseq (some ⟨op, word, .b4, avail, limit, confirmed, u.dev.hwHead,
        out⟩)) := by
  rw [runC_step n hw]
  rfl

theorem runC_b4 (hw : u.window = []) (hf : u.fifo = b :: rest)
    (hp : inProgress b.headOffset b.tailOffset hw_ = false) :
    State.runC (n + 1) (u.setCseq (some ⟨op, word, .b4, avail, limit, confirmed, hw_, out⟩)) =
      State.runC n (u.setCseq (some ⟨op, word, .b5, avail, limit, confirmed, hw_, out⟩)) := by
  rw [runC_step n hw]
  simp only [State.cStep, State.withFront, State.setCseq_fifo, hf, State.stepB4, hp, Bool.false_eq_true,
    if_false]
  rfl

theorem runC_b4_inProgress (hw : u.window = []) (hu : u.cseq = none) (hf : u.fifo = b :: rest)
    (hp : inProgress b.headOffset b.tailOffset hw_ = true) :
    State.runC (n + 1) (u.setCseq (some ⟨op, word, .b4, avail, limit, confirmed, hw_, out⟩)) =
      u.respond word (Response.bare .notReady) := by
  rw [runC_step n hw]
  simp only [State.cStep, State.withFront, State.setCseq_fifo, hf, State.stepB4, hp, if_true]
  rw [State.runC_idle n rfl]
  exact State.setCseq_none (s := u.respond word (Response.bare .notReady)) hu

theorem runC_b5 (hw : u.window = []) (hf : u.fifo = b :: rest) :
    State.runC (n + 1) (u.setCseq (some ⟨op, word, .b5, avail, limit, confirmed, hw_, out⟩)) =
      State.runC n (((u.setFifo ({ b with complete := true } :: rest)).setHead
        (wrapAdd u.wrapMask u.head b.descCount)).setCseq (some ⟨op, word, .b6, avail, limit, confirmed,
        hw_, out⟩)) := by
  rw [runC_step n hw]
  simp only [State.cStep, State.withFront, State.setCseq_fifo, hf]
  rfl

theorem runC_b6 (hw : u.window = []) (hf : u.fifo = b :: rest) :
    State.runC (n + 1) (u.setCseq (some ⟨op, word, .b6, avail, limit, confirmed, hw_, out⟩)) =
      State.runC n ((u.setFifo ({ b with
        consumed := b.consumed + min (argField word).toNat (b.n - b.consumed) } :: rest)).setCseq (some
        ⟨op, word, .b7, avail, limit, min (argField word).toNat (b.n - b.consumed), hw_,
          ((b.refs.drop b.consumed).take (min (argField word).toNat (b.n - b.consumed))).map
            (fun r => .compl r .ok 0)⟩)) := by
  rw [runC_step n hw]
  simp only [State.cStep, State.withFront, State.setCseq_fifo, hf]
  rfl

theorem runC_b7 (hw : u.window = []) (hu : u.cseq = none) (hf : u.fifo = b :: rest) :
    State.runC (n + 1) (u.setCseq (some ⟨op, word, .b7, avail, limit, confirmed, hw_, out⟩)) =
      (u.setFifo (if b.consumed = b.n then rest else u.fifo)).respond word
        ⟨.ok, BitVec.ofNat 24 confirmed, out⟩ := by
  have e : (u.setFifo u.fifo) = u := rfl
  rw [runC_step n hw]
  simp only [State.cStep, State.withFront, State.setCseq_fifo, hf, State.stepB7]
  split
  · rw [State.runC_idle n rfl]
    exact State.setCseq_none (s := (u.setFifo rest).respond word ⟨.ok, BitVec.ofNat 24 confirmed, out⟩) hu
  · rw [State.runC_idle n rfl, ← hf, e]
    exact State.setCseq_none (s := u.respond word ⟨.ok, BitVec.ofNat 24 confirmed, out⟩) hu

end Consumer

/-! ### Steps of ASEQ (40_geometry_config.md R155, 45_admin.md R272 to R274) -/

section Admin

variable (u : State) (n : Nat) (op : AOp) (word : Word32) (polls : Nat)

theorem runA_check (hw : u.window = []) (hc : u.configured = true)
    (hop : ∀ k p m r, op ≠ .configure k p m r) :
    State.runA (n + 1) (u.setAseq (some ⟨op, word, .check, polls⟩)) =
      State.runA n (u.setAseq (some ⟨op, word, .write, polls⟩)) := by
  rw [runA_step n hw]
  cases op with
  | configure k p m r => exact absurd rfl (hop k p m r)
  | start => simp only [State.aStep, State.stepAdminCheck, State.setAseq_configured, hc, if_true]; rfl
  | stop => simp only [State.aStep, State.stepAdminCheck, State.setAseq_configured, hc, if_true]; rfl
  | flush => simp only [State.aStep, State.stepAdminCheck, State.setAseq_configured, hc, if_true]; rfl

theorem runA_check_refused (hw : u.window = []) (hu : u.aseq = none) (hc : u.configured = false)
    (hop : ∀ k p m r, op ≠ .configure k p m r) :
    State.runA (n + 1) (u.setAseq (some ⟨op, word, .check, polls⟩)) =
      u.respond word (Response.bare .errState) := by
  rw [runA_step n hw]
  have e : ∀ x, (u.setAseq x).stepAdminCheck ⟨op, word, .check, polls⟩ =
      (u.respond word (Response.bare .errState)).setAseq none := by
    intro x
    simp only [State.stepAdminCheck, State.setAseq_configured, hc, Bool.false_eq_true, if_false]
    rfl
  have e' : (u.setAseq (some ⟨op, word, .check, polls⟩)).aStep ⟨op, word, .check, polls⟩ =
      (u.respond word (Response.bare .errState)).setAseq none := by
    cases op with
    | configure k p m r => exact absurd rfl (hop k p m r)
    | start => exact e _
    | stop => exact e _
    | flush => exact e _
  rw [e', State.runA_idle n rfl]
  exact State.setAseq_none (s := u.respond word (Response.bare .errState)) hu

theorem runA_write (hw : u.window = []) :
    State.runA (n + 1) (u.setAseq (some ⟨op, word, .write, polls⟩)) =
      State.runA n ((u.writeAdminCtrl (adminCode op)).setAseq (some ⟨op, word, pollPos u.cfg 0, 0⟩)) := by
  rw [runA_step n hw]
  rfl

theorem runA_poll (hw : u.window = []) (hk : acknowledged op u.dev.adminStatus = false) :
    State.runA (n + 1) (u.setAseq (some ⟨op, word, .poll, polls⟩)) =
      State.runA n (u.logAdminStatus.setAseq (some ⟨op, word, pollPos u.cfg (polls + 1), polls + 1⟩)) := by
  rw [runA_step n hw]
  simp only [State.aStep, State.stepAdminPoll, State.setAseq_dev, hk, Bool.false_eq_true, if_false]
  rfl

theorem runA_poll_acknowledged (hw : u.window = []) (hu : u.aseq = none)
    (hk : acknowledged op u.dev.adminStatus = true) :
    State.runA (n + 1) (u.setAseq (some ⟨op, word, .poll, polls⟩)) =
      (u.logAdminStatus.setEnabled (enabledAfter op u.enabled)).respond word ⟨.ok, 0, []⟩ := by
  rw [runA_step n hw]
  simp only [State.aStep, State.stepAdminPoll, State.setAseq_dev, hk, if_true]
  rw [State.runA_idle n rfl]
  exact State.setAseq_none
    (s := (u.logAdminStatus.setEnabled (enabledAfter op u.enabled)).respond word ⟨.ok, 0, []⟩) hu

theorem runA_expire (hw : u.window = []) (hu : u.aseq = none) :
    State.runA (n + 1) (u.setAseq (some ⟨op, word, .expire, polls⟩)) =
      (u.setEnabled false).respond word (Response.bare .errTimeout) := by
  rw [runA_step n hw, State.runA_idle n rfl]
  exact State.setAseq_none (s := (u.setEnabled false).respond word (Response.bare .errTimeout)) hu

end Admin

end Sys2Proof.Machine
end

