-- ==== Sys2Proof/Laws/Completion.lean ====
section
/-!
SUPPORT. What the scan of step Q2 and the extraction of step Q4 can answer, each said once
(43_completion.md R213, R214, R216).
-/

namespace Sys2Proof.Machine

/-- The scan counts the done slots up to the first that is not done, reads the `ctrl` word of the counted
ones and of the one it stops at, and changes no byte. -/
theorem scanDone_spec (p : Params) (mask head : Idx) (n i : Nat) (b : Bus) :
    ∃ c : Nat,
      (scanDone p mask head n i b).1 = i + c ∧ c ≤ n ∧
      (scanDone p mask head n i b).2 = ⟨b.mem, ((List.range (min (c + 1) n)).map
        (fun k => ctrlReadOf p b.mem (wrapAdd mask head (i + k)))).reverse ++ b.trace⟩ ∧
      (∀ k, k < c → ctrlDone (slotCtrl p b.mem (wrapAdd mask head (i + k))) = true) ∧
      (c < n → ctrlDone (slotCtrl p b.mem (wrapAdd mask head (i + c))) = false) := by
  induction n generalizing i b with
  | zero => exact ⟨0, rfl, by omega, rfl, by omega, by omega⟩
  | succ n ih =>
    by_cases h : ctrlDone (slotCtrl p b.mem (wrapAdd mask head i)) = true
    · obtain ⟨c, h1, h2, h3, h6, h7⟩ := ih (i + 1) (b.logCtrl .cseq p (wrapAdd mask head i))
      refine ⟨c + 1, ?_, by omega, ?_, ?_, ?_⟩
      · rw [scanDone, if_pos h, h1]
        omega
      · rw [scanDone, if_pos h, h3, Nat.succ_min_succ, List.range_succ_eq_map]
        simp [Bus.logCtrl, Bus.logRead, ctrlReadOf, Function.comp_def, Nat.add_assoc, Nat.add_comm 1]
      · intro k hk
        cases k with
        | zero => exact h
        | succ k =>
          have := h6 k (by omega)
          rwa [show i + 1 + k = i + (k + 1) by omega] at this
      · intro hc
        have := h7 (by omega)
        rwa [show i + 1 + c = i + (c + 1) by omega] at this
    · refine ⟨0, ?_, by omega, ?_, by omega, fun _ => by simpa using h⟩
      · rw [scanDone, if_neg h]
        rfl
      · rw [scanDone, if_neg h, show min (0 + 1) (n + 1) = 1 by omega]
        rfl

/-- The extraction answers the records of the slots in slot order, reads the `ctrl` word and then the
`request_ref` of each, and changes no byte. -/
theorem extract_spec (p : Params) (mask head : Idx) (n i : Nat) (b : Bus) :
    (extract p mask head n i b).1 =
      (List.range n).map (fun k => completionOf p b.mem (wrapAdd mask head (i + k))) ∧
    (extract p mask head n i b).2 = ⟨b.mem, ((List.range n).flatMap (fun k =>
      [ctrlReadOf p b.mem (wrapAdd mask head (i + k)),
        refReadOf p b.mem (wrapAdd mask head (i + k))])).reverse ++ b.trace⟩ := by
  induction n generalizing i b with
  | zero => exact ⟨rfl, rfl⟩
  | succ n ih =>
    obtain ⟨h1, h2⟩ :=
      ih (i + 1) ((b.logCtrl .cseq p (wrapAdd mask head i)).logRef .cseq p (wrapAdd mask head i))
    simp only [Bus.logRef_mem, Bus.logCtrl_mem] at h1 h2
    rw [extract, List.range_succ_eq_map]
    simp only [h1, h2]
    constructor
    · simp [Function.comp_def, Nat.add_assoc, Nat.add_comm 1]
    · simp [List.flatMap_map, Bus.logCtrl, Bus.logRef, Bus.logRead, ctrlReadOf, refReadOf, Nat.add_assoc,
        Nat.add_comm 1]

end Sys2Proof.Machine
end

