-- ==== Sys2Proof/Laws/Device.lean ====
section
/-!
SUPPORT. What a device step can change, said once (46_actors.md R303 to R306): ring memory, the trace and
the device's own state.
-/

namespace Sys2Proof.Machine

@[simp] theorem Bus.logPayload_mem (b : Bus) (g : Agent) (p : Params) (i : Idx) :
    (b.logPayload g p i).mem = b.mem := by
  unfold Bus.logPayload
  split <;> rfl

/-- The index that a byte offset of a ring within bounds stands for (46_actors.md R305, 00_scope.md R9). -/
theorem Device.reported_of_byteOffset {d : Device} {p : Params} {j : Idx} (hp : p.wf = true)
    (hj : j.toNat < p.capMax) (h : d.hwHead = byteOffset p j) : d.reported p = j := by
  simp only [Params.wf, Bool.and_eq_true, decide_eq_true_eq] at hp
  have hd : 16 ≤ p.descSize := by omega
  have hm : p.capMax * p.descSize ≤ 2 ^ 32 := by omega
  have hb : j.toNat * p.descSize < 2 ^ 32 :=
    Nat.lt_of_lt_of_le (Nat.mul_lt_mul_of_pos_right hj (by omega)) hm
  apply BitVec.eq_of_toNat_eq
  have hlt := j.isLt
  rw [Device.reported, h, byteOffset, BitVec.toNat_ofNat, BitVec.toNat_ofNat, Nat.mod_eq_of_lt hb,
    Nat.mul_div_cancel _ (by omega), Nat.mod_eq_of_lt hlt]

/-- A request written to ADMIN_CTRL leaves the device's ring path as it is (46_actors.md R306). -/
theorem Device.admin_pathInv {d : Device} {p : Params} (code : Word32) (h : d.pathInv p) :
    (d.admin code).pathInv p := by
  unfold Device.admin
  dsimp only
  split
  · exact h
  · split
    · exact h
    · split <;> exact h

theorem State.devWriteSlot_eq (s : State) (h : HwStat) (n e d : Bool) (r : List Byte) :
    ∃ tr, s.devWriteSlot h n e d r =
      (s.setMem ((s.mem.writeBytes (slotAddr s.cfg s.dev.devHead + offPayload)
        (r.take s.cfg.payloadBytes)).writeBytes (slotAddr s.cfg s.dev.devHead + offCtrl)
        (leBytes 4 (ctrlWord h n e d).toNat))).setTrace tr := by
  refine ⟨((s.bus.write .device (slotAddr s.cfg s.dev.devHead + offPayload)
    (r.take s.cfg.payloadBytes)).writeCtrl .device s.cfg s.dev.devHead (ctrlWord h n e d)).trace, ?_⟩
  unfold State.devWriteSlot State.setBus
  rw [Bus.writeCtrl_mem, Bus.write_mem]
  rfl

/-- A device step leaves everything but ring memory, the trace and the device as it was; what it writes to
ring memory is result bytes of the payload area and the `ctrl` word of the slot at `dev_head`, and only
when it has work. -/
theorem State.devStep_eq (s : State) (d : DevStep) :
    ∃ (m : Memory) (tr : List Event) (v : Device),
      s.devStep d = ((s.setMem m).setTrace tr).setDev v ∧ v.doorbell = s.dev.doorbell ∧
      (m = s.mem ∨
        (s.dev.hasWork = true ∧ ∃ (r : List Byte) (c : Word32),
          (ctrlDone s.devCtrl = true → ctrlDone c = true) ∧
          m = (s.mem.writeBytes (slotAddr s.cfg s.dev.devHead + offPayload)
            (r.take s.cfg.payloadBytes)).writeBytes (slotAddr s.cfg s.dev.devHead + offCtrl)
            (leBytes 4 c.toNat))) := by
  have hdone : ∀ (h : HwStat) (n e b : Bool), ctrlDone (ctrlWord h n e b) = b := by
    intro h n e b
    show BitVec.getLsbD ((h ++ 0#13 ++ BitVec.ofBool n ++ BitVec.ofBool e) ++ BitVec.ofBool b) 0 = b
    rw [BitVec.getLsbD_append]
    cases b <;> simp
  have same : s = ((s.setMem s.mem).setTrace s.trace).setDev s.dev := rfl
  cases d with
  | readCtrl slot =>
    simp only [State.devStep]
    split
    · exact ⟨s.mem, (s.bus.logCtrl .device s.cfg slot).trace, s.dev, rfl, rfl, .inl rfl⟩
    · exact ⟨s.mem, s.trace, s.dev, same, rfl, .inl rfl⟩
  | readPayload slot =>
    simp only [State.devStep]
    split
    · exact ⟨(s.bus.logPayload .device s.cfg slot).mem, (s.bus.logPayload .device s.cfg slot).trace, s.dev,
        rfl, rfl, .inl (Bus.logPayload_mem s.bus .device s.cfg slot)⟩
    · exact ⟨s.mem, s.trace, s.dev, same, rfl, .inl rfl⟩
  | complete e h r keep irq =>
    simp only [State.devStep]
    split
    · rename_i hwork
      obtain ⟨tr, hw⟩ := s.devWriteSlot_eq h (ctrlNotify s.devCtrl && keep) e true r
      rw [hw]
      unfold State.devSignal
      split
      · exact ⟨_, _, _, rfl, rfl, .inr ⟨hwork, r, _, fun _ => hdone _ _ _ _, rfl⟩⟩
      · exact ⟨_, tr, _, rfl, rfl, .inr ⟨hwork, r, _, fun _ => hdone _ _ _ _, rfl⟩⟩
    · exact ⟨s.mem, s.trace, s.dev, same, rfl, .inl rfl⟩
  | writeStatus e h r =>
    simp only [State.devStep]
    split
    · rename_i hwork
      obtain ⟨tr, hw⟩ := s.devWriteSlot_eq h (ctrlNotify s.devCtrl) e (ctrlDone s.devCtrl) r
      rw [hw]
      exact ⟨_, tr, _, rfl, rfl, .inr ⟨hwork, r, _, fun hd => (hdone _ _ _ _).trans hd, rfl⟩⟩
    · exact ⟨s.mem, s.trace, s.dev, same, rfl, .inl rfl⟩
  | setDone keep irq =>
    simp only [State.devStep]
    split
    · rename_i hwork
      obtain ⟨tr, hw⟩ := s.devWriteSlot_eq (ctrlHwstat s.devCtrl) (ctrlNotify s.devCtrl && keep)
        (ctrlError s.devCtrl) true []
      rw [hw]
      unfold State.devSignal
      simp only [Bool.and_eq_true] at hwork
      split
      · exact ⟨_, _, _, rfl, rfl, .inr ⟨hwork.1, [], _, fun _ => hdone _ _ _ _, rfl⟩⟩
      · exact ⟨_, tr, _, rfl, rfl, .inr ⟨hwork.1, [], _, fun _ => hdone _ _ _ _, rfl⟩⟩
    · exact ⟨s.mem, s.trace, s.dev, same, rfl, .inl rfl⟩
  | report j =>
    simp only [State.devStep]
    split
    · exact ⟨s.mem, s.trace, _, rfl, rfl, .inl rfl⟩
    · exact ⟨s.mem, s.trace, s.dev, same, rfl, .inl rfl⟩
  | ackEnabled b =>
    cases b <;> simp only [State.devStep]
    · split
      · exact ⟨s.mem, s.trace, s.dev, same, rfl, .inl rfl⟩
      · exact ⟨s.mem, s.trace, _, rfl, rfl, .inl rfl⟩
    · split
      · exact ⟨s.mem, s.trace, s.dev, same, rfl, .inl rfl⟩
      · exact ⟨s.mem, s.trace, _, rfl, rfl, .inl rfl⟩
  | ackFlush =>
    simp only [State.devStep]
    split
    · exact ⟨s.mem, s.trace, s.dev, same, rfl, .inl rfl⟩
    · exact ⟨s.mem, s.trace, _, rfl, rfl, .inl rfl⟩

/-- A device step keeps the canonical form of ring memory. -/
theorem State.devStep_wf {s : State} (d : DevStep) (h : Memory.wf s.mem = true) :
    Memory.wf (s.devStep d).mem = true := by
  obtain ⟨m, tr, v, he, -, hm⟩ := s.devStep_eq d
  rw [he]
  show Memory.wf m = true
  rcases hm with rfl | ⟨-, r, c, -, rfl⟩
  · exact h
  · exact Memory.writeBytes_wf _ _ (Memory.writeBytes_wf _ _ h)

end Sys2Proof.Machine
end

