-- ==== Sys2Proof/Laws/Fields.lean ====
section
/-!
SUPPORT. The fields of a command word put together from them (30_encoding.md R110).
-/

namespace Sys2Proof.Machine

theorem commandWord_getLsbD (op flags : BitVec 4) (arg : Idx) (i : Nat) :
    (commandWord op flags arg).getLsbD i =
      if i < 24 then arg.getLsbD i else if i < 28 then flags.getLsbD (i - 24)
      else op.getLsbD (i - 28) := by
  have h : (commandWord op flags arg).getLsbD i = ((op ++ flags) ++ arg).getLsbD i := rfl
  rw [h, BitVec.getLsbD_append, BitVec.getLsbD_append]
  have e : i - 24 - 4 = i - 28 := by omega
  by_cases h1 : i < 24
  · simp [h1]
  · by_cases h2 : i < 28
    · have : i - 24 < 4 := by omega
      simp [h1, h2, this]
    · have : ¬ i - 24 < 4 := by omega
      simp [h1, h2, this, e]

@[simp] theorem opField_commandWord (op flags : BitVec 4) (arg : Idx) :
    opField (commandWord op flags arg) = op := by
  unfold opField
  ext i hi
  rw [BitVec.getElem_extractLsb', commandWord_getLsbD, if_neg (by omega), if_neg (by omega),
    BitVec.getElem_eq_testBit_toNat, BitVec.getLsbD]
  congr 1
  omega

@[simp] theorem flagsField_commandWord (op flags : BitVec 4) (arg : Idx) :
    flagsField (commandWord op flags arg) = flags := by
  unfold flagsField
  ext i hi
  rw [BitVec.getElem_extractLsb', commandWord_getLsbD, if_neg (by omega), if_pos (by omega),
    BitVec.getElem_eq_testBit_toNat, BitVec.getLsbD]
  congr 1
  omega

@[simp] theorem argField_commandWord (op flags : BitVec 4) (arg : Idx) :
    argField (commandWord op flags arg) = arg := by
  unfold argField
  ext i hi
  rw [BitVec.getElem_extractLsb', commandWord_getLsbD, if_pos (by omega),
    BitVec.getElem_eq_testBit_toNat, BitVec.getLsbD]
  congr 1
  omega

/-- A word is the word of its three fields. -/
theorem commandWord_fields (w : Word32) :
    commandWord (opField w) (flagsField w) (argField w) = w := by
  ext i hi
  rw [← BitVec.getLsbD_eq_getElem, commandWord_getLsbD]
  unfold argField flagsField opField
  split
  · rw [BitVec.getLsbD_extractLsb']
    simp_all
  · split
    · rw [BitVec.getLsbD_extractLsb']
      have e : 24 + (i - 24) = i := by omega
      have : i - 24 < 4 := by omega
      simp_all
    · rw [BitVec.getLsbD_extractLsb']
      have e : 28 + (i - 28) = i := by omega
      have : i - 28 < 4 := by omega
      simp_all

/-- A word is given by its three fields. -/
theorem commandWord_inj {op op' flags flags' : BitVec 4} {arg arg' : Idx} :
    commandWord op flags arg = commandWord op' flags' arg' ↔
      op = op' ∧ flags = flags' ∧ arg = arg' := by
  constructor
  · intro h
    refine ⟨?_, ?_, ?_⟩
    · simpa using congrArg opField h
    · simpa using congrArg flagsField h
    · simpa using congrArg argField h
  · rintro ⟨rfl, rfl, rfl⟩
    rfl

/-- Masking a word is masking its fields. -/
theorem commandWord_and (op op' flags flags' : BitVec 4) (arg arg' : Idx) :
    commandWord op flags arg &&& commandWord op' flags' arg' =
      commandWord (op &&& op') (flags &&& flags') (arg &&& arg') := by
  apply BitVec.eq_of_getLsbD_eq
  intro i hi
  rw [BitVec.getLsbD_and, commandWord_getLsbD, commandWord_getLsbD, commandWord_getLsbD]
  split
  · simp
  · split <;> simp

end Sys2Proof.Machine
end

