-- ==== Sys2Proof/Laws/PerInstr.lean ====
section
/-!
SUPPORT. Statements made of every instruction, one lemma per constructor.
-/

namespace Sys2Proof.Laws

/-! ### The class is decided by bits 31:28 of the word (10_state.md R53, 30_encoding.md R111) -/

namespace ClassEncoded

/-- The class read off the opcode bits of an instruction's word is the class of R111's table. -/
def Statement (i : Instr) : Prop := classOfWord (encode i) = i.cls

/-- The class of a word put together from its fields is read off its opcode. -/
theorem classOfWord_commandWord (op flags : BitVec 4) (arg : Idx) :
    classOfWord (Machine.commandWord op flags arg) = classOfWord (Machine.commandWord op 0#4 0#24) := by
  unfold classOfWord
  rw [Machine.opField_commandWord, Machine.opField_commandWord]

theorem configure (k : Kind) (p : Policy) (m : Mode) (r : Idx) : Statement (.configure k p m r) := by
  unfold Statement encode
  rw [classOfWord_commandWord]
  rfl

theorem freeCount : Statement .freeCount := by unfold Statement; decide

theorem pendingCount : Statement .pendingCount := by unfold Statement; decide

theorem enqueue (n : Idx) : Statement (.enqueue n) := by
  unfold Statement encode
  rw [classOfWord_commandWord]
  rfl

theorem dequeue (max : Idx) : Statement (.dequeue max) := by
  unfold Statement encode
  rw [classOfWord_commandWord]
  rfl

theorem submitBatch (n : Idx) : Statement (.submitBatch n) := by
  unfold Statement encode
  rw [classOfWord_commandWord]
  rfl

theorem pollBatch (max : Idx) : Statement (.pollBatch max) := by
  unfold Statement encode
  rw [classOfWord_commandWord]
  rfl

theorem batchAge : Statement .batchAge := by unfold Statement; decide

theorem start : Statement .start := by unfold Statement; decide

theorem stop : Statement .stop := by unfold Statement; decide

theorem flush : Statement .flush := by unfold Statement; decide

theorem rdreg (sel : BitVec 3) : Statement (.rdreg sel) := by
  unfold Statement encode
  rw [classOfWord_commandWord]
  rfl

end ClassEncoded

end Sys2Proof.Laws
end

