-- ==== Sys2Proof/Laws/Polling.lean ====
section
/-!
SUPPORT. The poll loop of START, STOP and FLUSH (45_admin.md R272 to R275): a schedule that has no device
step before an own step, and the polls that do not show the awaited bit.
-/

namespace Sys2Proof.Machine

/-- One own step of ASEQ before which the schedule has no device step. -/
theorem runA_quiet {u : State} {c : ACtx} {w : List (List DevStep)} (n : Nat) (h : u.window = [] :: w) :
    State.runA (n + 1) (u.setAseq (some c)) = State.runA n (((u.setWindow w).setAseq (some c)).aStep c) := by
  rw [State.runA_running n (c := c) rfl]
  have e : (u.setAseq (some c)).openWindow = (u.setWindow w).setAseq (some c) := by
    unfold State.openWindow
    rw [State.setAseq_window, h]
    rfl
  rw [e]
  rfl

/-- One own step of ASEQ after the device steps scheduled before it. -/
theorem runA_after {u v : State} {c : ACtx} {ds : List DevStep} {w : List (List DevStep)} (n : Nat)
    (h : u.window = ds :: w)
    (hv : ((u.setAseq (some c)).setWindow w).devSteps ds = v.setAseq (some c)) :
    State.runA (n + 1) (u.setAseq (some c)) = State.runA n ((v.setAseq (some c)).aStep c) := by
  rw [State.runA_running n (c := c) rfl]
  have e : (u.setAseq (some c)).openWindow = v.setAseq (some c) := by
    unfold State.openWindow
    rw [State.setAseq_window, h]
    exact hv
  rw [e]
  rfl

/-- Reads of one value are alike in whatever order they stand. -/
theorem statusReads_cons (p : Params) (v : Word32) (n : Nat) (l : List Event) :
    statusReads p v n (.mmioRead .aseq p.regBase p.offAdminStatus v :: l) = statusReads p v (n + 1) l := by
  induction n with
  | zero => rfl
  | succ n ih => rw [statusReads, ih]; rfl

/-- The state after `k` polls of the value the register shows, on the schedule `w`. -/
def State.polled (u : State) (k : Nat) (w : List (List DevStep)) : State :=
  (u.setTrace (statusReads u.cfg u.dev.adminStatus k u.trace)).setWindow w

theorem polled_succ (u : State) (k : Nat) (w w' : List (List DevStep)) :
    (u.logAdminStatus.setWindow w').polled k w = u.polled (k + 1) w := by
  have h := statusReads_cons u.cfg u.dev.adminStatus k u.trace
  simp only [State.polled, State.logAdminStatus, State.log, State.setTrace, State.setWindow, h]

/-- Polls with nothing scheduled before them that do not show the awaited bit, within the poll window. -/
theorem runA_silent_polls {u : State} {op : AOp} {word : Word32} {w : List (List DevStep)} (n k polls : Nat)
    (hk : acknowledged op u.dev.adminStatus = false) (hw : u.window = List.replicate k [] ++ w)
    (hp : polls + k < u.cfg.pollMax) :
    State.runA (n + k) (u.setAseq (some ⟨op, word, .poll, polls⟩)) =
      State.runA n ((u.polled k w).setAseq (some ⟨op, word, .poll, polls + k⟩)) := by
  induction k generalizing u polls with
  | zero =>
    have e : u.polled 0 w = u := by
      have hw : u.window = w := hw
      subst hw
      rfl
    rw [e]
    rfl
  | succ k ih =>
    have hw' : u.window = [] :: (List.replicate k [] ++ w) := hw
    rw [show n + (k + 1) = (n + k) + 1 by omega, runA_quiet (n + k) hw']
    have hpos : pollPos u.cfg (polls + 1) = .poll := by
      unfold pollPos
      rw [if_pos (by omega)]
    have e : ((u.setWindow (List.replicate k [] ++ w)).setAseq (some ⟨op, word, .poll, polls⟩)).aStep
        ⟨op, word, .poll, polls⟩ =
        (u.logAdminStatus.setWindow (List.replicate k [] ++ w)).setAseq
          (some ⟨op, word, .poll, polls + 1⟩) := by
      simp only [State.aStep, State.stepAdminPoll, State.setAseq_dev, State.setWindow_dev, hk,
        Bool.false_eq_true, if_false, State.setAseq_cfg, State.setWindow_cfg, hpos]
      rfl
    rw [e, ih (u := u.logAdminStatus.setWindow (List.replicate k [] ++ w)) (polls + 1) hk rfl
      (by simp only [State.setWindow_cfg]; exact (by omega : polls + 1 + k < u.cfg.pollMax)), polled_succ,
      show polls + 1 + k = polls + (k + 1) by omega]

/-- With no device step at all, the polls up to the end of the poll window. -/
theorem runA_polls_to_expiry {u : State} {op : AOp} {word : Word32} (n k polls : Nat)
    (hk : acknowledged op u.dev.adminStatus = false) (hw : u.window = [])
    (hp : polls + (k + 1) = u.cfg.pollMax) :
    State.runA (n + (k + 1)) (u.setAseq (some ⟨op, word, .poll, polls⟩)) =
      State.runA n ((u.polled (k + 1) []).setAseq (some ⟨op, word, .expire, u.cfg.pollMax⟩)) := by
  induction k generalizing u polls with
  | zero =>
    have hpos : pollPos u.cfg (polls + 1) = .expire := by
      unfold pollPos
      rw [if_neg (by omega)]
    have e : u.polled 1 [] = u.logAdminStatus := by
      rw [← hw]
      rfl
    rw [runA_poll u n op word polls hw hk, hpos, hp, e]
  | succ k ih =>
    have hpos : pollPos u.cfg (polls + 1) = .poll := by
      unfold pollPos
      rw [if_pos (by omega)]
    have e : (u.logAdminStatus).polled (k + 1) [] = u.polled (k + 1 + 1) [] := by
      have := polled_succ u (k + 1) [] u.window
      rwa [show u.logAdminStatus.setWindow u.window = u.logAdminStatus from rfl] at this
    rw [show n + (k + 1 + 1) = (n + (k + 1)) + 1 by omega, runA_poll u _ op word polls hw hk, hpos,
      ih (u := u.logAdminStatus) (polls + 1) hk hw (by exact (by omega : polls + 1 + (k + 1) = u.cfg.pollMax)),
      e]
    rfl

end Sys2Proof.Machine
end

