-- ==== Sys2Proof/Laws/Sound.lean ====
section
/-!
SUPPORT. The sound states of Safety.lean: what the steps of PSEQ and CSEQ have in common when a sound state
is to stay sound (a new context, a response), and the spans of the batch FIFO.
-/

namespace Sys2Proof.Machine

/-! ### Exclusion (10_state.md R53, 45_admin.md R280) -/

theorem aseq_none_of_pseq {s : State} {c : PCtx} (h : s.seqInv) (hc : s.pseq = some c) :
    s.aseq = none := by
  cases ha : s.aseq with
  | none => rfl
  | some a =>
    have := (h.2.2 a (by rw [ha]; rfl)).1
    rw [hc] at this
    cases this

theorem aseq_none_of_cseq {s : State} {c : CCtx} (h : s.seqInv) (hc : s.cseq = some c) :
    s.aseq = none := by
  cases ha : s.aseq with
  | none => rfl
  | some a =>
    have := (h.2.2 a (by rw [ha]; rfl)).2.1
    rw [hc] at this
    cases this

/-! ### What PSEQ's position says of the FIFO -/

theorem unpushed_idle {s : State} (h : s.pseq = none) : s.unpushed = 0 := by
  unfold State.unpushed
  rw [h]

theorem spansEnd_idle {s : State} (h : s.pseq = none) : s.spansEnd = s.tail := by
  unfold State.spansEnd
  rw [h]

theorem unpushed_running {s : State} {c : PCtx} (h : s.pseq = some c) :
    s.unpushed = match c.op, c.pos with
      | .submitBatch, .e6 => c.written
      | .submitBatch, .e7 => c.written
      | .submitBatch, .s3 => c.written
      | .submitBatch, .s4 => c.written
      | _, _ => 0 := by
  cases s
  cases h
  rfl

theorem spansEnd_running {s : State} {c : PCtx} (h : s.pseq = some c) :
    s.spansEnd = match c.op, c.pos with
      | .submitBatch, .e6 => c.oldTail
      | .submitBatch, .e7 => c.oldTail
      | .submitBatch, .s3 => c.oldTail
      | .submitBatch, .s4 => c.oldTail
      | _, _ => s.tail := by
  cases s
  cases h
  rfl

/-! ### A new context or a response -/

/-- A sound state stays sound under a new PSEQ context that is sound itself and that leaves the account of
the FIFO as it was. -/
theorem inv_setPseq {s : State} {o : Option PCtx} (h : s.Inv) (ha : s.aseq = none)
    (hu : (s.setPseq o).unpushed = s.unpushed)
    (he : s.mode = .batch → (s.setPseq o).spansEnd = s.spansEnd) (hc : ∀ c ∈ o, s.pctxInv c) :
    (s.setPseq o).Inv := by
  obtain ⟨h1, h2, hd, h3, h4, ⟨f1, f2, f3, f4, f5, f6, f7⟩, -, q2, -⟩ := h
  refine ⟨h1, h2, hd, h3, h4, ⟨f1, f2, f3, f4, f5, f6, fun hm => ?_⟩, hc, q2, ?_⟩
  · obtain ⟨a, b⟩ := f7 hm
    rw [hu, he hm]
    exact ⟨a, b⟩
  · intro c hcc
    rw [State.setPseq_aseq, ha] at hcc
    cases hcc

/-- A sound state stays sound under a new CSEQ context that is sound itself. -/
theorem inv_setCseq {s : State} {o : Option CCtx} (h : s.Inv) (ha : s.aseq = none)
    (hc : ∀ c ∈ o, s.cctxInv c) : (s.setCseq o).Inv := by
  obtain ⟨h1, h2, hd, h3, h4, h5, q1, -, -⟩ := h
  refine ⟨h1, h2, hd, h3, h4, h5, q1, hc, ?_⟩
  intro c hcc
  rw [State.setCseq_aseq, ha] at hcc
  cases hcc

/-- PSEQ's response keeps a sound state sound when nothing is published and not pushed. -/
theorem inv_respondP {s : State} (h : s.Inv) (ha : s.aseq = none) (w : Word32) (r : Response)
    (hu : s.mode = .batch → s.unpushed = 0 ∧ s.spansEnd = s.tail) : (s.respondP w r).Inv := by
  obtain ⟨h1, h2, hd, h3, h4, ⟨f1, f2, f3, f4, f5, f6, f7⟩, -, q2, -⟩ := h
  refine ⟨h1, h2, hd, h3, h4, ⟨f1, f2, f3, f4, f5, f6, fun hm => ?_⟩, ?_, q2, ?_⟩
  · obtain ⟨a, b⟩ := f7 hm
    obtain ⟨u, v⟩ := hu hm
    rw [u] at a
    rw [v] at b
    exact ⟨a, b⟩
  · intro d hd
    cases hd
  · intro d hd
    have hd : s.aseq = some d := hd
    rw [ha] at hd
    cases hd

/-- CSEQ's response keeps a sound state sound. -/
theorem inv_respondC {s : State} (h : s.Inv) (ha : s.aseq = none) (w : Word32) (r : Response) :
    (s.respondC w r).Inv := by
  obtain ⟨h1, h2, hd, h3, h4, h5, q1, -, -⟩ := h
  refine ⟨h1, h2, hd, h3, h4, h5, q1, ?_, ?_⟩
  · intro c hcc
    cases hcc
  · intro c hcc
    have hcc : s.aseq = some c := hcc
    rw [ha] at hcc
    cases hcc

/-! ### Spans (10_state.md R44, R46) -/

/-- An advance by nothing. -/
theorem wrapAdd_zero {capacity x : Idx} {k : Nat} (hk : k < 24) (hc : capacity.toNat = 2 ^ k)
    (hx : x.toNat < capacity.toNat) : wrapAdd (capacity - 1) x 0 = x := by
  apply BitVec.eq_of_toNat_eq
  rw [wrapAdd_toNat _ _ hk hc, Nat.add_zero, Nat.mod_eq_of_lt (by omega)]

theorem pendingDesc_append (l l' : List Batch) :
    pendingDesc (l ++ l') = pendingDesc l + pendingDesc l' := by
  induction l with
  | nil => simp [pendingDesc]
  | cons a l ih =>
    simp only [List.cons_append, pendingDesc, ih]
    omega

/-- A batch pushed behind the last span. -/
theorem spansTile_push {p : Params} {mask : Idx} {l : List Batch} {i j : Idx} {b : Batch}
    (hb : b.complete = false) (h1 : b.headOffset = byteOffset p j)
    (h2 : b.tailOffset = byteOffset p (wrapAdd mask j b.descCount)) (h : spansTile p mask i l j) :
    spansTile p mask i (l ++ [b]) (wrapAdd mask j b.descCount) := by
  induction l generalizing i with
  | nil =>
    simp only [spansTile] at h
    subst h
    simp [spansTile, hb, h1, h2]
  | cons a l ih =>
    simp only [List.cons_append, spansTile] at h ⊢
    split
    · rename_i hc
      rw [if_pos hc] at h
      exact ih h
    · rename_i hc
      rw [if_neg hc] at h
      exact ⟨h.1, h.2.1, ih h.2.2⟩

/-- The spans of a ring end at a slot of the ring. -/
theorem spansTile_end_lt {p : Params} {capacity : Idx} {k : Nat} (hk : k < 24)
    (hc : capacity.toNat = 2 ^ k) {l : List Batch} {i j : Idx} (hi : i.toNat < capacity.toNat)
    (h : spansTile p (capacity - 1) i l j) : j.toNat < capacity.toNat := by
  induction l generalizing i with
  | nil =>
    simp only [spansTile] at h
    subst h
    exact hi
  | cons a l ih =>
    simp only [spansTile] at h
    split at h
    · exact ih hi h
    · exact ih (wrapAdd_lt _ _ hk hc) h.2.2

/-- What PSEQ's context rests on: any later state with the same ring, no fewer free slots and no more
batches keeps it sound. -/
theorem pctxInv_mono {s t : State} {c : PCtx} (h : s.pctxInv c) (h1 : t.configured = s.configured)
    (h2 : t.mode = s.mode) (h3 : t.cfg = s.cfg) (h4 : s.free ≤ t.free)
    (h5 : t.fifo.length ≤ s.fifo.length) (h6 : t.tail = s.tail) (h7 : t.wrapMask = s.wrapMask)
    (h8 : t.capacity = s.capacity) : t.pctxInv c := by
  obtain ⟨p1, p2, p3, p4, p5, p6, p7, p8, p9, p10⟩ := h
  refine ⟨p1, ?_, ?_, ?_, ?_, ?_, ?_, ?_, ?_, p10⟩
  · rw [h1, h2, h3]
    exact p2
  · rw [h1, h2]
    exact p3
  · intro h
    obtain ⟨x, y⟩ := p4 h
    exact ⟨by omega, y⟩
  · intro h
    have := p5 h
    omega
  · rw [h8]
    exact p6
  · intro h h'
    rw [h3]
    have := p7 h h'
    omega
  · rw [h6]
    exact p8
  · rw [h6, h7]
    exact p9

end Sys2Proof.Machine
end

