-- ==== Sys2Proof/Tests/Slice0.lean ====
section
/-!
SUPPORT. The author's tests: well-formedness, words written out from the encoding table, worked values of
the spec, one step of each instruction, and for each statement with hypotheses a state that meets them. The
expected values are those of 95_test_vectors.md or worked by hand from the rules cited.
-/

namespace Sys2Proof.Tests

open Sys2Proof.Machine

/-! ### Well-formedness: an ill-formed term for each check of R9, R10, R11, R118, R128 -/

theorem test_wf_default : Params.default.wf = true := by decide

theorem test_wf_capMax_zero : { Params.default with capMax := 0 }.wf = false := by decide

theorem test_wf_capMax_high :
    { Params.default with capMax := 2 ^ 23 + 1, descSize := 16 }.wf = false := by decide

theorem test_wf_descSize_odd : { Params.default with descSize := 20 }.wf = false := by decide

theorem test_wf_descSize_low : { Params.default with descSize := 8 }.wf = false := by decide

theorem test_wf_ring_bytes : { Params.default with descSize := 2 ^ 22 + 8 }.wf = false := by decide

theorem test_wf_poolSize_zero : { Params.default with poolSize := 0 }.wf = false := by decide

theorem test_wf_poolSize_high : { Params.default with poolSize := 2 ^ 16 + 1 }.wf = false := by decide

theorem test_wf_pollMax_zero : { Params.default with pollMax := 0 }.wf = false := by decide

theorem test_wf_offsets_distinct : { Params.default with offHwHead := 0 }.wf = false := by decide

theorem test_wf_offsets_aligned : { Params.default with offHwHead := 6 }.wf = false := by decide

theorem test_wf_ringBase : { Params.default with ringBase := 4100 }.wf = false := by decide

/-- A sound request of `n` descriptors whose payload bytes are all `v`. -/
def req (ref : Ref) (n : Nat) (v : Byte) : ReqRecord :=
  reqRecord ref true (BitVec.ofNat 8 n) (List.replicate n (List.replicate 16 v))

/-- A request whose verdict is malformed. -/
def bad (ref : Ref) : ReqRecord := reqRecord ref false 1 []

theorem test_recordsWf :
    recordsWf Params.default .slot (.enqueue 2) [req 1 1 1, bad 2] = true ∧
    recordsWf Params.default .slot (.enqueue 2) [req 1 1 1] = false ∧
    recordsWf Params.default .slot (.enqueue 1) [reqRecord 1 true 1 []] = false := by decide

/-- R118, R133: a wrong kind or a reserved bit makes the record malformed. -/
theorem test_recordValid :
    recordValid ⟨0x10000000000001010000000000000007#128, []⟩ = true ∧
    recordValid ⟨0x20000000000001010000000000000007#128, []⟩ = false ∧
    recordValid ⟨0x10000000000101010000000000000007#128, []⟩ = false ∧
    recordValid ⟨0x10000000000000010000000000000007#128, []⟩ = false := by decide

/-! ### Words written out from 30_encoding.md R129 and 95_test_vectors.md section 3 -/

theorem test_decode_configure :
    decode 0b00010_110_000000000000000000000100#32 =
      .command (.configure .decode .bestEffort .slot 4#24) := by decide

theorem test_decode_freeCount : decode 0b0010_0000_000000000000000000000000#32 = .command .freeCount := by
  decide

theorem test_decode_pendingCount :
    decode 0b0011_0000_000000000000000000000000#32 = .command .pendingCount := by decide

theorem test_decode_enqueue :
    decode 0b0100_0000_000000000000000000000011#32 = .command (.enqueue 3#24) := by decide

theorem test_decode_dequeue :
    decode 0b0101_0000_100000000000000000000010#32 = .command (.dequeue 0x800002#24) := by decide

theorem test_decode_submitBatch :
    decode 0b0110_0000_000000000000000000000010#32 = .command (.submitBatch 2#24) := by decide

theorem test_decode_pollBatch :
    decode 0b0111_0000_000000000000000000001000#32 = .command (.pollBatch 8#24) := by decide

theorem test_decode_batchAge : decode 0b1000_0000_000000000000000000000000#32 = .command .batchAge := by
  decide

theorem test_decode_start : decode 0b1001_0000_000000000000000000000000#32 = .command .start := by decide

theorem test_decode_stop : decode 0b1010_0000_000000000000000000000000#32 = .command .stop := by decide

theorem test_decode_flush : decode 0b1011_0000_000000000000000000000000#32 = .command .flush := by decide

theorem test_decode_rdreg :
    decode 0b1100_0000_000000000000000000000_110#32 = .command (.rdreg 6#3) := by decide

theorem test_decode_illegal :
    [0x18000004#32, 0x20000001#32, 0x21000000#32, 0x48000001#32, 0x81000000#32, 0x90000001#32,
      0xC0000008#32].all (fun w => decode w == .illegal .reservedBits) = true ∧
    [0x00000000#32, 0xD0000000#32, 0xE1234567#32, 0xFFFFFFFF#32].all
      (fun w => decode w == .illegal .reservedOpcode) = true := by decide

theorem test_decodeTableWord :
    decodeTableWord 32 0x40000003 = some (.enqueue 3#24) ∧ decodeTableWord 32 0 = none := by decide

/-! ### Worked values -/

/-- R160, 95_test_vectors.md section 4. -/
theorem test_ringSize :
    [0, 1, 2, 3, 4, 5, 7, 8, 9, 1000, 1024, 1025, 16777215].map (fun r => ringSize r 1024) =
      [some 1, some 1, some 2, some 4, some 4, some 8, some 8, some 8, some 16, some 1024, some 1024,
        none, none] ∧
    (ringSize 9 8, ringSize 4 6, ringSize 5 6, ringSize 3 3) = (none, some 4, none, none) := by decide

/-- R245, 95_test_vectors.md section 6. -/
theorem test_inProgress :
    [0, 49, 50, 75, 99, 100, 101].map (fun h => inProgress 50#32 100#32 (BitVec.ofNat 32 h)) =
      [false, false, true, true, true, false, false] ∧
    [0, 49, 50, 75, 99, 100, 101].map (fun h => inProgress 100#32 50#32 (BitVec.ofNat 32 h)) =
      [true, true, false, false, false, true, true] ∧
    [64, 96, 0, 32].map (fun h => inProgress 64#32 0#32 (BitVec.ofNat 32 h)) =
      [true, true, false, false] := by decide

/-- R179, 95_test_vectors.md section 5. -/
theorem test_counts :
    [(0, 0, 4), (0, 3, 4), (2, 3, 4), (2, 0, 4), (3, 2, 4), (0, 0, 1), (5, 2, 8), (0, 1023, 1024)].map
      (fun c => freeCount c.1 c.2.1 c.2.2) = [3, 0, 2, 1, 0, 0, 2, 0] ∧
    [(0, 0, 3), (0, 3, 3), (2, 3, 3), (2, 0, 3), (3, 2, 3), (0, 0, 0), (5, 2, 7), (0, 1023, 1023)].map
      (fun c => (wrapSub (BitVec.ofNat 24 c.2.2) (BitVec.ofNat 24 c.2.1) (BitVec.ofNat 24 c.1)).toNat) =
      [0, 3, 1, 2, 3, 0, 5, 1023] := by decide

/-- R114, R115, R117, 95_test_vectors.md section 3. -/
theorem test_packing :
    (reqRecord 0x1122 true 2 []).word = 0x10000000000001020000000000001122#128 ∧
    (OutRecord.disp 0x1122 .malformed).pack = 0x20000000000100000000000000001122#128 ∧
    (OutRecord.compl 0x1122 .hwError 0xBEEF).pack = 0x300000000001BEEF0000000000001122#128 ∧
    (OutRecord.handle 1).pack = 0x40000000000000010000000000000000#128 ∧
    (OutRecord.age 0 100).pack = 0x50000000000000000000000000000064#128 ∧
    Response.word ⟨.ok, 3, []⟩ = 0x00000003#32 ∧ Response.word ⟨.errState, 0, []⟩ = 0x40000000#32 ∧
    Response.word ⟨.empty, 0, []⟩ = 0x70000000#32 := by decide

/-- R76, R121, R122: `ctrl = 0xBEEF0003` is bytes `03 00 EF BE`. -/
theorem test_ctrl_bytes :
    leBytes 4 (ctrlWord 0xBEEF false true true).toNat = [0x03#8, 0x00#8, 0xEF#8, 0xBE#8] := by decide

/-! ### Small states -/

/-- A ring of capacity 4 with the given mode and indexes. -/
def ring (m : Mode) (head tail : Idx) : State :=
  { State.reset with
    configured := true, mode := m, capacity := 4, wrapMask := 3, head := head, tail := tail
    shadowTail := tail }

/-- A state with one command waiting. -/
def asked (s : State) (w : Word32) (rs : List ReqRecord) : State := s.setPort [⟨w, rs⟩]

/-- Slots of the ring with the given `ctrl` words and references. -/
def withSlots (s : State) : List (Nat × Nat × Nat) → State
  | [] => s
  | (i, c, r) :: l =>
    withSlots (s.setMem ((s.mem.writeBytes (4096 + 32 * i) (leBytes 4 c)).writeBytes (4096 + 32 * i + 8)
      (leBytes 8 r))) l

/-- The batch of vector P3 line 4: references 1 and 2 on slots 0 to 2. -/
def batchA (consumed : Nat) (complete : Bool) : Batch :=
  { bid := 0, headOffset := 0, tailOffset := 96, refs := [1, 2], n := 2, descCount := 3
    consumed := consumed, complete := complete, submitTime := 100 }

/-- A BATCH ring with that batch in its FIFO. -/
def batchRing (consumed : Nat) (complete : Bool) (hw : Word32) : State :=
  { ring .batch (if complete then 3 else 0) 3 with
    fifo := [batchA consumed complete], dev := { Device.initial with hwHead := hw } }

/-- The response an answer ends with. -/
def reply : Result → Option Response
  | .next s =>
    match s.trace with
    | .respond _ r :: _ => some r
    | _ => none
  | .fault _ => none
  | .refused _ => none

/-- A function of the next state. -/
def after (r : Result) (f : State → α) : Option α :=
  match r with
  | .next s => some (f s)
  | .fault _ => none
  | .refused _ => none

/-- An answer is a next state. -/
def isNext (r : Result) : Bool := (after r (fun _ => ())).isSome

theorem exists_next {r : Result} (h : isNext r = true) : ∃ t, r = .next t := by
  cases r with
  | next s => exact ⟨s, rfl⟩
  | fault e => cases e
  | refused e => cases h

theorem exists_next_of {r : Result} {f : State → Bool} (h : after r f = some true) :
    ∃ t, r = .next t ∧ f t = true := by
  cases r with
  | next s => exact ⟨s, rfl, by simpa [after] using h⟩
  | fault e => cases e
  | refused e => cases h

/-! ### One step of each instruction -/

/-- 95_test_vectors.md section 4: `0x17000000 -> OK 1`. -/
theorem test_configure :
    let r := exec (.configure .decode .bestEffort .batch 0) (asked State.reset 0x17000000#32 [])
    reply r = some ⟨.ok, 1, []⟩ ∧ after r (fun t => (t.capacity, t.wrapMask, t.ctrlstat)) = some (1, 0, 29) := by
  decide +kernel

/-- Section 4: a request beyond CAP_MAX fails and leaves the DRC unconfigured. -/
theorem test_configure_geometry :
    let r := exec (.configure .encode .failFast .slot 1025) (asked State.reset 0x10000401#32 [])
    reply r = some ⟨.errGeometry, 0, []⟩ ∧ after r (fun t => t.configured) = some false := by decide +kernel

theorem test_freeCount : reply (exec .freeCount (asked (ring .slot 2 3) 0x20000000#32 [])) =
    some ⟨.ok, 2, []⟩ := by decide +kernel

theorem test_pendingCount : reply (exec .pendingCount (asked (ring .slot 2 0) 0x30000000#32 [])) =
    some ⟨.ok, 2, []⟩ := by decide +kernel

/-- Section 1 line 6: R4 goes to slot 3 and `tail` wraps to 0. -/
theorem test_enqueue_wraps :
    let r := exec (.enqueue 1) (asked (ring .slot 2 3) 0x40000001#32 [req 4 1 0xA5])
    reply r = some ⟨.ok, 1, [.disp 4 .accepted]⟩ ∧
    after r (fun t => (t.tail, t.dev.doorbell, slotCtrl t.cfg t.mem 3, slotRef t.cfg t.mem 3)) =
      some (0, 0, 4, 4) := by decide +kernel

/-- Section 7: FAIL_FAST, the slot before the malformed request stays written and notified. -/
theorem test_enqueue_failFast :
    let r := exec (.enqueue 3) (asked (ring .slot 0 0) 0x40000003#32 [req 1 1 1, bad 2, req 3 1 3])
    reply r = some ⟨.ok, 1, [.disp 1 .accepted, .disp 2 .malformed]⟩ ∧
    after r (fun t => (t.tail, slotCtrl t.cfg t.mem 0)) = some (1, 4) := by decide +kernel

/-- Section 8: the error bit passes through and the scan stops at a slot that is not done. -/
theorem test_dequeue :
    let s := withSlots (ring .slot 0 3) [(0, 0x00000001, 1), (1, 0xBEEF0003, 2), (2, 0x00000002, 3)]
    let r := exec (.dequeue 7) (asked s 0x50000007#32 [])
    reply r = some ⟨.ok, 2, [.compl 1 .ok 0, .compl 2 .hwError 0xBEEF]⟩ ∧
    after r (fun t => (t.head, t.trace.length)) = some (2, 9) := by decide +kernel

/-- Section 9, last line of DEQUEUE: on a BATCH ring. -/
theorem test_dequeue_batch_ring : reply (exec (.dequeue 1) (asked (ring .batch 0 0) 0x50000001#32 [])) =
    some ⟨.errState, 0, []⟩ := by decide +kernel

/-- Section 13 P3 line 4, but for the handle, which is a free value. -/
theorem test_submitBatch :
    let r := exec (.submitBatch 2) (asked (ring .batch 0 0) 0x60000002#32 [req 1 2 1, req 2 1 2])
    after r (fun t => t.fifo.map (fun b => (b.headOffset, b.tailOffset))) = some [(0, 96)] ∧
    after r (fun t => t.fifo.map (fun b => (b.refs, b.n, b.descCount))) = some [([1, 2], 2, 3)] ∧
    after r (fun t => (t.tail, slotRef t.cfg t.mem 1, slotCtrl t.cfg t.mem 2)) = some (3, 1, 4) := by
  decide +kernel

/-- Section 9: every record in use. -/
theorem test_submitBatch_pool :
    let s := { batchRing 0 true 96 with cfg := { Params.default with poolSize := 1 } }
    reply (exec (.submitBatch 1) (asked s 0x60000001#32 [req 3 1 3])) =
      some ⟨.errNoBatch, 0, []⟩ := by decide +kernel

/-- P3 line 7: the head inside the span. -/
theorem test_pollBatch_notReady :
    reply (exec (.pollBatch 4) (asked (batchRing 0 false 64) 0x70000004#32 [])) =
      some ⟨.notReady, 0, []⟩ := by decide +kernel

/-- P3 line 9: the latch, the release, a partial drain. -/
theorem test_pollBatch_drain :
    let r := exec (.pollBatch 1) (asked (batchRing 0 false 96) 0x70000001#32 [])
    reply r = some ⟨.ok, 1, [.compl 1 .ok 0]⟩ ∧
    after r (fun t => (t.head, t.fifo)) = some (3, [batchA 1 true]) := by decide +kernel

/-- P3 line 5. -/
theorem test_batchAge : reply (exec .batchAge (asked (batchRing 0 false 0) 0x80000000#32 [])) =
    some ⟨.ok, 0, [.age 0 100]⟩ := by decide +kernel

/-- Section 10: START with status reads 0x0, 0x1. -/
theorem test_start :
    let s := { ring .slot 0 0 with window := [[], [], [], [.ackEnabled true]] }
    let r := exec .start (asked s 0x90000000#32 [])
    reply r = some ⟨.ok, 0, []⟩ ∧ after r (fun t => (t.enabled, t.dev.adminCtrl, t.trace.length)) =
      some (true, 1, 4) := by decide +kernel

/-- Section 10: STOP with status reads 0x1, 0x1, 0x1 times out. -/
theorem test_stop :
    let s := { ring .slot 0 0 with enabled := true, dev := { Device.initial with adminStatus := 1 } }
    let r := exec .stop (asked s 0xA0000000#32 [])
    reply r = some ⟨.errTimeout, 0, []⟩ ∧ after r (fun t => (t.enabled, t.dev.adminCtrl, t.trace.length)) =
      some (false, 2, 5) := by decide +kernel

/-- Section 10: FLUSH with status reads 0x1, 0x1, 0x3; `enabled` keeps its value. -/
theorem test_flush :
    let s := { ring .slot 0 0 with
      enabled := true, dev := { Device.initial with adminStatus := 1 }
      window := [[], [], [], [], [.ackFlush]] }
    let r := exec .flush (asked s 0xB0000000#32 [])
    reply r = some ⟨.ok, 0, []⟩ ∧ after r (fun t => (t.enabled, t.dev.adminStatus, t.trace.length)) =
      some (true, 3, 5) := by decide +kernel

/-- Section 10: `RDREG sel=0 -> OK 3` on a configured, enabled SLOT ring. -/
theorem test_rdreg :
    reply (exec (.rdreg 0) (asked { ring .slot 0 0 with enabled := true } 0xC0000000#32 [])) =
      some ⟨.ok, 3, []⟩ := by decide +kernel

/-- R130, R334: an illegal word is answered `ERR_ILLEGAL`. -/
theorem test_illegal :
    reply ((asked State.reset 0x48000001#32 []).perform (.accept 0)) = some ⟨.errIllegal, 0, []⟩ := by
  decide +kernel

/-- The placed word is the next thing that runs: section 3, `0x17000000` on a fresh DRC. -/
theorem test_withFetchWord : reply (step (State.reset.withFetchWord 32 0x17000000)) =
    some ⟨.ok, 1, []⟩ := by decide +kernel

/-- R303: `dev.complete` of slot 0 with the error bit set. -/
theorem test_device_complete :
    let s := { ring .slot 0 1 with dev := { Device.initial with capacity := 4, doorbell := 1 } }
    let t := (withSlots s [(0, 4, 9)]).devStep (.complete true 0xBEEF [] true false)
    (slotCtrl t.cfg t.mem 0, slotRef t.cfg t.mem 0, t.dev.devHead) = (0xBEEF0007, 9, 1) := by decide +kernel

/-! ### Witnesses: states and operands that meet the hypotheses of each statement, clause by clause -/

theorem ring_inv (m : Mode) (h t : Idx) (hh : h.toNat < 4) (ht : t.toNat < 4) : (ring m h t).ringInv :=
  fun _ => ⟨⟨2, (by decide : 2 < 24), rfl⟩, (by decide : 4 ≤ 1024), (by decide : 3#24 = 4#24 - 1), hh, ht, ht⟩

/-- DecodeSelectsByMaskAndMatch: the first row, the last row, a word that matches none. -/
theorem wit_DecodeSelectsByMaskAndMatch :
    decode 0x17FFFFFF#32 = .command (.configure .decode .bestEffort .batch 0xFFFFFF#24) ∧
    ⟨0xF8000000#32, 0x10000000#32⟩ ∈ opcodeRows ∧ 0x17FFFFFF#32 &&& 0xF8000000#32 = 0x10000000#32 ∧
    ⟨0xFFFFFFF8#32, 0xC0000000#32⟩ ∈ opcodeRows ∧ 0xC0000007#32 &&& 0xFFFFFFF8#32 = 0xC0000000#32 ∧
    (∀ r ∈ opcodeRows, 0xC0000008#32 &&& r.mask ≠ r.pattern) := by decide

/-- ReservedOpcodesAnswerIllegal: the four opcodes and a waiting word. -/
theorem wit_ReservedOpcodesAnswerIllegal :
    [0x0FFFFFFF#32, 0xD0000000#32, 0xE1234567#32, 0xFFFFFFFF#32].map
      (fun w => (w.extractLsb' 28 4).toNat) = [0x0, 0xD, 0xE, 0xF] ∧
    (asked State.reset 0xFFFFFFFF#32 []).port = [⟨0xFFFFFFFF#32, []⟩] ∧
    (asked State.reset 0xFFFFFFFF#32 []).accepts .query = true := by decide

/-- ReservedBitsAnswerIllegal: the lowest and the highest opcode. -/
theorem wit_ReservedBitsAnswerIllegal :
    [0x18000004#32, 0xC0000008#32].map (fun w => (w.extractLsb' 28 4).toNat) = [1, 12] ∧
    (∀ r ∈ opcodeRows, 0x18000004#32 &&& r.mask ≠ r.pattern) ∧
    (∀ r ∈ opcodeRows, 0xC0000008#32 &&& r.mask ≠ r.pattern) ∧
    (asked State.reset 0x18000004#32 []).accepts (classOfWord 0x18000004#32) = true ∧
    (asked State.reset 0xC0000008#32 []).accepts (classOfWord 0xC0000008#32) = true ∧
    (encode (.rdreg 0)).extractLsb' 28 4 = (0xC0000008#32 : Word32).extractLsb' 28 4 := by decide

/-- A ring on which PSEQ is between steps E4 and E5 of an ENQUEUE of one request. -/
def enqueuing : State :=
  { ring .slot 0 0 with
    pseq := some ⟨.enqueue, 0x40000001#32, [req 1 1 1], .e5, 0, 2, 1, 1, 1, [.disp 1 .accepted]⟩
    agenda := [.pseq] }

/-- CommandsAcceptedByClass: a word accepted and one that waits for PSEQ. -/
theorem wit_CommandsAcceptedByClass :
    (ring .slot 0 0).accepts .producer = true ∧ (ring .slot 0 0).accepts .admin = true ∧
    (asked enqueuing 0x40000000#32 []).accepts (classOfWord 0x40000000#32) = false ∧
    (asked enqueuing 0x50000000#32 []).accepts (classOfWord 0x50000000#32) = true ∧
    (0x40000000#32 : Word32).extractLsb' 28 4 = (0x4FFFFFFF#32 : Word32).extractLsb' 28 4 ∧
    ((0xF0000000#32 : Word32).extractLsb' 28 4).toNat ∈ [0x0, 0xD, 0xE, 0xF] := by decide

/-- StepRunsTheDecodedInstruction: the second of two waiting commands. -/
theorem wit_StepRunsTheDecodedInstruction :
    let s := { ring .slot 0 0 with
      port := [⟨0x30000000#32, []⟩, ⟨0x20000000#32, []⟩], agenda := [.run 1 [[]], .cseq] }
    s.agenda = .run 1 [[]] :: [.cseq] ∧
    (s.select 1).port = ⟨0x20000000#32, []⟩ :: [⟨0x30000000#32, []⟩] ∧
    decode 0x20000000#32 = .command .freeCount := by decide

/-- An ENQUEUE of one request on a ring with two free slots. -/
def enqueueOne : State := asked (ring .slot 2 3) 0x40000001#32 [req 4 1 0xA5]

/-- An ENQUEUE of four requests on the same ring. -/
def enqueueFour : State :=
  asked (ring .slot 2 3) 0x40000004#32 [req 4 1 4, req 5 1 5, req 6 1 6, req 7 1 7]

/-- A SUBMIT_BATCH of two requests on an empty BATCH ring. -/
def submitTwo : State := asked (ring .batch 0 0) 0x60000002#32 [req 1 2 1, req 2 1 2]

/-- CarriedThroughIsOwnSteps. -/
theorem wit_CarriedThroughIsOwnSteps :
    enqueueOne.port = [⟨0x40000001#32, [req 4 1 0xA5]⟩] ∧
    decode 0x40000001#32 = .command (.enqueue 1) ∧ enqueueOne.accepts (Instr.enqueue 1).cls = true ∧
    enqueueOne.window = [] ∧ ∃ t, exec (.enqueue 1) (enqueueOne.setAgenda [.cseq]) = .next t :=
  ⟨by decide, by decide, by decide, by decide, exists_next (by decide +kernel)⟩

/-- EveryCommandRespondsOnce, RegisterFrameOfInstructions: with a device step inside. -/
theorem wit_EveryCommandRespondsOnce :
    let s := enqueueOne.setWindow [[.readCtrl 0]]
    ((Instr.enqueue 1).cls = .producer → recordsWf s.cfg s.mode (.enqueue 1) s.handed = true) ∧
    (Instr.dequeue 1).cls ≠ .producer ∧ s.accepts (Instr.enqueue 1).cls = true ∧
    (∃ t, exec (.enqueue 1) s = .next t) ∧ ∃ u, acceptInstr (.enqueue 1) s = .next u :=
  ⟨by decide, by decide, by decide, exists_next (by decide +kernel), exists_next (by decide +kernel)⟩

theorem wit_RegisterFrameOfInstructions :
    (∃ t, exec (.enqueue 1) enqueueOne = .next t) ∧ (∀ k p m r, Instr.enqueue 1 ≠ .configure k p m r) ∧
    (Instr.enqueue 1).cls ≠ .consumer ∧ (Instr.dequeue 1).cls ≠ .producer :=
  ⟨exists_next (by decide +kernel), by intros; exact Instr.noConfusion, by decide, by decide⟩

/-- MemoryFrameOfInstructions: a submission, one answered `ERR_STATE`, one answered `ERR_NOBATCH`, another class, an
address outside. -/
theorem wit_MemoryFrameOfInstructions :
    enqueueOne.window = [] ∧ 16 ≤ enqueueOne.cfg.descSize ∧ (Instr.enqueue 1).cls = .producer ∧
    (Instr.freeCount).cls ≠ .producer ∧ errStateCase false .slot (.enqueue 1) ∧
    (let s := { asked (batchRing 0 true 96) 0x60000001#32 [req 3 1 3] with
       cfg := { Params.default with poolSize := 1 } }
     (∃ n, Instr.submitBatch 1 = .submitBatch n) ∧ s.cfg.poolSize ≤ s.fifo.length ∧
     reply (exec (.submitBatch 1) s) = some ⟨.errNoBatch, 0, []⟩) ∧
    (∃ t, exec (.enqueue 1) enqueueOne = .next t) ∧
    (∀ k, k < (enqueueOne.submission enqueueOne.handed).written →
      ¬ inSlot enqueueOne.cfg (wrapAdd enqueueOne.wrapMask enqueueOne.tail k) 4191) := by
  refine ⟨by decide, by decide, by decide, by decide, Or.inl rfl,
    ⟨⟨1, rfl⟩, by decide, by decide +kernel⟩, exists_next (by decide +kernel), ?_⟩
  intro k hk
  have h1 : (enqueueOne.submission enqueueOne.handed).written = 1 := by decide +kernel
  have h0 : k = 0 := by omega
  subst h0
  unfold inSlot
  decide +kernel

/-- ConfigureConstructsTheRing, ConfiguredRingStartsEmpty: each outcome, the least and the largest ring. -/
theorem wit_ConfigureConstructsTheRing :
    State.reset.accepts .admin = true ∧ State.reset.window = [] ∧ State.reset.configured = false ∧
    (ring .slot 0 0).accepts .admin = true ∧ (ring .slot 0 0).configured = true ∧
    ringSize (0#24).toNat State.reset.cfg.capMax = some 1 ∧
    ringSize (1024#24).toNat State.reset.cfg.capMax = some 1024 ∧
    ringSize (1025#24).toNat State.reset.cfg.capMax = none ∧
    (0x18000004#32 : Word32).extractLsb' 28 4 = 1#4 ∧ (0x18000004#32 : Word32).getLsbD 27 = true := by decide

theorem wit_ConfiguredRingStartsEmpty :
    State.reset.cfg.wf = true ∧ State.reset.configured = false ∧
    ∃ t, exec (.configure .encode .failFast .slot 4) State.reset = .next t ∧ t.configured = true :=
  ⟨by decide, rfl, exists_next_of (by decide +kernel)⟩

/-- CapacityInvariant: the full ring of capacity 4 and the ring of capacity 1. -/
theorem wit_CapacityInvariant :
    (∃ k, k < 24 ∧ (4#24).toNat = 2 ^ k) ∧ (3#24).toNat < (4#24).toNat ∧ (2#24).toNat < (4#24).toNat ∧
    (∃ k, k < 24 ∧ (1#24).toNat = 2 ^ k) ∧ (0#24).toNat < (1#24).toNat :=
  ⟨⟨2, by decide, by decide⟩, by decide, by decide, ⟨0, by decide, by decide⟩, by decide⟩

/-- FreeCountAnswers, PendingCountAnswers: the empty and the full ring, both orders of the indexes. -/
theorem wit_FreeCountAnswers :
    (ring .slot 0 0).ringInv ∧ (ring .slot 0 0).configured = true ∧ (ring .slot 0 0).accepts .query = true ∧
    (ring .slot 0 0).head = (ring .slot 0 0).tail ∧ (ring .slot 0 3).ringInv ∧
    (ring .slot 0 3).tail = wrapSub (ring .slot 0 3).wrapMask (ring .slot 0 3).head 1 :=
  ⟨ring_inv _ _ _ (by decide) (by decide), rfl, by decide, rfl, ring_inv _ _ _ (by decide) (by decide),
    by decide⟩

theorem wit_PendingCountAnswers :
    (ring .slot 0 3).ringInv ∧ (ring .slot 0 3).accepts .query = true ∧ (ring .slot 0 3).configured = true ∧
    (ring .slot 0 3).head.toNat ≤ (ring .slot 0 3).tail.toNat ∧ (ring .slot 3 2).ringInv ∧
    (ring .slot 3 2).tail.toNat < (ring .slot 3 2).head.toNat :=
  ⟨ring_inv _ _ _ (by decide) (by decide), by decide, rfl, by decide,
    ring_inv _ _ _ (by decide) (by decide), by decide⟩

/-- The hypotheses ENQUEUE statements share, with as many requests as fit and with more. -/
theorem wit_EnqueueCompletes :
    (enqueueOne.accepts .producer = true ∧ enqueueOne.window = [] ∧ enqueueOne.configured = true ∧
      enqueueOne.mode = .slot ∧ recordsWf enqueueOne.cfg .slot (.enqueue 1) enqueueOne.handed = true) ∧
    (enqueueFour.accepts .producer = true ∧ enqueueFour.window = [] ∧ enqueueFour.configured = true ∧
      enqueueFour.mode = .slot ∧ recordsWf enqueueFour.cfg .slot (.enqueue 4) enqueueFour.handed = true) := by
  decide

/-- EnqueueTakesWhatFits: four requests, two free slots. -/
theorem wit_EnqueueTakesWhatFits :
    enqueueFour.accepts .producer = true ∧ enqueueFour.window = [] ∧ enqueueFour.configured = true ∧
    enqueueFour.mode = .slot ∧ recordsWf enqueueFour.cfg .slot (.enqueue 4) enqueueFour.handed = true ∧
    (∀ r ∈ enqueueFour.handed, plainRequest r = true) ∧ min (4#24).toNat enqueueFour.free = 2 := by decide

/-- EnqueueSideEffects: two slots written. -/
theorem wit_EnqueueSideEffects :
    enqueueFour.cfg.wf = true ∧ enqueueFour.ringInv ∧
    (enqueueFour.accepts .producer = true ∧ enqueueFour.window = [] ∧ enqueueFour.configured = true ∧
      enqueueFour.mode = .slot ∧ recordsWf enqueueFour.cfg .slot (.enqueue 4) enqueueFour.handed = true) ∧
    (enqueueFour.submission enqueueFour.handed).written = 2 ∧
    (∀ k, k < (enqueueFour.submission enqueueFour.handed).written →
      ¬ inSlot enqueueFour.cfg (wrapAdd enqueueFour.wrapMask enqueueFour.tail k) 4128) := by
  have hw : (enqueueFour.submission enqueueFour.handed).written = 2 := by decide +kernel
  refine ⟨by decide, ring_inv .slot 2 3 (by decide) (by decide), by decide, hw, ?_⟩
  intro k hk
  have hk : k = 0 ∨ k = 1 := by omega
  rcases hk with rfl | rfl <;> unfold inSlot <;> decide +kernel

/-- SubmissionFillsSlotsInOrder: ENQUEUE, and a SUBMIT_BATCH whose first request has two descriptors; the first
and the last slot of each. -/
theorem wit_SubmissionFillsSlotsInOrder :
    ((Instr.enqueue 4).cls = .producer ∧ enqueueFour.cfg.wf = true ∧ Memory.wf enqueueFour.mem = true ∧
      enqueueFour.ringInv ∧ enqueueFour.accepts .producer = true ∧ enqueueFour.window = [] ∧
      enqueueFour.configured = true ∧ enqueueFour.mode = .slot ∧
      recordsWf enqueueFour.cfg enqueueFour.mode (.enqueue 4) enqueueFour.handed = true ∧
      (slotContents .slot (enqueueFour.handed.take 2)).map Prod.fst = [4, 5]) ∧
    ((Instr.submitBatch 2).cls = .producer ∧ submitTwo.cfg.wf = true ∧ Memory.wf submitTwo.mem = true ∧
      submitTwo.ringInv ∧ submitTwo.accepts .producer = true ∧ submitTwo.window = [] ∧
      submitTwo.configured = true ∧ submitTwo.mode = .batch ∧
      submitTwo.fifo.length < submitTwo.cfg.poolSize ∧
      recordsWf submitTwo.cfg submitTwo.mode (.submitBatch 2) submitTwo.handed = true ∧
      (submitTwo.submission submitTwo.handed).taken = 2 ∧
      (slotContents .batch (submitTwo.handed.take 2)).map Prod.fst = [1, 1, 2]) :=
  ⟨⟨by decide, by decide, by decide, ring_inv .slot 2 3 (by decide) (by decide), by decide, by decide,
      by decide, by decide, by decide, by decide⟩,
    ⟨by decide, by decide, by decide, ring_inv .batch 0 0 (by decide) (by decide), by decide, by decide,
      by decide, by decide, by decide, by decide, by decide +kernel, by decide⟩⟩

/-- SubmissionCounts: the four ends of the loop (R195): input exhausted, ring full before a malformed request,
FAIL_FAST behind two requests, a request that needs more slots than are left. -/
theorem wit_SubmissionCounts :
    let taken (m : Mode) (rs : List ReqRecord) := ((ring m 0 0).submission rs).taken
    taken .slot [req 1 1 1, req 2 1 2] = 2 ∧
    taken .slot [req 1 1 1, req 2 1 2, req 3 1 3, bad 4] = 3 ∧
    taken .slot [req 1 1 1, bad 2, req 3 1 3] = 2 ∧
    taken .batch [req 1 2 1, req 2 2 2] = 1 ∧ (ring .slot 0 0).policy = .failFast := by decide +kernel

/-- EnqueueOnFullRing. -/
theorem wit_EnqueueOnFullRing :
    let s := asked (ring .slot 0 3) 0x40000001#32 [req 4 1 4]
    s.accepts .producer = true ∧ s.window = [] ∧ s.configured = true ∧ s.mode = .slot ∧ s.ringInv ∧
    recordsWf s.cfg .slot (.enqueue 1) s.handed = true ∧ s.free = 0 :=
  ⟨by decide, by decide, by decide, by decide, ring_inv .slot 0 3 (by decide) (by decide), by decide,
    by decide⟩

/-- MalformedRequestPolicies: two requests before the malformed one, three free slots. -/
theorem wit_MalformedRequestPolicies :
    (let s := ring .slot 0 0
     s.policy = .failFast ∧ (∀ r ∈ [req 1 1 1, req 2 1 2], wellFormedRequest s.mode r = true) ∧
     wellFormedRequest s.mode (bad 3) = false ∧ ([req 1 1 1, req 2 1 2].map recordNdesc).sum < s.free) ∧
    (let s := { ring .slot 0 0 with policy := .bestEffort }
     s.policy = .bestEffort ∧
     (([req 1 1 1, bad 2, req 3 1 3].filter (wellFormedRequest s.mode)).map recordNdesc).sum < s.free) := by
  decide

/-- SubmissionAppendsToPending: both instructions. -/
theorem wit_SubmissionAppendsToPending :
    ((Instr.enqueue 4).cls = .producer ∧ enqueueFour.cfg.wf = true ∧ Memory.wf enqueueFour.mem = true ∧
      enqueueFour.ringInv ∧ enqueueFour.accepts .producer = true ∧ enqueueFour.window = [] ∧
      enqueueFour.configured = true ∧ enqueueFour.mode = .slot ∧
      ∃ t, exec (.enqueue 4) enqueueFour = .next t) ∧
    ((Instr.submitBatch 2).cls = .producer ∧ submitTwo.cfg.wf = true ∧ Memory.wf submitTwo.mem = true ∧
      submitTwo.ringInv ∧ submitTwo.accepts .producer = true ∧ submitTwo.window = [] ∧
      submitTwo.configured = true ∧ submitTwo.mode = .batch ∧
      submitTwo.fifo.length < submitTwo.cfg.poolSize ∧ ∃ t, exec (.submitBatch 2) submitTwo = .next t) :=
  ⟨⟨by decide, by decide, by decide, ring_inv .slot 2 3 (by decide) (by decide), by decide, by decide,
      by decide, by decide, exists_next (by decide +kernel)⟩,
    ⟨by decide, by decide, by decide, ring_inv .batch 0 0 (by decide) (by decide), by decide, by decide,
      by decide, by decide, by decide, exists_next (by decide +kernel)⟩⟩

/-- WrongRecordCountRefused: one record for `n = 2`, on a ring of each mode and before CONFIGURE. -/
theorem wit_WrongRecordCountRefused :
    enqueueOne.accepts .producer = true ∧ enqueueOne.handed.length ≠ (2#24).toNat ∧
    submitTwo.accepts .producer = true ∧ submitTwo.handed.length ≠ (1#24).toNat ∧
    (let s := asked State.reset 0x40000002#32 [req 1 1 1]
     s.accepts .producer = true ∧ s.handed.length ≠ (2#24).toNat) := by decide

/-- A DEQUEUE on a ring with three pending slots, the first two of them done. -/
def dequeueSeven : State :=
  withSlots (asked (ring .slot 0 3) 0x50000007#32 [])
    [(0, 0x00000001, 1), (1, 0xBEEF0003, 2), (2, 0x00000004, 3)]

/-- DequeueHandsBackTheDonePrefix, DequeueRemovesTheOldest. -/
theorem wit_DequeueHandsBackTheDonePrefix :
    dequeueSeven.accepts .consumer = true ∧ dequeueSeven.window = [] ∧ dequeueSeven.configured = true ∧
    dequeueSeven.mode = .slot ∧ min (7#24).toNat dequeueSeven.pending = 3 ∧
    (slotCtrl dequeueSeven.cfg dequeueSeven.mem (dequeueSeven.pendingSlot 1)).getLsbD 0 = true ∧
    (slotCtrl dequeueSeven.cfg dequeueSeven.mem (dequeueSeven.pendingSlot 2)).getLsbD 0 = false := by
  decide +kernel

theorem wit_DequeueRemovesTheOldest :
    dequeueSeven.ringInv ∧ dequeueSeven.accepts .consumer = true ∧ dequeueSeven.window = [] ∧
    dequeueSeven.configured = true ∧ dequeueSeven.mode = .slot ∧
    ∃ t, exec (.dequeue 7) dequeueSeven = .next t :=
  ⟨ring_inv .slot 0 3 (by decide) (by decide), by decide, rfl, rfl, rfl, exists_next (by decide +kernel)⟩

/-- SubmitBatchCompletes: no free record, nothing accepted, a batch. -/
theorem wit_SubmitBatchCompletes :
    (let s := { asked (batchRing 0 true 96) 0x60000001#32 [req 3 1 3] with
       cfg := { Params.default with poolSize := 1 } }
     s.accepts .producer = true ∧ s.window = [] ∧ s.configured = true ∧ s.mode = .batch ∧
     recordsWf s.cfg .batch (.submitBatch 1) s.handed = true ∧ s.cfg.poolSize ≤ s.fifo.length) ∧
    (let s := asked (ring .batch 0 3) 0x60000001#32 [req 3 1 3]
     s.accepts .producer = true ∧ recordsWf s.cfg .batch (.submitBatch 1) s.handed = true ∧
     s.fifo.length < s.cfg.poolSize ∧ (s.submission s.handed).accepted = 0) ∧
    (submitTwo.accepts .producer = true ∧
     recordsWf submitTwo.cfg .batch (.submitBatch 2) submitTwo.handed = true ∧
     submitTwo.fifo.length < submitTwo.cfg.poolSize ∧
     (submitTwo.submission submitTwo.handed).accepted ≠ 0) := by decide +kernel

theorem batchRing_fifoInv : (batchRing 0 false 64).fifoInv :=
  ⟨fun h => (by cases h), by decide, by decide, by decide,
    (by
      intro b hb
      have : b = batchA 0 false := by simpa [batchRing] using hb
      subst this
      unfold batchInv
      decide),
    by decide, fun _ => ⟨by decide, rfl, rfl, rfl⟩⟩

/-- PickedRecordIsFree, PoolCountsAddUp: a FIFO of one record, three free. -/
theorem wit_PickedRecordIsFree :
    (batchRing 0 false 64).cfg.wf = true ∧ (batchRing 0 false 64).fifoInv ∧
    (batchRing 0 false 64).fifo.length < (batchRing 0 false 64).cfg.poolSize :=
  ⟨by decide, batchRing_fifoInv, by decide⟩

/-- SpanOffsets, InProgressInsideTheSpan: spans of 1 and of `capacity - 1` slots, not wrapped, ending with
the last slot, wrapped; the head on a slot of the ring. -/
theorem wit_SpanOffsets :
    Params.default.wf = true ∧ (4#24).toNat = 2 ^ 2 ∧ (4#24).toNat ≤ Params.default.capMax ∧
    (0#24).toNat + 3 < (4#24).toNat ∧ (3#24).toNat + 1 = (4#24).toNat ∧ (4#24).toNat < (3#24).toNat + 3 ∧
    (3#24).toNat < (4#24).toNat ∧ 3 ≤ (4#24).toNat - 1 := by decide

/-- PollBatchWithoutResult, PollBatchDrainsTheFront: an empty FIFO, an unfinished batch, a finished one, a
latched one. -/
theorem wit_PollBatchWithoutResult :
    (ring .batch 0 0).accepts .consumer = true ∧ (ring .batch 0 0).window = [] ∧
    (ring .batch 0 0).configured = true ∧ (ring .batch 0 0).mode = .batch ∧ (ring .batch 0 0).fifo = [] ∧
    (batchRing 0 false 64).accepts .consumer = true ∧
    (batchRing 0 false 64).fifo = batchA 0 false :: [] ∧ (batchA 0 false).complete = false ∧
    inProgress (batchA 0 false).headOffset (batchA 0 false).tailOffset
      (batchRing 0 false 64).dev.hwHead = true := by decide

theorem wit_PollBatchDrainsTheFront :
    (batchRing 0 false 96).accepts .consumer = true ∧ (batchRing 0 false 96).window = [] ∧
    (batchRing 0 false 96).configured = true ∧ (batchRing 0 false 96).mode = .batch ∧
    (batchRing 0 false 96).fifo = batchA 0 false :: [] ∧
    inProgress (batchA 0 false).headOffset (batchA 0 false).tailOffset
      (batchRing 0 false 96).dev.hwHead = false ∧
    (batchRing 1 true 0).fifo = batchA 1 true :: [] ∧ (batchA 1 true).complete = true := by decide

/-- BatchAgeAnswers. -/
theorem wit_BatchAgeAnswers :
    State.reset.accepts .query = true ∧ State.reset.configured = false ∧
    (ring .batch 0 0).configured = true ∧ (ring .batch 0 0).fifo = [] ∧
    (batchRing 0 false 0).configured = true ∧ (batchRing 0 false 0).fifo = batchA 0 false :: [] := by decide

/-- An administrative command whose device is silent for `k` polls and then takes step `d`. -/
def admin (status : Word32) (k : Nat) (d : DevStep) : State :=
  { ring .slot 0 0 with
    dev := { Device.initial with adminStatus := status }, window := List.replicate (k + 2) [] ++ [[d]] }

/-- StartAcknowledged, StopAcknowledged, FlushAcknowledged: at the first and at the last poll. -/
theorem wit_StartAcknowledged : ∀ k ∈ [0, 2],
    (admin 0 k (.ackEnabled true)).accepts .admin = true ∧
    (admin 0 k (.ackEnabled true)).configured = true ∧
    k < (admin 0 k (.ackEnabled true)).cfg.pollMax ∧
    (admin 0 k (.ackEnabled true)).dev.adminStatus.getLsbD 0 = false ∧
    (admin 0 k (.ackEnabled true)).window = List.replicate (k + 2) [] ++ [[.ackEnabled true]] := by decide

theorem wit_StopAcknowledged : ∀ k ∈ [0, 2],
    (admin 1 k (.ackEnabled false)).accepts .admin = true ∧
    (admin 1 k (.ackEnabled false)).configured = true ∧
    k < (admin 1 k (.ackEnabled false)).cfg.pollMax ∧
    (admin 1 k (.ackEnabled false)).dev.adminStatus.getLsbD 0 = true ∧
    (admin 1 k (.ackEnabled false)).window = List.replicate (k + 2) [] ++ [[.ackEnabled false]] := by decide

theorem wit_FlushAcknowledged : ∀ k ∈ [0, 2],
    (admin 3 k .ackFlush).accepts .admin = true ∧ (admin 3 k .ackFlush).configured = true ∧
    k < (admin 3 k .ackFlush).cfg.pollMax ∧
    (admin 3 k .ackFlush).window = List.replicate (k + 2) [] ++ [[.ackFlush]] := by decide

/-- AdminTimesOut, AdminSucceedsAtFirstRead: ADMIN_STATUS bit 0 clear and set. -/
theorem wit_AdminTimesOut :
    (ring .slot 0 0).accepts .admin = true ∧ (ring .slot 0 0).configured = true ∧
    (ring .slot 0 0).window = [] ∧ 1 ≤ (ring .slot 0 0).cfg.pollMax ∧
    (ring .slot 0 0).dev.adminStatus.getLsbD 0 = false ∧
    { ring .slot 0 0 with dev := { Device.initial with adminStatus := 1 } }.dev.adminStatus.getLsbD 0 =
      true := by decide

/-- RdregAnswersTheRegister. -/
theorem wit_RdregAnswersTheRegister : State.reset.accepts .query = true := by decide

/-- ErrStateExactly: both sides. -/
theorem wit_ErrStateExactly :
    (let s := asked (ring .batch 0 0) 0x40000001#32 [req 1 1 1]
     s.accepts (Instr.enqueue 1).cls = true ∧ s.window = [] ∧
     errStateCase s.configured s.mode (.enqueue 1) ∧
     ((Instr.enqueue 1).cls = .producer → s.handed.length = (Instr.enqueue 1).recordCount)) ∧
    (let s := asked (ring .slot 0 0) 0x40000000#32 []
     ¬ errStateCase s.configured s.mode (.enqueue 0) ∧ isNext (exec (.enqueue 0) s) = true ∧
     reply (exec (.enqueue 0) s) = some ⟨.ok, 0, []⟩) :=
  ⟨⟨by decide, by decide, Or.inr rfl, by decide⟩,
    ⟨(by rintro (h | h) <;> cases h), by decide +kernel, by decide +kernel⟩⟩

/-- StatusesAreRaisedBy, ErrorsChangeNothing: accepted commands that end with an error, a signal and a
success. -/
theorem wit_StatusesAreRaisedBy :
    (State.reset.accepts (Instr.configure .encode .failFast .slot 1025).cls = true ∧
      State.reset.window = [] ∧
      reply (exec (.configure .encode .failFast .slot 1025) State.reset) = some ⟨.errGeometry, 0, []⟩) ∧
    ((ring .slot 0 0).accepts Instr.start.cls = true ∧ (ring .slot 0 0).window = [] ∧
      reply (exec .start (ring .slot 0 0)) = some ⟨.errTimeout, 0, []⟩) ∧
    ((ring .batch 0 0).accepts (Instr.pollBatch 1).cls = true ∧
      reply (exec (.pollBatch 1) (ring .batch 0 0)) = some ⟨.empty, 0, []⟩) ∧
    reply (exec (.pollBatch 1) (batchRing 0 true 0)) = some ⟨.ok, 1, [.compl 1 .ok 0]⟩ := by
  decide +kernel

/-- A device that was told the ring and has slot 0 to complete. -/
def working : State :=
  { ring .slot 0 1 with dev := { Device.initial with capacity := 4, doorbell := 1 } }

/-- DeviceCompletesTheNextSlot, DeviceNeverWrites: with and without work. -/
theorem wit_DeviceCompletesTheNextSlot :
    Memory.wf working.mem = true ∧ working.dev.hasWork = true ∧ 16 ≤ working.cfg.descSize ∧
    (ring .slot 0 0).dev.hasWork = false := by decide

/-- DeviceNeverClearsDone: a slot that is done. -/
theorem wit_DeviceNeverClearsDone :
    let s := withSlots working [(0, 1, 9)]
    Memory.wf s.mem = true ∧ 16 ≤ s.cfg.descSize ∧ ctrlDone (slotCtrl s.cfg s.mem 0) = true := by
  decide +kernel

/-- A device that last reported slot 3 and has completed six slots beyond it: it is at slot 1 again. -/
def lagging : State :=
  { ring .slot 0 1 with
    dev := { Device.initial with capacity := 4, devHead := 1, doorbell := 1, hwHead := 96, unreported := 6 } }

/-- DeviceReportMovesForward: a lag of more than a lap, the report of `dev_head` itself, one beyond it. -/
theorem wit_DeviceReportMovesForward :
    lagging.cfg.wf = true ∧ lagging.dev.pathInv lagging.cfg ∧ lagging.dev.capacity ≠ 0 ∧
    6 ≤ lagging.dev.unreported ∧ lagging.dev.unreported < 7 ∧ (∀ n, DevStep.readCtrl 1 ≠ .report n) :=
  ⟨by decide, fun _ => ⟨⟨2, by decide, by decide⟩, by decide, by decide, by decide, by decide, by decide⟩,
    by decide, by decide, by decide, by intro n h; cases h⟩

/-- R306: a request is acknowledged once: START and STOP once answered, bit 0 stays as it is. -/
theorem test_ack_once :
    let s := ((State.reset.writeAdminCtrl 1#32).writeAdminCtrl 2#32).devSteps
      [.ackEnabled true, .ackEnabled false]
    (s.devSteps [.ackEnabled true]).dev = s.dev ∧ s.dev.adminStatus = 0 := by decide +kernel

/-- DeviceAcksOnRequest: each bit changes, each way where there are two. -/
theorem wit_DeviceAcksOnRequest :
    (let s := (State.reset.writeAdminCtrl 1#32).writeAdminCtrl 3#32
     (s.devStep (.ackEnabled true)).dev.adminStatus.getLsbD 0 ≠ s.dev.adminStatus.getLsbD 0 ∧
     (s.devStep .ackFlush).dev.adminStatus.getLsbD 1 ≠ s.dev.adminStatus.getLsbD 1) ∧
    (let s := (admin 1 0 .ackFlush).writeAdminCtrl 2#32
     (s.devStep (.ackEnabled false)).dev.adminStatus.getLsbD 0 ≠ s.dev.adminStatus.getLsbD 0) ∧
    (2#32 : Word32) ≠ 3#32 := by decide +kernel

/-- TimeNeverGoesBack, MemoryStaysCanonical, GeometryFixedUntilReset, RingInvariantKept: a device step that
writes ring memory, and one that moves time. -/
theorem wit_MemoryStaysCanonical :
    let s := { working with agenda := [.dev (.complete true 7 [] true false), .time 5] }
    Memory.wf s.mem = true ∧ s.cfg.wf = true ∧ s.ringInv ∧ s.configured = true ∧
    s.agenda.head? ≠ some .reset ∧ ∃ t, step s = .next t :=
  ⟨by decide, by decide, ring_inv .slot 0 1 (by decide) (by decide), rfl, by decide,
    exists_next (by decide +kernel)⟩

/-- A device that has been told no ring has a sound path. -/
theorem untold_path {d : Device} {p : Params} (h : d.capacity = 0) : d.pathInv p := fun hc => absurd h hc

theorem enqueuing_inv : enqueuing.Inv := by
  refine ⟨by decide, by decide, untold_path rfl, ring_inv .slot 0 0 (by decide) (by decide),
    fun h => (by cases h),
    ⟨fun _ => rfl, by decide, by decide, (by intro b hb; cases hb), (by intro b hb; cases hb), by decide,
      fun h => (by cases h)⟩, ?_, ?_, ?_⟩
  · intro c hc
    have : c = ⟨.enqueue, 0x40000001#32, [req 1 1 1], .e5, 0, 2, 1, 1, 1, [.disp 1 .accepted]⟩ := by
      simpa [enqueuing] using hc.symm
    subst this
    refine ⟨by decide, fun _ _ => by decide, fun _ => ⟨rfl, rfl⟩, fun h => (by cases h), fun _ => by decide,
      fun _ => by decide, fun h => (by cases h), fun h => (by cases h), fun h => (by cases h),
      fun h => (by cases h)⟩
  · intro c hc; cases hc
  · intro c hc; cases hc

/-- CSEQ about to release one of two pending slots. -/
def dequeuing : State :=
  { ring .slot 0 2 with cseq := some ⟨.dequeue, 0x50000002#32, .q5, 2, 2, 1, 0, [.compl 1 .ok 0]⟩ }

theorem dequeuing_inv : dequeuing.Inv := by
  refine ⟨by decide, by decide, untold_path rfl, ring_inv .slot 0 2 (by decide) (by decide),
    fun h => (by cases h),
    ⟨fun _ => rfl, by decide, by decide, (by intro b hb; cases hb), (by intro b hb; cases hb), by decide,
      fun h => (by cases h)⟩, ?_, ?_, ?_⟩
  · intro c hc; cases hc
  · intro c hc
    have : c = ⟨.dequeue, 0x50000002#32, .q5, 2, 2, 1, 0, [.compl 1 .ok 0]⟩ := by
      simpa [dequeuing] using hc.symm
    subst this
    exact ⟨by decide, fun _ _ => ⟨rfl, rfl⟩, fun h => (by cases h), fun h => (by cases h),
      fun _ => by decide, fun h => (by simp at h), fun h => (by simp at h)⟩
  · intro c hc; cases hc

/-- CSEQ about to release the span of the front batch. -/
def polling : State :=
  { batchRing 0 false 96 with cseq := some ⟨.pollBatch, 0x70000004#32, .b5, 0, 0, 0, 96, []⟩ }

theorem polling_inv : polling.Inv := by
  refine ⟨by decide, by decide, untold_path rfl, ring_inv .batch 0 3 (by decide) (by decide),
    fun h => (by cases h), batchRing_fifoInv, ?_, ?_, ?_⟩
  · intro c hc; cases hc
  · intro c hc
    have : c = ⟨.pollBatch, 0x70000004#32, .b5, 0, 0, 0, 96, []⟩ := by simpa [polling] using hc.symm
    subst this
    exact ⟨by decide, fun h => (by cases h), fun _ _ => ⟨rfl, rfl, by decide⟩, fun h => (by cases h),
      fun h => (by simp at h), fun _ => by decide, fun h => (by simp at h)⟩
  · intro c hc; cases hc

/-- SoundStateKept, PendingReferencesMoveInOrder: PSEQ about to publish one slot. -/
theorem wit_SoundStateKept :
    enqueuing.Inv ∧ enqueuing.configured = true ∧ (∃ t, step enqueuing = .next t) ∧
    ∃ c, enqueuing.pseq = some c ∧ c.pos = .e5 :=
  ⟨enqueuing_inv, rfl, exists_next (by decide +kernel), _, rfl, rfl⟩

/-- PendingReferencesMoveInOrder: CSEQ at Q5 and at B5, and between them and at rest. -/
theorem wit_PendingReferencesMoveInOrder :
    (dequeuing.Inv ∧ dequeuing.configured = true ∧ (∀ c, dequeuing.pseq = some c → c.pos ≠ .e5) ∧
      ∃ c, dequeuing.cseq = some c ∧ c.pos = .q5) ∧
    (polling.Inv ∧ polling.configured = true ∧ polling.fifo = batchA 0 false :: [] ∧
      ∃ c, polling.cseq = some c ∧ c.pos = .b5) ∧
    (∀ c, enqueuing.cseq = some c → c.pos ≠ .q5 ∧ c.pos ≠ .b5) :=
  ⟨⟨dequeuing_inv, rfl, (by intro c h; cases h), _, rfl, rfl⟩, ⟨polling_inv, rfl, rfl, _, rfl, rfl⟩,
    by intro c h; cases h⟩

end Sys2Proof.Tests
end

/-!
What one step of each sequencer can change, said once (10_state.md R39): every frame and every invariant of
the sequencers follows from these.
-/

namespace Sys2Proof.Machine

/-! ### PSEQ -/

/-- What a step of PSEQ in context `c` may change from `s` to `t`: `frame` names the fields it may write,
the other clauses what it may write to `tail`, `shadow_tail` and the FIFO. -/
structure PChange (c : PCtx) (s t : State) : Prop where
  frame : t = { s with
    mem := t.mem, trace := t.trace, tail := t.tail, shadowTail := t.shadowTail, fifo := t.fifo
    pseq := t.pseq, dev := { s.dev with doorbell := t.dev.doorbell }, choices := t.choices }
  tail : t.tail = s.tail ∨ ∃ n, t.tail = wrapAdd s.wrapMask s.tail n
  shadowTail : t.shadowTail = s.shadowTail ∨ t.shadowTail = s.tail
  fifo : t.fifo = s.fifo ∨ (c.pos = .s4 ∧ ∃ b, t.fifo = s.fifo ++ [b])

/-- A step that writes ring memory, the trace and PSEQ's context only. -/
theorem PChange.of_local {c : PCtx} {s t : State}
    (h : t = { s with mem := t.mem, trace := t.trace, pseq := t.pseq }) : PChange c s t := by
  rw [h]
  exact ⟨rfl, .inl rfl, .inl rfl, .inl rfl⟩

theorem State.pStep_change (s : State) (c : PCtx) : PChange c s (s.pStep c) := by
  unfold State.pStep
  cases hp : c.pos <;> dsimp only
  case s1 =>
    unfold State.stepS1
    split
    · split <;> exact .of_local rfl
    · exact .of_local rfl
  case e1 =>
    split
    · unfold State.stepE1Checked
      split <;> exact .of_local rfl
    · exact .of_local rfl
  case e4 =>
    unfold State.stepE4
    dsimp only
    split <;> exact .of_local rfl
  case e5 => exact ⟨rfl, .inr ⟨_, rfl⟩, .inl rfl, .inl rfl⟩
  case e7 => exact ⟨rfl, .inl rfl, .inr rfl, .inl rfl⟩
  case s3 =>
    unfold State.stepS3
    split <;> exact .of_local rfl
  case s4 => exact ⟨rfl, .inl rfl, .inl rfl, .inr ⟨hp, _, rfl⟩⟩
  case e2 | e6 | e8 => exact .of_local rfl

theorem State.pseqStep_change (s : State) :
    s.pseqStep = s ∨ ∃ c, s.pseq = some c ∧ PChange c s s.pseqStep := by
  cases h : s.pseq with
  | none => exact .inl (State.pseqStep_idle h)
  | some c => exact .inr ⟨c, rfl, by rw [State.pseqStep_running h]; exact s.pStep_change c⟩

/-! ### CSEQ -/

/-- What a step of CSEQ in context `c` may change from `s` to `t`. -/
structure CChange (c : CCtx) (s t : State) : Prop where
  frame : t = { s with trace := t.trace, head := t.head, fifo := t.fifo, cseq := t.cseq }
  head : t.head = s.head ∨ ∃ n, t.head = wrapAdd s.wrapMask s.head n
  fifo : t.fifo = s.fifo ∨ ((c.pos = .b5 ∨ c.pos = .b6 ∨ c.pos = .b7) ∧
    (t.fifo = s.fifo.tail ∨ ∃ b rest latch count, s.fifo = b :: rest ∧
      t.fifo = { b with complete := latch, consumed := count } :: rest))

/-- A step that writes the trace and CSEQ's context only. -/
theorem CChange.of_local {c : CCtx} {s t : State}
    (h : t = { s with trace := t.trace, cseq := t.cseq }) : CChange c s t := by
  rw [h]
  exact ⟨rfl, .inl rfl, .inl rfl⟩

/-- Accesses that change no byte leave the trace only. -/
theorem State.setBus_of_mem {s : State} {b : Bus} (h : b.mem = s.mem) : s.setBus b = s.setTrace b.trace := by
  unfold State.setBus
  rw [h]
  rfl

@[simp] theorem scanDone_mem (p : Params) (mask head : Idx) (n i : Nat) (b : Bus) :
    (scanDone p mask head n i b).2.mem = b.mem := by
  obtain ⟨_, -, -, h, -⟩ := scanDone_spec p mask head n i b
  rw [h]

@[simp] theorem extract_mem (p : Params) (mask head : Idx) (n i : Nat) (b : Bus) :
    (extract p mask head n i b).2.mem = b.mem := by
  rw [(extract_spec p mask head n i b).2]

theorem State.withFront_change {s : State} {c : CCtx} {f : Batch → List Batch → State}
    (h : ∀ b rest, s.fifo = b :: rest → CChange c s (f b rest)) : CChange c s (s.withFront c f) := by
  unfold State.withFront
  split
  · exact .of_local rfl
  · exact h _ _ (by assumption)

theorem State.cStep_change (s : State) (c : CCtx) : CChange c s (s.cStep c) := by
  unfold State.cStep
  cases hp : c.pos <;> dsimp only
  case q1 =>
    unfold State.stepQ1
    split <;> exact .of_local rfl
  case q2 =>
    unfold State.stepQ2
    dsimp only
    rw [State.setBus_of_mem (scanDone_mem (b := s.bus) ..)]
    exact .of_local rfl
  case q4 =>
    unfold State.stepQ4
    dsimp only
    rw [State.setBus_of_mem (extract_mem (b := s.bus) ..)]
    exact .of_local rfl
  case q5 => exact ⟨rfl, .inr ⟨_, rfl⟩, .inl rfl⟩
  case b1 =>
    unfold State.stepB1
    split
    · split <;> exact .of_local rfl
    · exact .of_local rfl
  case b2 => exact State.withFront_change fun b rest _ => .of_local rfl
  case b4 =>
    refine State.withFront_change fun b rest _ => ?_
    unfold State.stepB4
    split <;> exact .of_local rfl
  case b5 =>
    exact State.withFront_change fun b rest h =>
      ⟨rfl, .inr ⟨_, rfl⟩, .inr ⟨.inl hp, .inr ⟨b, rest, true, b.consumed, h, rfl⟩⟩⟩
  case b6 =>
    exact State.withFront_change fun b rest h =>
      ⟨rfl, .inl rfl, .inr ⟨.inr (.inl hp), .inr ⟨b, rest, b.complete, _, h, rfl⟩⟩⟩
  case b7 =>
    refine State.withFront_change fun b rest h => ?_
    unfold State.stepB7
    dsimp only
    split
    · exact ⟨rfl, .inl rfl, .inr ⟨.inr (.inr hp), .inl (by rw [h]; rfl)⟩⟩
    · exact .of_local rfl
  case q3 | q6 | b3 => exact .of_local rfl

theorem State.cseqStep_change (s : State) :
    s.cseqStep = s ∨ ∃ c, s.cseq = some c ∧ CChange c s s.cseqStep := by
  cases h : s.cseq with
  | none => exact .inl (State.cseqStep_idle h)
  | some c => exact .inr ⟨c, rfl, by rw [State.cseqStep_running h]; exact s.cStep_change c⟩

/-! ### ASEQ -/

/-- What a step of ASEQ that constructs no ring may change from `s` to `t`. -/
structure AChange (s t : State) : Prop where
  frame : t = { s with enabled := t.enabled, aseq := t.aseq, dev := t.dev, trace := t.trace }
  dev : t.dev = s.dev ∨ ∃ code, t.dev = s.dev.admin code

/-- The step of CONFIGURE that constructs a ring (40_geometry_config.md R155). -/
def Constructs (c : ACtx) (s t : State) : Prop :=
  s.configured = false ∧ ∃ k p m requested cap, c.op = .configure k p m requested ∧
    ringSize requested.toNat s.cfg.capMax = some cap ∧
    t = (s.constructRing k p m cap).respondA c.word ⟨.ok, BitVec.ofNat 24 cap, []⟩

theorem State.stepA1_change (s : State) (c : ACtx) {k : Kind} {p : Policy} {m : Mode} {r : Idx}
    (h : c.op = .configure k p m r) :
    AChange s (s.stepA1 c k p m r) ∨ Constructs c s (s.stepA1 c k p m r) := by
  unfold State.stepA1
  split
  · exact .inl ⟨rfl, .inl rfl⟩
  next hc =>
    split
    · exact .inl ⟨rfl, .inl rfl⟩
    next cap hr => exact .inr ⟨by simpa using hc, k, p, m, r, cap, h, hr, rfl⟩

theorem State.stepAdminCheck_change (s : State) (c : ACtx) : AChange s (s.stepAdminCheck c) := by
  unfold State.stepAdminCheck
  split <;> exact ⟨rfl, .inl rfl⟩

theorem State.stepAdminWrite_change (s : State) (c : ACtx) : AChange s (s.stepAdminWrite c) :=
  ⟨rfl, .inr ⟨_, rfl⟩⟩

theorem State.stepAdminPoll_change (s : State) (c : ACtx) : AChange s (s.stepAdminPoll c) := by
  unfold State.stepAdminPoll
  dsimp only
  split <;> exact ⟨rfl, .inl rfl⟩

theorem State.stepAdminExpire_change (s : State) (c : ACtx) : AChange s (s.stepAdminExpire c) :=
  ⟨rfl, .inl rfl⟩

theorem State.aStep_change (s : State) (c : ACtx) : AChange s (s.aStep c) ∨ Constructs c s (s.aStep c) := by
  unfold State.aStep
  cases c.pos <;> dsimp only
  case check =>
    split
    next h => exact s.stepA1_change c h
    all_goals exact .inl (s.stepAdminCheck_change c)
  case write => exact .inl (s.stepAdminWrite_change c)
  case poll => exact .inl (s.stepAdminPoll_change c)
  case expire => exact .inl (s.stepAdminExpire_change c)

theorem State.aseqStep_change (s : State) :
    s.aseqStep = s ∨ ∃ c, s.aseq = some c ∧ (AChange s s.aseqStep ∨ Constructs c s s.aseqStep) := by
  cases h : s.aseq with
  | none => exact .inl (State.aseqStep_idle h)
  | some c => exact .inr ⟨c, rfl, by rw [State.aseqStep_running h]; exact s.aStep_change c⟩

/-- A request written to ADMIN_CTRL leaves DOORBELL as it is (46_actors.md R306). -/
@[simp] theorem Device.admin_doorbell (d : Device) (code : Word32) : (d.admin code).doorbell = d.doorbell := by
  unfold Device.admin
  dsimp only
  split
  · rfl
  · split
    · rfl
    · split <;> rfl

theorem AChange.doorbell {s t : State} (h : AChange s t) : t.dev.doorbell = s.dev.doorbell := by
  obtain e | ⟨code, e⟩ := h.dev <;> rw [e]
  exact Device.admin_doorbell ..

/-! ### Ownership (10_state.md R39) -/

theorem PChange.owned {c : PCtx} {s t : State} (h : PChange c s t) :
    t.head = s.head ∧ t.enabled = s.enabled ∧ t.configured = s.configured ∧ t.capacity = s.capacity ∧
    t.wrapMask = s.wrapMask ∧ t.mode = s.mode ∧ t.policy = s.policy ∧ t.kind = s.kind ∧
    ∃ l, t.fifo = s.fifo ++ l := by
  have hl : ∃ l, t.fifo = s.fifo ++ l := by
    obtain e | ⟨-, b, e⟩ := h.fifo
    · exact ⟨[], by rw [e, List.append_nil]⟩
    · exact ⟨[b], e⟩
  refine ⟨?_, ?_, ?_, ?_, ?_, ?_, ?_, ?_, hl⟩ <;> rw [h.frame]

theorem CChange.owned {c : CCtx} {s t : State} (h : CChange c s t) :
    t.tail = s.tail ∧ t.shadowTail = s.shadowTail ∧ t.enabled = s.enabled ∧ t.configured = s.configured ∧
    t.capacity = s.capacity ∧ t.wrapMask = s.wrapMask ∧ t.mode = s.mode ∧ t.policy = s.policy ∧
    t.kind = s.kind ∧ t.mem = s.mem ∧ t.dev = s.dev ∧
    (t.fifo = s.fifo ∨ t.fifo = s.fifo.tail ∨
      ∃ b rest latch count, s.fifo = b :: rest ∧
        t.fifo = { b with complete := latch, consumed := count } :: rest) := by
  have hl := h.fifo.imp_right And.right
  refine ⟨?_, ?_, ?_, ?_, ?_, ?_, ?_, ?_, ?_, ?_, ?_, hl⟩ <;> rw [h.frame]

theorem AChange.owned {s t : State} (h : AChange s t) :
    t.mem = s.mem ∧ t.dev.doorbell = s.dev.doorbell ∧ t.head = s.head ∧ t.tail = s.tail ∧
    t.shadowTail = s.shadowTail ∧ t.fifo = s.fifo ∧ t.capacity = s.capacity ∧ t.wrapMask = s.wrapMask ∧
    t.mode = s.mode ∧ t.policy = s.policy ∧ t.kind = s.kind ∧ t.configured = s.configured := by
  refine ⟨?_, h.doorbell, ?_, ?_, ?_, ?_, ?_, ?_, ?_, ?_, ?_, ?_⟩ <;> rw [h.frame]

/-- Settles O59: each sequencer's change of the state names what it owns. -/
theorem sequencersOwnTheirRegisters : Obligations.SequencersOwnTheirRegisters := by
  refine ⟨fun s => ?_, fun s => ?_, fun s => ?_⟩
  · obtain e | ⟨c, -, h⟩ := s.pseqStep_change
    · simp [e]
    · exact h.owned
  · obtain e | ⟨c, -, h⟩ := s.cseqStep_change
    · simp [e]
    · exact h.owned
  · obtain e | ⟨c, -, h | ⟨hc, k, p, m, r, cap, -, -, e⟩⟩ := s.aseqStep_change
    · simp [e]
    · obtain ⟨hmem, hdb, hring⟩ := h.owned
      exact ⟨hmem, hdb, fun hc => hc ▸ hring⟩
    · intro t
      simp [t, e, hc, State.constructRing]

end Sys2Proof.Machine

/-!
The ring invariant (10_state.md R38): every elementary change keeps it, and on a sound ring the free and the
pending count add up.
-/

namespace Sys2Proof.Machine

/-! ### The parameters and the geometry CONFIGURE constructs -/

/-- What the bounds of R9 and R10 say of a sound choice of parameters. -/
theorem Params.wf_bounds {p : Params} (h : p.wf = true) :
    p.capMax ≤ 2 ^ 23 ∧ 16 ≤ p.descSize ∧ p.capMax * p.descSize ≤ 2 ^ 32 ∧ p.poolSize ≤ 2 ^ 16 := by
  simp only [Params.wf, Bool.and_eq_true, decide_eq_true_eq] at h
  omega

/-- A capacity `RingSize` answers is a power of two within `CAP_MAX` (40_geometry_config.md R150). -/
theorem ringSize_pow {requested capMax cap : Nat} (hmax : capMax ≤ 2 ^ 23)
    (h : ringSize requested capMax = some cap) : ∃ k, k < 24 ∧ cap = 2 ^ k ∧ cap ≤ capMax := by
  obtain ⟨k, hk, -⟩ := ringSizeFrom_pow requested 24 0
  have hk : ringSizeFrom requested 24 1 = 2 ^ (0 + k) := hk
  simp only [ringSize, hk, Nat.zero_add] at h
  split at h
  · cases h
  next hle =>
    cases h
    have : 2 ^ k ≤ 2 ^ 23 := by omega
    have := (Nat.pow_le_pow_iff_right (by omega : 1 < 2)).1 this
    exact ⟨k, by omega, rfl, by omega⟩

/-- The geometry registers of a ring of `2 ^ k` slots (40_geometry_config.md R155). -/
theorem geometry_of_pow {k : Nat} (hk : k < 24) :
    (BitVec.ofNat 24 (2 ^ k)).toNat = 2 ^ k ∧
    BitVec.ofNat 24 (2 ^ k - 1) = BitVec.ofNat 24 (2 ^ k) - 1 := by
  have hlt : 2 ^ k < 2 ^ 24 := Nat.pow_lt_pow_right (by omega) hk
  have hc : (BitVec.ofNat 24 (2 ^ k)).toNat = 2 ^ k := by rw [BitVec.toNat_ofNat, Nat.mod_eq_of_lt hlt]
  refine ⟨hc, BitVec.eq_of_toNat_eq ?_⟩
  rw [mask_toNat hc, BitVec.toNat_ofNat, Nat.mod_eq_of_lt (by omega)]

/-- The construction of a ring as one update. -/
theorem State.constructRing_eq (s : State) (k : Kind) (p : Policy) (m : Mode) (c : Nat) :
    s.constructRing k p m c = { s with
      configured := true, enabled := false, mode := m, policy := p, kind := k
      capacity := BitVec.ofNat 24 c, wrapMask := BitVec.ofNat 24 (c - 1)
      head := 0, tail := 0, shadowTail := 0, fifo := [] } := by
  simp only [State.constructRing, State.setGeometry, State.setHead, State.setTail, State.setShadowTail,
    State.setOptions, State.setEnabled, State.setConfigured, State.setFifo]

/-- The reset input as one update. -/
theorem State.applyReset_eq (s : State) : s.applyReset = { s with
    configured := false, enabled := false, mode := .slot, policy := .failFast, kind := .encode
    capacity := 0, wrapMask := 0, head := 0, tail := 0, shadowTail := 0, fifo := []
    pseq := none, cseq := none, aseq := none, window := [], trace := .reset :: s.trace } := by
  simp only [State.applyReset, State.setGeometry, State.setHead, State.setTail, State.setShadowTail,
    State.setOptions, State.setEnabled, State.setConfigured, State.setFifo, State.setPseq, State.setCseq,
    State.setAseq, State.setWindow, State.log, State.setTrace]

/-! ### Sound rings -/

/-- A constructed ring with its exponent: the form the laws of masked arithmetic ask for. -/
theorem State.ringInv_pow {s : State} (h : s.ringInv) (hc : s.configured = true) :
    ∃ k, k < 24 ∧ s.capacity.toNat = 2 ^ k ∧ s.wrapMask = s.capacity - 1 ∧
      s.head.toNat < 2 ^ k ∧ s.tail.toNat < 2 ^ k := by
  obtain ⟨⟨k, hk, hcap⟩, -, hmask, hhead, htail, -⟩ := h hc
  exact ⟨k, hk, hcap, hmask, hcap ▸ hhead, hcap ▸ htail⟩

/-- The indexes may be moved to any slot of the ring. -/
theorem ringInv_of_indexes {s t : State} (h : s.ringInv) (hcfg : t.cfg = s.cfg)
    (hconf : t.configured = s.configured) (hcap : t.capacity = s.capacity) (hmask : t.wrapMask = s.wrapMask)
    (hhead : t.head = s.head ∨ ∃ n, t.head = wrapAdd s.wrapMask s.head n)
    (htail : t.tail = s.tail ∨ ∃ n, t.tail = wrapAdd s.wrapMask s.tail n)
    (hshadow : t.shadowTail = s.shadowTail ∨ t.shadowTail = s.tail) : t.ringInv := by
  intro hc
  obtain ⟨⟨k, hk, hpow⟩, hmax, hm, h1, h2, h3⟩ := h (hconf ▸ hc)
  have hlt (x : Idx) (n : Nat) : (wrapAdd s.wrapMask x n).toNat < s.capacity.toNat := by
    rw [hm]
    exact wrapAdd_lt x n hk hpow
  rw [hcap, hmask, hcfg]
  refine ⟨⟨k, hk, hpow⟩, hmax, hm, ?_, ?_, ?_⟩
  · obtain e | ⟨n, e⟩ := hhead <;> rw [e]
    · exact h1
    · exact hlt _ n
  · obtain e | ⟨n, e⟩ := htail <;> rw [e]
    · exact h2
    · exact hlt _ n
  · obtain e | e := hshadow <;> rw [e]
    · exact h3
    · exact h2

theorem PChange.ringInv {c : PCtx} {s t : State} (h : PChange c s t) (hr : s.ringInv) : t.ringInv :=
  ringInv_of_indexes hr (by rw [h.frame]) (by rw [h.frame]) (by rw [h.frame]) (by rw [h.frame])
    (.inl (by rw [h.frame])) h.tail h.shadowTail

theorem CChange.ringInv {c : CCtx} {s t : State} (h : CChange c s t) (hr : s.ringInv) : t.ringInv :=
  ringInv_of_indexes hr (by rw [h.frame]) (by rw [h.frame]) (by rw [h.frame]) (by rw [h.frame])
    h.head (.inl (by rw [h.frame])) (.inl (by rw [h.frame]))

theorem AChange.ringInv {s t : State} (h : AChange s t) (hr : s.ringInv) : t.ringInv := by
  rw [h.frame]
  exact hr

/-- A newly constructed ring is sound (10_state.md R38). -/
theorem Constructs.ringInv {c : ACtx} {s t : State} (h : Constructs c s t) (hp : s.cfg.wf = true) :
    t.ringInv := by
  obtain ⟨-, kind, p, m, r, cap, -, hcap, rfl⟩ := h
  obtain ⟨k, hk, rfl, hle⟩ := ringSize_pow (Params.wf_bounds hp).1 hcap
  obtain ⟨hc, hm⟩ := geometry_of_pow hk
  have hpos : (0 : Idx).toNat < (BitVec.ofNat 24 (2 ^ k)).toNat := by
    rw [hc]
    exact Nat.two_pow_pos k
  rw [State.constructRing_eq]
  exact fun _ => ⟨⟨k, hk, hc⟩, Nat.le_trans (Nat.le_of_eq hc) hle, hm, hpos, hpos, hpos⟩

/-- Sound parameters and the ring invariant: what O55 asks every step to keep. -/
def State.ringWf (s : State) : Prop := s.cfg.wf = true ∧ s.ringInv

theorem devStep_ringWf (s : State) (d : DevStep) (h : s.ringWf) : (s.devStep d).ringWf := by
  obtain ⟨m, tr, v, e, -⟩ := s.devStep_eq d
  rw [e]
  exact h

theorem programDevice_ringWf (s : State) (h : s.ringWf) : s.programDevice.ringWf := by
  unfold State.programDevice
  split <;> exact h

theorem pseqStep_ringWf (s : State) (h : s.ringWf) : s.pseqStep.ringWf := by
  obtain e | ⟨c, -, hch⟩ := s.pseqStep_change
  · rwa [e]
  · exact ⟨by rw [hch.frame]; exact h.1, hch.ringInv h.2⟩

theorem cseqStep_ringWf (s : State) (h : s.ringWf) : s.cseqStep.ringWf := by
  obtain e | ⟨c, -, hch⟩ := s.cseqStep_change
  · rwa [e]
  · exact ⟨by rw [hch.frame]; exact h.1, hch.ringInv h.2⟩

theorem aseqStep_ringWf (s : State) (h : s.ringWf) : s.aseqStep.ringWf := by
  obtain e | ⟨c, -, hch | hch⟩ := s.aseqStep_change
  · rwa [e]
  · exact ⟨by rw [hch.frame]; exact h.1, hch.ringInv h.2⟩
  · refine ⟨?_, hch.ringInv h.1⟩
    obtain ⟨-, _, _, _, _, _, -, -, e⟩ := hch
    rw [e, State.constructRing_eq]
    exact h.1

theorem applyReset_ringWf (s : State) (h : s.ringWf) : s.applyReset.ringWf := by
  rw [State.applyReset_eq]
  exact ⟨h.1, fun hc => nomatch hc⟩

theorem ringWf_kept : Kept State.ringWf where
  port _ _ h := h
  agenda _ _ h := h
  window _ _ h := h
  now _ _ _ h := h
  respond _ _ _ h := h
  dev := devStep_ringWf
  program := programDevice_ringWf
  startP _ _ _ _ _ _ _ h := h
  startC _ _ _ _ _ h := h
  startA _ _ _ _ _ _ h := h
  pseq := pseqStep_ringWf
  cseq := cseqStep_ringWf
  aseq := aseqStep_ringWf

/-- Settles O55, by the induction over all transitions; after reset there is no ring to speak of. -/
theorem ringInvariantKept : Obligations.RingInvariantKept := fun _ _ hp hr ht =>
  (step_keeps ringWf_kept applyReset_ringWf ⟨hp, hr⟩ ht).2

/-! ### The two counts of a sound ring (41_capacity.md R170, R172, R178) -/

/-- On a sound ring the free and the pending count add up to `capacity - 1`. -/
theorem State.free_add_pending {s : State} (h : s.ringInv) (hc : s.configured = true) :
    s.free + s.pending = s.capacity.toNat - 1 := by
  obtain ⟨k, hk, hcap, hm, hhead, htail⟩ := s.ringInv_pow h hc
  rw [State.free, State.pending, hm, wrapSub_toNat hk hcap htail hhead, freeCount, hcap]
  split <;> split <;> omega

/-- Publishing `n` free slots raises the pending count by `n`. -/
theorem pending_advance_tail {s t : State} {n : Nat} (h : s.ringInv) (hc : s.configured = true)
    (hn : n ≤ s.free) (hmask : t.wrapMask = s.wrapMask) (hhead : t.head = s.head)
    (htail : t.tail = wrapAdd s.wrapMask s.tail n) : t.pending = s.pending + n := by
  have hsum := State.free_add_pending h hc
  obtain ⟨k, hk, hcap, hm, hlt, htl⟩ := s.ringInv_pow h hc
  have hpos := Nat.two_pow_pos k
  rw [State.pending, hmask, hhead, htail, hm]
  rw [State.pending, hm] at hsum ⊢
  exact wrapSub_wrapAdd_left hk hcap htl hlt (by omega)

/-- Releasing `n` pending slots lowers the pending count by `n`. -/
theorem pending_advance_head {s t : State} {n : Nat} (h : s.ringInv) (hc : s.configured = true)
    (hn : n ≤ s.pending) (hmask : t.wrapMask = s.wrapMask) (htail : t.tail = s.tail)
    (hhead : t.head = wrapAdd s.wrapMask s.head n) : t.pending = s.pending - n := by
  obtain ⟨k, hk, hcap, hm, hlt, htl⟩ := s.ringInv_pow h hc
  rw [State.pending, hmask, hhead, htail, hm]
  rw [State.pending, hm] at hn ⊢
  exact wrapSub_wrapAdd_right hk hcap htl hlt hn

end Sys2Proof.Machine

/-!
A sound state stays sound (10_state.md R38, R44 to R47): the device's ring path, and what the two ring
sequencers share when they change the ring.
-/

namespace Sys2Proof.Machine

/-! ### The device's ring path (46_actors.md R305) -/

/-- Completing a slot moves `dev_head` and the lag on together. -/
theorem Device.pathInv_advance {d : Device} {p : Params} (h : d.pathInv p) (b : Bool) :
    Device.pathInv { d with
      devHead := wrapAdd d.mask d.devHead 1, statusWritten := b, unreported := d.unreported + 1 } p := by
  intro hc
  obtain ⟨⟨k, hk, hcap⟩, hmax, -, hrep, hhw, hhead⟩ := h hc
  refine ⟨⟨k, hk, hcap⟩, hmax, wrapAdd_lt _ _ hk hcap, hrep, hhw, ?_⟩
  calc wrapAdd d.mask d.devHead 1
      = wrapAdd d.mask (wrapAdd d.mask (d.reported p) d.unreported) 1 := by rw [← hhead]
    _ = wrapAdd d.mask (d.reported p) (d.unreported + 1) := wrapAdd_wrapAdd _ _ _ hk hcap

/-- A report moves the reported head up to `dev_head` at most and shortens the lag by as much. -/
theorem Device.pathInv_report {d : Device} {p : Params} {n : Nat} (hp : p.wf = true) (h : d.pathInv p)
    (hn : n ≤ d.unreported) :
    Device.pathInv { d with
      hwHead := byteOffset p (d.reportedAfter p n), unreported := d.unreported - n } p := by
  intro hc
  obtain ⟨⟨k, hk, hcap⟩, hmax, hlt, -, -, hhead⟩ := h hc
  have hj : (d.reportedAfter p n).toNat < d.capacity.toNat := wrapAdd_lt _ _ hk hcap
  have hrep : Device.reported { d with
      hwHead := byteOffset p (d.reportedAfter p n), unreported := d.unreported - n } p =
      d.reportedAfter p n := Device.reported_of_byteOffset hp (Nat.lt_of_lt_of_le hj hmax) rfl
  rw [hrep]
  refine ⟨⟨k, hk, hcap⟩, hmax, hlt, hj, rfl, ?_⟩
  calc d.devHead = wrapAdd d.mask (d.reported p) (n + (d.unreported - n)) := by
        rw [Nat.add_sub_cancel' hn]; exact hhead
    _ = wrapAdd d.mask (d.reportedAfter p n) (d.unreported - n) := (wrapAdd_wrapAdd _ _ _ hk hcap).symm

theorem State.devSignal_dev (s : State) (n irq : Bool) (j : Idx) : (s.devSignal n irq j).dev = s.dev := by
  unfold State.devSignal
  split <;> rfl

theorem State.devWriteSlot_dev (s : State) (h : HwStat) (n e d : Bool) (r : List Byte) :
    (s.devWriteSlot h n e d r).dev = s.dev := State.setBus_dev _ _

theorem State.devAdvance_dev (s : State) : s.devAdvance.dev = { s.dev with
    devHead := wrapAdd s.dev.mask s.dev.devHead 1, statusWritten := false
    unreported := s.dev.unreported + 1 } := rfl

/-- A device step keeps the ring path. -/
theorem State.devStep_pathInv {s : State} (d : DevStep) (hp : s.cfg.wf = true) (h : s.dev.pathInv s.cfg) :
    (s.devStep d).dev.pathInv s.cfg := by
  unfold State.devStep
  cases d <;> dsimp only
  case readCtrl | readPayload => split <;> exact h
  case complete =>
    split
    · rw [State.devSignal_dev, State.devAdvance_dev, State.devWriteSlot_dev]
      exact Device.pathInv_advance h false
    · exact h
  case writeStatus =>
    split
    · rw [State.setDev_dev, State.devWriteSlot_dev]
      exact h
    · exact h
  case setDone =>
    split
    · rw [State.devSignal_dev, State.devAdvance_dev, State.devWriteSlot_dev]
      exact Device.pathInv_advance h false
    · exact h
  case report n =>
    split
    next hn =>
      simp only [Device.mayReport, Bool.and_eq_true, decide_eq_true_eq] at hn
      exact Device.pathInv_report hp h hn.2
    · exact h
  case ackEnabled b => cases b <;> dsimp only <;> split <;> exact h
  case ackFlush => split <;> exact h

theorem devStep_inv (s : State) (d : DevStep) (h : s.Inv) : (s.devStep d).Inv := by
  obtain ⟨hp, hm, hd, hrest⟩ := h
  have hm' := State.devStep_wf d hm
  have hd' := State.devStep_pathInv d hp hd
  obtain ⟨m, tr, v, e, -⟩ := s.devStep_eq d
  rw [e] at hm' hd' ⊢
  exact ⟨hp, hm', hd', hrest⟩

/-- A device told a sound ring and brought to slot 0 is on its ring path (70_reset_and_hazards.md R377). -/
theorem programDevice_inv (s : State) (h : s.Inv) : s.programDevice.Inv := by
  unfold State.programDevice
  split
  next hc =>
    obtain ⟨hp, hm, -, hr, hrest⟩ := h
    refine ⟨hp, hm, fun _ => ?_, hr, hrest⟩
    simp only [Bool.and_eq_true, beq_iff_eq] at hc
    obtain ⟨⟨⟨⟨hconf, -⟩, -⟩, -⟩, -⟩ := hc
    obtain ⟨⟨k, hk, hcap⟩, hmax, -⟩ := hr hconf
    have hpos := Nat.two_pow_pos k
    have hzero : (0 : Idx).toNat < s.capacity.toNat := hcap ▸ hpos
    have hrep : Device.reported { s.dev with
        capacity := s.capacity, devHead := 0, doorbell := 0, hwHead := 0, statusWritten := false
        unreported := 0 } s.cfg = 0 := by simp [Device.reported]
    simp only [State.setDev_dev, State.setDev_cfg, hrep]
    exact ⟨⟨k, hk, hcap⟩, hmax, hzero, hzero, by simp [byteOffset], (wrapAdd_zero hk hcap hzero).symm⟩
  · exact h

/-! ### Parts of a sound state -/

theorem memWf_of_inv {s : State} (h : s.Inv) : Memory.wf s.mem = true := by
  obtain ⟨-, hm, -⟩ := h
  exact hm

theorem seqInv_of_inv {s : State} (h : s.Inv) : s.seqInv := by
  obtain ⟨-, -, -, -, -, -, hseq⟩ := h
  exact hseq

/-! ### What PSEQ has published and not yet pushed -/

/-- The positions of SUBMIT_BATCH between E5 and S4. -/
def PPos.published : PPos → Bool
  | .e6 | .e7 | .s3 | .s4 => true
  | .s1 | .e1 | .e2 | .e4 | .e5 | .e8 => false

/-- The context is of a SUBMIT_BATCH whose slots are published and whose batch is not yet pushed. -/
def PCtx.owes (c : PCtx) : Bool := c.op == .submitBatch && c.pos.published

theorem unpushed_eq {s : State} {c : PCtx} (h : s.pseq = some c) :
    s.unpushed = if c.owes then c.written else 0 := by
  rw [unpushed_running h, PCtx.owes]
  cases c.op <;> cases c.pos <;> rfl

theorem spansEnd_eq {s : State} {c : PCtx} (h : s.pseq = some c) :
    s.spansEnd = if c.owes then c.oldTail else s.tail := by
  rw [spansEnd_running h, PCtx.owes]
  cases c.op <;> cases c.pos <;> rfl

/-! ### A step that keeps the FIFO -/

/-- The FIFO invariant follows the ring when the pending count and the published slots rise together. -/
theorem fifoInv_of_account {s t : State} (h : s.fifoInv) (hmode : t.mode = s.mode) (hcfg : t.cfg = s.cfg)
    (hfifo : t.fifo = s.fifo) (hcap : t.capacity = s.capacity) (hmask : t.wrapMask = s.wrapMask)
    (hhead : t.head = s.head)
    (hacc : s.mode = .batch → t.pending + s.unpushed = s.pending + t.unpushed ∧ t.spansEnd = s.spansEnd) :
    t.fifoInv := by
  obtain ⟨f1, f2, f3, f4, f5, f6, f7⟩ := h
  unfold State.fifoInv
  rw [hmode, hcfg, hfifo, hcap, hmask, hhead]
  refine ⟨f1, f2, f3, f4, f5, f6, fun hm => ?_⟩
  obtain ⟨a, b⟩ := f7 hm
  obtain ⟨c, d⟩ := hacc hm
  exact ⟨by omega, d ▸ b⟩

/-! ### A step of PSEQ -/

/-- Past step B1 of POLL_BATCH. -/
theorem COp.passes_pollBatch {op : COp} {pos : CPos} (h : op.passes pos = true)
    (hp : pos ∈ [CPos.b3, .b4, .b5, .b6, .b7]) : op = .pollBatch ∧ pos ≠ .b1 := by
  cases op with
  | dequeue => cases pos <;> simp [COp.passes] at h hp
  | pollBatch => exact ⟨rfl, fun e => by simp [e] at hp⟩

/-- CSEQ's context stays sound while PSEQ publishes slots and pushes batches. -/
theorem cctxInv_of_produce {s t : State} {c : CCtx} {l : List Batch} (h : s.cctxInv c)
    (hconf : t.configured = s.configured) (hmode : t.mode = s.mode) (hpend : s.pending ≤ t.pending)
    (hfifo : t.fifo = s.fifo ++ l) : t.cctxInv c := by
  obtain ⟨q1, q2, q3, q4, q5, q6, q7⟩ := h
  have hfront (ho : c.op = .pollBatch) (hp : c.pos ≠ .b1) : s.fifo ≠ [] := by
    obtain ⟨-, -, hne⟩ := q3 ho hp
    exact hne
  have hhead (ho : c.op = .pollBatch) (hp : c.pos ≠ .b1) : t.fifo.head? = s.fifo.head? := by
    rw [hfifo]
    exact List.head?_append_of_ne_nil _ (hfront ho hp)
  refine ⟨q1, ?_, ?_, fun hp => Nat.le_trans (q4 hp) hpend, fun hp => Nat.le_trans (q5 hp) hpend, ?_, ?_⟩
  · rw [hconf, hmode]
    exact q2
  · rw [hconf, hmode, hfifo]
    intro ho hp
    obtain ⟨hc, hm, hne⟩ := q3 ho hp
    exact ⟨hc, hm, by simp [hne]⟩
  · intro hp
    obtain ⟨ho, hb⟩ := COp.passes_pollBatch q1 (by rcases hp with e | e | e <;> simp [e])
    rw [hhead ho hb]
    exact q6 hp
  · intro hp
    obtain ⟨ho, hb⟩ := COp.passes_pollBatch q1 (by rcases hp with e | e <;> simp [e])
    rw [hhead ho hb]
    exact q7 hp

/-- A step of PSEQ keeps a sound state sound where it keeps ring memory canonical, takes no pending slot
away, and leaves the FIFO and its own context sound. -/
theorem PChange.inv {c : PCtx} {s t : State} (hch : PChange c s t) (h : s.Inv) (hs : s.pseq = some c)
    (hconf : s.configured = true) (hmem : Memory.wf t.mem = true) (hpend : s.pending ≤ t.pending)
    (hfifo : t.fifoInv) (hctx : ∀ c' ∈ t.pseq, t.pctxInv c') : t.Inv := by
  obtain ⟨hp, -, hd, hr, -, -, hseq⟩ := h
  have ha := aseq_none_of_pseq hseq hs
  obtain ⟨-, hcseq, -⟩ := hseq
  obtain ⟨-, -, -, -, -, -, -, -, l, hl⟩ := hch.owned
  refine ⟨by rw [hch.frame]; exact hp, hmem, by rw [hch.frame]; exact hd, hch.ringInv hr, ?_, hfifo,
    hctx, ?_, ?_⟩
  · rw [hch.frame]
    exact fun hn => absurd (hconf.symm.trans hn) (by decide)
  · intro c' hc'
    rw [hch.frame] at hc'
    exact cctxInv_of_produce (hcseq c' hc') (by rw [hch.frame]) (by rw [hch.frame]) hpend hl
  · intro a haa
    rw [hch.frame] at haa
    simp [ha] at haa

theorem PChange.fifoInv {c : PCtx} {s t : State} (hch : PChange c s t) (h : s.fifoInv)
    (hfifo : t.fifo = s.fifo)
    (hacc : s.mode = .batch → t.pending + s.unpushed = s.pending + t.unpushed ∧ t.spansEnd = s.spansEnd) :
    t.fifoInv :=
  fifoInv_of_account h (by rw [hch.frame]) (by rw [hch.frame]) hfifo (by rw [hch.frame])
    (by rw [hch.frame]) (by rw [hch.frame]) hacc

end Sys2Proof.Machine

/-!
The batch pool (10_state.md R45) and the steps of PSEQ on a sound state (42_submission.md R190, 44_batch.md
R233).
-/

namespace Sys2Proof.Machine

/-! ### The pool -/

theorem State.mem_freeBids {s : State} {k : Nat} :
    k ∈ s.freeBids ↔ k < s.cfg.poolSize ∧ ∀ b ∈ s.fifo, b.bid.toNat ≠ k := by
  simp [State.freeBids]

/-- With fewer batches than records, some record is free. -/
theorem State.freeBids_ne_nil {s : State} (h : s.fifo.length < s.cfg.poolSize) : s.freeBids ≠ [] := by
  intro hnil
  have hsub : List.range s.cfg.poolSize ⊆ s.fifo.map (fun b => b.bid.toNat) := by
    intro k hk
    by_contra hno
    have hfree : k ∈ s.freeBids := State.mem_freeBids.2
      ⟨List.mem_range.1 hk, fun b hb e => hno (List.mem_map.2 ⟨b, hb, e⟩)⟩
    simp [hnil] at hfree
  have hle := (List.nodup_range.subperm hsub).length_le
  simp only [List.length_range, List.length_map] at hle
  omega

/-- Whatever the free value is, the index drawn is one of the free ones. -/
theorem State.pickBid_mem {s : State} (hp : s.cfg.wf = true) (h : s.fifo.length < s.cfg.poolSize) :
    s.pickBid.toNat ∈ s.freeBids := by
  have hne := State.freeBids_ne_nil h
  have hlt : Config.freeChoice s.choices % s.freeBids.length < s.freeBids.length :=
    Nat.mod_lt _ (List.length_pos_of_ne_nil hne)
  have hmem := List.getElem_mem hlt
  have hsmall := (State.mem_freeBids.1 hmem).1
  obtain ⟨-, -, -, hpool⟩ := Params.wf_bounds hp
  rw [State.pickBid, List.getD_eq_getElem _ _ hlt, BitVec.toNat_ofNat, Nat.mod_eq_of_lt (by omega)]
  exact hmem

/-- Settles O30: the drawn index is one of the free ones, and some index is free by counting. -/
theorem pickedRecordIsFree : Obligations.PickedRecordIsFree := by
  intro s hp _ hroom
  obtain ⟨hlt, hfree⟩ := State.mem_freeBids.1 (State.pickBid_mem hp hroom)
  exact ⟨hlt, fun b hb e => hfree b hb (congrArg BitVec.toNat e)⟩

/-! ### Contexts of PSEQ -/

/-- Both operations pass the steps of the Submission Path. -/
theorem POp.passes_path (op : POp) :
    op.passes .e1 = true ∧ op.passes .e2 = true ∧ op.passes .e4 = true ∧ op.passes .e5 = true ∧
    op.passes .e6 = true ∧ op.passes .e7 = true := by
  cases op <;> decide

theorem POp.cases (op : POp) : op = .enqueue ∨ op = .submitBatch := by
  cases op <;> decide

theorem POp.eq_submitBatch {op : POp} {pos : PPos} (h : op.passes pos = true)
    (hp : pos = .s1 ∨ pos = .s3 ∨ pos = .s4) : op = .submitBatch := by
  cases op
  · rcases hp with rfl | rfl | rfl <;> cases h
  · rfl

theorem POp.ne_first_of_filled {op : POp} {pos : PPos} (hp : pos.filled = true) : pos ≠ op.first := by
  cases op <;> rintro rfl <;> cases hp

/-- What holds of a context past the checks of its operation, at every position. -/
structure PCtx.Ready (s : State) (c : PCtx) : Prop where
  configured : s.configured = true
  mode : s.mode = c.op.mode
  shape : recordShapeOk s.cfg s.mode c.reqs = true
  room : c.op = .submitBatch → s.fifo.length < s.cfg.poolSize

/-- What holds of a context after the fill, at every position. -/
structure PCtx.Counted (s : State) (c : PCtx) : Prop extends PCtx.Ready s c where
  accepted_le : c.accepted ≤ c.written
  written_zero : c.accepted = 0 → c.written = 0
  written_le : c.written ≤ s.capacity.toNat - 1
  refs : (acceptedRefs c.disp).length = c.accepted

theorem PCtx.Ready.of_inv {s : State} {c : PCtx} (h : s.pctxInv c) (hp : c.pos ≠ c.op.first) :
    c.Ready s := by
  obtain ⟨-, p2, p3, -, -, -, p7, -⟩ := h
  obtain ⟨hconf, hmode⟩ := p3 hp
  exact ⟨hconf, hmode, p2 hconf hmode, fun ho => p7 ho (by rwa [ho] at hp)⟩

theorem PCtx.Counted.of_inv {s : State} {c : PCtx} (h : s.pctxInv c) (hp : c.pos.filled = true) :
    c.Counted s := by
  have hr := PCtx.Ready.of_inv h (POp.ne_first_of_filled hp)
  obtain ⟨-, -, -, -, -, p6, -⟩ := h
  obtain ⟨h1, h2, h3, h4⟩ := p6 hp
  exact ⟨hr, h1, h2, h3, h4⟩

/-- The counts do not speak of the position, of the tail or of ring memory. -/
theorem PCtx.Counted.of_change {s t : State} {c d : PCtx} (h : c.Counted s) (hch : PChange d s t)
    (hfifo : t.fifo = s.fifo) (pos : PPos) : PCtx.Counted t { c with pos := pos } := by
  refine ⟨⟨?_, ?_, ?_, ?_⟩, h.accepted_le, h.written_zero, ?_, h.refs⟩ <;> rw [hch.frame]
  · exact h.configured
  · exact h.mode
  · exact h.shape
  · rw [hfifo]
    exact h.room
  · exact h.written_le

theorem PCtx.Counted.move {s : State} {c : PCtx} (h : c.Counted s) (pos : PPos) :
    PCtx.Counted s { c with pos := pos } :=
  h.of_change (.of_local rfl : PChange c s s) rfl pos

/-- After the fill a context is sound by its counts and by what its position says of the ring. -/
theorem PCtx.Counted.inv {s : State} {c : PCtx} (h : c.Counted s) (hpass : c.op.passes c.pos = true)
    (hp : c.pos.filled = true) (hfree : c.pos = .e4 ∨ c.pos = .e5 → c.written ≤ s.free)
    (hold : c.op = .submitBatch → c.pos = .e4 ∨ c.pos = .e5 → c.oldTail = s.tail)
    (htail : c.op = .submitBatch → c.pos = .e6 ∨ c.pos = .e7 ∨ c.pos = .s3 ∨ c.pos = .s4 →
      s.tail = wrapAdd s.wrapMask c.oldTail c.written)
    (hs4 : c.pos = .s4 → 1 ≤ c.accepted) : s.pctxInv c := by
  have hne : c.pos ≠ .e1 ∧ c.pos ≠ .e2 := by
    constructor <;> intro e <;> simp [e, PPos.filled] at hp
  exact ⟨hpass, fun _ _ => h.shape, fun _ => ⟨h.configured, h.mode⟩, fun e => absurd e hne.2, hfree,
    fun _ => ⟨h.accepted_le, h.written_zero, h.written_le, h.refs⟩, fun ho _ => h.room ho,
    fun ho hpos => hold ho (by simpa [hne] using hpos), htail, hs4⟩

/-- Before the fill a context that is ready is sound when its counts stand at 0 for step E2. -/
theorem PCtx.Ready.inv {s : State} {c : PCtx} (h : c.Ready s) (hp : c.pos = .e1 ∨ c.pos = .e2)
    (he2 : c.pos = .e2 →
      c.avail ≤ s.free ∧ c.written = 0 ∧ c.accepted = 0 ∧ c.taken = 0 ∧ c.disp = [])
    (hold : c.op = .submitBatch → c.oldTail = s.tail) : s.pctxInv c := by
  have hpass : c.op.passes c.pos = true := by
    rcases hp with e | e <;> rw [e] <;> simp [POp.passes_path]
  refine ⟨hpass, fun _ _ => h.shape, fun _ => ⟨h.configured, h.mode⟩, he2, ?_, ?_, fun ho _ => h.room ho,
    fun ho _ => hold ho, ?_, ?_⟩ <;> rcases hp with e | e <;> simp [e, PPos.filled]

/-- A step of PSEQ that writes ring memory, the trace and its context only. -/
theorem inv_of_local {s t : State} {c c' : PCtx} (h : s.Inv) (hs : s.pseq = some c)
    (hconf : s.configured = true) (ht : t = { s with mem := t.mem, trace := t.trace, pseq := some c' })
    (hmem : Memory.wf t.mem = true) (ho : c'.owes = c.owes)
    (hw : c.owes = true → c'.written = c.written ∧ c'.oldTail = c.oldTail) (hc : s.pctxInv c') : t.Inv := by
  have hpend : t.pending = s.pending := by rw [ht]; rfl
  have hfifo : t.fifo = s.fifo := by rw [ht]
  have htail : t.tail = s.tail := by rw [ht]
  have hps : t.pseq = some c' := by rw [ht]
  have hch : PChange c s t := .of_local (by rw [ht])
  have hctx : ∀ d ∈ t.pseq, t.pctxInv d := by
    intro d hd
    rw [hps] at hd
    cases hd
    rw [ht]
    exact hc
  refine hch.inv h hs hconf hmem (Nat.le_of_eq hpend.symm) ?_ hctx
  obtain ⟨-, -, -, -, -, hf, -⟩ := h
  refine hch.fifoInv hf hfifo fun _ => ?_
  rw [unpushed_eq hs, unpushed_eq hps, spansEnd_eq hs, spansEnd_eq hps, hpend, htail, ho]
  cases hown : c.owes with
  | false => simp
  | true => simp [hw hown]

/-- A step of PSEQ that writes the trace and its context only. -/
theorem inv_of_context {s t : State} {c c' : PCtx} (h : s.Inv) (hs : s.pseq = some c)
    (hconf : s.configured = true) (ht : t = { s with trace := t.trace, pseq := some c' })
    (ho : c'.owes = c.owes)
    (hw : c.owes = true → c'.written = c.written ∧ c'.oldTail = c.oldTail) (hc : s.pctxInv c') : t.Inv := by
  have hmem : t.mem = s.mem := by rw [ht]
  exact inv_of_local h hs hconf (by rw [ht]) (hmem ▸ memWf_of_inv h) ho hw hc

section Steps

variable {s : State} {c : PCtx}

theorem pctxInv_of_inv (h : s.Inv) (hs : s.pseq = some c) : s.pctxInv c := by
  obtain ⟨-, -, -, -, -, -, hseq, -⟩ := h
  exact hseq c hs

/-- A context that owes no batch may end in a response. -/
theorem inv_respondP_of_not_owes (h : s.Inv) (hs : s.pseq = some c) (ho : c.owes = false) (w : Word32)
    (r : Response) : (s.respondP w r).Inv :=
  inv_respondP h (aseq_none_of_pseq (seqInv_of_inv h) hs) w r fun _ => by
    simp [unpushed_eq hs, spansEnd_eq hs, ho]

theorem owes_false (hp : c.pos.published = false) : c.owes = false := by simp [PCtx.owes, hp]

theorem stepS1_inv (h : s.Inv) (hs : s.pseq = some c) (hp : c.pos = .s1) : (s.stepS1 c).Inv := by
  obtain ⟨p1, p2, -⟩ := pctxInv_of_inv h hs
  have hop : c.op = .submitBatch := POp.eq_submitBatch p1 (.inl hp)
  have ho : c.owes = false := owes_false (by rw [hp]; rfl)
  unfold State.stepS1
  split
  next hc =>
    simp only [Bool.and_eq_true, beq_iff_eq] at hc
    obtain ⟨hconf, hm⟩ := hc
    have hmode : s.mode = c.op.mode := by rw [hop]; exact hm
    split
    · exact inv_respondP_of_not_owes h hs ho _ _
    next hfree =>
      have hroom : s.fifo.length < s.cfg.poolSize := by
        unfold State.freeRecords at hfree
        omega
      have hready : PCtx.Ready s { c with pos := .e1, oldTail := s.tail } :=
        ⟨hconf, hmode, p2 hconf hmode, fun _ => hroom⟩
      exact inv_of_context h hs hconf rfl ((owes_false rfl).trans ho.symm) (by simp [ho])
        (hready.inv (.inl rfl) nofun fun _ => rfl)
  · exact inv_respondP_of_not_owes h hs ho _ _

/-- A snapshot of `head` starts the fill with every count 0 (42_submission.md R191). -/
theorem stepE1_inv (h : s.Inv) (hs : s.pseq = some c) (hp : c.pos = .e1) (hready : c.Ready s) :
    (s.stepE1 c).Inv := by
  have ho : c.owes = false := owes_false (by rw [hp]; rfl)
  obtain ⟨-, -, -, -, -, -, -, p8, -⟩ := pctxInv_of_inv h hs
  have hready' : PCtx.Ready s { c with
      pos := .e2, avail := s.free, written := 0, accepted := 0, taken := 0, disp := [] } :=
    ⟨hready.configured, hready.mode, hready.shape, hready.room⟩
  exact inv_of_context h hs hready.configured rfl ((owes_false rfl).trans ho.symm) (by simp [ho])
    (hready'.inv (.inr rfl) (fun _ => ⟨Nat.le_refl _, rfl, rfl, rfl, rfl⟩) fun hop => p8 hop (.inl hp))

theorem stepE1Checked_inv (h : s.Inv) (hs : s.pseq = some c) (hp : c.pos = .e1) (hop : c.op = .enqueue) :
    (s.stepE1Checked c).Inv := by
  unfold State.stepE1Checked
  split
  next hc =>
    simp only [Bool.and_eq_true, beq_iff_eq] at hc
    obtain ⟨hconf, hm⟩ := hc
    have hmode : s.mode = c.op.mode := by rw [hop]; exact hm
    obtain ⟨-, p2, -⟩ := pctxInv_of_inv h hs
    exact stepE1_inv h hs hp ⟨hconf, hmode, p2 hconf hmode, fun ho => absurd (hop.symm.trans ho) nofun⟩
  · exact inv_respondP_of_not_owes h hs (owes_false (by rw [hp]; rfl)) _ _

/-- The fill of a sound context: counts that agree, within what was free (42_submission.md R197). -/
theorem fill_counts (hp : c.pos = .e2) (hctx : s.pctxInv c) :
    (acceptedRefs (s.fill c).disp).length = (s.fill c).accepted ∧
    (s.fill c).accepted ≤ (s.fill c).written ∧
    ((s.fill c).accepted = 0 → (s.fill c).written = 0) ∧ (s.fill c).written ≤ s.free := by
  obtain ⟨-, -, -, p4, -⟩ := hctx
  obtain ⟨havail, hw, ha, ht, hd⟩ := p4 hp
  obtain ⟨-, h2, h3, h4⟩ := fillLoop_counts_agree (p := s.cfg) (mode := s.mode) (policy := s.policy)
    (mask := s.wrapMask) (tail := s.tail) (rs := c.reqs.drop c.taken)
    (f := { bus := s.bus, avail := c.avail, written := c.written, accepted := c.accepted
            taken := c.taken, disp := c.disp })
    (by simp [hd, ht]) (by simp [hd, ha, acceptedRefs]) (by simp [ha]) (by simp [hw])
  have hsum : (s.fill c).avail + (s.fill c).written = c.avail + c.written := fillLoop_avail_add_written
  exact ⟨h2, h3, h4, by omega⟩

theorem free_le_capacity (h : s.Inv) (hconf : s.configured = true) : s.free ≤ s.capacity.toNat - 1 := by
  obtain ⟨-, -, -, hr, -⟩ := h
  have := State.free_add_pending hr hconf
  omega

theorem stepE2_inv (h : s.Inv) (hs : s.pseq = some c) (hp : c.pos = .e2) : (s.stepE2 c).Inv := by
  have hctx := pctxInv_of_inv h hs
  have ho : c.owes = false := owes_false (by rw [hp]; rfl)
  have hready := PCtx.Ready.of_inv hctx (by rw [hp]; cases c.op <;> decide)
  obtain ⟨hrefs, hle, hzero, hfree⟩ := fill_counts hp hctx
  have hcap := free_le_capacity h hready.configured
  obtain ⟨-, -, -, -, -, -, -, p8, -⟩ := hctx
  have hcounted : PCtx.Counted s { c with
      pos := .e4, avail := (s.fill c).avail, written := (s.fill c).written
      accepted := (s.fill c).accepted, taken := (s.fill c).taken, disp := (s.fill c).disp } :=
    ⟨⟨hready.configured, hready.mode, hready.shape, hready.room⟩, hle, hzero, Nat.le_trans hfree hcap,
      hrefs⟩
  exact inv_of_local h hs hready.configured rfl (fillLoop_wf (memWf_of_inv h)) ((owes_false rfl).trans ho.symm)
    (by simp [ho]) (hcounted.inv (by simp [POp.passes_path]) rfl (fun _ => hfree)
      (fun hop _ => p8 hop (.inr (.inl hp))) (by simp) (by simp))

theorem stepE4_inv (h : s.Inv) (hs : s.pseq = some c) (hp : c.pos = .e4) : (s.stepE4 c).Inv := by
  have hctx := pctxInv_of_inv h hs
  have ho : c.owes = false := owes_false (by rw [hp]; rfl)
  have hcounted := PCtx.Counted.of_inv hctx (by rw [hp]; rfl)
  obtain ⟨-, -, -, -, p5, -, -, p8, -⟩ := hctx
  have hctx' : s.pctxInv { c with pos := .e5 } :=
    (hcounted.move .e5).inv (by simp [POp.passes_path]) rfl (fun _ => p5 (.inl hp))
      (fun hop _ => p8 hop (by simp [hp])) (by simp) (by simp)
  unfold State.stepE4
  dsimp only
  split
  · have hmem := memWf_of_inv h
    exact inv_of_local h hs hcounted.configured rfl (Bus.writeCtrl_wf .pseq _ _ _ hmem)
      ((owes_false rfl).trans ho.symm) (by simp [ho]) hctx'
  · exact inv_of_context h hs hcounted.configured rfl ((owes_false rfl).trans ho.symm) (by simp [ho])
      hctx'

/-- On a BATCH ring the running operation is SUBMIT_BATCH. -/
theorem op_of_batch (hready : c.Ready s) (hm : s.mode = .batch) : c.op = .submitBatch := by
  have hmode := hready.mode
  rw [hm] at hmode
  cases hop : c.op
  · rw [hop] at hmode
    cases hmode
  · rfl

/-- Publishing the slots raises the pending count by what is then owed to the FIFO (42_submission.md R199). -/
theorem stepE5_inv (h : s.Inv) (hs : s.pseq = some c) (hp : c.pos = .e5) : (s.stepE5 c).Inv := by
  have hctx := pctxInv_of_inv h hs
  have hcounted := PCtx.Counted.of_inv hctx (by rw [hp]; rfl)
  obtain ⟨-, -, -, -, p5, -, -, p8, -⟩ := hctx
  have hch : PChange c s (s.stepE5 c) := by simpa [State.pStep, hp] using s.pStep_change c
  have hps : (s.stepE5 c).pseq = some { c with pos := .e6 } := rfl
  have hold : c.op = .submitBatch → c.oldTail = s.tail := fun hop => p8 hop (by simp [hp])
  have hinv := h
  obtain ⟨-, hmem, -, hr, -, hf, -⟩ := hinv
  have hpend : (s.stepE5 c).pending = s.pending + c.written :=
    pending_advance_tail hr hcounted.configured (p5 (.inr hp)) rfl rfl rfl
  refine hch.inv h hs hcounted.configured hmem (by omega) (hch.fifoInv hf rfl fun hm => ?_) ?_
  · have hop := op_of_batch hcounted.toReady hm
    rw [unpushed_eq hs, unpushed_eq hps, spansEnd_eq hs, spansEnd_eq hps, hpend]
    simp [PCtx.owes, hop, hp, PPos.published, hold hop]
  · intro c' hc'
    cases hps.symm.trans hc'
    refine (hcounted.of_change hch rfl .e6).inv (by simp [POp.passes_path]) rfl (by simp) (by simp)
      (fun hop _ => ?_) (by simp)
    rw [hold hop]
    rfl

theorem stepE6_inv (h : s.Inv) (hs : s.pseq = some c) (hp : c.pos = .e6) : (s.stepE6 c).Inv := by
  have hctx := pctxInv_of_inv h hs
  have hcounted := PCtx.Counted.of_inv hctx (by rw [hp]; rfl)
  obtain ⟨-, -, -, -, -, -, -, -, p9, -⟩ := hctx
  exact inv_of_context h hs hcounted.configured rfl (by simp [PCtx.owes, hp, PPos.published])
    (fun _ => ⟨rfl, rfl⟩) ((hcounted.move .e7).inv (by simp [POp.passes_path]) rfl
      (by simp) (by simp) (fun hop _ => p9 hop (.inl hp)) (by simp))

theorem stepE7_inv (h : s.Inv) (hs : s.pseq = some c) (hp : c.pos = .e7) : (s.stepE7 c).Inv := by
  have hctx := pctxInv_of_inv h hs
  have hcounted := PCtx.Counted.of_inv hctx (by rw [hp]; rfl)
  obtain ⟨-, -, -, -, -, -, -, -, p9, -⟩ := hctx
  have hch : PChange c s (s.stepE7 c) := by simpa [State.pStep, hp] using s.pStep_change c
  obtain ⟨pos, hpos, hps⟩ : ∃ pos, (pos = match c.op with
      | .enqueue => .e8
      | .submitBatch => .s3) ∧ (s.stepE7 c).pseq = some { c with pos := pos } := ⟨_, rfl, rfl⟩
  have hfifo : (s.stepE7 c).fifo = s.fifo := by simp [State.stepE7]
  have htail : (s.stepE7 c).tail = s.tail := by simp [State.stepE7]
  have hmask : (s.stepE7 c).wrapMask = s.wrapMask := by simp [State.stepE7]
  have hpend : (s.stepE7 c).pending = s.pending := by simp [State.stepE7, State.pending]
  have hmem : (s.stepE7 c).mem = s.mem := by simp [State.stepE7]
  obtain ⟨-, hwf, -, -, -, hf, -⟩ := id h
  refine hch.inv h hs hcounted.configured (by rw [hmem]; exact hwf) (Nat.le_of_eq hpend.symm)
    (hch.fifoInv hf hfifo fun hm => ?_) ?_
  · have hop := op_of_batch hcounted.toReady hm
    rw [unpushed_eq hs, unpushed_eq hps, spansEnd_eq hs, spansEnd_eq hps, hpend]
    simp [PCtx.owes, hop, hp, hpos, PPos.published]
  · intro c' hc'
    cases hps.symm.trans hc'
    have hmoved := hcounted.of_change hch hfifo pos
    rcases POp.cases c.op with hop | hop
    · have hpos : pos = .e8 := by rw [hpos, hop]
      subst hpos
      exact hmoved.inv (by simp [hop, POp.passes]) rfl (by simp) (by simp) (by simp) (by simp)
    · have hpos : pos = .s3 := by rw [hpos, hop]
      subst hpos
      exact hmoved.inv (by simp [hop, POp.passes]) rfl (by simp) (by simp)
        (fun _ _ => by rw [htail, hmask]; exact p9 hop (.inr (.inl hp))) (by simp)

theorem stepE8_inv (h : s.Inv) (hs : s.pseq = some c) (hp : c.pos = .e8) : (s.stepE8 c).Inv := by
  exact inv_respondP_of_not_owes h hs (owes_false (by rw [hp]; rfl)) _ _

/-- A submission that accepted nothing moved no index, so it leaves no span behind (44_batch.md R237). -/
theorem stepS3_inv (h : s.Inv) (hs : s.pseq = some c) (hp : c.pos = .s3) : (s.stepS3 c).Inv := by
  have hctx := pctxInv_of_inv h hs
  have hcounted := PCtx.Counted.of_inv hctx (by rw [hp]; rfl)
  obtain ⟨p1, -, -, -, -, -, -, -, p9, -⟩ := hctx
  have hop : c.op = .submitBatch := POp.eq_submitBatch p1 (by simp [hp])
  have htail := p9 hop (by simp [hp])
  unfold State.stepS3
  split
  next ha =>
    obtain ⟨-, -, -, hr, -, ⟨-, -, -, -, -, -, f7⟩, hseq⟩ := id h
    refine inv_respondP h (aseq_none_of_pseq hseq hs) _ _ fun hm => ?_
    obtain ⟨-, hspans⟩ := f7 hm
    obtain ⟨⟨k, hk, hcap⟩, -, hmask, hhead, -⟩ := hr hcounted.configured
    have hw := hcounted.written_zero ha
    have howes : c.owes = true := by simp [PCtx.owes, hop, hp, PPos.published]
    rw [unpushed_eq hs, spansEnd_eq hs, if_pos howes, if_pos howes]
    rw [spansEnd_eq hs, if_pos howes, hmask] at hspans
    rw [hw, hmask, wrapAdd_zero hk hcap (spansTile_end_lt hk hcap hhead hspans)] at htail
    exact ⟨hw, htail.symm⟩
  next ha =>
    exact inv_of_context h hs hcounted.configured rfl (by simp [PCtx.owes, hp, PPos.published])
      (fun _ => ⟨rfl, rfl⟩) ((hcounted.move .s4).inv (by simp [hop, POp.passes]) rfl
        (by simp) (by simp) (fun _ _ => htail) (fun _ => Nat.pos_of_ne_zero ha))

/-- The record pushed in step S4 is a sound batch. -/
theorem newBatch_batchInv (hcounted : c.Counted s) (ha : 1 ≤ c.accepted) :
    batchInv s.capacity.toNat (s.newBatch c) :=
  ⟨hcounted.refs, ha, hcounted.accepted_le, hcounted.written_le, Nat.zero_le _, fun _ => rfl⟩

/-- A batch of a free record pushed behind the others, its span behind theirs, keeps the FIFO sound. -/
theorem fifoInv_push {t : State} {b : Batch} (hf : s.fifoInv) (hmode : s.mode = .batch)
    (hcfg : t.cfg = s.cfg) (htm : t.mode = s.mode) (hcap : t.capacity = s.capacity)
    (hmask : t.wrapMask = s.wrapMask) (hhead : t.head = s.head) (hfifo : t.fifo = s.fifo ++ [b])
    (hroom : s.fifo.length < s.cfg.poolSize) (hbid : b.bid.toNat ∈ s.freeBids)
    (hb : batchInv s.capacity.toNat b) (hopen : b.complete = false)
    (hpend : t.pending = s.pending) (howed : s.unpushed = b.descCount) (hzero : t.unpushed = 0)
    (hfrom : b.headOffset = byteOffset s.cfg s.spansEnd)
    (hto : b.tailOffset = byteOffset s.cfg (wrapAdd s.wrapMask s.spansEnd b.descCount))
    (hend : t.spansEnd = wrapAdd s.wrapMask s.spansEnd b.descCount) : t.fifoInv := by
  obtain ⟨-, -, f3, f4, f5, f6, f7⟩ := hf
  obtain ⟨hlt, hfree⟩ := State.mem_freeBids.1 hbid
  obtain ⟨hsum, hspans⟩ := f7 hmode
  unfold State.fifoInv
  rw [hcfg, htm, hcap, hmask, hhead, hfifo, hpend, hzero, hend]
  refine ⟨fun hm => absurd (hmode.symm.trans hm) nofun, ?_, ?_, ?_, ?_, ?_, fun _ => ⟨?_, ?_⟩⟩
  · simp
    omega
  · rw [List.map_append, List.nodup_append]
    refine ⟨f3, by simp, ?_⟩
    rintro x hx y hy rfl
    obtain ⟨a, ha, rfl⟩ := List.mem_map.1 hx
    simp only [List.map_cons, List.map_nil, List.mem_singleton] at hy
    exact hfree a ha hy
  · intro a ha
    rcases List.mem_append.1 ha with ha | ha
    · exact f4 a ha
    · rwa [List.mem_singleton.1 ha]
  · intro a ha
    rcases List.mem_append.1 ha with ha | ha
    · exact f5 a ha
    · rwa [List.mem_singleton.1 ha]
  · intro a ha
    cases hl : s.fifo with
    | nil => simp [hl] at ha
    | cons x l =>
      rw [hl] at ha f6
      rcases List.mem_append.1 ha with ha | ha
      · exact f6 a ha
      · rwa [List.mem_singleton.1 ha]
  · rw [pendingDesc_append, hsum, howed]
    simp [pendingDesc, hopen]
  · exact spansTile_push hopen hfrom hto hspans

/-- Step S4 as one update. -/
theorem stepS4_eq (s : State) (c : PCtx) : s.stepS4 c = { s with
    fifo := s.fifo ++ [s.newBatch c], choices := s.choices + 1, pseq := none
    trace := .respond c.word ⟨.ok, BitVec.ofNat 24 c.accepted, c.disp ++ [.handle (s.newBatch c).bid]⟩ ::
      s.trace } := by
  simp only [State.stepS4, State.respondP, State.respond, State.setFifo, State.setChoices, State.log,
    State.setTrace, State.setPseq]

theorem stepS4_inv (h : s.Inv) (hs : s.pseq = some c) (hp : c.pos = .s4) : (s.stepS4 c).Inv := by
  have hctx := pctxInv_of_inv h hs
  have hcounted := PCtx.Counted.of_inv hctx (by rw [hp]; rfl)
  obtain ⟨p1, -, -, -, -, -, -, -, p9, p10⟩ := hctx
  have hop : c.op = .submitBatch := POp.eq_submitBatch p1 (by simp [hp])
  have howes : c.owes = true := by simp [PCtx.owes, hop, hp, PPos.published]
  have htail := p9 hop (by simp [hp])
  have hroom := hcounted.room hop
  have hmode : s.mode = .batch := by rw [hcounted.mode, hop]; rfl
  have hch : PChange c s (s.stepS4 c) := by simpa [State.pStep, hp] using s.pStep_change c
  have hend : s.spansEnd = c.oldTail := by simp [spansEnd_eq hs, howes]
  obtain ⟨hparams, hmem, -, -, -, hf, -⟩ := id h
  rw [stepS4_eq] at hch ⊢
  refine hch.inv h hs hcounted.configured hmem (Nat.le_refl _) ?_ nofun
  refine fifoInv_push (b := s.newBatch c) hf hmode rfl rfl rfl rfl rfl rfl hroom
    (State.pickBid_mem hparams hroom) (newBatch_batchInv hcounted (p10 hp)) rfl rfl
    (by simp [unpushed_eq hs, howes, State.newBatch]) rfl ?_ ?_ ?_
  · rw [hend]
    rfl
  · rw [hend]
    exact congrArg (byteOffset s.cfg) htail
  · rw [hend]
    exact htail

/-- Every step of PSEQ keeps a sound state sound. -/
theorem pStep_inv (h : s.Inv) (hs : s.pseq = some c) : (s.pStep c).Inv := by
  unfold State.pStep
  cases hp : c.pos <;> dsimp only
  case s1 => exact stepS1_inv h hs hp
  case e1 =>
    split
    next hop => exact stepE1Checked_inv h hs hp hop
    next hop => exact stepE1_inv h hs hp (.of_inv (pctxInv_of_inv h hs) (by rw [hp, hop]; nofun))
  case e2 => exact stepE2_inv h hs hp
  case e4 => exact stepE4_inv h hs hp
  case e5 => exact stepE5_inv h hs hp
  case e6 => exact stepE6_inv h hs hp
  case e7 => exact stepE7_inv h hs hp
  case e8 => exact stepE8_inv h hs hp
  case s3 => exact stepS3_inv h hs hp
  case s4 => exact stepS4_inv h hs hp

end Steps

theorem pseqStep_inv (s : State) (h : s.Inv) : s.pseqStep.Inv := by
  cases hs : s.pseq with
  | none => rwa [State.pseqStep_idle hs]
  | some c =>
    rw [State.pseqStep_running hs]
    exact pStep_inv h hs

end Sys2Proof.Machine

/-!
The steps of CSEQ and ASEQ on a sound state (43_completion.md R211, 44_batch.md R241, 45_admin.md R272), and
the induction over all transitions.
-/

namespace Sys2Proof.Machine

/-! ### CSEQ -/

section Consumer

variable {s t : State} {c : CCtx}

theorem cctxInv_of_inv (h : s.Inv) (hc : s.cseq = some c) : s.cctxInv c := by
  obtain ⟨-, -, -, -, -, -, -, hseq, -⟩ := h
  exact hseq c hc

theorem COp.eq_dequeue {op : COp} {pos : CPos} (h : op.passes pos = true)
    (hp : pos = .q1 ∨ pos = .q2 ∨ pos = .q3 ∨ pos = .q4 ∨ pos = .q5 ∨ pos = .q6) : op = .dequeue := by
  cases op
  · rfl
  · rcases hp with rfl | rfl | rfl | rfl | rfl | rfl <;> cases h

/-- A step of CSEQ that writes the trace and its context only. -/
theorem inv_of_trace {o : Option CCtx} (h : s.Inv) (hc : s.cseq = some c)
    (ht : t = { s with trace := t.trace, cseq := o }) (ho : ∀ c' ∈ o, s.cctxInv c') : t.Inv := by
  have ha := aseq_none_of_cseq (seqInv_of_inv h) hc
  rw [ht]
  exact inv_setCseq (s := { s with trace := t.trace }) h ha ho

/-- A step of CSEQ keeps a sound state sound where it frees slots and leaves the FIFO and its own context
sound. -/
theorem CChange.inv (hch : CChange c s t) (h : s.Inv) (hc : s.cseq = some c) (hconf : s.configured = true)
    (hfree : s.free ≤ t.free) (hfifo : t.fifoInv) (hctx : ∀ c' ∈ t.cseq, t.cctxInv c') : t.Inv := by
  obtain ⟨hp, hm, hd, hr, -, -, hseq⟩ := h
  have ha := aseq_none_of_cseq hseq hc
  obtain ⟨hpseq, -, -⟩ := hseq
  have hlen : t.fifo.length ≤ s.fifo.length := by
    obtain e | ⟨-, e | ⟨b, rest, latch, count, e, e'⟩⟩ := hch.fifo
    · rw [e]
    · rw [e, List.length_tail]
      omega
    · rw [e, e']
      simp
  refine ⟨by rw [hch.frame]; exact hp, by rw [hch.frame]; exact hm, by rw [hch.frame]; exact hd,
    hch.ringInv hr, ?_, hfifo, ?_, hctx, ?_⟩
  · rw [hch.frame]
    exact fun hn => absurd (hconf.symm.trans hn) (by decide)
  · intro d hd
    have hd : d ∈ s.pseq := by rwa [hch.frame] at hd
    exact pctxInv_mono (hpseq d hd) (by rw [hch.frame]) (by rw [hch.frame]) (by rw [hch.frame]) hfree hlen
      (by rw [hch.frame]) (by rw [hch.frame]) (by rw [hch.frame])
  · intro a haa
    rw [hch.frame] at haa
    simp [ha] at haa

/-- Releasing pending slots frees them. -/
theorem CChange.free_le (hch : CChange c s t) (hr : s.ringInv) (hconf : s.configured = true)
    (hpend : t.pending ≤ s.pending) : s.free ≤ t.free := by
  have h1 := State.free_add_pending hr hconf
  have h2 := State.free_add_pending (hch.ringInv hr) (by rw [hch.frame]; exact hconf)
  have hcap : t.capacity = s.capacity := by rw [hch.frame]
  rw [hcap] at h2
  omega

/-- A context of DEQUEUE past its check. -/
theorem cctxInv_dequeue (hop : c.op = .dequeue) (hpass : COp.dequeue.passes c.pos = true)
    (hconf : s.configured = true) (hmode : s.mode = .slot) (hlimit : c.pos = .q2 → c.limit ≤ s.pending)
    (hcount : c.pos = .q3 ∨ c.pos = .q4 ∨ c.pos = .q5 → c.confirmed ≤ s.pending) : s.cctxInv c := by
  refine ⟨hop ▸ hpass, fun _ _ => ⟨hconf, hmode⟩, fun ho => absurd (hop.symm.trans ho) nofun, hlimit,
    hcount, fun hp => ?_, fun hp => ?_⟩
  · rcases hp with e | e | e <;> rw [e] at hpass <;> cases hpass
  · rcases hp with e | e <;> rw [e] at hpass <;> cases hpass

/-- A context of POLL_BATCH past step B1. -/
theorem cctxInv_pollBatch (hop : c.op = .pollBatch) (hpass : COp.pollBatch.passes c.pos = true)
    (hconf : s.configured = true) (hmode : s.mode = .batch) (hne : s.fifo ≠ [])
    (hopen : c.pos = .b3 ∨ c.pos = .b4 ∨ c.pos = .b5 → ∀ b ∈ s.fifo.head?, b.complete = false)
    (hdone : c.pos = .b6 ∨ c.pos = .b7 → ∀ b ∈ s.fifo.head?, b.complete = true) : s.cctxInv c := by
  refine ⟨hop ▸ hpass, fun ho => absurd (hop.symm.trans ho) nofun, fun _ _ => ⟨hconf, hmode, hne⟩,
    fun e => ?_, fun hp => ?_, hopen, hdone⟩
  · rw [e] at hpass
    cases hpass
  · rcases hp with e | e | e <;> rw [e] at hpass <;> cases hpass

/-! ### DEQUEUE -/

/-- What a context of DEQUEUE past step Q1 rests on. -/
theorem ready_of_dequeue (h : s.Inv) (hc : s.cseq = some c)
    (hp : c.pos = .q2 ∨ c.pos = .q3 ∨ c.pos = .q4 ∨ c.pos = .q5 ∨ c.pos = .q6) :
    c.op = .dequeue ∧ s.configured = true ∧ s.mode = .slot := by
  obtain ⟨q1, q2, -⟩ := cctxInv_of_inv h hc
  have hop : c.op = .dequeue := COp.eq_dequeue q1 (.inr hp)
  exact ⟨hop, q2 hop (by rcases hp with e | e | e | e | e <;> rw [e] <;> decide)⟩

theorem stepQ1_inv (h : s.Inv) (hc : s.cseq = some c) (hp : c.pos = .q1) : (s.stepQ1 c).Inv := by
  obtain ⟨q1, -⟩ := cctxInv_of_inv h hc
  have hop : c.op = .dequeue := COp.eq_dequeue q1 (.inl hp)
  unfold State.stepQ1
  split
  next hcm =>
    simp only [Bool.and_eq_true, beq_iff_eq] at hcm
    refine inv_of_trace h hc rfl ?_
    rintro _ ⟨⟩
    exact cctxInv_dequeue hop rfl hcm.1 hcm.2 (fun _ => Nat.min_le_right _ _) (by simp)
  · exact inv_respondC h (aseq_none_of_cseq (seqInv_of_inv h) hc) _ _

theorem stepQ2_inv (h : s.Inv) (hc : s.cseq = some c) (hp : c.pos = .q2) : (s.stepQ2 c).Inv := by
  obtain ⟨hop, hconf, hmode⟩ := ready_of_dequeue h hc (.inl hp)
  obtain ⟨-, -, -, q4, -⟩ := cctxInv_of_inv h hc
  have hle : (scanDone s.cfg s.wrapMask s.head c.limit 0 s.bus).1 ≤ s.pending := by
    obtain ⟨n, hn, hlim, -⟩ := scanDone_spec s.cfg s.wrapMask s.head c.limit 0 s.bus
    have := q4 hp
    omega
  unfold State.stepQ2
  dsimp only
  rw [State.setBus_of_mem (scanDone_mem (b := s.bus) ..)]
  refine inv_of_trace h hc rfl ?_
  rintro _ ⟨⟩
  exact cctxInv_dequeue hop rfl hconf hmode (by simp) (fun _ => hle)

theorem stepQ3_inv (h : s.Inv) (hc : s.cseq = some c) (hp : c.pos = .q3) : (s.stepQ3 c).Inv := by
  obtain ⟨hop, hconf, hmode⟩ := ready_of_dequeue h hc (by simp [hp])
  obtain ⟨-, -, -, -, q5, -⟩ := cctxInv_of_inv h hc
  refine inv_of_trace h hc rfl ?_
  rintro _ ⟨⟩
  exact cctxInv_dequeue hop rfl hconf hmode (by simp) (fun _ => q5 (.inl hp))

theorem stepQ4_inv (h : s.Inv) (hc : s.cseq = some c) (hp : c.pos = .q4) : (s.stepQ4 c).Inv := by
  obtain ⟨hop, hconf, hmode⟩ := ready_of_dequeue h hc (by simp [hp])
  obtain ⟨-, -, -, -, q5, -⟩ := cctxInv_of_inv h hc
  unfold State.stepQ4
  dsimp only
  rw [State.setBus_of_mem (extract_mem (b := s.bus) ..)]
  refine inv_of_trace h hc rfl ?_
  rintro _ ⟨⟩
  exact cctxInv_dequeue hop rfl hconf hmode (by simp) (fun _ => q5 (.inr (.inl hp)))

/-- The release of the confirmed slots of a SLOT ring (43_completion.md R218). -/
theorem stepQ5_inv (h : s.Inv) (hc : s.cseq = some c) (hp : c.pos = .q5) : (s.stepQ5 c).Inv := by
  obtain ⟨hop, hconf, hmode⟩ := ready_of_dequeue h hc (by simp [hp])
  obtain ⟨-, -, -, -, q5, -⟩ := cctxInv_of_inv h hc
  obtain ⟨-, -, -, hr, -, ⟨f1, f2, f3, f4, f5, f6, -⟩, -⟩ := id h
  have hch : CChange c s (s.stepQ5 c) := by simpa [State.cStep, hp] using s.cStep_change c
  have hpend : (s.stepQ5 c).pending = s.pending - c.confirmed :=
    pending_advance_head hr hconf (q5 (by simp [hp])) rfl rfl rfl
  refine hch.inv h hc hconf (hch.free_le hr hconf (by omega))
    ⟨f1, f2, f3, f4, f5, f6, fun hm => absurd (hmode.symm.trans hm) nofun⟩ ?_
  rintro _ ⟨⟩
  exact cctxInv_dequeue hop rfl hconf hmode (by simp) (by simp)

/-! ### POLL_BATCH -/

/-- What a context of POLL_BATCH past step B1 rests on: a front batch. -/
theorem ready_of_pollBatch (h : s.Inv) (hc : s.cseq = some c)
    (hp : c.pos = .b2 ∨ c.pos = .b3 ∨ c.pos = .b4 ∨ c.pos = .b5 ∨ c.pos = .b6 ∨ c.pos = .b7) :
    c.op = .pollBatch ∧ s.configured = true ∧ s.mode = .batch ∧ ∃ b rest, s.fifo = b :: rest := by
  obtain ⟨q1, -, q3, -⟩ := cctxInv_of_inv h hc
  have hop : c.op = .pollBatch := by
    cases hop : c.op
    · rw [hop] at q1
      rcases hp with e | e | e | e | e | e <;> rw [e] at q1 <;> cases q1
    · rfl
  obtain ⟨hconf, hmode, hne⟩ := q3 hop (by rcases hp with e | e | e | e | e | e <;> rw [e] <;> decide)
  exact ⟨hop, hconf, hmode, List.exists_cons_of_ne_nil hne⟩

theorem State.withFront_cons {b : Batch} {rest : List Batch} (hl : s.fifo = b :: rest)
    (f : Batch → List Batch → State) : s.withFront c f = f b rest := by
  unfold State.withFront
  rw [hl]

theorem stepB1_inv (h : s.Inv) (hc : s.cseq = some c) (hp : c.pos = .b1) : (s.stepB1 c).Inv := by
  obtain ⟨q1, -⟩ := cctxInv_of_inv h hc
  have ha := aseq_none_of_cseq (seqInv_of_inv h) hc
  have hop : c.op = .pollBatch := by
    cases hop : c.op
    · rw [hop, hp] at q1
      cases q1
    · rfl
  unfold State.stepB1
  split
  next hcm =>
    simp only [Bool.and_eq_true, beq_iff_eq] at hcm
    split
    · exact inv_respondC h ha _ _
    next hne =>
      refine inv_of_trace h hc rfl ?_
      rintro _ ⟨⟩
      exact cctxInv_pollBatch hop rfl hcm.1 hcm.2 (by simpa using hne) (by simp) (by simp)
  · exact inv_respondC h ha _ _

theorem stepB2_inv {b : Batch} {rest : List Batch} (h : s.Inv) (hc : s.cseq = some c) (hp : c.pos = .b2)
    (hl : s.fifo = b :: rest) : (s.stepB2 c b).Inv := by
  obtain ⟨hop, hconf, hmode, -⟩ := ready_of_pollBatch h hc (.inl hp)
  refine inv_of_trace h hc rfl ?_
  rintro _ ⟨⟩
  cases hb : b.complete <;>
    exact cctxInv_pollBatch hop (by simp [COp.passes]) hconf hmode (by simp [hl]) (by simp [hl, hb])
      (by simp [hl, hb])

theorem stepB3_inv (h : s.Inv) (hc : s.cseq = some c) (hp : c.pos = .b3) : (s.stepB3 c).Inv := by
  obtain ⟨hop, hconf, hmode, b, rest, hl⟩ := ready_of_pollBatch h hc (by simp [hp])
  obtain ⟨-, -, -, -, -, q6, -⟩ := cctxInv_of_inv h hc
  refine inv_of_trace h hc rfl ?_
  rintro _ ⟨⟩
  exact cctxInv_pollBatch hop rfl hconf hmode (by simp [hl]) (fun _ => q6 (.inl hp)) (by simp)

theorem stepB4_inv {b : Batch} (h : s.Inv) (hc : s.cseq = some c) (hp : c.pos = .b4) :
    (s.stepB4 c b).Inv := by
  obtain ⟨hop, hconf, hmode, b, rest, hl⟩ := ready_of_pollBatch h hc (by simp [hp])
  obtain ⟨-, -, -, -, -, q6, -⟩ := cctxInv_of_inv h hc
  unfold State.stepB4
  split
  · exact inv_respondC h (aseq_none_of_cseq (seqInv_of_inv h) hc) _ _
  · refine inv_of_trace h hc rfl ?_
    rintro _ ⟨⟩
    exact cctxInv_pollBatch hop rfl hconf hmode (by simp [hl]) (fun _ => q6 (by simp [hp])) (by simp)

/-- The front batch may be replaced by one of the same record whose account fits. -/
theorem fifoInv_setFront {b b' : Batch} {rest : List Batch} (hf : s.fifoInv) (hmode : s.mode = .batch)
    (hl : s.fifo = b :: rest) (hl' : t.fifo = b' :: rest) (htm : t.mode = s.mode) (hcfg : t.cfg = s.cfg)
    (hcap : t.capacity = s.capacity) (hbid : b'.bid = b.bid) (hb : batchInv s.capacity.toNat b')
    (hpend : t.pending = pendingDesc (b' :: rest) + t.unpushed)
    (hspans : spansTile t.cfg t.wrapMask t.head (b' :: rest) t.spansEnd) : t.fifoInv := by
  obtain ⟨-, f2, f3, f4, f5, f6, -⟩ := hf
  rw [hl] at f2 f3 f4 f5 f6
  have hmem : ∀ a ∈ rest, a ∈ b :: rest := fun a ha => List.mem_cons_of_mem _ ha
  unfold State.fifoInv
  rw [htm, hl', hcap]
  refine ⟨fun hm => absurd (hmode.symm.trans hm) nofun, ?_, ?_, ?_, ?_, f6, fun _ => ⟨hpend, hspans⟩⟩
  · rw [hcfg]
    exact f2
  · rw [List.map_cons, hbid]
    exact f3
  · rw [hcfg]
    intro a ha
    rcases List.mem_cons.1 ha with rfl | ha
    · rw [hbid]
      exact f4 b (List.mem_cons_self ..)
    · exact f4 a (hmem a ha)
  · intro a ha
    rcases List.mem_cons.1 ha with rfl | ha
    · exact hb
    · exact f5 a (hmem a ha)

/-- A released front batch may leave the FIFO. -/
theorem fifoInv_pop {b : Batch} {rest : List Batch} (hf : s.fifoInv) (hl : s.fifo = b :: rest)
    (hb : b.complete = true) : (s.setFifo rest).fifoInv := by
  obtain ⟨f1, f2, f3, f4, f5, f6, f7⟩ := hf
  rw [hl] at f1 f2 f3 f4 f5 f6 f7
  have hmem : ∀ a ∈ rest, a ∈ b :: rest := fun a ha => List.mem_cons_of_mem _ ha
  refine ⟨fun hm => absurd (f1 hm) nofun, ?_, ?_, fun a ha => f4 a (hmem a ha), fun a ha => f5 a (hmem a ha),
    fun a ha => f6 a (List.mem_of_mem_tail ha), fun hm => ?_⟩
  · exact Nat.le_trans (Nat.le_succ _) f2
  · exact (List.nodup_cons.1 f3).2
  · obtain ⟨hsum, hspans⟩ := f7 hm
    simp only [pendingDesc, spansTile, hb, if_true, Nat.zero_add] at hsum hspans
    exact ⟨hsum, hspans⟩

/-- What CSEQ's steps on the front batch leave of PSEQ's account. -/
theorem CChange.account (hch : CChange c s t) : t.unpushed = s.unpushed ∧ t.spansEnd = s.spansEnd := by
  rw [hch.frame]
  exact ⟨rfl, rfl⟩

/-- The latch and the release of the front batch's span, in one step (44_batch.md R246). -/
theorem stepB5_inv {b : Batch} {rest : List Batch} (h : s.Inv) (hc : s.cseq = some c) (hp : c.pos = .b5)
    (hl : s.fifo = b :: rest) : (s.stepB5 c b rest).Inv := by
  obtain ⟨hop, hconf, hmode, -⟩ := ready_of_pollBatch h hc (by simp [hp])
  obtain ⟨-, -, -, -, -, q6, -⟩ := cctxInv_of_inv h hc
  have hopen : b.complete = false := q6 (by simp [hp]) b (by simp [hl])
  have hch : CChange c s (s.stepB5 c b rest) := by
    simpa [State.cStep, hp, State.withFront_cons hl] using s.cStep_change c
  obtain ⟨-, -, -, hr, -, hf, -⟩ := id h
  obtain ⟨-, -, -, -, f5, -, f7⟩ := id hf
  obtain ⟨hsum, hspans⟩ := f7 hmode
  obtain ⟨hun, hend⟩ := hch.account
  simp only [hl, pendingDesc, spansTile, hopen, Bool.false_eq_true, if_false] at hsum hspans
  have hpend : (s.stepB5 c b rest).pending = s.pending - b.descCount :=
    pending_advance_head hr hconf (by omega) rfl rfl rfl
  refine hch.inv h hc hconf (hch.free_le hr hconf (by omega))
    (fifoInv_setFront hf hmode hl rfl rfl rfl rfl rfl ?_ ?_ ?_) ?_
  · obtain ⟨b1, b2, b3, b4, b5, -⟩ := f5 b (by simp [hl])
    exact ⟨b1, b2, b3, b4, b5, nofun⟩
  · simp only [pendingDesc, hun, if_true]
    omega
  · obtain ⟨-, -, hrest⟩ := hspans
    simp only [spansTile, hend, if_true]
    exact hrest
  · rintro _ ⟨⟩
    exact cctxInv_pollBatch hop rfl hconf hmode nofun (by simp) (by rintro - _ ⟨⟩; rfl)

/-- The drain hands out no more than is left (44_batch.md R248). -/
theorem stepB6_inv {b : Batch} {rest : List Batch} (h : s.Inv) (hc : s.cseq = some c) (hp : c.pos = .b6)
    (hl : s.fifo = b :: rest) : (s.stepB6 c b rest).Inv := by
  obtain ⟨hop, hconf, hmode, -⟩ := ready_of_pollBatch h hc (by simp [hp])
  obtain ⟨-, -, -, -, -, -, q7⟩ := cctxInv_of_inv h hc
  have hdone : b.complete = true := q7 (by simp [hp]) b (by simp [hl])
  have hch : CChange c s (s.stepB6 c b rest) := by
    simpa [State.cStep, hp, State.withFront_cons hl] using s.cStep_change c
  obtain ⟨-, -, -, -, -, hf, -⟩ := id h
  obtain ⟨-, -, -, -, f5, -, f7⟩ := id hf
  obtain ⟨hsum, hspans⟩ := f7 hmode
  simp only [hl, pendingDesc, spansTile, hdone, if_true] at hsum hspans
  refine hch.inv h hc hconf (Nat.le_refl _) (fifoInv_setFront hf hmode hl rfl rfl rfl rfl rfl ?_ ?_ ?_) ?_
  · obtain ⟨b1, b2, b3, b4, b5, -⟩ := f5 b (by simp [hl])
    refine ⟨b1, b2, b3, b4, ?_, fun ho => absurd (hdone.symm.trans ho) nofun⟩
    simp only [drainCount]
    omega
  · simp only [pendingDesc, hdone, if_true]
    exact hsum
  · simp only [spansTile, hdone, if_true]
    exact hspans
  · rintro _ ⟨⟩
    exact cctxInv_pollBatch hop rfl hconf hmode nofun (by simp) (by rintro - _ ⟨⟩; exact hdone)

theorem stepB7_inv {b : Batch} {rest : List Batch} (h : s.Inv) (hc : s.cseq = some c) (hp : c.pos = .b7)
    (hl : s.fifo = b :: rest) : (s.stepB7 c b rest).Inv := by
  obtain ⟨-, hconf, -⟩ := ready_of_pollBatch h hc (by simp [hp])
  obtain ⟨-, -, -, -, -, -, q7⟩ := cctxInv_of_inv h hc
  have hdone : b.complete = true := q7 (by simp [hp]) b (by simp [hl])
  have hch : CChange c s (s.stepB7 c b rest) := by
    simpa [State.cStep, hp, State.withFront_cons hl] using s.cStep_change c
  obtain ⟨-, -, -, -, -, hf, hseq⟩ := id h
  unfold State.stepB7 at hch ⊢
  dsimp only at hch ⊢
  split at hch <;> rename_i hn
  · have hpop := fifoInv_pop hf hl hdone
    rw [if_pos hn]
    exact hch.inv h hc hconf (Nat.le_refl _) hpop nofun
  · rw [if_neg hn]
    exact inv_respondC h (aseq_none_of_cseq hseq hc) _ _

/-- Every step of CSEQ keeps a sound state sound. -/
theorem cStep_inv (h : s.Inv) (hc : s.cseq = some c) : (s.cStep c).Inv := by
  have hfront (hp : c.pos = .b2 ∨ c.pos = .b3 ∨ c.pos = .b4 ∨ c.pos = .b5 ∨ c.pos = .b6 ∨ c.pos = .b7)
      {f : Batch → List Batch → State} (hf : ∀ b rest, s.fifo = b :: rest → (f b rest).Inv) :
      (s.withFront c f).Inv := by
    obtain ⟨-, -, -, b, rest, hl⟩ := ready_of_pollBatch h hc hp
    rw [State.withFront_cons hl]
    exact hf b rest hl
  unfold State.cStep
  cases hp : c.pos <;> dsimp only
  case q1 => exact stepQ1_inv h hc hp
  case q2 => exact stepQ2_inv h hc hp
  case q3 => exact stepQ3_inv h hc hp
  case q4 => exact stepQ4_inv h hc hp
  case q5 => exact stepQ5_inv h hc hp
  case q6 => exact inv_respondC h (aseq_none_of_cseq (seqInv_of_inv h) hc) _ _
  case b1 => exact stepB1_inv h hc hp
  case b2 => exact hfront (by simp [hp]) fun _ _ hl => stepB2_inv h hc hp hl
  case b3 => exact stepB3_inv h hc hp
  case b4 => exact hfront (by simp [hp]) fun _ _ _ => stepB4_inv h hc hp
  case b5 => exact hfront (by simp [hp]) fun _ _ hl => stepB5_inv h hc hp hl
  case b6 => exact hfront (by simp [hp]) fun _ _ hl => stepB6_inv h hc hp hl
  case b7 => exact hfront (by simp [hp]) fun _ _ hl => stepB7_inv h hc hp hl

end Consumer

theorem cseqStep_inv (s : State) (h : s.Inv) : s.cseqStep.Inv := by
  cases hc : s.cseq with
  | none => rwa [State.cseqStep_idle hc]
  | some c =>
    rw [State.cseqStep_running hc]
    exact cStep_inv h hc

/-! ### ASEQ -/

/-- A step of ASEQ that constructs no ring, on a constructed one, keeps a sound state sound. -/
theorem AChange.inv {s t : State} {a : ACtx} (hch : AChange s t) (h : s.Inv) (hs : s.aseq = some a)
    (hconf : s.configured = true)
    (hctx : ∀ a' ∈ t.aseq, a'.pos ≠ .check → ∀ k p m r, a'.op ≠ .configure k p m r) : t.Inv := by
  obtain ⟨hp, hm, hd, hr, -, hf, -, -, q3⟩ := h
  obtain ⟨hps, hcs, -⟩ := q3 a hs
  have hpath : t.dev.pathInv s.cfg := by
    obtain e | ⟨code, e⟩ := hch.dev <;> rw [e]
    · exact hd
    · exact Device.admin_pathInv code hd
  rw [hch.frame] at hctx ⊢
  refine ⟨hp, hm, hpath, hr, fun hn => absurd (hconf.symm.trans hn) (by decide), hf, ?_, ?_, ?_⟩
  · intro c hc
    simp [hps] at hc
  · intro c hc
    simp [hcs] at hc
  · exact fun a' ha' => ⟨hps, hcs, fun hpos => ⟨hconf, hctx a' ha' hpos⟩⟩

/-- A response of ASEQ alone. -/
theorem inv_respondA {s : State} (h : s.Inv) (w : Word32) (r : Response) : (s.respondA w r).Inv := by
  obtain ⟨hp, hm, hd, hr, hb, hf, q1, q2, -⟩ := h
  exact ⟨hp, hm, hd, hr, hb, hf, q1, q2, nofun⟩

/-- An empty FIFO on an empty ring, with nothing published that is not pushed. -/
theorem fifoInv_empty {t : State} (hl : t.fifo = []) (hidx : t.head = t.tail) (hs : t.pseq = none) :
    t.fifoInv := by
  unfold State.fifoInv
  rw [hl, unpushed_idle hs, spansEnd_idle hs]
  refine ⟨fun _ => rfl, Nat.zero_le _, List.nodup_nil, nofun, nofun, nofun, fun _ => ⟨?_, hidx⟩⟩
  simp [State.pending, wrapSub, pendingDesc, hidx]

/-- A newly constructed ring is sound: it is empty, and no sequencer runs on it (45_admin.md R280). -/
theorem Constructs.inv {s t : State} {a : ACtx} (hch : Constructs a s t) (h : s.Inv) (hs : s.aseq = some a) :
    t.Inv := by
  obtain ⟨hp, hm, hd, -, -, -, q1, q2, q3⟩ := h
  have hring := hch.ringInv hp
  obtain ⟨-, kind, p, m, r, cap, -, -, rfl⟩ := hch
  obtain ⟨hps, hcs, -⟩ := q3 a hs
  rw [State.constructRing_eq] at hring ⊢
  refine ⟨hp, hm, hd, hring, nofun, fifoInv_empty rfl rfl hps, ?_, ?_, nofun⟩
  · intro c hc
    exact absurd (hps.symm.trans hc) nofun
  · intro c hc
    exact absurd (hcs.symm.trans hc) nofun

theorem stepA1_inv {s : State} {a : ACtx} {k : Kind} {p : Policy} {m : Mode} {r : Idx} (h : s.Inv)
    (hs : s.aseq = some a) (hop : a.op = .configure k p m r) : (s.stepA1 a k p m r).Inv := by
  unfold State.stepA1
  split
  · exact inv_respondA h _ _
  next hc =>
    split
    · exact inv_respondA h _ _
    next cap hr =>
      have hch : Constructs a s
          ((s.constructRing k p m cap).respondA a.word ⟨.ok, BitVec.ofNat 24 cap, []⟩) :=
        ⟨by simpa using hc, k, p, m, r, cap, hop, hr, rfl⟩
      exact hch.inv h hs

theorem stepAdminCheck_inv {s : State} {a : ACtx} (h : s.Inv) (hs : s.aseq = some a)
    (hop : ∀ k p m r, a.op ≠ .configure k p m r) : (s.stepAdminCheck a).Inv := by
  have hch := s.stepAdminCheck_change a
  unfold State.stepAdminCheck at hch ⊢
  split at hch <;> rename_i hconf
  · rw [if_pos hconf]
    refine hch.inv h hs hconf ?_
    rintro _ ⟨⟩ -
    exact hop
  · rw [if_neg hconf]
    exact inv_respondA h _ _

/-- Past its check an administrative operation is no CONFIGURE and the ring is constructed. -/
theorem running_admin {s : State} {a : ACtx} (h : s.Inv) (hs : s.aseq = some a) (hp : a.pos ≠ .check) :
    s.configured = true ∧ ∀ k p m r, a.op ≠ .configure k p m r := by
  obtain ⟨-, -, -, -, -, -, -, -, q3⟩ := h
  obtain ⟨-, -, hrun⟩ := q3 a hs
  exact hrun hp

theorem stepAdminPoll_inv {s : State} {a : ACtx} (h : s.Inv) (hs : s.aseq = some a) (hp : a.pos = .poll) :
    (s.stepAdminPoll a).Inv := by
  obtain ⟨hconf, hop⟩ := running_admin h hs (by simp [hp])
  refine (s.stepAdminPoll_change a).inv h hs hconf ?_
  unfold State.stepAdminPoll
  dsimp only
  split
  · nofun
  · rintro _ ⟨⟩ -
    exact hop

/-- Every step of ASEQ keeps a sound state sound. -/
theorem aStep_inv {s : State} {a : ACtx} (h : s.Inv) (hs : s.aseq = some a) : (s.aStep a).Inv := by
  unfold State.aStep
  cases hp : a.pos <;> dsimp only
  case check =>
    split
    next hop => exact stepA1_inv h hs hop
    all_goals exact stepAdminCheck_inv h hs (by simp [*])
  case write =>
    obtain ⟨hconf, hop⟩ := running_admin h hs (by simp [hp])
    refine (s.stepAdminWrite_change a).inv h hs hconf ?_
    rintro _ ⟨⟩ -
    exact hop
  case poll => exact stepAdminPoll_inv h hs hp
  case expire =>
    obtain ⟨hconf, -⟩ := running_admin h hs (by simp [hp])
    exact (s.stepAdminExpire_change a).inv h hs hconf nofun

theorem aseqStep_inv (s : State) (h : s.Inv) : s.aseqStep.Inv := by
  cases hs : s.aseq with
  | none => rwa [State.aseqStep_idle hs]
  | some a =>
    rw [State.aseqStep_running hs]
    exact aStep_inv h hs

/-! ### Acceptance, reset and the induction -/

theorem startP_inv (s : State) (op : POp) (w : Word32) (rs : List ReqRecord) (hs : s.pseq = none)
    (ha : s.aseq = none)
    (hshape : s.configured = true → s.mode = op.mode → recordShapeOk s.cfg s.mode rs = true) (h : s.Inv) :
    (s.setPseq (some (PCtx.start op w rs))).Inv := by
  have hpos : (PCtx.start op w rs).pos = op.first := by cases op <;> rfl
  have howes : (PCtx.start op w rs).owes = false := by cases op <;> rfl
  have hps : (s.setPseq (some (PCtx.start op w rs))).pseq = some (PCtx.start op w rs) := rfl
  refine inv_setPseq h ha ?_ (fun _ => ?_) ?_
  · rw [unpushed_eq hps, howes, unpushed_idle hs]
    rfl
  · rw [spansEnd_eq hps, howes, spansEnd_idle hs]
    rfl
  · rintro _ ⟨⟩
    refine ⟨by cases op <;> rfl, hshape, fun hne => absurd hpos hne, ?_⟩
    cases op <;> simp [PCtx.start, PPos.filled]

theorem startC_inv (s : State) (op : COp) (w : Word32) (ha : s.aseq = none) (h : s.Inv) :
    (s.setCseq (some (CCtx.start op w))).Inv := by
  refine inv_setCseq h ha ?_
  rintro _ ⟨⟩
  cases op <;> simp [State.cctxInv, CCtx.start, COp.passes]

theorem startA_inv (s : State) (op : AOp) (w : Word32) (hs : s.pseq = none) (hc : s.cseq = none)
    (h : s.Inv) : (s.setAseq (some (ACtx.start op w))).Inv := by
  obtain ⟨hp, hm, hd, hr, hb, hf, q1, q2, -⟩ := h
  refine ⟨hp, hm, hd, hr, hb, hf, q1, q2, ?_⟩
  rintro _ ⟨⟩
  exact ⟨hs, hc, fun hne => absurd rfl hne⟩

/-- A state without a ring and with idle sequencers is sound by its parameters, its memory and its device. -/
theorem inv_of_blank {t : State} (hp : t.cfg.wf = true) (hm : Memory.wf t.mem = true)
    (hd : t.dev.pathInv t.cfg) (hconf : t.configured = false) (hb : t.blankInv) (hs : t.pseq = none)
    (hc : t.cseq = none) (ha : t.aseq = none) : t.Inv := by
  obtain ⟨-, -, -, -, -, -, hhead, htail, -, hfifo⟩ := hb hconf
  refine ⟨hp, hm, hd, fun hn => absurd (hconf.symm.trans hn) nofun, hb,
    fifoInv_empty hfifo (hhead.trans htail.symm) hs, ?_, ?_, ?_⟩
  · rw [hs]
    nofun
  · rw [hc]
    nofun
  · rw [ha]
    nofun

theorem applyReset_inv (s : State) (h : s.Inv) : s.applyReset.Inv := by
  obtain ⟨hp, hm, hd, -⟩ := h
  rw [State.applyReset_eq]
  exact inv_of_blank hp hm hd rfl (fun _ => ⟨rfl, rfl, rfl, rfl, rfl, rfl, rfl, rfl, rfl, rfl⟩) rfl rfl rfl

theorem inv_kept : Kept State.Inv where
  port _ _ h := h
  agenda _ _ h := h
  window _ _ h := h
  now _ _ _ h := h
  respond _ _ _ h := h
  dev := devStep_inv
  program := programDevice_inv
  startP := startP_inv
  startC s op w _ ha h := startC_inv s op w ha h
  startA s op w hs hc _ h := startA_inv s op w hs hc h
  pseq := pseqStep_inv
  cseq := cseqStep_inv
  aseq := aseqStep_inv

/-- Settles O56, by the induction over all transitions. -/
theorem soundStateKept : Obligations.SoundStateKept := fun _ _ h ht =>
  step_keeps inv_kept applyReset_inv h ht

/-! ### After reset (10_state.md R55) -/

/-- Settles O52: the values stand in the definition of the state after reset. -/
theorem resetValues : Obligations.ResetValues :=
  ⟨rfl, rfl, rfl, rfl, rfl, rfl, rfl, rfl, rfl, rfl, rfl, rfl, rfl, rfl, rfl⟩

/-- Settles O57: the default parameters are sound, nothing is written and the device has been told no ring. -/
theorem resetIsSound : Obligations.ResetIsSound :=
  ⟨inv_of_blank (by decide) rfl (fun hc => absurd rfl hc) rfl
    (fun _ => ⟨rfl, rfl, rfl, rfl, rfl, rfl, rfl, rfl, rfl, rfl⟩) rfl rfl rfl, rfl⟩

end Sys2Proof.Machine

/-!
Acceptance (10_state.md R53): the class of a command decides whether it is accepted, and an accepted command
leaves the port.
-/

namespace Sys2Proof.Machine

/-- The class of an instruction's word is the instruction's own (30_encoding.md R111). -/
theorem classOfWord_encode (i : Instr) : classOfWord (encode i) = i.cls := by
  cases i with
  | configure k p m r => exact Laws.ClassEncoded.configure k p m r
  | freeCount => exact Laws.ClassEncoded.freeCount
  | pendingCount => exact Laws.ClassEncoded.pendingCount
  | enqueue n => exact Laws.ClassEncoded.enqueue n
  | dequeue n => exact Laws.ClassEncoded.dequeue n
  | submitBatch n => exact Laws.ClassEncoded.submitBatch n
  | pollBatch n => exact Laws.ClassEncoded.pollBatch n
  | batchAge => exact Laws.ClassEncoded.batchAge
  | start => exact Laws.ClassEncoded.start
  | stop => exact Laws.ClassEncoded.stop
  | flush => exact Laws.ClassEncoded.flush
  | rdreg sel => exact Laws.ClassEncoded.rdreg sel

/-- A reserved opcode is of class Q (30_encoding.md R130). -/
theorem classOfWord_reserved {w : Word32} (h : (opField w).toNat ∈ [0x0, 0xD, 0xE, 0xF]) :
    classOfWord w = .query := by
  simp only [List.mem_cons, List.not_mem_nil, or_false] at h
  unfold classOfWord
  rcases h with e | e | e | e <;> rw [e] <;> rfl

/-- A word that decodes is of the class of its instruction. -/
theorem classOfWord_of_decode {w : Word32} {i : Instr} (h : decode w = .command i) :
    classOfWord w = i.cls := by
  unfold decode at h
  dsimp only at h
  unfold classOfWord
  split at h
  case h_13 => cases h
  all_goals
    next hop =>
      rw [hop]
      split at h <;> cases h
      rfl

/-! ### What acceptance answers -/

/-- A command whose class is not accepted waits, unchanged. -/
theorem acceptInstr_waits {i : Instr} {s : State} (h : s.accepts i.cls = false) :
    acceptInstr i s = .next s := by
  have hP (op : POp) (mode : Mode) (n : Nat) (w : Word32) (h : s.accepts .producer = false) :
      s.acceptProducer op mode n w = .next s := by rw [State.acceptProducer, h]; rfl
  have hC (op : COp) (w : Word32) (h : s.accepts .consumer = false) :
      s.acceptConsumer op w = .next s := by rw [State.acceptConsumer, h]; rfl
  have hA (op : AOp) (w : Word32) (h : s.accepts .admin = false) :
      s.acceptAdmin op w = .next s := by rw [State.acceptAdmin, h]; rfl
  have hQ (w : Word32) (r : Response) (h : s.accepts .query = false) :
      (.next (s.answer w r) : Result) = .next s := by rw [State.answer, h]; rfl
  cases i with
  | configure | start | stop | flush => exact hA _ _ h
  | enqueue | submitBatch => exact hP _ _ _ _ h
  | dequeue | pollBatch => exact hC _ _ h
  | freeCount | pendingCount | batchAge | rdreg => exact hQ _ _ h

/-- A command is answered with the port one command shorter, or its records are refused at the boundary. -/
def Leaves (s : State) (r : Result) : Prop :=
  (∃ t, r = .next t ∧ t.port = s.port.tail) ∨ r = .refused .recordCount ∨ r = .refused .recordShape

theorem Leaves.next {s t : State} (h : t.port = s.port.tail) : Leaves s (.next t) := .inl ⟨t, rfl, h⟩

theorem acceptProducer_leaves {s : State} (op : POp) (mode : Mode) (n : Nat) (w : Word32)
    (h : s.accepts .producer = true) : Leaves s (s.acceptProducer op mode n w) := by
  rw [State.acceptProducer, if_pos h]
  split
  · exact .inr (.inl rfl)
  · split
    · exact .inr (.inr rfl)
    · exact .next rfl

/-- A command whose class is accepted leaves the port, unless its records are refused. -/
theorem acceptInstr_leaves {i : Instr} {s : State} (h : s.accepts i.cls = true) :
    Leaves s (acceptInstr i s) := by
  have hC (op : COp) (w : Word32) (h : s.accepts .consumer = true) :
      Leaves s (s.acceptConsumer op w) := by
    rw [State.acceptConsumer, if_pos h]
    exact .next rfl
  have hA (op : AOp) (w : Word32) (h : s.accepts .admin = true) : Leaves s (s.acceptAdmin op w) := by
    rw [State.acceptAdmin, if_pos h]
    exact .next rfl
  have hQ (w : Word32) (r : Response) (h : s.accepts .query = true) :
      Leaves s (.next (s.answer w r)) := by
    rw [State.answer, if_pos h]
    exact .next rfl
  cases i with
  | configure | start | stop | flush => exact hA _ _ h
  | enqueue | submitBatch => exact acceptProducer_leaves _ _ _ _ h
  | dequeue | pollBatch => exact hC _ _ h
  | freeCount | pendingCount | batchAge | rdreg => exact hQ _ _ h

/-! ### The front command -/

@[simp] theorem State.select_zero (s : State) : s.select 0 = s := by
  have h : (s.port[0]?).toList ++ s.port.eraseIdx 0 = s.port := by cases s.port <;> rfl
  rw [State.select, h]
  rfl

/-- The front command that is not accepted waits, legal or not. -/
theorem withFrontCommand_waits {s : State} {c : Command} {rest : List Command} (hport : s.port = c :: rest)
    (h : s.accepts (classOfWord c.word) = false) : s.withFrontCommand acceptInstr = .next s := by
  unfold State.withFrontCommand
  simp only [hport]
  split
  next i hd => exact acceptInstr_waits (classOfWord_of_decode hd ▸ h)
  · rw [State.answerIllegal, h]
    rfl

/-- The front command that is accepted leaves the port, legal or not. -/
theorem withFrontCommand_leaves {s : State} {c : Command} {rest : List Command} (hport : s.port = c :: rest)
    (h : s.accepts (classOfWord c.word) = true) : Leaves s (s.withFrontCommand acceptInstr) := by
  unfold State.withFrontCommand
  simp only [hport]
  split
  next i hd => exact acceptInstr_leaves (classOfWord_of_decode hd ▸ h)
  · rw [State.answerIllegal, if_pos h]
    exact .next rfl

/-- Settles O6: the condition of each class, the class of a word by its opcode, and what becomes of the front
command. -/
theorem commandsAcceptedByClass : Obligations.CommandsAcceptedByClass := by
  refine ⟨fun s => ?_, ?_, classOfWord_encode, fun w => classOfWord_reserved,
    fun s c rest hport => ⟨?_, ?_⟩⟩
  · simp [and_assoc]
  · intro w w' h
    simp only [classOfWord, opField, h]
  · intro h
    rw [State.perform, State.select_zero, withFrontCommand_waits hport h]
  · intro h
    have hl := withFrontCommand_leaves hport h
    rw [Leaves, hport] at hl
    rw [State.perform, State.select_zero]
    exact hl

end Sys2Proof.Machine

/-!
The registers an instruction can change (10_state.md R39, 45_admin.md R276): an operation carried through ends
with its sequencer idle, and leaves what the other sequencers own.
-/

namespace Sys2Proof.Machine

/-! ### An operation on its way to its response (46_actors.md R316) -/

/-- How many steps of PSEQ are left at a position, at most. -/
def PPos.left : PPos → Nat
  | .s1 => 9
  | .e1 => 8
  | .e2 => 7
  | .e4 => 6
  | .e5 => 5
  | .e6 => 4
  | .e7 => 3
  | .s3 => 2
  | .s4 => 1
  | .e8 => 1

/-- The context after a step of PSEQ: the same operation, nearer to its response. -/
theorem State.pStep_next {s : State} {c c' : PCtx} (h : (s.pStep c).pseq = some c') :
    c'.op = c.op ∧ c'.pos.left < c.pos.left ∧ (c.op.passes c.pos = true → c.op.passes c'.pos = true) := by
  unfold State.pStep at h
  cases hp : c.pos <;> simp only [hp] at h
  case s1 =>
    unfold State.stepS1 at h
    split at h
    · split at h <;> cases h
      exact ⟨rfl, by simp [PPos.left], fun _ => by simp [POp.passes_path]⟩
    · cases h
  case e1 =>
    split at h
    · unfold State.stepE1Checked at h
      split at h <;> cases h
      exact ⟨rfl, by simp [PPos.left], fun _ => by simp [POp.passes_path]⟩
    · cases h
      exact ⟨rfl, by simp [PPos.left], fun _ => by simp [POp.passes_path]⟩
  case e4 =>
    unfold State.stepE4 at h
    dsimp only at h
    split at h <;> cases h <;> exact ⟨rfl, by simp [PPos.left], fun _ => by simp [POp.passes_path]⟩
  case e2 | e5 | e6 =>
    cases h
    exact ⟨rfl, by simp [PPos.left], fun _ => by simp [POp.passes_path]⟩
  case e7 =>
    cases h
    rcases POp.cases c.op with hop | hop <;> simp [hop, POp.passes, PPos.left]
  case s3 =>
    unfold State.stepS3 at h
    split at h <;> cases h
    exact ⟨rfl, by simp [PPos.left], fun hpass => by rw [POp.eq_submitBatch hpass (by simp)]; rfl⟩
  case e8 | s4 => cases h

/-- How many steps of CSEQ are left at a position, at most. -/
def CPos.left : CPos → Nat
  | .q1 => 6
  | .q2 => 5
  | .q3 => 4
  | .q4 => 3
  | .q5 => 2
  | .q6 => 1
  | .b1 => 7
  | .b2 => 6
  | .b3 => 5
  | .b4 => 4
  | .b5 => 3
  | .b6 => 2
  | .b7 => 1

/-- A step on the front batch that finds none ends the operation. -/
theorem State.withFront_next {s : State} {c c' : CCtx} {f : Batch → List Batch → State}
    (h : (s.withFront c f).cseq = some c') : ∃ b rest, (f b rest).cseq = some c' := by
  unfold State.withFront at h
  split at h
  · cases h
  · exact ⟨_, _, h⟩

/-- The context after a step of CSEQ: the same operation, nearer to its response. -/
theorem State.cStep_next {s : State} {c c' : CCtx} (h : (s.cStep c).cseq = some c') :
    c'.op = c.op ∧ c'.pos.left < c.pos.left ∧ (c.op.passes c.pos = true → c.op.passes c'.pos = true) := by
  have hpoll {pos pos' : CPos} (hb : COp.dequeue.passes pos = false) (hb' : COp.pollBatch.passes pos' = true)
      (hpass : c.op.passes pos = true) : c.op.passes pos' = true := by
    cases hop : c.op
    · rw [hop, hb] at hpass
      cases hpass
    · exact hb'
  have hdeq {pos pos' : CPos} (hb : COp.pollBatch.passes pos = false) (hb' : COp.dequeue.passes pos' = true)
      (hpass : c.op.passes pos = true) : c.op.passes pos' = true := by
    cases hop : c.op
    · exact hb'
    · rw [hop, hb] at hpass
      cases hpass
  unfold State.cStep at h
  cases hp : c.pos <;> simp only [hp] at h
  case q1 =>
    unfold State.stepQ1 at h
    split at h <;> cases h
    exact ⟨rfl, by simp [CPos.left], hdeq rfl rfl⟩
  case q2 | q3 | q4 | q5 =>
    cases h
    exact ⟨rfl, by simp [CPos.left], hdeq rfl rfl⟩
  case b1 =>
    unfold State.stepB1 at h
    split at h
    · split at h <;> cases h
      exact ⟨rfl, by simp [CPos.left], hpoll rfl rfl⟩
    · cases h
  case b2 =>
    obtain ⟨b, rest, h⟩ := State.withFront_next h
    cases h
    cases hb : b.complete <;> exact ⟨rfl, by simp [CPos.left], hpoll rfl rfl⟩
  case b3 =>
    cases h
    exact ⟨rfl, by simp [CPos.left], hpoll rfl rfl⟩
  case b4 =>
    obtain ⟨b, rest, h⟩ := State.withFront_next h
    unfold State.stepB4 at h
    split at h <;> cases h
    exact ⟨rfl, by simp [CPos.left], hpoll rfl rfl⟩
  case b5 | b6 =>
    obtain ⟨b, rest, h⟩ := State.withFront_next h
    cases h
    exact ⟨rfl, by simp [CPos.left], hpoll rfl rfl⟩
  case b7 =>
    obtain ⟨b, rest, h⟩ := State.withFront_next h
    cases h
  case q6 => cases h

/-- The operation of ASEQ has at most `n` steps left; within the poll loop the reads made are counted. -/
def ACtx.within (p : Params) (n : Nat) (c : ACtx) : Prop :=
  match c.pos with
  | .check => p.pollMax + 3 ≤ n
  | .write => p.pollMax + 2 ≤ n
  | .poll => c.polls < p.pollMax ∧ p.pollMax - c.polls + 1 ≤ n
  | .expire => 1 ≤ n

/-- Where the poll loop stands after `k` reads, the loop has its remaining reads and the expiry left. -/
theorem within_pollPos {p : Params} {op : AOp} {w : Word32} {k n : Nat} (h : p.pollMax - k + 1 ≤ n) :
    ACtx.within p n ⟨op, w, pollPos p k, k⟩ := by
  unfold pollPos
  split
  next hk => exact ⟨hk, h⟩
  · exact Nat.le_trans (Nat.le_add_left 1 _) h

/-- The context after a step of ASEQ: the same operation, one step nearer to its response. -/
theorem State.aStep_next {s : State} {c c' : ACtx} (h : (s.aStep c).aseq = some c') :
    c'.op = c.op ∧ ∀ n, c.within s.cfg (n + 1) → c'.within s.cfg n := by
  have hcheck (h : (s.stepAdminCheck c).aseq = some c') :
      c'.op = c.op ∧ ∀ n, s.cfg.pollMax + 3 ≤ n + 1 → c'.within s.cfg n := by
    unfold State.stepAdminCheck at h
    split at h <;> cases h
    exact ⟨rfl, fun n hn => Nat.le_of_succ_le_succ hn⟩
  unfold State.aStep at h
  unfold ACtx.within
  cases hp : c.pos <;> simp only [hp] at h ⊢
  case check =>
    split at h
    · unfold State.stepA1 at h
      split at h
      · cases h
      · split at h <;> cases h
    all_goals exact hcheck h
  case write =>
    cases h
    exact ⟨rfl, fun n hn => within_pollPos (by omega)⟩
  case poll =>
    unfold State.stepAdminPoll at h
    dsimp only at h
    split at h <;> cases h
    exact ⟨rfl, fun n hn => within_pollPos (by omega)⟩
  case expire => cases h

/-! ### An operation carried through ends -/

/-- The device steps before an own step leave everything but ring memory, the trace, the schedule and the
device as it was, and DOORBELL too. -/
theorem State.openWindow_eq (s : State) :
    s.openWindow = { s with
      mem := s.openWindow.mem, trace := s.openWindow.trace, dev := s.openWindow.dev
      window := s.openWindow.window } ∧
    s.openWindow.dev.doorbell = s.dev.doorbell := by
  refine openWindow_keeps (P := fun t => t = { s with
    mem := t.mem, trace := t.trace, dev := t.dev, window := t.window } ∧
    t.dev.doorbell = s.dev.doorbell) ?_ ?_ s ⟨rfl, rfl⟩
  · rintro t l ⟨h, hdb⟩
    refine ⟨?_, hdb⟩
    rw [h]
    rfl
  · rintro t d ⟨h, hdb⟩
    obtain ⟨m, tr, v, e, hv, -⟩ := t.devStep_eq d
    rw [e]
    refine ⟨?_, hv.trans hdb⟩
    rw [h]
    rfl

/-- An operation of PSEQ carried on for as many steps as it has left has ended. -/
theorem runP_ends (n : Nat) (s : State) (h : ∀ c, s.pseq = some c → c.pos.left ≤ n) :
    (State.runP n s).pseq = none := by
  induction n generalizing s with
  | zero =>
    cases hs : s.pseq with
    | none => exact hs
    | some c =>
      have := h c hs
      cases hp : c.pos <;> simp [hp, PPos.left] at this
  | succ n ih =>
    cases hs : s.pseq with
    | none => rw [State.runP_idle _ hs, hs]
    | some c =>
      have hw : s.openWindow.pseq = some c := by rw [s.openWindow_eq.1, hs]
      rw [State.runP_running n hs, State.pseqStep_running hw]
      refine ih _ fun c' hc' => ?_
      obtain ⟨-, hlt, -⟩ := State.pStep_next hc'
      have := h c hs
      omega

/-- An operation of CSEQ carried on for as many steps as it has left has ended. -/
theorem runC_ends (n : Nat) (s : State) (h : ∀ c, s.cseq = some c → c.pos.left ≤ n) :
    (State.runC n s).cseq = none := by
  induction n generalizing s with
  | zero =>
    cases hs : s.cseq with
    | none => exact hs
    | some c =>
      have := h c hs
      cases hp : c.pos <;> simp [hp, CPos.left] at this
  | succ n ih =>
    cases hs : s.cseq with
    | none => rw [State.runC_idle _ hs, hs]
    | some c =>
      have hw : s.openWindow.cseq = some c := by rw [s.openWindow_eq.1, hs]
      rw [State.runC_running n hs, State.cseqStep_running hw]
      refine ih _ fun c' hc' => ?_
      obtain ⟨-, hlt, -⟩ := State.cStep_next hc'
      have := h c hs
      omega

/-- An operation of ASEQ carried on for as many steps as it has left has ended. -/
theorem runA_ends (n : Nat) (s : State) (h : ∀ c, s.aseq = some c → c.within s.cfg n) :
    (State.runA n s).aseq = none := by
  induction n generalizing s with
  | zero =>
    cases hs : s.aseq with
    | none => exact hs
    | some c =>
      have := h c hs
      cases hp : c.pos <;> simp [hp, ACtx.within] at this
  | succ n ih =>
    cases hs : s.aseq with
    | none => rw [State.runA_idle _ hs, hs]
    | some c =>
      have hw : s.openWindow.aseq = some c := by rw [s.openWindow_eq.1, hs]
      have hcfg : s.openWindow.cfg = s.cfg := by rw [s.openWindow_eq.1]
      rw [State.runA_running n hs, State.aseqStep_running hw]
      refine ih _ fun c' hc' => ?_
      obtain ⟨-, hin⟩ := State.aStep_next hc'
      have hcfg' : (s.openWindow.aStep c).cfg = s.openWindow.cfg := by
        obtain hch | ⟨-, _, _, _, _, _, -, -, e⟩ := s.openWindow.aStep_change c
        · rw [hch.frame]
        · simp [e, State.constructRing]
      rw [hcfg']
      exact hin n (hcfg ▸ h c hs)

/-! ### What an operation of each class leaves alone -/

/-- All but what PSEQ and the device may write is as it was. -/
def ProducerFrame (s t : State) : Prop :=
  t = { s with
    mem := t.mem, trace := t.trace, tail := t.tail, shadowTail := t.shadowTail, fifo := t.fifo
    pseq := t.pseq, dev := t.dev, choices := t.choices, port := t.port, window := t.window }

/-- All but what CSEQ and the device may write is as it was. -/
def ConsumerFrame (s t : State) : Prop :=
  t = { s with
    mem := t.mem, trace := t.trace, head := t.head, fifo := t.fifo, cseq := t.cseq, dev := t.dev
    port := t.port, window := t.window } ∧
  t.dev.doorbell = s.dev.doorbell

/-- All but what ASEQ and the device may write is as it was. -/
def AdminFrame (s t : State) : Prop :=
  t = { s with
    configured := t.configured, enabled := t.enabled, mode := t.mode, policy := t.policy, kind := t.kind
    capacity := t.capacity, wrapMask := t.wrapMask, head := t.head, tail := t.tail
    shadowTail := t.shadowTail, fifo := t.fifo
    mem := t.mem, trace := t.trace, aseq := t.aseq, dev := t.dev, port := t.port, window := t.window } ∧
  t.dev.doorbell = s.dev.doorbell

/-- All but what START, STOP, FLUSH and the device may write is as it was. -/
def RunningFrame (s t : State) : Prop :=
  t = { s with
    enabled := t.enabled, mem := t.mem, trace := t.trace, aseq := t.aseq, dev := t.dev, port := t.port
    window := t.window }

/-- ASEQ runs no CONFIGURE. -/
def State.noConfigure (s : State) : Prop := ∀ c, s.aseq = some c → ∀ k p m r, c.op ≠ .configure k p m r

theorem runP_frame {s : State} (n : Nat) (u : State) (h : ProducerFrame s u) :
    ProducerFrame s (State.runP n u) := by
  refine runP_keeps (P := ProducerFrame s) ?_ ?_ ?_ n u h
  · intro t l h
    unfold ProducerFrame
    rw [h]
    rfl
  · intro t d h
    obtain ⟨m, tr, v, e, -⟩ := t.devStep_eq d
    rw [e]
    unfold ProducerFrame
    rw [h]
    rfl
  · intro t h
    obtain e | ⟨c, -, hch⟩ := t.pseqStep_change
    · rwa [e]
    · unfold ProducerFrame
      rw [hch.frame, h]

theorem runC_frame {s : State} (n : Nat) (u : State) (h : ConsumerFrame s u) :
    ConsumerFrame s (State.runC n u) := by
  refine runC_keeps (P := ConsumerFrame s) ?_ ?_ ?_ n u h
  · rintro t l ⟨h, hdb⟩
    refine ⟨?_, hdb⟩
    rw [h]
    rfl
  · rintro t d ⟨h, hdb⟩
    obtain ⟨m, tr, v, e, hv, -⟩ := t.devStep_eq d
    rw [e]
    refine ⟨?_, hv.trans hdb⟩
    rw [h]
    rfl
  · rintro t ⟨h, hdb⟩
    obtain e | ⟨c, -, hch⟩ := t.cseqStep_change
    · rw [e]
      exact ⟨h, hdb⟩
    · refine ⟨?_, ?_⟩
      · rw [hch.frame, h]
      · rw [hch.frame]
        exact hdb

theorem runA_frame {s : State} (n : Nat) (u : State) (h : AdminFrame s u) :
    AdminFrame s (State.runA n u) := by
  refine runA_keeps (P := AdminFrame s) ?_ ?_ ?_ n u h
  · rintro t l ⟨h, hdb⟩
    refine ⟨?_, hdb⟩
    rw [h]
    rfl
  · rintro t d ⟨h, hdb⟩
    obtain ⟨m, tr, v, e, hv, -⟩ := t.devStep_eq d
    rw [e]
    refine ⟨?_, hv.trans hdb⟩
    rw [h]
    rfl
  · rintro t ⟨h, hdb⟩
    obtain e | ⟨c, -, hch | ⟨-, _, _, _, _, _, -, -, e⟩⟩ := t.aseqStep_change
    · rw [e]
      exact ⟨h, hdb⟩
    · refine ⟨?_, hch.doorbell.trans hdb⟩
      rw [hch.frame, h]
    · rw [e, State.constructRing_eq]
      refine ⟨?_, hdb⟩
      rw [h]
      rfl

theorem runA_running_frame {s : State} (n : Nat) (u : State) (h : RunningFrame s u) (hop : u.noConfigure) :
    RunningFrame s (State.runA n u) := by
  refine (runA_keeps (P := fun t => RunningFrame s t ∧ t.noConfigure) ?_ ?_ ?_ n u ⟨h, hop⟩).1
  · rintro t l ⟨h, hop⟩
    refine ⟨?_, hop⟩
    unfold RunningFrame
    rw [h]
    rfl
  · rintro t d ⟨h, hop⟩
    obtain ⟨m, tr, v, e, -⟩ := t.devStep_eq d
    rw [e]
    refine ⟨?_, hop⟩
    unfold RunningFrame
    rw [h]
    rfl
  · rintro t ⟨h, hop⟩
    cases ha : t.aseq with
    | none =>
      rw [State.aseqStep_idle ha]
      exact ⟨h, hop⟩
    | some c =>
      obtain hch | ⟨-, k, p, m, r, _, hc, -, -⟩ := t.aStep_change c
      · rw [State.aseqStep_running ha]
        refine ⟨by unfold RunningFrame; rw [hch.frame, h], fun c' hc' => ?_⟩
        rw [(State.aStep_next hc').1]
        exact hop c ha
      · exact absurd hc (hop c ha k p m r)

/-- An ENQUEUE, which passes no step of the coordinator, pushes no batch. -/
theorem runP_enqueue_fifo {s : State} (n : Nat) (h : ∀ c, s.pseq = some c → c.op = .enqueue ∧
    c.op.passes c.pos = true) : (State.runP n s).fifo = s.fifo := by
  refine (runP_keeps (P := fun t => t.fifo = s.fifo ∧ ∀ c, t.pseq = some c → c.op = .enqueue ∧
    c.op.passes c.pos = true) (fun _ _ h => h) ?_ ?_ n s ⟨rfl, h⟩).1
  · intro t d h
    obtain ⟨m, tr, v, e, -⟩ := t.devStep_eq d
    rw [e]
    exact h
  · rintro t ⟨hf, hctx⟩
    cases hc : t.pseq with
    | none =>
      rw [State.pseqStep_idle hc]
      exact ⟨hf, hctx⟩
    | some c =>
      rw [State.pseqStep_running hc]
      obtain ⟨hop, hpass⟩ := hctx c hc
      refine ⟨?_, fun c' hc' => ?_⟩
      · obtain e | ⟨hs4, -⟩ := (t.pStep_change c).fifo
        · exact e.trans hf
        · rw [hop, hs4] at hpass
          cases hpass
      · obtain ⟨hop', -, hpass'⟩ := State.pStep_next hc'
        exact ⟨hop'.trans hop, hop' ▸ hpass' hpass⟩

/-- A DEQUEUE, which passes no step of the coordinator, touches no batch. -/
theorem runC_dequeue_fifo {s : State} (n : Nat) (h : ∀ c, s.cseq = some c → c.op = .dequeue ∧
    c.op.passes c.pos = true) : (State.runC n s).fifo = s.fifo := by
  refine (runC_keeps (P := fun t => t.fifo = s.fifo ∧ ∀ c, t.cseq = some c → c.op = .dequeue ∧
    c.op.passes c.pos = true) (fun _ _ h => h) ?_ ?_ n s ⟨rfl, h⟩).1
  · intro t d h
    obtain ⟨m, tr, v, e, -⟩ := t.devStep_eq d
    rw [e]
    exact h
  · rintro t ⟨hf, hctx⟩
    cases hc : t.cseq with
    | none =>
      rw [State.cseqStep_idle hc]
      exact ⟨hf, hctx⟩
    | some c =>
      rw [State.cseqStep_running hc]
      obtain ⟨hop, hpass⟩ := hctx c hc
      refine ⟨?_, fun c' hc' => ?_⟩
      · obtain e | ⟨hb, -⟩ := (t.cStep_change c).fifo
        · exact e.trans hf
        · rcases hb with hb | hb | hb <;> rw [hop, hb] at hpass <;> cases hpass
      · obtain ⟨hop', -, hpass'⟩ := State.cStep_next hc'
        exact ⟨hop'.trans hop, hop' ▸ hpass' hpass⟩

/-! ### The commands of each class, carried through -/

section Carried

variable {s t : State} {word : Word32}

/-- A class P command waits, or is started and carried on. -/
theorem carryProducer_next {op : POp} {mode : Mode} {n : Nat}
    (h : s.carryProducer op mode n word = .next t) :
    t = s ∨ (s.pseq = none ∧
      t = State.runP stepsP (s.takeCommand.setPseq (some (PCtx.start op word s.handed)))) := by
  unfold State.carryProducer at h
  split at h
  next ha =>
    obtain ⟨u, hu, rfl⟩ := onNext_eq_next h
    obtain ⟨hna, -⟩ | ⟨-, -, -, rfl⟩ := acceptProducer_next hu
    · exact absurd (ha.symm.trans hna) nofun
    · simp at ha
      exact .inr ⟨ha.1, rfl⟩
  · cases h
    exact .inl rfl

/-- A class C command waits, or is started and carried on. -/
theorem carryConsumer_next {op : COp} (h : s.carryConsumer op word = .next t) :
    t = s ∨ (s.cseq = none ∧
      t = State.runC stepsC (s.takeCommand.setCseq (some (CCtx.start op word)))) := by
  unfold State.carryConsumer at h
  split at h
  next ha =>
    obtain ⟨u, hu, rfl⟩ := onNext_eq_next h
    obtain ⟨hna, -⟩ | ⟨-, rfl⟩ := acceptConsumer_next hu
    · exact absurd (ha.symm.trans hna) nofun
    · simp at ha
      exact .inr ⟨ha.1, rfl⟩
  · cases h
    exact .inl rfl

/-- A class A command waits, or is started and carried on. -/
theorem carryAdmin_next {op : AOp} (h : s.carryAdmin op word = .next t) :
    t = s ∨ (s.aseq = none ∧
      t = State.runA (stepsA s.cfg) (s.takeCommand.setAseq (some (ACtx.start op word)))) := by
  unfold State.carryAdmin at h
  split at h
  next ha =>
    obtain ⟨u, hu, rfl⟩ := onNext_eq_next h
    obtain ⟨hna, -⟩ | ⟨-, rfl⟩ := acceptAdmin_next hu
    · exact absurd (ha.symm.trans hna) nofun
    · simp at ha
      exact .inr ⟨ha.2, rfl⟩
  · cases h
    exact .inl rfl

theorem carryProducer_frame {op : POp} {mode : Mode} {n : Nat}
    (h : s.carryProducer op mode n word = .next t) :
    ProducerFrame s t ∧ t.pseq = s.pseq ∧ (op = .enqueue → t.fifo = s.fifo) := by
  obtain rfl | ⟨hs, rfl⟩ := carryProducer_next h
  · exact ⟨rfl, rfl, fun _ => rfl⟩
  · refine ⟨runP_frame _ _ rfl, ?_, ?_⟩
    · rw [hs]
      refine runP_ends _ _ ?_
      rintro _ ⟨⟩
      cases op <;> simp [PCtx.start, PPos.left, stepsP]
    · rintro rfl
      refine runP_enqueue_fifo _ ?_
      rintro _ ⟨⟩
      exact ⟨rfl, rfl⟩

theorem carryConsumer_frame {op : COp} (h : s.carryConsumer op word = .next t) :
    ConsumerFrame s t ∧ t.cseq = s.cseq ∧ (op = .dequeue → t.fifo = s.fifo) := by
  obtain rfl | ⟨hs, rfl⟩ := carryConsumer_next h
  · exact ⟨⟨rfl, rfl⟩, rfl, fun _ => rfl⟩
  · refine ⟨runC_frame _ _ ⟨rfl, rfl⟩, ?_, ?_⟩
    · rw [hs]
      refine runC_ends _ _ ?_
      rintro _ ⟨⟩
      cases op <;> simp [CCtx.start, CPos.left, stepsC]
    · rintro rfl
      refine runC_dequeue_fifo _ ?_
      rintro _ ⟨⟩
      exact ⟨rfl, rfl⟩

theorem carryAdmin_frame {op : AOp} (h : s.carryAdmin op word = .next t) :
    AdminFrame s t ∧ t.aseq = s.aseq ∧ ((∀ k p m r, op ≠ .configure k p m r) → RunningFrame s t) := by
  obtain rfl | ⟨hs, rfl⟩ := carryAdmin_next h
  · exact ⟨⟨rfl, rfl⟩, rfl, fun _ => rfl⟩
  · refine ⟨runA_frame _ _ ⟨rfl, rfl⟩, ?_, fun hop => runA_running_frame _ _ rfl ?_⟩
    · rw [hs]
      refine runA_ends _ _ ?_
      rintro _ ⟨⟩
      exact Nat.le_refl _
    · rintro _ ⟨⟩
      exact hop

end Carried

/-! ### Instructions by class -/

section Classes

variable {s t : State} {i : Instr}

theorem exec_producer (hi : i.cls = .producer) (h : exec i s = .next t) :
    ∃ op mode n word, s.carryProducer op mode n word = .next t ∧
      ((∀ n, i ≠ .submitBatch n) → op = .enqueue) := by
  cases i with
  | enqueue n => exact ⟨_, _, _, _, h, fun _ => rfl⟩
  | submitBatch n => exact ⟨_, _, _, _, h, fun hne => absurd rfl (hne n)⟩
  | _ => cases hi

theorem exec_consumer (hi : i.cls = .consumer) (h : exec i s = .next t) :
    ∃ op word, s.carryConsumer op word = .next t ∧ ((∀ n, i ≠ .pollBatch n) → op = .dequeue) := by
  cases i with
  | dequeue n => exact ⟨_, _, h, fun _ => rfl⟩
  | pollBatch n => exact ⟨_, _, h, fun hne => absurd rfl (hne n)⟩
  | _ => cases hi

theorem exec_admin (hi : i.cls = .admin) (h : exec i s = .next t) :
    ∃ op word, s.carryAdmin op word = .next t ∧
      ((∀ k p m r, i ≠ .configure k p m r) → ∀ k p m r, op ≠ .configure k p m r) := by
  cases i with
  | configure k p m r => exact ⟨_, _, h, fun hne => absurd rfl (hne k p m r)⟩
  | start | stop | flush => exact ⟨_, _, h, fun _ => nofun⟩
  | _ => cases hi

/-- A class Q command changes the port and the trace only. -/
theorem exec_query (hi : i.cls = .query) (h : exec i s = .next t) :
    t = { s with port := t.port, trace := t.trace } := by
  have hanswer (w : Word32) (r : Response) :
      s.answer w r = { s with port := (s.answer w r).port, trace := (s.answer w r).trace } := by
    obtain ⟨-, e⟩ | ⟨-, e⟩ := answer_cases s w r <;> rw [e]
    rfl
  cases i with
  | freeCount | pendingCount | batchAge | rdreg =>
    cases h
    exact hanswer _ _
  | _ => cases hi

end Classes

/-- Settles O10, class by class: what each class leaves alone is what its frame names. -/
theorem registerFrameOfInstructions : Obligations.RegisterFrameOfInstructions := by
  intro s t i h
  cases hi : i.cls with
  | producer =>
    obtain ⟨op, mode, n, word, hc, hop⟩ := exec_producer hi h
    obtain ⟨hf, hseq, hfifo⟩ := carryProducer_frame hc
    unfold ProducerFrame at hf
    refine ⟨⟨?_, ?_, ?_, hseq, ?_, ?_⟩, fun _ => ⟨?_, ?_, ?_, ?_, ?_, ?_, fun _ => ?_,
      fun hne => absurd rfl hne, fun hne _ => hfifo (hop hne)⟩, fun _ => ?_, fun hne => absurd rfl hne⟩ <;> rw [hf]
  | consumer =>
    obtain ⟨op, word, hc, hop⟩ := exec_consumer hi h
    obtain ⟨⟨hf, hdb⟩, hseq, hfifo⟩ := carryConsumer_frame hc
    refine ⟨⟨?_, ?_, ?_, ?_, hseq, ?_⟩, fun _ => ⟨?_, ?_, ?_, ?_, ?_, ?_, fun hne => absurd rfl hne,
      fun _ => ⟨?_, ?_⟩, fun _ hne => hfifo (hop hne)⟩, fun _ => ?_, fun _ => ⟨hdb, ?_⟩⟩ <;> rw [hf]
  | admin =>
    obtain ⟨op, word, hc, hop⟩ := exec_admin hi h
    obtain ⟨⟨hf, hdb⟩, hseq, hrun⟩ := carryAdmin_frame hc
    refine ⟨⟨?_, ?_, ?_, ?_, ?_, hseq⟩, fun hne => ?_, fun hne => absurd rfl hne, fun _ => ⟨hdb, ?_⟩⟩
    case refine_6 =>
      have hr := hrun (hop hne)
      unfold RunningFrame at hr
      refine ⟨?_, ?_, ?_, ?_, ?_, ?_, fun _ => ?_, fun _ => ⟨?_, ?_⟩, fun _ _ => ?_⟩ <;> rw [hr]
    all_goals rw [hf]
  | query =>
    have hf := exec_query hi h
    refine ⟨⟨?_, ?_, ?_, ?_, ?_, ?_⟩, fun _ => ⟨?_, ?_, ?_, ?_, ?_, ?_, fun _ => ?_, fun _ => ⟨?_, ?_⟩,
      fun _ _ => ?_⟩, fun _ => ?_, fun _ => ⟨?_, ?_⟩⟩ <;> rw [hf]

end Sys2Proof.Machine

/-!
A submission appends its references behind the pending ones (10_state.md R38, 42_submission.md R194, R199):
what the fill leaves in the slots, and the ring registers after a submission carried through.
-/

namespace Sys2Proof.Machine

/-! ### The references of consecutive slots -/

/-- The references of the `n` slots from slot `base + a` on. -/
def ringRefs (p : Params) (m : Memory) (mask base : Idx) (a n : Nat) : List Ref :=
  (List.range n).map (fun j => slotRef p m (wrapAdd mask base (a + j)))

theorem State.pendingRefs_eq (s : State) :
    s.pendingRefs = ringRefs s.cfg s.mem s.wrapMask s.head 0 s.pending := by
  simp [State.pendingRefs, ringRefs, State.pendingSlot]

theorem ringRefs_add (p : Params) (m : Memory) (mask base : Idx) (a n n' : Nat) :
    ringRefs p m mask base a (n + n') =
      ringRefs p m mask base a n ++ ringRefs p m mask base (a + n) n' := by
  simp [ringRefs, List.range_add, Nat.add_assoc, Function.comp_def]

theorem ringRefs_congr {p : Params} {m m' : Memory} {mask base : Idx} {a n : Nat}
    (h : ∀ j, a ≤ j → j < a + n → slotRef p m (wrapAdd mask base j) = slotRef p m' (wrapAdd mask base j)) :
    ringRefs p m mask base a n = ringRefs p m' mask base a n := by
  refine List.map_congr_left fun j hj => h (a + j) (by omega) ?_
  have := List.mem_range.1 hj
  omega

/-- Slots counted from `tail` are slots counted from `head`, the pending ones further on. -/
theorem ringRefs_shift {capacity : Idx} {k : Nat} (p : Params) (m : Memory) (base : Idx) (d a n : Nat)
    (hk : k < 24) (hc : capacity.toNat = 2 ^ k) :
    ringRefs p m (capacity - 1) (wrapAdd (capacity - 1) base d) a n =
      ringRefs p m (capacity - 1) base (d + a) n := by
  simp only [ringRefs, wrapAdd_wrapAdd base d _ hk hc, Nat.add_assoc]

theorem ringRefs_one (p : Params) (m : Memory) (mask base : Idx) (a : Nat) :
    ringRefs p m mask base a 1 = [slotRef p m (wrapAdd mask base a)] := rfl

theorem slotRefs_cons (mode : Mode) (r : ReqRecord) (rs : List ReqRecord) :
    slotRefs mode (r :: rs) =
      (if wellFormedRequest mode r then List.replicate (recordNdesc r) (recordRef r) else []) ++
        slotRefs mode rs := List.flatMap_cons

/-! ### What the fill leaves in the slots -/

section Fill

variable {p : Params} {mode : Mode} {policy : Policy} {mask tail x : Idx}

/-- A slot whose bytes are as before keeps its reference. -/
theorem slotRef_of_bytes {m m' : Memory} (hsize : 16 ≤ p.descSize)
    (h : ∀ a, slotAddr p x ≤ a → a < slotAddr p x + p.descSize → Memory.read m a = Memory.read m' a) :
    slotRef p m x = slotRef p m' x :=
  slotRef_congr fun j hj => h _ (by simp only [offRef]; omega) (by simp only [offRef]; omega)

/-- Filling the slots of one request leaves the references of the other slots alone. -/
theorem slotRef_fillSlots_other {ref : Ref} {n : Nat} {blobs : List (List Byte)} {f : Fill}
    (hsize : 16 ≤ p.descSize) (hblobs : ∀ b ∈ blobs, b.length = p.payloadBytes)
    (hx : ∀ j, f.written ≤ j → j < f.written + n → wrapAdd mask tail j ≠ x) :
    slotRef p (fillSlots p mask tail ref n blobs f).bus.mem x = slotRef p f.bus.mem x := by
  refine slotRef_of_bytes hsize fun a h1 h2 => fillSlots_read_outside hsize hblobs fun j hj hj' => ?_
  have := slotAddr_separated (p := p) (hx j hj hj')
  omega

/-- The fill loop leaves the references of the slots it does not count alone. -/
theorem slotRef_fillLoop_other {rs : List ReqRecord} {f : Fill} (hsize : 16 ≤ p.descSize)
    (hshape : recordShapeOk p mode rs = true)
    (hx : ∀ j, f.written ≤ j → j < (fillLoop p mode policy mask tail rs f).written →
      wrapAdd mask tail j ≠ x) :
    slotRef p (fillLoop p mode policy mask tail rs f).bus.mem x = slotRef p f.bus.mem x := by
  refine slotRef_of_bytes hsize fun a h1 h2 => fillLoop_read_outside hsize hshape fun j hj hj' => ?_
  have := slotAddr_separated (p := p) (hx j hj hj')
  omega

/-- The `n` slots of one request hold its reference, each once (42_submission.md R194). -/
theorem ringRefs_fillSlots {capacity : Idx} {k : Nat} (hk : k < 24) (hc : capacity.toNat = 2 ^ k) {ref : Ref}
    {n : Nat} {blobs : List (List Byte)} {f : Fill} (hsize : 16 ≤ p.descSize)
    (hblobs : ∀ b ∈ blobs, b.length = p.payloadBytes) (hwf : Memory.wf f.bus.mem = true)
    (hroom : f.written + n ≤ 2 ^ k) :
    ringRefs p (fillSlots p (capacity - 1) tail ref n blobs f).bus.mem (capacity - 1) tail f.written n =
      List.replicate n ref := by
  induction n generalizing blobs f with
  | zero => rfl
  | succ n ih =>
    have hblobs' : ∀ b ∈ blobs.tail, b.length = p.payloadBytes :=
      fun b hb => hblobs b (List.mem_of_mem_tail hb)
    have hrest := ih (blobs := blobs.tail) (f := fillSlot p (capacity - 1) tail ref (blobs.headD []) f) hblobs'
      (fillSlot_wf hwf) (by rw [fillSlot_written]; omega)
    have hfirst : slotRef p (fillSlots p (capacity - 1) tail ref n blobs.tail
        (fillSlot p (capacity - 1) tail ref (blobs.headD []) f)).bus.mem
        (wrapAdd (capacity - 1) tail f.written) = ref := by
      rw [slotRef_fillSlots_other hsize hblobs', fillSlot_ref hwf]
      intro j h1 h2 e
      rw [fillSlot_written] at h1 h2
      have := wrapAdd_inj tail hk hc (by omega) (by omega) e
      omega
    rw [fillSlot_written] at hrest
    rw [fillSlots, Nat.add_comm n 1, ringRefs_add, ringRefs_one, hfirst, hrest, Nat.add_comm 1 n]
    rfl

/-- The slots the loop counts hold the references of the accepted ones among the requests it consumed. -/
theorem ringRefs_fillLoop {capacity : Idx} {k : Nat} (hk : k < 24) (hc : capacity.toNat = 2 ^ k)
    {rs : List ReqRecord} {f : Fill} (hsize : 16 ≤ p.descSize) (hshape : recordShapeOk p mode rs = true)
    (hwf : Memory.wf f.bus.mem = true) (hroom : f.written + f.avail ≤ 2 ^ k) :
    ∃ n w, (fillLoop p mode policy (capacity - 1) tail rs f).taken = f.taken + n ∧
      (fillLoop p mode policy (capacity - 1) tail rs f).written = f.written + w ∧
      ringRefs p (fillLoop p mode policy (capacity - 1) tail rs f).bus.mem (capacity - 1) tail f.written w =
        slotRefs mode (rs.take n) := by
  have hstop (rs : List ReqRecord) (f : Fill) : ∃ n w, f.taken = f.taken + n ∧ f.written = f.written + w ∧
      ringRefs p f.bus.mem (capacity - 1) tail f.written w = slotRefs mode (rs.take n) :=
    ⟨0, 0, rfl, rfl, rfl⟩
  induction rs generalizing f with
  | nil => exact hstop _ _
  | cons r rs ih =>
    obtain ⟨hshape', hr⟩ := recordShapeOk_cons hshape
    unfold fillLoop
    split
    · exact hstop _ _
    · split
      next hw =>
        split
        · exact hstop _ _
        next hn =>
          obtain ⟨h1, h2, -, h4, -⟩ := f.accept_counts p (capacity - 1) tail r
          obtain ⟨n, w, ht, hwr, hrefs⟩ := ih (f := f.accept p (capacity - 1) tail r) hshape'
            (Fill.accept_wf hwf) (by omega)
          refine ⟨n + 1, recordNdesc r + w, by omega, by omega, ?_⟩
          have hlast : f.written + recordNdesc r + w ≤ 2 ^ k := by
            have := fillLoop_avail_add_written (p := p) (mode := mode) (policy := policy)
              (mask := capacity - 1) (tail := tail) (rs := rs) (f := f.accept p (capacity - 1) tail r)
            omega
          have hkept : ringRefs p (fillLoop p mode policy (capacity - 1) tail rs
              (f.accept p (capacity - 1) tail r)).bus.mem (capacity - 1) tail f.written (recordNdesc r) =
              List.replicate (recordNdesc r) (recordRef r) := by
            refine (ringRefs_congr fun j h1 h2 => ?_).trans
              (ringRefs_fillSlots hk hc hsize (hr hw).2 hwf (by omega))
            refine slotRef_fillLoop_other hsize hshape' fun j' h3 h4 e => ?_
            have := wrapAdd_inj tail hk hc (by omega) (by omega) e
            omega
          rw [List.take_succ_cons, slotRefs_cons, if_pos hw, ringRefs_add, hkept, ← h1, hrefs]
      next hw =>
        cases policy with
        | failFast => exact ⟨1, 0, rfl, rfl, by simp [hw, ringRefs, slotRefs]⟩
        | bestEffort =>
          obtain ⟨n, w, ht, hwr, hrefs⟩ := ih (f := f.reject r) hshape' hwf hroom
          refine ⟨n + 1, w, ?_, hwr, ?_⟩
          · rw [ht]
            exact Nat.add_right_comm ..
          · rw [List.take_succ_cons, slotRefs_cons, if_neg hw]
            exact hrefs

end Fill

/-! ### A submission carried through -/

/-- The ring after a submission: the slots stand, `tail` has moved past them, `head` has not moved. -/
structure SubmittedRing (s : State) (f : Fill) (t : State) : Prop where
  cfg : t.cfg = s.cfg
  mem : t.mem = (s.notified f).mem
  wrapMask : t.wrapMask = s.wrapMask
  head : t.head = s.head
  tail : t.tail = s.newTail f

/-- ENQUEUE on a SLOT ring leaves the ring submitted. -/
theorem runP_enqueue_submitted {u : State} (word : Word32) (rs : List ReqRecord) (hw : u.window = [])
    (hs : u.pseq = none) (hconf : u.configured = true) (hmode : u.mode = .slot) :
    SubmittedRing u (u.submission rs)
      (State.runP stepsP (u.setPseq (some (PCtx.start .enqueue word rs)))) := by
  unfold stepsP PCtx.start
  rw [runP_e1_enqueue u 8 _ _ _ _ _ _ _ _ hw hconf hmode, runP_submission_enqueue u 3 _ _ _ hw,
    runP_e8 _ _ _ _ _ _ _ _ _ _ _ (by exact hw) (by exact hs)]
  exact ⟨rfl, rfl, rfl, rfl, rfl⟩

/-- SUBMIT_BATCH with a free record leaves the ring submitted, whether or not it pushes a batch. -/
theorem runP_submitBatch_submitted {u : State} (word : Word32) (rs : List ReqRecord) (hw : u.window = [])
    (hs : u.pseq = none) (hconf : u.configured = true) (hmode : u.mode = .batch) (hfree : u.freeRecords ≠ 0) :
    SubmittedRing u (u.submission rs)
      (State.runP stepsP (u.setPseq (some (PCtx.start .submitBatch word rs)))) := by
  unfold stepsP PCtx.start
  rw [runP_s1 u 8 _ _ _ _ _ _ _ _ _ hw hconf hmode hfree, runP_e1_submitBatch u 7 _ _ _ _ _ _ _ _ hw,
    runP_submission_submitBatch u 2 _ _ _ hw]
  generalize u.submission rs = f
  by_cases ha : f.accepted = 0
  · rw [ha, runP_s3_empty _ _ _ _ _ _ _ _ _ _ (by exact hw) (by exact hs)]
    exact ⟨rfl, rfl, rfl, rfl, rfl⟩
  · rw [runP_s3 _ _ _ _ _ _ _ _ _ _ _ (by exact hw) ha,
      runP_s4 _ _ _ _ _ _ _ _ _ _ _ (by exact hw) (by exact hs)]
    exact ⟨rfl, rfl, rfl, rfl, rfl⟩

/-- The tail of a sound ring is the slot behind the pending ones. -/
theorem State.tail_eq_wrapAdd {s : State} (hr : s.ringInv) (hconf : s.configured = true) :
    s.tail = wrapAdd s.wrapMask s.head s.pending := by
  obtain ⟨k, hk, hcap, hm, hhead, htail⟩ := s.ringInv_pow hr hconf
  apply BitVec.eq_of_toNat_eq
  rw [State.pending, hm, wrapAdd_toNat _ _ hk hcap, wrapSub_toNat hk hcap htail hhead]
  split
  · rw [Nat.add_sub_cancel' (by assumption), Nat.mod_eq_of_lt htail]
  · rw [show s.head.toNat + (2 ^ k + s.tail.toNat - s.head.toNat) = s.tail.toNat + 2 ^ k by omega,
      Nat.add_mod_right, Nat.mod_eq_of_lt htail]

/-- On a submitted ring the references of the accepted requests stand behind those that were pending. -/
theorem SubmittedRing.pendingRefs {s t : State} {rs : List ReqRecord}
    (h : SubmittedRing s (s.submission rs) t) (hp : s.cfg.wf = true) (hwf : Memory.wf s.mem = true)
    (hr : s.ringInv) (hconf : s.configured = true) (hshape : recordShapeOk s.cfg s.mode rs = true) :
    t.pending = s.pending + (s.submission rs).written ∧
    t.pendingRefs = s.pendingRefs ++ slotRefs s.mode (rs.take (s.submission rs).taken) := by
  have hsum := State.free_add_pending hr hconf
  have htl := State.tail_eq_wrapAdd hr hconf
  obtain ⟨-, hsize, -⟩ := Params.wf_bounds hp
  obtain ⟨k, hk, hcap, hm, -⟩ := s.ringInv_pow hr hconf
  have hpos := Nat.two_pow_pos k
  have hfit : (s.submission rs).written ≤ s.free := by
    have : (s.submission rs).avail + (s.submission rs).written = s.free + 0 := fillLoop_avail_add_written
    omega
  have hpend : t.pending = s.pending + (s.submission rs).written :=
    pending_advance_tail hr hconf hfit h.wrapMask h.head h.tail
  have hnotify (x : Idx) :
      slotRef s.cfg (s.notified (s.submission rs)).mem x = slotRef s.cfg (s.submission rs).bus.mem x := by
    unfold State.notified
    split
    · exact slotRef_writeCtrl .pseq _ hsize
    · rfl
  have hold (j : Nat) (hj : j < s.pending) : slotRef s.cfg t.mem (wrapAdd s.wrapMask s.head j) =
      slotRef s.cfg s.mem (wrapAdd s.wrapMask s.head j) := by
    rw [h.mem, hnotify]
    refine slotRef_fillLoop_other hsize hshape fun j' _ h2 e => ?_
    have h2 : j' < (s.submission rs).written := h2
    rw [htl, hm, wrapAdd_wrapAdd _ _ _ hk hcap] at e
    have := wrapAdd_inj s.head hk hcap (by omega) (by omega) e
    omega
  obtain ⟨n, w, htaken, hwritten, hrefs⟩ := ringRefs_fillLoop (p := s.cfg) (mode := s.mode)
    (policy := s.policy) (tail := s.tail) (rs := rs) hk hcap
    (f := { bus := s.bus, avail := s.free, written := 0, accepted := 0, taken := 0, disp := [] })
    hsize hshape hwf (by simp only; omega)
  rw [← hm] at htaken hwritten hrefs
  have htaken : (s.submission rs).taken = n := htaken.trans (Nat.zero_add n)
  have hwritten : (s.submission rs).written = w := hwritten.trans (Nat.zero_add w)
  refine ⟨hpend, ?_⟩
  calc t.pendingRefs
      = ringRefs s.cfg t.mem s.wrapMask s.head 0 s.pending ++
          ringRefs s.cfg t.mem s.wrapMask s.head (0 + s.pending) w := by
        rw [State.pendingRefs_eq, h.cfg, h.wrapMask, h.head, hpend, ringRefs_add, hwritten]
    _ = s.pendingRefs ++ ringRefs s.cfg t.mem s.wrapMask s.tail 0 w := by
        rw [s.pendingRefs_eq, ringRefs_congr fun j _ hj => hold j (by omega)]
        conv_rhs => rw [htl, hm, ringRefs_shift _ _ _ _ _ _ hk hcap, ← hm, Nat.add_comm]
    _ = s.pendingRefs ++ slotRefs s.mode (rs.take (s.submission rs).taken) := by
        rw [htaken, ← hrefs, h.mem]
        exact congrArg (s.pendingRefs ++ ·) (ringRefs_congr fun j _ _ => hnotify _)

/-- An accepted class P command has records of the right shape and is carried on. -/
theorem carryProducer_accepted {s t : State} {op : POp} {mode : Mode} {n : Nat} {word : Word32}
    (ha : s.accepts .producer = true) (h : s.carryProducer op mode n word = .next t) :
    (s.configured = true → s.mode = mode → recordShapeOk s.cfg s.mode s.handed = true) ∧
    t = State.runP stepsP (s.takeCommand.setPseq (some (PCtx.start op word s.handed))) := by
  unfold State.carryProducer at h
  rw [if_pos ha] at h
  obtain ⟨u, hu, rfl⟩ := onNext_eq_next h
  obtain ⟨hna, -⟩ | ⟨-, -, hshape, rfl⟩ := acceptProducer_next hu
  · exact absurd (ha.symm.trans hna) nofun
  · exact ⟨hshape, rfl⟩

/-- A command taken off the port submits to the same ring. -/
theorem SubmittedRing.of_takeCommand {s t : State} {rs : List ReqRecord}
    (h : SubmittedRing s.takeCommand (s.takeCommand.submission rs) t) :
    SubmittedRing s (s.submission rs) t :=
  ⟨h.cfg, h.mem, h.wrapMask, h.head, h.tail⟩

/-- Settles O25: both submissions leave the ring submitted. -/
theorem submissionAppendsToPending : Obligations.SubmissionAppendsToPending := by
  intro s t i hi hp hwf hr ha hw hconf henq hsub h
  have hs : s.pseq = none := by
    simp at ha
    exact ha.1
  cases i with
  | enqueue n =>
    have hmode := henq ⟨n, rfl⟩
    obtain ⟨hshape, rfl⟩ := carryProducer_accepted ha h
    have hring := runP_enqueue_submitted (u := s.takeCommand) (encode (.enqueue n)) s.handed hw hs hconf hmode
    exact hring.of_takeCommand.pendingRefs hp hwf hr hconf (hshape hconf hmode)
  | submitBatch n =>
    obtain ⟨hmode, hroom⟩ := hsub ⟨n, rfl⟩
    obtain ⟨hshape, rfl⟩ := carryProducer_accepted ha h
    have hfree : s.takeCommand.freeRecords ≠ 0 := by
      simp only [State.freeRecords, State.takeCommand_cfg, State.takeCommand_fifo]
      omega
    have hring := runP_submitBatch_submitted (u := s.takeCommand) (encode (.submitBatch n)) s.handed hw hs hconf
      hmode hfree
    exact hring.of_takeCommand.pendingRefs hp hwf hr hconf (hshape hconf hmode)
  | _ => cases hi

end Sys2Proof.Machine

/-!
Which bytes a command can change (20_memory.md R74): none but a submission that passes its checks writes ring
memory, and that one writes the slots its fill loop counts.
-/

namespace Sys2Proof.Machine

/-! ### Commands that write no byte -/

theorem State.cseqStep_mem_window (s : State) :
    s.cseqStep.mem = s.mem ∧ s.cseqStep.window = s.window := by
  obtain e | ⟨c, -, hch⟩ := s.cseqStep_change
  · simp [e]
  · rw [hch.frame]
    exact ⟨rfl, rfl⟩

/-- Constructing a ring reaches no byte of it either (40_geometry_config.md R159). -/
theorem State.aseqStep_mem_window (s : State) :
    s.aseqStep.mem = s.mem ∧ s.aseqStep.window = s.window := by
  obtain e | ⟨c, -, hch | ⟨-, _, _, _, _, _, -, -, e⟩⟩ := s.aseqStep_change
  · simp [e]
  · rw [hch.frame]
    exact ⟨rfl, rfl⟩
  · rw [e, State.constructRing_eq]
    exact ⟨rfl, rfl⟩

theorem runC_mem {s : State} (n : Nat) (hw : s.window = []) : (State.runC n s).mem = s.mem := by
  induction n generalizing s with
  | zero => rfl
  | succ n ih =>
    obtain ⟨hmem, hwin⟩ := s.cseqStep_mem_window
    unfold State.runC
    split
    · rfl
    · rw [State.openWindow_nil hw, ih (hwin.trans hw), hmem]

theorem runA_mem {s : State} (n : Nat) (hw : s.window = []) : (State.runA n s).mem = s.mem := by
  induction n generalizing s with
  | zero => rfl
  | succ n ih =>
    obtain ⟨hmem, hwin⟩ := s.aseqStep_mem_window
    unfold State.runA
    split
    · rfl
    · rw [State.openWindow_nil hw, ih (hwin.trans hw), hmem]

/-- With no device step inside, a command of another class than P writes no byte. -/
theorem exec_mem_of_not_producer {s t : State} {i : Instr} (hi : i.cls ≠ .producer) (hw : s.window = [])
    (h : exec i s = .next t) : t.mem = s.mem := by
  cases hcls : i.cls with
  | producer => exact absurd hcls hi
  | consumer =>
    obtain ⟨op, word, hc, -⟩ := exec_consumer hcls h
    obtain rfl | ⟨-, rfl⟩ := carryConsumer_next hc
    · rfl
    · exact runC_mem _ hw
  | admin =>
    obtain ⟨op, word, hc, -⟩ := exec_admin hcls h
    obtain rfl | ⟨-, rfl⟩ := carryAdmin_next hc
    · rfl
    · exact runA_mem _ hw
  | query => rw [exec_query hcls h]

/-! ### What a submission leaves in ring memory -/

/-- The checks of E1 and S1 (42_submission.md R191, 44_batch.md R233, R234): what ENQUEUE and SUBMIT_BATCH ask
of the state before they fill a slot. -/
def State.passesChecks (s : State) : POp → Prop
  | .enqueue => s.configured = true ∧ s.mode = .slot
  | .submitBatch => s.configured = true ∧ s.mode = .batch ∧ s.freeRecords ≠ 0

theorem State.passesChecks_configured {s : State} {op : POp} (h : s.passesChecks op) :
    s.configured = true ∧ s.mode = op.mode := by
  cases op with
  | enqueue => exact h
  | submitBatch =>
    obtain ⟨hconf, hmode, -⟩ := h
    exact ⟨hconf, hmode⟩

/-- Taking the command off the port changes nothing the checks look at. -/
@[simp] theorem State.passesChecks_takeCommand (s : State) (op : POp) :
    s.takeCommand.passesChecks op ↔ s.passesChecks op := by
  cases op <;> rfl

/-- A submission that passes its checks leaves the filled slots with the notify flag on the last. -/
theorem runP_mem_of_passesChecks {u : State} {op : POp} (word : Word32) (rs : List ReqRecord)
    (hw : u.window = []) (hs : u.pseq = none) (h : u.passesChecks op) :
    (State.runP stepsP (u.setPseq (some (PCtx.start op word rs)))).mem =
      (u.notified (u.submission rs)).mem := by
  cases op with
  | enqueue =>
    obtain ⟨hconf, hmode⟩ := h
    exact (runP_enqueue_submitted word rs hw hs hconf hmode).mem
  | submitBatch =>
    obtain ⟨hconf, hmode, hfree⟩ := h
    exact (runP_submitBatch_submitted word rs hw hs hconf hmode hfree).mem

/-- A submission that fails a check is answered before it writes a byte. -/
theorem runP_mem_of_not_passesChecks {u : State} {op : POp} (word : Word32) (rs : List ReqRecord)
    (hw : u.window = []) (hs : u.pseq = none) (h : ¬ u.passesChecks op) :
    (State.runP stepsP (u.setPseq (some (PCtx.start op word rs)))).mem = u.mem := by
  unfold stepsP PCtx.start
  cases op with
  | enqueue =>
    rw [runP_e1_refused u 8 _ _ _ _ _ _ _ _ hw hs (by simpa [State.passesChecks] using h)]
    rfl
  | submitBatch =>
    by_cases hready : u.configured = true ∧ u.mode = .batch
    · obtain ⟨hconf, hmode⟩ := hready
      have hfull : u.freeRecords = 0 := by simpa [State.passesChecks, hconf, hmode] using h
      rw [runP_s1_noRecord u 8 _ _ _ _ _ _ _ _ _ hw hs hconf hmode hfull]
      rfl
    · rw [runP_s1_refused u 8 _ _ _ _ _ _ _ _ _ hw hs (by simpa using hready)]
      rfl

theorem carryProducer_waits {s t : State} {op : POp} {mode : Mode} {n : Nat} {word : Word32}
    (ha : s.accepts .producer = false) (h : s.carryProducer op mode n word = .next t) : t = s := by
  unfold State.carryProducer at h
  rw [if_neg (Bool.eq_false_iff.1 ha)] at h
  cases h
  rfl

/-- A class P command writes no byte, or it is accepted, passes its checks and fills slots from well-shaped
records. -/
theorem carryProducer_mem {s t : State} {op : POp} {n : Nat} {word : Word32} (hw : s.window = [])
    (h : s.carryProducer op op.mode n word = .next t) :
    t.mem = s.mem ∨ (s.accepts .producer = true ∧ s.passesChecks op ∧
      recordShapeOk s.cfg s.mode s.handed = true ∧ t.mem = (s.notified (s.submission s.handed)).mem) := by
  cases ha : s.accepts .producer with
  | false => exact .inl (congrArg State.mem (carryProducer_waits ha h))
  | true =>
    obtain ⟨hshape, rfl⟩ := carryProducer_accepted ha h
    have hs : s.pseq = none := by
      simp at ha
      exact ha.1
    by_cases hchecks : s.passesChecks op
    · obtain ⟨hconf, hmode⟩ := State.passesChecks_configured hchecks
      exact .inr ⟨rfl, hchecks, hshape hconf hmode,
        runP_mem_of_passesChecks (u := s.takeCommand) word s.handed hw hs (by simpa using hchecks)⟩
    · exact .inl (runP_mem_of_not_passesChecks (u := s.takeCommand) word s.handed hw hs
        (by simpa using hchecks))

/-- What holds of a command that may have written ring memory: none of the cases that answer without a write is
its case, and it left the slots of the fill loop. -/
structure Submits (i : Instr) (s t : State) : Prop where
  accepted : s.accepts .producer = true
  noErrState : ¬ errStateCase s.configured s.mode i
  room : ∀ n, i = .submitBatch n → s.fifo.length < s.cfg.poolSize
  shape : recordShapeOk s.cfg s.mode s.handed = true
  mem : t.mem = (s.notified (s.submission s.handed)).mem

/-- With no device step inside, ENQUEUE or SUBMIT_BATCH writes no byte or submits. -/
theorem exec_producer_mem {s t : State} {i : Instr} (hi : i.cls = .producer) (hw : s.window = [])
    (h : exec i s = .next t) : t.mem = s.mem ∨ Submits i s t := by
  cases i with
  | enqueue n =>
    refine (carryProducer_mem (op := .enqueue) hw h).imp_right ?_
    rintro ⟨ha, ⟨hconf, hmode⟩, hshape, hmem⟩
    exact ⟨ha, by simp [errStateCase, hconf, hmode], nofun, hshape, hmem⟩
  | submitBatch n =>
    refine (carryProducer_mem (op := .submitBatch) hw h).imp_right ?_
    rintro ⟨ha, ⟨hconf, hmode, hfree⟩, hshape, hmem⟩
    refine ⟨ha, by simp [errStateCase, hconf, hmode], fun _ _ => ?_, hshape, hmem⟩
    unfold State.freeRecords at hfree
    omega
  | _ => cases hi

/-! ### Bytes outside the slots a submission counts -/

theorem not_inSlot {p : Params} {i : Idx} {a : Nat} (h : ¬ inSlot p i a) :
    a < slotAddr p i ∨ slotAddr p i + p.descSize ≤ a := by
  unfold inSlot at h
  omega

/-- The fill loop and the notify flag on the last slot (42_submission.md R192, R198) stay inside the slots
counted. -/
theorem read_notified_outside {s : State} {rs : List ReqRecord} {a : Nat} (hsize : 16 ≤ s.cfg.descSize)
    (hshape : recordShapeOk s.cfg s.mode rs = true)
    (h : ∀ k, k < (s.submission rs).written → ¬ inSlot s.cfg (wrapAdd s.wrapMask s.tail k) a) :
    Memory.read (s.notified (s.submission rs)).mem a = Memory.read s.mem a := by
  have hfill : Memory.read (s.submission rs).bus.mem a = Memory.read s.mem a :=
    fillLoop_read_outside hsize hshape fun k _ hk => not_inSlot (h k hk)
  unfold State.notified
  split
  · rw [read_writeCtrl_outside, hfill]
    have := not_inSlot (h ((s.submission rs).written - 1) (by omega))
    omega
  · exact hfill

/-- Settles O11: by class, and for class P by whether the command submits. -/
theorem memoryFrameOfInstructions : Obligations.MemoryFrameOfInstructions := by
  intro s t i a h hw hsize
  by_cases hi : i.cls = .producer
  · obtain hmem | hsub := exec_producer_mem hi hw h
    · rw [hmem]
      exact ⟨fun _ => rfl, fun _ => rfl, fun _ _ => rfl⟩
    · refine ⟨fun hne => absurd hi hne, ?_, fun _ hout => ?_⟩
      · rintro (hwaits | herr | ⟨⟨n, rfl⟩, hfull⟩)
        · rw [hi, hsub.accepted] at hwaits
          cases hwaits
        · exact absurd herr hsub.noErrState
        · exact absurd (hsub.room n rfl) (Nat.not_lt.2 hfull)
      · rw [hsub.mem]
        exact read_notified_outside hsize hsub.shape hout
  · rw [exec_mem_of_not_producer hi hw h]
    exact ⟨fun _ => rfl, fun _ => rfl, fun _ _ => rfl⟩

end Sys2Proof.Machine

/-!
Encoding (30_encoding.md R110 to R113, R127, R129 to R131): the decoder and the encoder undo each other, the rows
of R129's table are read field by field, and a word that is no command is answered `ERR_ILLEGAL`.
-/

namespace Sys2Proof.Machine

/-! ### The operand fields -/

@[simp] theorem modeOfBit_bitOfMode (m : Mode) : modeOfBit (bitOfMode m) = m := by cases m <;> rfl

@[simp] theorem policyOfBit_bitOfPolicy (p : Policy) : policyOfBit (bitOfPolicy p) = p := by cases p <;> rfl

@[simp] theorem kindOfBit_bitOfKind (k : Kind) : kindOfBit (bitOfKind k) = k := by cases k <;> rfl

/-- Each option stands at its own bit (R112). -/
theorem configureFlags_bits (k : Kind) (p : Policy) (m : Mode) :
    (configureFlags k p m)[0] = bitOfMode m ∧ (configureFlags k p m)[1] = bitOfPolicy p ∧
    (configureFlags k p m)[2] = bitOfKind k ∧ (configureFlags k p m)[3] = false := by
  cases k <;> cases p <;> cases m <;> exact ⟨rfl, rfl, rfl, rfl⟩

/-- Option bits with bit 27 zero are those of the options read from them (R112). -/
theorem configureFlags_of_bits : ∀ f : BitVec 4, f.getLsbD 3 = false →
    configureFlags (kindOfBit (f.getLsbD 2)) (policyOfBit (f.getLsbD 1)) (modeOfBit (f.getLsbD 0)) = f := by
  decide

/-- Bit 27 is the one option bit that the mask of CONFIGURE tests (R129). -/
theorem flags_and_eight_iff : ∀ f : BitVec 4, f &&& 0x8#4 = 0#4 ↔ f.getLsbD 3 = false := by
  decide

/-- An `arg` with bits 23:3 zero is given by its three low bits (R113). -/
theorem append_low_of_high_zero {a : Idx} (h : a.extractLsb' 3 21 = 0#21) : 0#21 ++ a.extractLsb' 0 3 = a := by
  rw [← h]
  exact BitVec.extractLsb'_append_extractLsb' (w := 21) (len := 3)

/-- A word is the word of given fields when its own fields are these. -/
theorem commandWord_eq_of_fields {w : Word32} {op flags : BitVec 4} {arg : Idx} (hop : opField w = op)
    (hflags : flagsField w = flags) (harg : argField w = arg) : commandWord op flags arg = w := by
  subst hop hflags harg
  exact commandWord_fields w

/-- A word under a mask that tests all of `op`, field by field. -/
theorem and_commandWord_iff {w : Word32} {op flags flags' : BitVec 4} {arg arg' : Idx} :
    w &&& commandWord 0xF#4 flags arg = commandWord op flags' arg' ↔
      opField w = op ∧ flagsField w &&& flags = flags' ∧ argField w &&& arg = arg' := by
  have hop : opField w &&& 0xF#4 = opField w := BitVec.and_allOnes
  have hw := commandWord_and (opField w) 0xF#4 (flagsField w) flags (argField w) arg
  rw [commandWord_fields, hop] at hw
  rw [hw, commandWord_inj]

/-! ### The decoder and the encoder undo each other -/

/-- Settles O1: the fields of the word of an instruction are those it was put together from. -/
theorem decodeInvertsEncode : Obligations.DecodeInvertsEncode := by
  intro i
  cases i with
  | configure k p m r =>
    obtain ⟨hmode, hpolicy, hkind, hzero⟩ := configureFlags_bits k p m
    simp [decode, encode, hmode, hpolicy, hkind, hzero]
  | rdreg sel =>
    have hzero : (0#21 ++ sel).extractLsb' 3 21 = 0#21 := BitVec.extractLsb'_append_eq_left
    have hsel : (0#21 ++ sel).extractLsb' 0 3 = sel := BitVec.extractLsb'_append_eq_right
    simp [decode, encode, hzero, hsel]
  | freeCount | pendingCount | enqueue | dequeue | submitBatch | pollBatch | batchAge | start | stop | flush =>
    simp [decode, encode]

/-- A word that decodes is the word of its instruction. -/
theorem encode_of_decode {w : Word32} {i : Instr} (h : decode w = .command i) : encode i = w := by
  have field {n : Nat} (h : (opField w).toNat = n) : opField w = BitVec.ofNat 4 n := by
    rw [← h, BitVec.ofNat_toNat, BitVec.setWidth_eq]
  unfold decode at h
  dsimp only at h
  split at h
  case h_1 hop =>
    split at h <;> cases h
    next hbit =>
      exact commandWord_eq_of_fields (field hop) (configureFlags_of_bits _ (by simpa using hbit)).symm rfl
  case h_2 hop | h_3 hop | h_8 hop | h_9 hop | h_10 hop | h_11 hop =>
    split at h <;> cases h
    next hz => exact commandWord_eq_of_fields (field hop) hz.1 hz.2
  case h_4 hop | h_5 hop | h_6 hop | h_7 hop =>
    split at h <;> cases h
    next hz => exact commandWord_eq_of_fields (field hop) hz rfl
  case h_12 hop =>
    split at h <;> cases h
    next hz => exact commandWord_eq_of_fields (field hop) hz.1 (append_low_of_high_zero hz.2).symm
  case h_13 => cases h

/-- A word decodes to an instruction exactly when it is the instruction's word. -/
theorem decode_eq_command_iff {w : Word32} {i : Instr} : decode w = .command i ↔ encode i = w :=
  ⟨encode_of_decode, fun h => h ▸ decodeInvertsEncode i⟩

/-! ### The rows of R129 -/

/-- The word of an instruction matches the instruction's row. -/
theorem encode_and_mask (i : Instr) : encode i &&& i.row.mask = i.row.pattern := by
  cases i with
  | configure k p m r =>
    obtain ⟨-, -, -, hzero⟩ := configureFlags_bits k p m
    have hbit : configureFlags k p m &&& 0x8#4 = 0#4 := (flags_and_eight_iff _).2 (by simpa using hzero)
    refine (commandWord_and 0x1#4 0xF#4 _ 0x8#4 r 0#24).trans ?_
    rw [hbit, BitVec.and_zero]
    rfl
  | enqueue n | dequeue n | submitBatch n | pollBatch n =>
    refine (commandWord_and _ 0xF#4 0#4 0xF#4 n 0#24).trans ?_
    rw [BitVec.and_zero]
    rfl
  | rdreg sel =>
    have hlow : ∀ sel : BitVec 3, (0#21 ++ sel) &&& 0xFFFFF8#24 = 0#24 := by decide
    refine (commandWord_and 0xC#4 0xF#4 0#4 0xF#4 (0#21 ++ sel) 0xFFFFF8#24).trans ?_
    rw [hlow]
    rfl
  | freeCount | pendingCount | batchAge | start | stop | flush => rfl

theorem row_mem_opcodeRows (i : Instr) : i.row ∈ opcodeRows := by
  cases i <;> simp [Instr.row, opcodeRows]

/-- Every row of R129's table is the row of an instruction. -/
theorem exists_row_of_mem {r : OpcodeRow} (h : r ∈ opcodeRows) : ∃ i : Instr, i.row = r := by
  simp only [opcodeRows, List.mem_cons, List.not_mem_nil, or_false] at h
  rcases h with rfl | rfl | rfl | rfl | rfl | rfl | rfl | rfl | rfl | rfl | rfl | rfl
  exacts [⟨.configure .encode .failFast .slot 0, rfl⟩, ⟨.freeCount, rfl⟩, ⟨.pendingCount, rfl⟩,
    ⟨.enqueue 0, rfl⟩, ⟨.dequeue 0, rfl⟩, ⟨.submitBatch 0, rfl⟩, ⟨.pollBatch 0, rfl⟩, ⟨.batchAge, rfl⟩,
    ⟨.start, rfl⟩, ⟨.stop, rfl⟩, ⟨.flush, rfl⟩, ⟨.rdreg 0, rfl⟩]

/-- A word that matches a row with zero flags and a free `arg` is given by its `arg`. -/
theorem commandWord_argField_of_and_mask {w : Word32} {op : BitVec 4}
    (h : w &&& 0xFF000000#32 = commandWord op 0#4 0#24) : commandWord op 0#4 (argField w) = w := by
  obtain ⟨hop, hflags, -⟩ := (and_commandWord_iff (flags := 0xF#4) (arg := 0#24)).1 h
  exact commandWord_eq_of_fields hop (BitVec.and_allOnes.symm.trans hflags) rfl

/-- A word that matches the row of an instruction is the word of an instruction of that row. -/
theorem exists_encode_of_and_mask {w : Word32} (i : Instr) (h : w &&& i.row.mask = i.row.pattern) :
    ∃ j : Instr, encode j = w ∧ j.row = i.row := by
  cases i with
  | configure =>
    obtain ⟨hop, hbit, -⟩ := (and_commandWord_iff (op := 0x1#4) (flags := 0x8#4) (flags' := 0#4)
      (arg := 0#24) (arg' := 0#24)).1 h
    exact ⟨.configure _ _ _ _, commandWord_eq_of_fields hop
      (configureFlags_of_bits _ ((flags_and_eight_iff _).1 hbit)).symm rfl, rfl⟩
  | enqueue => exact ⟨.enqueue _, commandWord_argField_of_and_mask h, rfl⟩
  | dequeue => exact ⟨.dequeue _, commandWord_argField_of_and_mask h, rfl⟩
  | submitBatch => exact ⟨.submitBatch _, commandWord_argField_of_and_mask h, rfl⟩
  | pollBatch => exact ⟨.pollBatch _, commandWord_argField_of_and_mask h, rfl⟩
  | rdreg =>
    obtain ⟨hop, hflags, harg⟩ := (and_commandWord_iff (op := 0xC#4) (flags := 0xF#4) (flags' := 0#4)
      (arg := 0xFFFFF8#24) (arg' := 0#24)).1 h
    have hhigh : (argField w).extractLsb' 3 21 &&& 0x1FFFFF#21 = 0#21 := by
      simpa [BitVec.extractLsb'_and] using congrArg (BitVec.extractLsb' 3 21) harg
    exact ⟨.rdreg _, commandWord_eq_of_fields hop (BitVec.and_allOnes.symm.trans hflags)
      (append_low_of_high_zero (BitVec.and_allOnes.symm.trans hhigh)).symm, rfl⟩
  | freeCount | pendingCount | batchAge | start | stop | flush =>
    refine ⟨_, ?_, rfl⟩
    exact (BitVec.and_allOnes.symm.trans h).symm

/-- R129: a word that matches a row of the table selects a command of that row. -/
theorem exists_decode_of_and_mask {w : Word32} {r : OpcodeRow} (hr : r ∈ opcodeRows)
    (h : w &&& r.mask = r.pattern) : ∃ i, decode w = .command i ∧ i.row = r := by
  obtain ⟨i, rfl⟩ := exists_row_of_mem hr
  obtain ⟨j, hj, hrow⟩ := exists_encode_of_and_mask i h
  exact ⟨j, decode_eq_command_iff.2 hj, hrow⟩

/-- R129: a word selects a command by the mask and match of the command's row. -/
theorem and_mask_of_decode {w : Word32} {i : Instr} (h : decode w = .command i) :
    i.row ∈ opcodeRows ∧ w &&& i.row.mask = i.row.pattern :=
  ⟨row_mem_opcodeRows i, encode_of_decode h ▸ encode_and_mask i⟩

/-- R129: a word that matches no row is reserved. -/
theorem illegal_of_no_row {w : Word32} (h : ∀ r ∈ opcodeRows, w &&& r.mask ≠ r.pattern) :
    ∃ e, decode w = .illegal e := by
  cases hd : decode w with
  | illegal e => exact ⟨e, rfl⟩
  | command i =>
    obtain ⟨hmem, hmatch⟩ := and_mask_of_decode hd
    exact absurd hmatch (h _ hmem)

/-- Settles O2. The rows are disjoint since the instruction that a word decodes to has one row. -/
theorem decodeSelectsByMaskAndMatch : Obligations.DecodeSelectsByMaskAndMatch := by
  refine ⟨fun w i => and_mask_of_decode, fun w r => exists_decode_of_and_mask, ?_, fun w => illegal_of_no_row⟩
  intro w r r' hr hr' h h'
  obtain ⟨i, hi, rfl⟩ := exists_decode_of_and_mask hr h
  obtain ⟨j, hj, rfl⟩ := exists_decode_of_and_mask hr' h'
  cases hi.symm.trans hj
  rfl

/-- Settles O3: the decoder evaluated on each word. -/
theorem sampleWordsDecode : Obligations.SampleWordsDecode := by
  unfold Obligations.SampleWordsDecode
  decide

/-! ### Words that are no command (R130, R131) -/

/-- The reserved opcodes are those that name no command. -/
theorem decode_eq_reservedOpcode_iff {w : Word32} :
    decode w = .illegal .reservedOpcode ↔ (opField w).toNat ∈ [0x0, 0xD, 0xE, 0xF] := by
  have hlt := (opField w).isLt
  constructor
  · intro h
    unfold decode at h
    dsimp only at h
    split at h
    case h_13 =>
      simp only [imp_false, List.mem_cons, List.not_mem_nil, or_false] at *
      omega
    all_goals split at h <;> cases h
  · intro h
    simp only [List.mem_cons, List.not_mem_nil, or_false] at h
    rcases h with e | e | e | e <;> simp only [decode, e]

/-- An illegal word at the front of the port is answered in one step, if its class is accepted. -/
theorem perform_accept_illegal {w : Word32} {e : DecodeError} (hd : decode w = .illegal e) {s : State}
    {rs : List ReqRecord} {rest : List Command} (hport : s.port = ⟨w, rs⟩ :: rest)
    (ha : s.accepts (classOfWord w) = true) :
    s.perform (.accept 0) = .next (s.answered w ⟨.errIllegal, 0, []⟩) := by
  rw [State.perform, State.select_zero, State.withFrontCommand, hport]
  simp only [hd]
  rw [State.answerIllegal, if_pos ha]
  rfl

/-- Settles O4: the decoder's last arm, of class Q. -/
theorem reservedOpcodesAnswerIllegal : Obligations.ReservedOpcodesAnswerIllegal := by
  refine ⟨decode_eq_reservedOpcode_iff.2 (by decide), fun w hw => ?_⟩
  have hd := decode_eq_reservedOpcode_iff.2 hw
  have hc := classOfWord_reserved hw
  exact ⟨hd, hc, fun s rs rest hport ha => perform_accept_illegal hd hport (hc ▸ ha)⟩

/-- Settles O5: such a word is no command by R129 and its opcode is none of the reserved ones. -/
theorem reservedBitsAnswerIllegal : Obligations.ReservedBitsAnswerIllegal := by
  intro w hlow hhigh hrow
  have hd : decode w = .illegal .reservedBits := by
    obtain ⟨e, hd⟩ := illegal_of_no_row hrow
    cases e with
    | reservedBits => exact hd
    | reservedOpcode =>
      have hop := decode_eq_reservedOpcode_iff.1 hd
      simp only [opField, List.mem_cons, List.not_mem_nil, or_false] at hop
      omega
  refine ⟨hd, fun i hop => ?_, fun s rs rest => perform_accept_illegal hd⟩
  rw [← classOfWord_encode i]
  simp only [classOfWord, opField, hop]

end Sys2Proof.Machine

/-!
The records handed in with a submission (30_encoding.md R128, log 12).
-/

namespace Sys2Proof.Machine

/-- An accepted class P command with a number of records other than `n` is refused at the boundary. -/
theorem carryProducer_refuses_recordCount {s : State} {n : Nat} (op : POp) (mode : Mode) (word : Word32)
    (ha : s.accepts .producer = true) (hn : s.handed.length ≠ n) :
    s.carryProducer op mode n word = .refused .recordCount := by
  have hcount : recordCountOk n s.handed = false := beq_eq_false_iff_ne.2 hn
  rw [State.carryProducer, if_pos ha, State.acceptProducer, if_pos ha, hcount]
  rfl

/-- Settles O26, for both commands that submit. -/
theorem wrongRecordCountRefused : Obligations.WrongRecordCountRefused :=
  fun _ _ ha hn => ⟨carryProducer_refuses_recordCount .enqueue .slot _ ha hn,
    carryProducer_refuses_recordCount .submitBatch .batch _ ha hn⟩

end Sys2Proof.Machine

/-!
Ring Geometry and CONFIGURE (40_geometry_config.md): the capacity `RingSize` answers, the one own step of
CONFIGURE, and what a constructed ring keeps until reset.
-/

namespace Sys2Proof.Machine

/-! ### RingSize (R150, R151) -/

/-- The doubling loop reaches the least power of two that is at least the request, and stops there. -/
theorem ringSizeFrom_eq_pow_clog {requested fuel j : Nat} (hj : j ≤ Nat.clog 2 requested)
    (hfuel : Nat.clog 2 requested ≤ j + fuel) :
    ringSizeFrom requested fuel (2 ^ j) = 2 ^ Nat.clog 2 requested := by
  induction fuel generalizing j with
  | zero => rw [ringSizeFrom, Nat.le_antisymm hj hfuel]
  | succ fuel ih =>
    rw [ringSizeFrom, ← Nat.pow_succ']
    split
    next hlt =>
      have hj' : j < Nat.clog 2 requested := (Nat.lt_clog_iff_pow_lt (by omega)).2 hlt
      exact ih hj' (by omega)
    next hle =>
      have hj' : Nat.clog 2 requested ≤ j := Nat.clog_le_of_le_pow (by omega)
      rw [Nat.le_antisymm hj hj']

/-- Settles O12: the exponent is the ceiling of the request's binary logarithm, so 24 doublings reach it. -/
theorem ringSizeIsLeastPowerOfTwo : Obligations.RingSizeIsLeastPowerOfTwo := by
  intro requested capMax hlt
  have hfuel : Nat.clog 2 requested ≤ 0 + 24 := Nat.clog_le_of_le_pow (by omega)
  refine ⟨Nat.clog 2 requested, Nat.le_pow_clog (by omega) _, fun j => Nat.clog_le_of_le_pow, ?_⟩
  have hloop : ringSizeFrom requested 24 1 = 2 ^ Nat.clog 2 requested :=
    ringSizeFrom_eq_pow_clog (Nat.zero_le _) hfuel
  simp only [ringSize, hloop, gt_iff_lt, ← Nat.not_le, ite_not]

/-! ### CONFIGURE (R155, R157) -/

theorem constructRing_aseq (s : State) (k : Kind) (p : Policy) (m : Mode) (c : Nat) :
    (s.constructRing k p m c).aseq = s.aseq := by
  rw [State.constructRing_eq]

theorem constructRing_setAseq (s : State) (o : Option ACtx) (k : Kind) (p : Policy) (m : Mode) (c : Nat) :
    (s.setAseq o).constructRing k p m c = (s.constructRing k p m c).setAseq o := by
  rw [State.constructRing_eq, State.constructRing_eq]
  rfl

section StepA1

variable {u : State} (hu : u.aseq = none) (o : Option ACtx) (c : ACtx)
  (k : Kind) (p : Policy) (m : Mode) (r : Idx)

include hu

/-- ASEQ's answer on a state that is `u` but for the running context. -/
theorem setAseq_respondA (w : Word32) (resp : Response) : (u.setAseq o).respondA w resp = u.respond w resp :=
  State.setAseq_none (s := u.respond w resp) hu

theorem stepA1_of_configured (hc : u.configured = true) :
    (u.setAseq o).stepA1 c k p m r = u.respond c.word (Response.bare .errState) := by
  rw [State.stepA1, State.setAseq_configured, if_pos hc, setAseq_respondA hu]

theorem stepA1_of_ringSize_none (hc : u.configured = false) (hr : ringSize r.toNat u.cfg.capMax = none) :
    (u.setAseq o).stepA1 c k p m r = u.respond c.word (Response.bare .errGeometry) := by
  simp only [State.stepA1, State.setAseq_configured, State.setAseq_cfg, hc, hr, Bool.false_eq_true, if_false]
  exact setAseq_respondA hu o _ _

theorem stepA1_of_ringSize_some {cap : Nat} (hc : u.configured = false)
    (hr : ringSize r.toNat u.cfg.capMax = some cap) :
    (u.setAseq o).stepA1 c k p m r =
      (u.constructRing k p m cap).respond c.word ⟨.ok, BitVec.ofNat 24 cap, []⟩ := by
  simp only [State.stepA1, State.setAseq_configured, State.setAseq_cfg, hc, hr, Bool.false_eq_true, if_false]
  rw [constructRing_setAseq]
  exact setAseq_respondA ((constructRing_aseq u k p m cap).trans hu) o _ _

end StepA1

/-- Every answer of step A1 ends the operation (46_actors.md R316). -/
theorem stepA1_aseq (s : State) (c : ACtx) (k : Kind) (p : Policy) (m : Mode) (r : Idx) :
    (s.stepA1 c k p m r).aseq = none := by
  unfold State.stepA1
  split
  · rfl
  · split <;> rfl

/-- The context CONFIGURE starts with (10_state.md R51). -/
def configureCtx (k : Kind) (p : Policy) (m : Mode) (r : Idx) : ACtx :=
  ACtx.start (.configure k p m r) (encode (.configure k p m r))

/-- CONFIGURE accepted is step A1 alone, after the device steps scheduled before it. -/
theorem exec_configure_accepted {s : State} (k : Kind) (p : Policy) (m : Mode) (r : Idx)
    (ha : s.accepts .admin = true) :
    exec (.configure k p m r) s = .next ((s.takeCommand.setAseq
      (some (configureCtx k p m r))).openWindow.stepA1 (configureCtx k p m r) k p m r) := by
  have hopen : (s.takeCommand.setAseq (some (configureCtx k p m r))).openWindow.aseq =
      some (configureCtx k p m r) := by
    rw [(State.openWindow_eq _).1, State.setAseq_aseq]
  rw [exec, execConfigure, State.carryAdmin, if_pos ha, State.acceptAdmin, if_pos ha, onNext_next, stepsA,
    State.runA_running _ (State.setAseq_aseq _ _), ← configureCtx, State.aseqStep_running hopen]
  exact congrArg _ (State.runA_idle _ (stepA1_aseq _ _ k p m r))

/-- CONFIGURE not accepted waits (10_state.md R53). -/
theorem exec_configure_waits {s : State} (k : Kind) (p : Policy) (m : Mode) (r : Idx)
    (ha : ¬ s.accepts .admin = true) : exec (.configure k p m r) s = .next s := by
  rw [exec, execConfigure, State.carryAdmin, if_neg ha]

/-- R131: a word of CONFIGURE with bit 27 set. -/
theorem decode_configure_bit27 {w : Word32} (hop : w.extractLsb' 28 4 = 1#4) (hbit : w.getLsbD 27 = true) :
    decode w = .illegal .reservedBits := by
  have hop : (opField w).toNat = 1 := congrArg BitVec.toNat hop
  have hflag : (flagsField w).getLsbD 3 = true := by
    rw [flagsField, BitVec.getLsbD_extractLsb', hbit]
    rfl
  simp only [decode, hop, hflag, if_true]

/-- Settles O13: the three answers of step A1, with no device step scheduled before it. -/
theorem configureConstructsTheRing : Obligations.ConfigureConstructsTheRing := by
  refine ⟨fun _ => decode_configure_bit27, fun s k p m r ha hw => ?_⟩
  have hidle : s.aseq = none := by
    rw [State.accepts_admin, Bool.and_eq_true, Option.isNone_iff_eq_none] at ha
    exact ha.2
  have hexec := exec_configure_accepted k p m r ha
  rw [State.openWindow_nil (by exact hw)] at hexec
  refine ⟨fun hc => ?_, fun hc hr => ?_, fun c hc hr => ?_⟩ <;> rw [hexec]
  · rw [stepA1_of_configured (u := s.takeCommand) hidle _ _ k p m r hc]
    rfl
  · rw [stepA1_of_ringSize_none (u := s.takeCommand) hidle _ _ k p m r hc hr]
    rfl
  · rw [stepA1_of_ringSize_some (u := s.takeCommand) hidle _ _ k p m r hc hr, State.constructRing_eq]
    rfl

/-- On a ring whose indexes are equal nothing is pending (41_capacity.md R172). -/
theorem State.pending_of_head_eq_tail {s : State} (h : s.head = s.tail) : s.pending = 0 := by
  simp [State.pending, wrapSub, h]

/-- A ring within the invariants whose indexes are equal is sound (10_state.md R38). -/
theorem ringSound_of_empty {s : State} (hr : s.ringInv) (h : s.head = s.tail) : s.ringSound := by
  have hp := State.pending_of_head_eq_tail h
  exact ⟨hr, fun hc => ⟨by omega, State.free_add_pending hr hc, fun _ => hp, fun _ => h⟩⟩

/-- CONFIGURE that leaves a constructed ring where there was none constructed it by step A1. -/
theorem exec_configure_constructs {s t : State} {k : Kind} {p : Policy} {m : Mode} {r : Idx}
    (hc : s.configured = false) (h : exec (.configure k p m r) s = .next t) (ht : t.configured = true) :
    ∃ u, u.cfg = s.cfg ∧ Constructs (configureCtx k p m r) u t := by
  by_cases ha : s.accepts .admin = true
  · rw [exec_configure_accepted k p m r ha] at h
    cases h
    have hopen := (State.openWindow_eq (s.takeCommand.setAseq (some (configureCtx k p m r)))).1
    refine ⟨_, ?_, (State.stepA1_change _ _ rfl).resolve_left fun hch => ?_⟩
    · rw [hopen]
      rfl
    · rw [hch.frame, hopen] at ht
      exact absurd (hc.symm.trans ht) nofun
  · rw [exec_configure_waits k p m r ha] at h
    cases h
    exact absurd (hc.symm.trans ht) nofun

/-- Settles O14: the constructed ring is sound and its indexes are 0. -/
theorem configuredRingStartsEmpty : Obligations.ConfiguredRingStartsEmpty := by
  intro s t k p m r hp hc h ht
  obtain ⟨u, hcfg, hch⟩ := exec_configure_constructs hc h ht
  have hring : t.ringInv := hch.ringInv (hcfg ▸ hp)
  obtain ⟨hhead, htail, hen⟩ : t.head = 0 ∧ t.tail = 0 ∧ t.enabled = false := by
    obtain ⟨-, _, _, _, _, _, -, -, rfl⟩ := hch
    rw [State.constructRing_eq]
    exact ⟨rfl, rfl, rfl⟩
  have hidx := hhead.trans htail.symm
  have hpending := State.pending_of_head_eq_tail hidx
  have hsum := State.free_add_pending hring ht
  exact ⟨ringSound_of_empty hring hidx, hhead, htail, hpending, by omega, hen⟩

/-! ### What stays until reset (R156, 10_state.md R54, 70_reset_and_hazards.md R373) -/

/-- What is fixed between two resets: the parameters, and what CONFIGURE gives the ring. -/
structure RingSetup where
  cfg : Params
  configured : Bool
  capacity : Idx
  wrapMask : Idx
  mode : Mode
  policy : Policy
  kind : Kind

/-- The setup of a state. -/
def State.setup (s : State) : RingSetup :=
  ⟨s.cfg, s.configured, s.capacity, s.wrapMask, s.mode, s.policy, s.kind⟩

theorem setup_eq_iff {s t : State} : t.setup = s.setup ↔
    t.cfg = s.cfg ∧ t.configured = s.configured ∧ t.capacity = s.capacity ∧ t.wrapMask = s.wrapMask ∧
    t.mode = s.mode ∧ t.policy = s.policy ∧ t.kind = s.kind :=
  Iff.of_eq (RingSetup.mk.injEq ..)

theorem PChange.setup {c : PCtx} {s t : State} (h : PChange c s t) : t.setup = s.setup := by
  rw [h.frame]
  rfl

theorem CChange.setup {c : CCtx} {s t : State} (h : CChange c s t) : t.setup = s.setup := by
  rw [h.frame]
  rfl

theorem AChange.setup {s t : State} (h : AChange s t) : t.setup = s.setup := by
  rw [h.frame]
  rfl

theorem devStep_setup (s : State) (d : DevStep) : (s.devStep d).setup = s.setup := by
  obtain ⟨m, tr, v, e, -⟩ := s.devStep_eq d
  rw [e]
  rfl

theorem programDevice_setup (s : State) : s.programDevice.setup = s.setup := by
  unfold State.programDevice
  split <;> rfl

theorem pseqStep_setup (s : State) : s.pseqStep.setup = s.setup := by
  obtain e | ⟨c, -, h⟩ := s.pseqStep_change
  · rw [e]
  · exact h.setup

theorem cseqStep_setup (s : State) : s.cseqStep.setup = s.setup := by
  obtain e | ⟨c, -, h⟩ := s.cseqStep_change
  · rw [e]
  · exact h.setup

/-- A property of the setup that the construction of a ring keeps is kept by every transition but reset. -/
theorem kept_of_setup {P : State → Prop} (hset : ∀ s t : State, t.setup = s.setup → P s → P t)
    (hcons : ∀ c s t, Constructs c s t → P s → P t) : Kept P where
  port _ _ := hset _ _ rfl
  agenda _ _ := hset _ _ rfl
  window _ _ := hset _ _ rfl
  now _ _ _ := hset _ _ rfl
  respond _ _ _ := hset _ _ rfl
  dev s d := hset _ _ (devStep_setup s d)
  program s := hset _ _ (programDevice_setup s)
  startP _ _ _ _ _ _ _ := hset _ _ rfl
  startC _ _ _ _ _ := hset _ _ rfl
  startA _ _ _ _ _ _ := hset _ _ rfl
  pseq s := hset _ _ (pseqStep_setup s)
  cseq s := hset _ _ (cseqStep_setup s)
  aseq s h := by
    obtain e | ⟨c, -, hch | hch⟩ := s.aseqStep_change
    · rwa [e]
    · exact hset _ _ hch.setup h
    · exact hcons _ _ _ hch h

theorem Constructs.cfg {c : ACtx} {s t : State} (h : Constructs c s t) : t.cfg = s.cfg := by
  obtain ⟨-, _, _, _, _, _, -, -, rfl⟩ := h
  rw [State.constructRing_eq]
  rfl

/-- The parameters never change (10_state.md R54). -/
theorem step_cfg {s t : State} (h : step s = .next t) : t.cfg = s.cfg := by
  refine step_keeps (P := fun u => u.cfg = s.cfg) (kept_of_setup ?_ ?_) ?_ rfl h
  · exact fun u v e hu => (setup_eq_iff.1 e).1.trans hu
  · exact fun c u v hch hu => hch.cfg.trans hu
  · intro u hu
    rw [State.applyReset_eq]
    exact hu

/-- A constructed ring keeps its setup under every step but reset: CONFIGURE constructs no second one (R156). -/
theorem step_setup {s t : State} (hc : s.configured = true) (hne : s.agenda.head? ≠ some .reset)
    (h : step s = .next t) : t.setup = s.setup := by
  refine step_keeps_unless_reset (P := fun u => u.setup = s.setup) (kept_of_setup ?_ ?_) hne rfl h
  · exact fun u v e hu => e.trans hu
  · rintro c u v ⟨hunconf, -⟩ hu
    obtain ⟨-, hconf, -⟩ := setup_eq_iff.1 hu
    exact absurd (hunconf.symm.trans (hconf.trans hc)) nofun

/-- Settles O58, by the induction over all transitions. -/
theorem geometryFixedUntilReset : Obligations.GeometryFixedUntilReset := by
  refine fun s t h => ⟨step_cfg h, fun hc hne => ?_⟩
  obtain ⟨-, hconf, hring⟩ := setup_eq_iff.1 (step_setup hc hne h)
  exact ⟨hconf.trans hc, hring⟩

end Sys2Proof.Machine

/-!
The Capacity Tracker (41_capacity.md): the two counts of a ring and the queries that answer them.
-/

namespace Sys2Proof.Machine

/-! ### The counts in index arithmetic (R170, R172, R174) -/

/-- Settles O15: the indexes are in order, so that the free slots wrap around the end of the ring, or they
are not, so that the pending ones do. -/
theorem capacityInvariant : Obligations.CapacityInvariant := by
  rintro capacity head tail ⟨k, hk, hcap⟩ hhead htail
  rw [hcap] at hhead htail
  rw [wrapSub_toNat hk hcap htail hhead, freeCount, hcap]
  by_cases h : head.toNat ≤ tail.toNat
  · rw [if_neg (Nat.not_lt.2 h), if_pos h]
    omega
  · rw [if_pos (Nat.not_le.1 h), if_neg h]
    omega

/-- Masking the minuend first does not change a difference around the ring (R14). -/
theorem wrapSub_and_mask {capacity : Idx} {k : Nat} (x b : Idx) (hk : k < 24) (hc : capacity.toNat = 2 ^ k) :
    wrapSub (capacity - 1) (x &&& (capacity - 1)) b = wrapSub (capacity - 1) x b := by
  apply BitVec.eq_of_toNat_eq
  rw [wrapSub, wrapSub, and_mask_toNat _ hc, and_mask_toNat _ hc, BitVec.toNat_sub, BitVec.toNat_sub,
    and_mask_toNat _ hc, Nat.mod_mod_of_dvd _ (pow_dvd_of_lt hk), Nat.mod_mod_of_dvd _ (pow_dvd_of_lt hk),
    Nat.add_mod_mod]

/-- The slot before `a` around the ring is the farthest one from `a` (R176). -/
theorem wrapSub_pred_self {capacity : Idx} {k : Nat} (a : Idx) (hk : k < 24) (hc : capacity.toNat = 2 ^ k) :
    wrapSub (capacity - 1) (wrapSub (capacity - 1) a 1) a = capacity - 1 := by
  have hback : a - 1 - a = BitVec.allOnes 24 :=
    (sub_sub_cancel_left a 1).trans BitVec.neg_one_eq_allOnes
  calc wrapSub (capacity - 1) (wrapSub (capacity - 1) a 1) a
      = wrapSub (capacity - 1) (a - 1) a := wrapSub_and_mask _ _ hk hc
    _ = BitVec.allOnes 24 &&& (capacity - 1) := by rw [wrapSub, hback]
    _ = capacity - 1 := BitVec.allOnes_and

/-! ### The counts of a sound ring (R171, R172) -/

/-- With `tail` just before `head` around the ring, everything but one slot is pending. -/
theorem State.pending_of_tail_before_head {s : State} (h : s.ringInv) (hc : s.configured = true)
    (ht : s.tail = wrapSub s.wrapMask s.head 1) : s.pending = s.capacity.toNat - 1 := by
  obtain ⟨k, hk, hcap, hm, -, -⟩ := s.ringInv_pow h hc
  rw [State.pending, ht, hm, wrapSub_pred_self _ hk hcap, mask_toNat hcap, hcap]

/-- The pending count is the distance from `head` to `tail` around the ring. -/
theorem State.pending_eq_distance {s : State} (h : s.ringInv) (hc : s.configured = true) :
    s.pending = if s.head.toNat ≤ s.tail.toNat then s.tail.toNat - s.head.toNat
      else s.capacity.toNat + s.tail.toNat - s.head.toNat := by
  obtain ⟨k, hk, hcap, hm, hhead, htail⟩ := s.ringInv_pow h hc
  rw [State.pending, hm, wrapSub_toNat hk hcap htail hhead, hcap]

/-! ### The queries (R171, R172; 10_state.md R53) -/

/-- An accepted class Q command is answered in its one step; nothing else changes (R52, R53). -/
theorem State.answer_of_accepts {s : State} (h : s.accepts .query = true) (word : Word32) (r : Response) :
    s.answer word r = s.answered word r := by
  rw [State.answer, if_pos h]
  rfl

theorem encode_freeCount : encode .freeCount = 0x20000000#32 := by decide

theorem encode_pendingCount : encode .pendingCount = 0x30000000#32 := by decide

/-- Settles O16: the answer is step F1; the extreme counts are those of `pending` through the sum
`free + pending`. -/
theorem freeCountAnswers : Obligations.FreeCountAnswers := by
  refine ⟨fun s ha => ?_, fun s hr hc => ?_⟩
  · rw [exec, execFreeCount, State.answer_of_accepts ha, encode_freeCount]
    rfl
  · have hsum := State.free_add_pending hr hc
    refine ⟨by omega, fun hempty => ?_, fun hfull => ?_⟩
    · have := State.pending_of_head_eq_tail hempty
      omega
    · have := State.pending_of_tail_before_head hr hc hfull
      omega

/-- Settles O17: the answer is step N1; the bound is the sum `free + pending`. -/
theorem pendingCountAnswers : Obligations.PendingCountAnswers := by
  refine ⟨fun s ha => ?_, fun s hr hc => ?_⟩
  · rw [exec, execPendingCount, State.answer_of_accepts ha, encode_pendingCount, State.pendingCountResponse,
      State.pending, BitVec.ofNat_toNat, BitVec.setWidth_eq]
    rfl
  · have hsum := State.free_add_pending hr hc
    have hdist := State.pending_eq_distance hr hc
    refine ⟨by omega, fun hle => ?_, fun hlt => ?_⟩
    · rw [hdist, if_pos hle]
    · rw [hdist, if_neg (Nat.not_le.2 hlt)]

end Sys2Proof.Machine

/-!
The fill loop of the Submission Path (42_submission.md R190 to R197): how many requests it consumes, and what
consuming a list of requests to its end does to the counts, the dispositions and ring memory.
-/

namespace Sys2Proof.Machine

/-! ### The slots requests ask for (R194, R197) -/

theorem slotsUsed_cons (mode : Mode) (r : ReqRecord) (rs : List ReqRecord) :
    slotsUsed mode (r :: rs) = (if wellFormedRequest mode r then recordNdesc r else 0) + slotsUsed mode rs := by
  unfold slotsUsed
  split
  next hw => rw [List.filter_cons_of_pos hw, List.map_cons, List.sum_cons]
  next hw => rw [List.filter_cons_of_neg hw, Nat.zero_add]

theorem slotsUsed_of_wellFormed {mode : Mode} {rs : List ReqRecord}
    (h : ∀ r ∈ rs, wellFormedRequest mode r = true) : slotsUsed mode rs = (rs.map recordNdesc).sum := by
  rw [slotsUsed, List.filter_eq_self.2 h]

theorem slotsUsed_filter (mode : Mode) (rs : List ReqRecord) :
    slotsUsed mode (rs.filter (wellFormedRequest mode)) = slotsUsed mode rs := by
  simp [slotsUsed]

/-- A request that is well formed on a SLOT ring has one descriptor (30_encoding.md R118). -/
theorem ndesc_of_wellFormed_slot {r : ReqRecord} (h : wellFormedRequest .slot r = true) : recordNdesc r = 1 := by
  simp only [wellFormedRequest, Bool.and_eq_true, beq_iff_eq] at h
  exact h.2

/-- On a SLOT ring every accepted request takes one slot (R197). -/
theorem slotsUsed_slot (rs : List ReqRecord) :
    slotsUsed .slot rs = (rs.filter (wellFormedRequest .slot)).length := by
  have hone : ∀ n ∈ (rs.filter (wellFormedRequest .slot)).map recordNdesc, n = 1 := by
    simp only [List.mem_map, List.mem_filter]
    rintro _ ⟨r, ⟨-, hw⟩, rfl⟩
    exact ndesc_of_wellFormed_slot hw
  rw [slotsUsed, List.eq_replicate_of_mem hone, List.sum_replicate, List.length_map, smul_eq_mul, Nat.mul_one]

/-- Reference and payload of the slots one accepted request fills. A missing blob counts as empty, as in
`fillSlots`. -/
def requestSlots (r : ReqRecord) : List (Ref × List Byte) :=
  (List.range (recordNdesc r)).map (fun j => (recordRef r, r.payload.getD j []))

/-- Reference and payload of the slots the accepted ones among consumed requests fill, in order. -/
def filledSlots (mode : Mode) (rs : List ReqRecord) : List (Ref × List Byte) :=
  (rs.filter (wellFormedRequest mode)).flatMap requestSlots

theorem filledSlots_cons (mode : Mode) (r : ReqRecord) (rs : List ReqRecord) :
    filledSlots mode (r :: rs) =
      (if wellFormedRequest mode r then requestSlots r else []) ++ filledSlots mode rs := by
  unfold filledSlots
  split
  next hw => rw [List.filter_cons_of_pos hw, List.flatMap_cons]
  next hw => rw [List.filter_cons_of_neg hw, List.nil_append]

theorem filledSlots_filter (mode : Mode) (rs : List ReqRecord) :
    filledSlots mode (rs.filter (wellFormedRequest mode)) = filledSlots mode rs := by
  simp [filledSlots]

theorem filledSlots_length (mode : Mode) (rs : List ReqRecord) :
    (filledSlots mode rs).length = slotsUsed mode rs := by
  simp [filledSlots, slotsUsed, requestSlots, List.length_flatMap]

/-- Requests that bring a blob for each descriptor fill the slots with just these (30_encoding.md R118). -/
theorem filledSlots_eq_slotContents {p : Params} {mode : Mode} {rs : List ReqRecord}
    (h : recordShapeOk p mode rs = true) : filledSlots mode rs = slotContents mode rs := by
  induction rs with
  | nil => rfl
  | cons r rs ih =>
    obtain ⟨hrs, hr⟩ := recordShapeOk_cons h
    rw [filledSlots_cons, ih hrs, slotContents, slotContents, List.flatMap_cons]
    congr 1
    split
    next hw =>
      obtain ⟨hlen, -⟩ := hr hw
      refine List.ext_getElem (by simp [requestSlots, hlen]) fun j h1 h2 => ?_
      simp only [List.length_map] at h2
      simp [requestSlots, h2]
    · rfl

/-- The blobs of requests of the right shape have the size of a slot's payload. -/
theorem filledSlots_blob_length {p : Params} {mode : Mode} {rs : List ReqRecord}
    (h : recordShapeOk p mode rs = true) {c : Ref × List Byte} (hc : c ∈ filledSlots mode rs) :
    c.2.length = p.payloadBytes := by
  simp only [filledSlots_eq_slotContents h, slotContents, List.mem_flatMap] at hc
  obtain ⟨r, hr, hc⟩ := hc
  split at hc
  next hw =>
    simp only [List.mem_map] at hc
    obtain ⟨b, hb, rfl⟩ := hc
    have hfit := List.all_eq_true.1 h r hr
    simp only [hw, payloadFits, Bool.not_true, Bool.false_or, Bool.and_eq_true, List.all_eq_true,
      beq_iff_eq] at hfit
    exact hfit.2 b hb
  · cases hc

theorem recordShapeOk_take {p : Params} {mode : Mode} {rs : List ReqRecord}
    (h : recordShapeOk p mode rs = true) (n : Nat) : recordShapeOk p mode (rs.take n) = true :=
  List.all_eq_true.2 fun r hr => List.all_eq_true.1 h r (List.mem_of_mem_take hr)

theorem dispositions_cons (mode : Mode) (r : ReqRecord) (rs : List ReqRecord) :
    dispositions mode (r :: rs) =
      .disp (recordRef r) (if wellFormedRequest mode r then .accepted else .malformed) :: dispositions mode rs := rfl

theorem dispositions_append (mode : Mode) (rs rs' : List ReqRecord) :
    dispositions mode (rs ++ rs') = dispositions mode rs ++ dispositions mode rs' := List.map_append

theorem dispositions_of_wellFormed {mode : Mode} {rs : List ReqRecord}
    (h : ∀ r ∈ rs, wellFormedRequest mode r = true) :
    dispositions mode rs = rs.map fun r => .disp (recordRef r) .accepted :=
  List.map_congr_left fun r hr => by rw [if_pos (h r hr)]

/-! ### How far the loop goes (R195) -/

/-- The number of requests the loop consumes with `avail` free slots. -/
def consumedCount (mode : Mode) (policy : Policy) : List ReqRecord → Nat → Nat
  | [], _ => 0
  | r :: rs, avail =>
    if avail = 0 then 0
    else if wellFormedRequest mode r then
      if recordNdesc r > avail then 0
      else consumedCount mode policy rs (avail - recordNdesc r) + 1
    else
      match policy with
      | .failFast => 1
      | .bestEffort => consumedCount mode policy rs avail + 1

section Consumed

variable {mode : Mode} {policy : Policy} {rs : List ReqRecord} {avail : Nat}

theorem consumedCount_full (mode : Mode) (policy : Policy) (rs : List ReqRecord) :
    consumedCount mode policy rs 0 = 0 := by
  cases rs <;> rfl

theorem consumedCount_accept {r : ReqRecord} (h0 : avail ≠ 0) (hw : wellFormedRequest mode r = true)
    (hfit : recordNdesc r ≤ avail) :
    consumedCount mode policy (r :: rs) avail = consumedCount mode policy rs (avail - recordNdesc r) + 1 := by
  rw [consumedCount.eq_def]
  exact (if_neg h0).trans ((if_pos hw).trans (if_neg (Nat.not_lt.2 hfit)))

theorem consumedCount_failFast {r : ReqRecord} (h0 : avail ≠ 0) (hw : ¬ wellFormedRequest mode r = true) :
    consumedCount mode .failFast (r :: rs) avail = 1 := by
  rw [consumedCount.eq_def]
  exact (if_neg h0).trans (if_neg hw)

theorem consumedCount_bestEffort {r : ReqRecord} (h0 : avail ≠ 0) (hw : ¬ wellFormedRequest mode r = true) :
    consumedCount mode .bestEffort (r :: rs) avail = consumedCount mode .bestEffort rs avail + 1 := by
  rw [consumedCount.eq_def]
  exact (if_neg h0).trans (if_neg hw)

theorem consumedCount_le_length : consumedCount mode policy rs avail ≤ rs.length := by
  fun_induction consumedCount mode policy rs avail with
  | case1 | case2 | case3 => exact Nat.zero_le _
  | case4 _ _ _ _ _ _ ih => exact Nat.succ_le_succ ih
  | case5 => exact Nat.succ_le_succ (Nat.zero_le _)
  | case6 _ _ _ _ _ hp ih =>
    subst hp
    exact Nat.succ_le_succ ih

/-- The consumed requests fit into the free slots. -/
theorem slotsUsed_consumed_le : slotsUsed mode (rs.take (consumedCount mode policy rs avail)) ≤ avail := by
  fun_induction consumedCount mode policy rs avail with
  | case1 | case2 | case3 => exact Nat.zero_le _
  | case4 _ _ _ _ hw _ ih =>
    rw [List.take_succ_cons, slotsUsed_cons, if_pos hw]
    omega
  | case5 _ _ _ _ hw =>
    rw [List.take_succ_cons, slotsUsed_cons, if_neg hw]
    exact Nat.zero_le _
  | case6 _ _ _ _ hw hp ih =>
    subst hp
    rw [List.take_succ_cons, slotsUsed_cons, if_neg hw, Nat.zero_add]
    exact ih

/-- Before each consumed request a slot was still free. -/
theorem slotsUsed_before_consumed :
    ∀ i < consumedCount mode policy rs avail, slotsUsed mode (rs.take i) < avail := by
  fun_induction consumedCount mode policy rs avail with
  | case1 | case2 | case3 => exact nofun
  | case4 _ _ _ h0 hw _ ih =>
    refine Nat.forall_lt_succ_left.2 ⟨Nat.pos_of_ne_zero h0, fun i hi => ?_⟩
    have := ih i hi
    rw [List.take_succ_cons, slotsUsed_cons, if_pos hw]
    omega
  | case5 _ _ _ h0 => exact Nat.forall_lt_succ_left.2 ⟨Nat.pos_of_ne_zero h0, nofun⟩
  | case6 _ _ _ h0 hw hp ih =>
    subst hp
    refine Nat.forall_lt_succ_left.2 ⟨Nat.pos_of_ne_zero h0, fun i hi => ?_⟩
    rw [List.take_succ_cons, slotsUsed_cons, if_neg hw, Nat.zero_add]
    exact ih i hi

/-- Under FAIL_FAST only the last consumed request can be malformed (R193). -/
theorem wellFormed_of_failFast (hp : policy = .failFast) :
    ∀ i r, i + 1 < consumedCount mode policy rs avail → rs[i]? = some r → wellFormedRequest mode r = true := by
  fun_induction consumedCount mode policy rs avail with
  | case1 | case2 | case3 => exact nofun
  | case4 _ _ _ _ hw _ ih =>
    intro i r hi hr
    cases i with
    | zero =>
      cases hr
      exact hw
    | succ i => exact ih i r (Nat.lt_of_succ_lt_succ hi) hr
  | case5 => exact fun i r hi => absurd hi (by omega)
  | case6 _ _ _ _ _ hbest => exact absurd (hp.symm.trans hbest) nofun

/-- The four ends of the loop after `n` requests with `left` free slots (R195): the input exhausted, no slot left,
FAIL_FAST at a malformed request, or a well-formed request that does not fit. -/
def LoopEnds (mode : Mode) (policy : Policy) (rs : List ReqRecord) (n left : Nat) : Prop :=
  n = rs.length ∨ left = 0 ∨
  (policy = .failFast ∧ ∃ i r, n = i + 1 ∧ rs[i]? = some r ∧ wellFormedRequest mode r = false) ∨
  ∃ r, rs[n]? = some r ∧ wellFormedRequest mode r = true ∧ left < recordNdesc r

theorem LoopEnds.cons {n left : Nat} (h : LoopEnds mode policy rs n left) (r : ReqRecord) :
    LoopEnds mode policy (r :: rs) (n + 1) left := by
  refine h.imp (congrArg (· + 1)) (.imp_right (.imp_left ?_))
  rintro ⟨hp, i, q, hn, hq, hbad⟩
  exact ⟨hp, i + 1, q, congrArg (· + 1) hn, hq, hbad⟩

theorem loopEnds_consumedCount : LoopEnds mode policy rs (consumedCount mode policy rs avail)
    (avail - slotsUsed mode (rs.take (consumedCount mode policy rs avail))) := by
  fun_induction consumedCount mode policy rs avail with
  | case1 => exact .inl rfl
  | case2 => exact .inr (.inl rfl)
  | case3 r _ _ _ hw hlarge => exact .inr (.inr (.inr ⟨r, rfl, hw, hlarge⟩))
  | case4 r _ _ _ hw _ ih =>
    rw [List.take_succ_cons, slotsUsed_cons, if_pos hw, Nat.sub_add_eq]
    exact ih.cons r
  | case5 r _ _ _ hw hp => exact .inr (.inr (.inl ⟨hp, 0, r, rfl, rfl, Bool.eq_false_iff.2 hw⟩))
  | case6 r _ _ _ hw hp ih =>
    subst hp
    rw [List.take_succ_cons, slotsUsed_cons, if_neg hw, Nat.zero_add]
    exact ih.cons r

/-- Requests that fit with room left, none of them malformed under FAIL_FAST, are consumed to the end, and the
loop goes on behind them (R193, R195). -/
theorem consumedCount_append {pre post : List ReqRecord} (hroom : slotsUsed mode pre < avail)
    (hpre : policy = .failFast → ∀ r ∈ pre, wellFormedRequest mode r = true) :
    consumedCount mode policy (pre ++ post) avail =
      pre.length + consumedCount mode policy post (avail - slotsUsed mode pre) := by
  induction pre generalizing avail with
  | nil => exact (Nat.zero_add _).symm
  | cons r pre ih =>
    have htail : policy = .failFast → ∀ r ∈ pre, wellFormedRequest mode r = true :=
      fun hp r hr => hpre hp r (List.mem_cons_of_mem _ hr)
    rw [slotsUsed_cons] at hroom ⊢
    rw [List.cons_append, List.length_cons, Nat.add_right_comm]
    split
    next hw =>
      rw [if_pos hw] at hroom
      rw [consumedCount_accept (by omega) hw (by omega), ih (by omega) htail, Nat.sub_add_eq]
    next hw =>
      rw [if_neg hw, Nat.zero_add] at hroom
      cases policy with
      | failFast => exact absurd (hpre rfl r List.mem_cons_self) hw
      | bestEffort => rw [consumedCount_bestEffort (by omega) hw, ih hroom htail, Nat.zero_add]

theorem consumedCount_eq_length (hroom : slotsUsed mode rs < avail)
    (hrs : policy = .failFast → ∀ r ∈ rs, wellFormedRequest mode r = true) :
    consumedCount mode policy rs avail = rs.length := by
  have h := consumedCount_append (post := []) hroom hrs
  rwa [List.append_nil] at h

end Consumed

/-! ### Requests consumed to the end -/

/-- One request consumed: accepted or, when malformed, rejected (R193). -/
def Fill.consume (p : Params) (mode : Mode) (mask tail : Idx) (f : Fill) (r : ReqRecord) : Fill :=
  if wellFormedRequest mode r then f.accept p mask tail r else f.reject r

/-- Requests consumed one after the other, whatever room there is. -/
def Fill.consumeAll (f : Fill) (p : Params) (mode : Mode) (mask tail : Idx) (rs : List ReqRecord) : Fill :=
  rs.foldl (Fill.consume p mode mask tail) f

/-- The fill loop consumes the requests in front, as many as `consumedCount` says. -/
theorem fillLoop_eq_consumeAll (p : Params) (mode : Mode) (policy : Policy) (mask tail : Idx)
    (rs : List ReqRecord) (f : Fill) :
    fillLoop p mode policy mask tail rs f =
      f.consumeAll p mode mask tail (rs.take (consumedCount mode policy rs f.avail)) := by
  induction rs generalizing f with
  | nil => rfl
  | cons r rs ih =>
    unfold fillLoop consumedCount
    split
    · rfl
    · split
      next hw =>
        split
        · rfl
        · obtain ⟨-, havail, -⟩ := f.accept_counts p mask tail r
          rw [ih, havail, List.take_succ_cons, Fill.consumeAll, Fill.consumeAll, List.foldl_cons, Fill.consume,
            if_pos hw]
      next hw =>
        have hreject : f.consume p mode mask tail r = f.reject r := if_neg hw
        cases policy with
        | failFast => exact hreject.symm
        | bestEffort =>
          rw [ih]
          exact congrArg (Fill.consumeAll · ..) hreject.symm

/-- The counts and dispositions of requests consumed to the end (R193, R197, R202). -/
theorem Fill.consumeAll_counts (f : Fill) (p : Params) (mode : Mode) (mask tail : Idx) (rs : List ReqRecord) :
    (f.consumeAll p mode mask tail rs).taken = f.taken + rs.length ∧
    (f.consumeAll p mode mask tail rs).accepted = f.accepted + (rs.filter (wellFormedRequest mode)).length ∧
    (f.consumeAll p mode mask tail rs).written = f.written + slotsUsed mode rs ∧
    (f.consumeAll p mode mask tail rs).avail = f.avail - slotsUsed mode rs ∧
    (f.consumeAll p mode mask tail rs).disp = f.disp ++ dispositions mode rs := by
  induction rs generalizing f with
  | nil => exact ⟨rfl, rfl, rfl, rfl, (List.append_nil _).symm⟩
  | cons r rs ih =>
    obtain ⟨ht, ha, hwr, hav, hd⟩ := ih (f.consume p mode mask tail r)
    rw [Fill.consumeAll, List.foldl_cons, ← Fill.consumeAll, ht, ha, hwr, hav, hd, slotsUsed_cons,
      dispositions_cons, List.length_cons]
    by_cases hw : wellFormedRequest mode r = true
    · obtain ⟨e1, e2, e3, e4, e5⟩ := f.accept_counts p mask tail r
      rw [Fill.consume, if_pos hw, if_pos hw, if_pos hw, List.filter_cons_of_pos hw, e1, e2, e3, e4, e5,
        List.length_cons, List.append_assoc]
      exact ⟨by omega, by omega, by omega, by omega, rfl⟩
    · obtain ⟨-, e1, e2, e3, e4, e5⟩ := f.reject_counts r
      rw [Fill.consume, if_neg hw, if_neg hw, if_neg hw, List.filter_cons_of_neg hw, e1, e2, e3, e4, e5,
        Nat.zero_add, List.append_assoc]
      exact ⟨by omega, rfl, rfl, rfl, rfl⟩

/-! ### Ring memory and trace -/

/-- Slot `tail + j` filled with reference and payload `c`. -/
def Bus.fillSlot (p : Params) (mask tail : Idx) (j : Nat) (c : Ref × List Byte) (b : Bus) : Bus :=
  (Machine.fillSlot p mask tail c.1 c.2 ⟨b, 0, j, 0, 0, []⟩).bus

/-- The slots from `tail + j` on filled, one after the other. -/
def Bus.fillFrom (p : Params) (mask tail : Idx) : Nat → List (Ref × List Byte) → Bus → Bus
  | _, [], b => b
  | j, c :: l, b => Bus.fillFrom p mask tail (j + 1) l (b.fillSlot p mask tail j c)

theorem Bus.fillFrom_append (p : Params) (mask tail : Idx) (j : Nat) (l l' : List (Ref × List Byte)) (b : Bus) :
    b.fillFrom p mask tail j (l ++ l') = (b.fillFrom p mask tail j l).fillFrom p mask tail (j + l.length) l' := by
  induction l generalizing j b with
  | nil => rfl
  | cons c l ih =>
    rw [List.cons_append, Bus.fillFrom, ih, Bus.fillFrom, List.length_cons, Nat.add_right_comm]
    rfl

theorem fillSlots_bus (p : Params) (mask tail : Idx) (ref : Ref) (n : Nat) (blobs : List (List Byte)) (f : Fill) :
    (fillSlots p mask tail ref n blobs f).bus =
      f.bus.fillFrom p mask tail f.written ((List.range n).map fun j => (ref, blobs.getD j [])) := by
  induction n generalizing blobs f with
  | zero => rfl
  | succ n ih =>
    rw [fillSlots, ih, List.range_succ_eq_map, List.map_cons, List.map_map, Bus.fillFrom]
    cases blobs <;> rfl

/-- Consuming requests fills the slots of the accepted ones and nothing else (R193, R194). -/
theorem Fill.consumeAll_bus (f : Fill) (p : Params) (mode : Mode) (mask tail : Idx) (rs : List ReqRecord) :
    (f.consumeAll p mode mask tail rs).bus = f.bus.fillFrom p mask tail f.written (filledSlots mode rs) := by
  induction rs generalizing f with
  | nil => rfl
  | cons r rs ih =>
    rw [Fill.consumeAll, List.foldl_cons, ← Fill.consumeAll, ih, filledSlots_cons, Bus.fillFrom_append]
    by_cases hw : wellFormedRequest mode r = true
    · obtain ⟨e1, -⟩ := f.accept_counts p mask tail r
      have hbus : (f.accept p mask tail r).bus = f.bus.fillFrom p mask tail f.written (requestSlots r) :=
        fillSlots_bus ..
      rw [Fill.consume, if_pos hw, if_pos hw, e1, hbus, requestSlots, List.length_map, List.length_range]
    · rw [Fill.consume, if_neg hw, if_neg hw]
      rfl

/-! ### A submission -/

/-- What steps E1 and E2 do with the requests `rs` (R190 to R195): `taken` is how far the loop goes, and the
rest follows from the requests it consumes. -/
structure Submission (s : State) (rs : List ReqRecord) (f : Fill) : Prop where
  taken : f.taken = consumedCount s.mode s.policy rs s.free
  accepted : f.accepted = ((rs.take f.taken).filter (wellFormedRequest s.mode)).length
  written : f.written = slotsUsed s.mode (rs.take f.taken)
  avail : f.avail = s.free - slotsUsed s.mode (rs.take f.taken)
  disp : f.disp = dispositions s.mode (rs.take f.taken)
  bus : f.bus = s.bus.fillFrom s.cfg s.wrapMask s.tail 0 (filledSlots s.mode (rs.take f.taken))

theorem State.submission_spec (s : State) (rs : List ReqRecord) : Submission s rs (s.submission rs) := by
  have hlen := consumedCount_le_length (mode := s.mode) (policy := s.policy) (rs := rs) (avail := s.free)
  have hsub : s.submission rs = _ := fillLoop_eq_consumeAll ..
  obtain ⟨ht, ha, hw, hav, hd⟩ := Fill.consumeAll_counts ⟨s.bus, s.free, 0, 0, 0, []⟩ s.cfg s.mode s.wrapMask
    s.tail (rs.take (consumedCount s.mode s.policy rs s.free))
  have hb := Fill.consumeAll_bus ⟨s.bus, s.free, 0, 0, 0, []⟩ s.cfg s.mode s.wrapMask s.tail
    (rs.take (consumedCount s.mode s.policy rs s.free))
  rw [← hsub] at ht ha hw hav hd hb
  rw [List.length_take, Nat.min_eq_left hlen, Nat.zero_add] at ht
  rw [← ht] at ha hw hav hd hb
  rw [Nat.zero_add] at ha hw
  exact ⟨ht, ha, hw, hav, hd, hb⟩

end Sys2Proof.Machine

/-!
Submissions (42_submission.md R190 to R206): the counts, the two policies, and ENQUEUE carried through.
-/

namespace Sys2Proof.Machine

/-! ### Counts and policies (R193, R195, R197) -/

/-- Settles O22: each clause from how far the loop goes. -/
theorem submissionCounts : Obligations.SubmissionCounts := by
  intro s rs
  obtain ⟨ht, hacc, hwr, hav, hd, -⟩ := s.submission_spec rs
  have hle : slotsUsed s.mode (rs.take (s.submission rs).taken) ≤ s.free := by
    rw [ht]
    exact slotsUsed_consumed_le
  have hends : LoopEnds s.mode s.policy rs (s.submission rs).taken (s.submission rs).avail := by
    rw [hav, ht]
    exact loopEnds_consumedCount
  refine ⟨?_, hd, hacc, hwr, hwr ▸ hle, hwr ▸ hav, fun hslot => ?_, ?_, fun hp => ?_, hends⟩
  · rw [ht]
    exact consumedCount_le_length
  · rw [hwr, hacc, hslot, slotsUsed_slot]
  · rw [ht]
    exact slotsUsed_before_consumed
  · rw [ht]
    exact wellFormed_of_failFast hp

/-- Requests that fit with room left, none of them malformed under FAIL_FAST, are all consumed. -/
theorem State.submission_taken_all {s : State} {rs : List ReqRecord} (hroom : slotsUsed s.mode rs < s.free)
    (hrs : s.policy = .failFast → ∀ r ∈ rs, wellFormedRequest s.mode r = true) :
    (s.submission rs).taken = rs.length :=
  (s.submission_spec rs).taken.trans (consumedCount_eq_length hroom hrs)

/-- Under FAIL_FAST the first malformed request is the last one consumed (R193). -/
theorem State.submission_taken_failFast {s : State} {pre post : List ReqRecord} {bad : ReqRecord}
    (hp : s.policy = .failFast) (hpre : ∀ r ∈ pre, wellFormedRequest s.mode r = true)
    (hbad : ¬ wellFormedRequest s.mode bad = true) (hroom : slotsUsed s.mode pre < s.free) :
    (s.submission (pre ++ bad :: post)).taken = pre.length + 1 := by
  rw [(s.submission_spec _).taken, consumedCount_append hroom fun _ => hpre, hp,
    consumedCount_failFast (by omega) hbad]

/-- Settles O21: under FAIL_FAST the consumed requests are `pre` and `bad`, under BEST_EFFORT all. -/
theorem malformedRequestPolicies : Obligations.MalformedRequestPolicies := by
  refine ⟨fun s pre post bad hp hpre hbad hroom => ?_, fun s rs hp hroom => ?_⟩
  · rw [← slotsUsed_of_wellFormed hpre] at hroom
    have hbad' : ¬ wellFormedRequest s.mode bad = true := Bool.eq_false_iff.1 hbad
    have htaken := State.submission_taken_failFast (post := post) hp hpre hbad' hroom
    have htake : (pre ++ bad :: post).take (pre.length + 1) = pre ++ [bad] := by
      rw [List.take_length_add_append, List.take_succ_cons, List.take_zero]
    have hfilter : (pre ++ [bad]).filter (wellFormedRequest s.mode) = pre := by
      rw [List.filter_append, List.filter_eq_self.2 hpre, List.filter_cons_of_neg hbad', List.filter_nil,
        List.append_nil]
    obtain ⟨-, hacc, hwr, -, hd, hbus⟩ := s.submission_spec (pre ++ bad :: post)
    have hpreBus := (s.submission_spec pre).bus
    rw [htaken, htake] at hacc hwr hd hbus
    rw [State.submission_taken_all hroom fun _ => hpre, List.take_length] at hpreBus
    refine ⟨htaken, ?_, ?_, ?_, ?_⟩
    · rw [hacc, hfilter]
    · rw [hwr, slotsUsed, hfilter]
    · rw [hbus, hpreBus, ← filledSlots_filter, hfilter]
    · rw [hd, dispositions_append, dispositions_of_wellFormed hpre, dispositions_cons, if_neg hbad']
      rfl
  · have hnot : s.policy = .failFast → False := fun e => absurd (hp.symm.trans e) nofun
    have htaken := State.submission_taken_all (rs := rs) hroom fun e => (hnot e).elim
    obtain ⟨-, hacc, hwr, -, hd, hbus⟩ := s.submission_spec rs
    have hgoodBus := (s.submission_spec (rs.filter (wellFormedRequest s.mode))).bus
    rw [htaken, List.take_length] at hacc hwr hd hbus
    rw [State.submission_taken_all (by rwa [slotsUsed_filter]) fun e => (hnot e).elim, List.take_length,
      filledSlots_filter] at hgoodBus
    exact ⟨htaken, hd, hacc, hwr, hbus.trans hgoodBus.symm⟩

/-! ### ENQUEUE carried through -/

/-- An accepted class P command with sound records on a ring of its mode starts on PSEQ and is carried on. -/
theorem carryProducer_starts {s : State} {op : POp} {n : Nat} (word : Word32)
    (ha : s.accepts .producer = true) (hcount : recordCountOk n s.handed = true)
    (hshape : recordShapeOk s.cfg op.mode s.handed = true) :
    s.carryProducer op op.mode n word =
      .next (State.runP stepsP (s.takeCommand.setPseq (some (PCtx.start op word s.handed)))) := by
  rw [State.carryProducer, if_pos ha, State.acceptProducer, if_pos ha, hcount, hshape]
  simp

theorem pseq_none_of_accepts {s : State} (ha : s.accepts .producer = true) : s.pseq = none := by
  rw [State.accepts_producer, Bool.and_eq_true, Option.isNone_iff_eq_none] at ha
  exact ha.1

theorem recordsWf_iff {p : Params} {mode : Mode} {i : Instr} {rs : List ReqRecord} :
    recordsWf p mode i rs = true ↔ rs.length = i.recordCount ∧ recordShapeOk p mode rs = true := by
  simp [recordsWf, recordCountOk]

/-- Settles O18: acceptance, then steps E1 to E8 in a row. -/
theorem enqueueCompletes : Obligations.EnqueueCompletes := by
  intro s n ha hw hconf hmode hrec
  have hs := pseq_none_of_accepts ha
  obtain ⟨hcount, hshape⟩ := Bool.and_eq_true_iff.1 hrec
  rw [exec, execEnqueue]
  refine (carryProducer_starts (op := .enqueue) (encode (.enqueue n)) ha hcount hshape).trans ?_
  unfold stepsP PCtx.start
  rw [runP_e1_enqueue s.takeCommand 8 _ _ _ _ _ _ _ _ hw hconf hmode,
    runP_submission_enqueue s.takeCommand 3 _ _ _ hw, runP_e8 _ _ _ _ _ _ _ _ _ _ _ (by exact hw) (by exact hs)]
  rfl

/-- Of plain requests a SLOT ring takes the first ones that fit (R203). -/
theorem State.submission_plain {s : State} {rs : List ReqRecord} (hmode : s.mode = .slot)
    (hplain : ∀ r ∈ rs, plainRequest r = true) :
    let m := min rs.length s.free
    (s.submission rs).accepted = m ∧ (s.submission rs).written = m ∧
    (s.submission rs).disp = (rs.take m).map fun r => .disp (recordRef r) .accepted := by
  obtain ⟨hle, hd, hacc, hwr, hfree, hav, hslot, -, -, hends⟩ := submissionCounts s rs
  have hgood : ∀ r ∈ rs.take (s.submission rs).taken, wellFormedRequest s.mode r = true := by
    rw [hmode]
    exact fun r hr => hplain r (List.mem_of_mem_take hr)
  have haccepted : (s.submission rs).accepted = (s.submission rs).taken := by
    rw [hacc, List.filter_eq_self.2 hgood, List.length_take, Nat.min_eq_left hle]
  have hwritten := hslot hmode
  have hmin : (s.submission rs).taken = min rs.length s.free := by
    obtain hall | hfull | ⟨-, i, r, -, hr, hbad⟩ | ⟨r, hr, -, hlarge⟩ := hends
    · omega
    · omega
    · rw [hmode] at hbad
      exact absurd ((hplain r (List.mem_of_getElem? hr)).symm.trans hbad) nofun
    · rw [ndesc_of_wellFormed_slot (hplain r (List.mem_of_getElem? hr))] at hlarge
      omega
  refine ⟨haccepted.trans hmin, hwritten.trans (haccepted.trans hmin), ?_⟩
  rw [hd, ← hmin, dispositions_of_wellFormed hgood]

/-- Settles O19, by the counts of plain requests. -/
theorem enqueueTakesWhatFits : Obligations.EnqueueTakesWhatFits := by
  intro s n ha hw hconf hmode hrec hplain
  obtain ⟨hlen, -⟩ := recordsWf_iff.1 hrec
  obtain ⟨hacc, hwr, hd⟩ := State.submission_plain hmode hplain
  have hlen : s.handed.length = n.toNat := hlen
  rw [hlen] at hacc hwr hd
  refine ⟨_, enqueueCompletes s n ha hw hconf hmode hrec, ?_, ?_, rfl, rfl⟩
  · simp only [List.head?_cons, hacc, hd]
  · rw [← hwr]
    rfl

/-- With no free slot the fill loop does not run (R204). -/
theorem State.submission_full {s : State} (rs : List ReqRecord) (h : s.free = 0) :
    s.submission rs = ⟨s.bus, 0, 0, 0, 0, []⟩ := by
  rw [State.submission, fillLoop_eq_consumeAll, h, consumedCount_full]
  rfl

/-- Settles O20: the submission is empty, and an advance by nothing leaves `tail`. -/
theorem enqueueOnFullRing : Obligations.EnqueueOnFullRing := by
  intro s n ha hw hconf hmode hr hrec hfull
  obtain ⟨k, hk, hcap, hm, -, htail⟩ := s.ringInv_pow hr hconf
  have hzero : wrapAdd s.wrapMask s.tail 0 = s.tail := by
    rw [hm]
    exact wrapAdd_zero hk hcap (hcap ▸ htail)
  refine (enqueueCompletes s n ha hw hconf hmode hrec).trans ?_
  simp only [State.submission_full _ hfull, State.submitted, State.newTail, hzero]
  rfl

end Sys2Proof.Machine

/-!
What a submission leaves in ring memory and in the trace (42_submission.md R190, R192, R198, R206): the writes of
the fill loop, the content of the filled slots, the notify flag on the last of them.
-/

namespace Sys2Proof.Machine

/-! ### The events of a submission (R206) -/

/-- An event is a write inside one of the `n` slots from `base` on. -/
def isRingWrite (p : Params) (mask base : Idx) (n : Nat) (e : Event) : Prop :=
  ∃ i, i < n ∧ isSlotWrite p (wrapAdd mask base i) e

/-- Accesses that leave only events with property `P`. -/
def Bus.Adds (P : Event → Prop) (b b' : Bus) : Prop :=
  ∃ es, b'.trace = es ++ b.trace ∧ ∀ e ∈ es, P e

theorem Bus.Adds.refl (P : Event → Prop) (b : Bus) : b.Adds P b := ⟨[], rfl, nofun⟩

theorem Bus.Adds.trans {P : Event → Prop} {b b' b'' : Bus} (h : b.Adds P b') (h' : b'.Adds P b'') :
    b.Adds P b'' := by
  obtain ⟨es, htr, hes⟩ := h
  obtain ⟨es', htr', hes'⟩ := h'
  refine ⟨es' ++ es, by rw [htr', htr, List.append_assoc], fun e he => ?_⟩
  exact (List.mem_append.1 he).elim (hes' e) (hes e)

theorem Bus.Adds.mono {P Q : Event → Prop} {b b' : Bus} (h : b.Adds P b') (hPQ : ∀ e, P e → Q e) :
    b.Adds Q b' := by
  obtain ⟨es, htr, hes⟩ := h
  exact ⟨es, htr, fun e he => hPQ e (hes e he)⟩

/-- A write access that stays inside a slot. -/
theorem Bus.write_adds {p : Params} {x : Idx} (b : Bus) {o : Nat} {bs : List Byte} (h : o + bs.length ≤ p.descSize) :
    b.Adds (isSlotWrite p x) (b.write .pseq (slotAddr p x + o) bs) := by
  cases bs with
  | nil => exact .refl _ b
  | cons v bs =>
    refine ⟨[_], rfl, fun e he => ?_⟩
    rw [List.mem_singleton.1 he]
    exact ⟨Nat.le_add_right .., by rw [Nat.add_assoc]; exact Nat.add_le_add_left h _⟩

section Filled

variable {p : Params} {mask base x : Idx}

theorem Bus.fillSlot_adds (b : Bus) {c : Ref × List Byte} (j : Nat) (hsize : 16 + c.2.length ≤ p.descSize) :
    b.Adds (isSlotWrite p (wrapAdd mask base j)) (b.fillSlot p mask base j c) := by
  refine (((b.write_adds (o := offCtrl) ?_).trans (Bus.write_adds _ (o := offReserved) ?_)).trans
    (Bus.write_adds _ (o := offRef) ?_)).trans (Bus.write_adds _ (o := offPayload) hsize)
  all_goals
    simp only [leBytes_length, offCtrl, offReserved, offRef]
    omega

theorem Bus.fillFrom_adds {l : List (Ref × List Byte)} (b : Bus) (j : Nat)
    (hsize : ∀ c ∈ l, 16 + c.2.length ≤ p.descSize) :
    b.Adds (isRingWrite p mask base (j + l.length)) (b.fillFrom p mask base j l) := by
  induction l generalizing j b with
  | nil => exact .refl _ b
  | cons c l ih =>
    rw [List.length_cons]
    have hrest := ih (b.fillSlot p mask base j c) (j + 1) fun d hd => hsize d (List.mem_cons_of_mem _ hd)
    rw [Nat.add_right_comm] at hrest
    exact ((b.fillSlot_adds j (hsize c List.mem_cons_self)).mono fun e he => ⟨j, by omega, he⟩).trans hrest

/-! ### The content of a filled slot (R190, R192, 30_encoding.md R121) -/

/-- Slot `x` holds the reference and the payload `c`, a reserved word of 0 and the `ctrl` word `w`. -/
structure SlotHolds (p : Params) (m : Memory) (x : Idx) (c : Ref × List Byte) (w : Word32) : Prop where
  ref : slotRef p m x = c.1
  payload : slotPayload p m x = c.2
  reserved : slotReserved p m x = 0
  ctrl : slotCtrl p m x = w

/-- The four fields fill the slot (30_encoding.md R121). -/
theorem Params.payloadBytes_add {p : Params} (hsize : 16 ≤ p.descSize) : p.payloadBytes + 16 = p.descSize :=
  Nat.sub_add_cancel hsize

/-- A slot whose bytes are as before holds what it held. -/
theorem SlotHolds.of_bytes {m m' : Memory} {c : Ref × List Byte} {w : Word32} (h : SlotHolds p m x c w)
    (hsize : 16 ≤ p.descSize)
    (hm : ∀ a, slotAddr p x ≤ a → a < slotAddr p x + p.descSize → Memory.read m' a = Memory.read m a) :
    SlotHolds p m' x c w := by
  have hpay := Params.payloadBytes_add hsize
  have hfield (o n : Nat) (hn : o + n ≤ p.descSize) :
      m'.readBytes (slotAddr p x + o) n = m.readBytes (slotAddr p x + o) n :=
    Memory.readBytes_congr fun k hk => hm _ (by omega) (by omega)
  obtain ⟨href, hpayload, hreserved, hctrl⟩ := h
  refine ⟨?_, ?_, ?_, ?_⟩
  · rw [slotRef, hfield _ _ (by simp only [offRef]; omega)]
    exact href
  · rw [slotPayload, hfield _ _ (by simp only [offPayload]; omega)]
    exact hpayload
  · rw [slotReserved, hfield _ _ (by simp only [offReserved]; omega)]
    exact hreserved
  · rw [slotCtrl, hfield _ _ (by simp only [offCtrl]; omega)]
    exact hctrl

theorem Bus.fillSlot_wf {b : Bus} {c : Ref × List Byte} (j : Nat) (h : Memory.wf b.mem = true) :
    Memory.wf (b.fillSlot p mask base j c).mem = true :=
  Machine.fillSlot_wf (f := ⟨b, 0, j, 0, 0, []⟩) h

/-- A filled slot holds the reference and the payload it was filled with, its `ctrl` word is 0. -/
theorem Bus.fillSlot_holds {b : Bus} {c : Ref × List Byte} (j : Nat) (h : Memory.wf b.mem = true)
    (hblob : c.2.length = p.payloadBytes) :
    SlotHolds p (b.fillSlot p mask base j c).mem (wrapAdd mask base j) c 0 where
  ref := fillSlot_ref (f := ⟨b, 0, j, 0, 0, []⟩) h
  ctrl := fillSlot_ctrl (f := ⟨b, 0, j, 0, 0, []⟩) h
  payload := by
    rw [slotPayload, ← hblob, Bus.fillSlot, fillSlot_mem]
    exact Memory.readBytes_writeBytes_same _ _ (Memory.writeBytes_wf _ _ (Memory.writeBytes_wf _ _
      (Memory.writeBytes_wf _ _ h)))
  reserved := by
    rw [slotReserved, Bus.fillSlot, fillSlot_mem,
      Memory.readBytes_writeBytes_other (by simp only [offReserved, offPayload]; omega),
      Memory.readBytes_writeBytes_other (by simp only [offReserved, offRef]; omega),
      leValue_readBytes_writeBytes _ _ _ (Memory.writeBytes_wf _ _ h)]
    rfl

/-- Filling a slot leaves the bytes of every other slot alone. -/
theorem Bus.fillSlot_read_other {b : Bus} {c : Ref × List Byte} {j a : Nat} (hsize : 16 + c.2.length ≤ p.descSize)
    (h1 : slotAddr p x ≤ a) (h2 : a < slotAddr p x + p.descSize) (hx : wrapAdd mask base j ≠ x) :
    Memory.read (b.fillSlot p mask base j c).mem a = Memory.read b.mem a := by
  have hsep := slotAddr_separated (p := p) hx
  have hout : a < slotAddr p (wrapAdd mask base j) ∨ slotAddr p (wrapAdd mask base j) + p.descSize ≤ a := by omega
  exact fillSlot_read_outside (f := ⟨b, 0, j, 0, 0, []⟩) hsize hout

/-- Filling the slots from `base + j` on leaves the bytes of every other slot alone. -/
theorem Bus.fillFrom_read_other {l : List (Ref × List Byte)} {b : Bus} {j a : Nat}
    (hsize : ∀ c ∈ l, 16 + c.2.length ≤ p.descSize) (h1 : slotAddr p x ≤ a) (h2 : a < slotAddr p x + p.descSize)
    (hx : ∀ i, j ≤ i → i < j + l.length → wrapAdd mask base i ≠ x) :
    Memory.read (b.fillFrom p mask base j l).mem a = Memory.read b.mem a := by
  induction l generalizing j b with
  | nil => rfl
  | cons c l ih =>
    rw [List.length_cons] at hx
    rw [Bus.fillFrom, ih (fun d hd => hsize d (List.mem_cons_of_mem _ hd)) fun i hi hi' => hx i (by omega) (by omega)]
    exact Bus.fillSlot_read_other (hsize c List.mem_cons_self) h1 h2 (hx j (Nat.le_refl j) (by omega))

/-- The slots from `base + j` on, filled, hold the references and payloads in order, while the ring has room for
them all. -/
theorem Bus.fillFrom_holds {capacity : Idx} {k : Nat} (hk : k < 24) (hc : capacity.toNat = 2 ^ k)
    (hsize : 16 ≤ p.descSize) {l : List (Ref × List Byte)} {b : Bus} {j i : Nat} {c : Ref × List Byte}
    (hwf : Memory.wf b.mem = true) (hblobs : ∀ c ∈ l, c.2.length = p.payloadBytes)
    (hroom : j + l.length ≤ 2 ^ k) (hi : l[i]? = some c) :
    SlotHolds p (b.fillFrom p (capacity - 1) base j l).mem (wrapAdd (capacity - 1) base (j + i)) c 0 := by
  induction l generalizing j i b with
  | nil => cases hi
  | cons d l ih =>
    have hblobs' : ∀ c ∈ l, c.2.length = p.payloadBytes := fun c hc => hblobs c (List.mem_cons_of_mem _ hc)
    rw [List.length_cons] at hroom
    cases i with
    | zero =>
      cases hi
      rw [Bus.fillFrom]
      refine (Bus.fillSlot_holds j hwf (hblobs _ List.mem_cons_self)).of_bytes hsize fun a h1 h2 => ?_
      refine Bus.fillFrom_read_other (fun c hc => ?_) h1 h2 fun i h3 h4 e => ?_
      · have := Params.payloadBytes_add hsize
        have := hblobs' c hc
        omega
      · have := wrapAdd_inj base hk hc (by omega) (by omega) e
        omega
    | succ i =>
      rw [Bus.fillFrom]
      have h := ih (b := b.fillSlot p (capacity - 1) base j d) (j := j + 1) (Bus.fillSlot_wf j hwf) hblobs'
        (by omega) hi
      rwa [Nat.add_right_comm] at h

/-- A `ctrl` write changes the `ctrl` word of its slot and no other field of any slot (30_encoding.md R121). -/
theorem SlotHolds.writeCtrl {b : Bus} {y : Idx} {c : Ref × List Byte} {w : Word32} (h : SlotHolds p b.mem x c w)
    (hwf : Memory.wf b.mem = true) (hsize : 16 ≤ p.descSize) (w' : Word32) :
    SlotHolds p (b.writeCtrl .pseq p y w').mem x c (if x = y then w' else w) := by
  by_cases hxy : x = y
  · subst hxy
    rw [if_pos rfl]
    obtain ⟨href, hpayload, hreserved, -⟩ := h
    refine ⟨(slotRef_writeCtrl .pseq w' hsize).trans href, ?_, ?_, slotCtrl_writeCtrl_same .pseq p x w' hwf⟩
    · rw [slotPayload, Bus.writeCtrl_mem, Memory.readBytes_writeBytes_other]
      · exact hpayload
      · simp only [leBytes_length, offCtrl, offPayload]
        omega
    · rw [slotReserved, Bus.writeCtrl_mem, Memory.readBytes_writeBytes_other]
      · exact hreserved
      · simp only [leBytes_length, offCtrl, offReserved]
        omega
  · rw [if_neg hxy]
    refine h.of_bytes hsize fun a h1 h2 => read_writeCtrl_outside .pseq w' ?_
    have := slotAddr_separated (p := p) hxy
    omega

end Filled

/-! ### The slots of a submission -/

/-- The slots of requests of the right shape have room for their blobs. -/
theorem filledSlots_fit {p : Params} {mode : Mode} {rs : List ReqRecord} (hsize : 16 ≤ p.descSize)
    (h : recordShapeOk p mode rs = true) : ∀ c ∈ filledSlots mode rs, 16 + c.2.length ≤ p.descSize := by
  intro c hc
  have := Params.payloadBytes_add hsize
  have := filledSlots_blob_length h hc
  omega

/-- A submission leaves at least one slot of the ring unfilled (R197; 10_state.md R38). -/
theorem State.submission_written_le {s : State} (rs : List ReqRecord) (hr : s.ringInv) (hconf : s.configured = true) :
    (s.submission rs).written ≤ s.capacity.toNat - 1 := by
  obtain ⟨-, -, -, -, hfree, -⟩ := submissionCounts s rs
  have := State.free_add_pending hr hconf
  omega

/-- The fill loop and the notify flag write inside the slots the submission counts (R206). -/
theorem State.notified_adds {s : State} {rs : List ReqRecord} (hsize : 16 ≤ s.cfg.descSize)
    (hshape : recordShapeOk s.cfg s.mode rs = true) :
    s.bus.Adds (isRingWrite s.cfg s.wrapMask s.tail (s.submission rs).written)
      (s.notified (s.submission rs)) := by
  obtain ⟨-, -, hwr, -, -, hbus⟩ := s.submission_spec rs
  have hfill : s.bus.Adds (isRingWrite s.cfg s.wrapMask s.tail (s.submission rs).written)
      (s.submission rs).bus := by
    have h := s.bus.fillFrom_adds (mask := s.wrapMask) (base := s.tail) 0
      (filledSlots_fit hsize (recordShapeOk_take hshape (s.submission rs).taken))
    rwa [← hbus, filledSlots_length, Nat.zero_add, ← hwr] at h
  unfold State.notified
  split
  next hpos =>
    refine hfill.trans ((Bus.write_adds _ ?_).mono fun e he => ?_)
    · simp only [leBytes_length, offCtrl]
      omega
    · exact ⟨_, by omega, he⟩
  · exact hfill

/-- After a submission the `k`-th slot from the old `tail` holds the `k`-th reference and payload, the last slot
with the notify flag (R190, R192, R194, R198). -/
theorem State.notified_holds {s : State} {rs : List ReqRecord} (hsize : 16 ≤ s.cfg.descSize)
    (hwf : Memory.wf s.mem = true) (hr : s.ringInv) (hconf : s.configured = true)
    (hshape : recordShapeOk s.cfg s.mode rs = true) {k : Nat} {c : Ref × List Byte}
    (hc : (filledSlots s.mode (rs.take (s.submission rs).taken))[k]? = some c) :
    SlotHolds s.cfg (s.notified (s.submission rs)).mem (wrapAdd s.wrapMask s.tail k) c
      (if k + 1 = (s.submission rs).written then 0x00000004#32 else 0x00000000#32) := by
  have hwritten := s.submission_written_le rs hr hconf
  obtain ⟨-, -, hwr, -, -, hbus⟩ := s.submission_spec rs
  obtain ⟨e, he, hcap, hm, -⟩ := s.ringInv_pow hr hconf
  have hpos := Nat.two_pow_pos e
  have hlen : (filledSlots s.mode (rs.take (s.submission rs).taken)).length = (s.submission rs).written := by
    rw [filledSlots_length, hwr]
  have hkw : k < (s.submission rs).written := hlen ▸ (List.getElem?_eq_some_iff.1 hc).1
  have hfilled : SlotHolds s.cfg (s.submission rs).bus.mem (wrapAdd s.wrapMask s.tail k) c
      0x00000000#32 := by
    have h := Bus.fillFrom_holds (base := s.tail) (b := s.bus) (j := 0) he hcap hsize hwf
      (fun _ hd => filledSlots_blob_length (recordShapeOk_take hshape _) hd) (by omega) hc
    rwa [← hm, ← hbus, Nat.zero_add] at h
  have hlast : wrapAdd s.wrapMask s.tail k = wrapAdd s.wrapMask s.tail ((s.submission rs).written - 1) ↔
      k + 1 = (s.submission rs).written := by
    refine ⟨fun h => ?_, fun h => by rw [← h, Nat.add_sub_cancel]⟩
    rw [hm] at h
    have := wrapAdd_inj s.tail he hcap (by omega) (by omega) h
    omega
  have h := hfilled.writeCtrl (fillLoop_wf hwf) hsize 0x00000004#32
    (y := wrapAdd s.wrapMask s.tail ((s.submission rs).written - 1))
  unfold State.notified
  rw [if_pos (by omega)]
  simpa only [hlast] using h

/-- Settles O24: the trace and the slots are those of O18's next state, the bytes those of O11's frame. -/
theorem enqueueSideEffects : Obligations.EnqueueSideEffects := by
  intro s n hp ha hw hconf hmode hr hrec
  obtain ⟨-, hshape⟩ := recordsWf_iff.1 hrec
  rw [← hmode] at hshape
  obtain ⟨-, hsize, -⟩ := Params.wf_bounds hp
  obtain ⟨writes, htrace, hwrites⟩ := State.notified_adds hsize hshape
  refine ⟨_, ⟨.ok, BitVec.ofNat 24 (s.submission s.handed).accepted, (s.submission s.handed).disp⟩, writes,
    enqueueCompletes s n ha hw hconf hmode hrec, ?_, s.submission_written_le _ hr hconf,
    hwrites, fun a => read_notified_outside hsize hshape, rfl, rfl, rfl, rfl, rfl, rfl⟩
  simp only [State.submitted, htrace]
  rfl

/-- An accepted submission that passes its checks completes with the slots of its fill loop in ring memory. -/
theorem exec_submission_mem {s : State} {i : Instr} (hi : i.cls = .producer) (ha : s.accepts .producer = true)
    (hw : s.window = []) (hconf : s.configured = true) (henq : (∃ n, i = .enqueue n) → s.mode = .slot)
    (hsub : (∃ n, i = .submitBatch n) → s.mode = .batch ∧ s.fifo.length < s.cfg.poolSize)
    (hrec : recordsWf s.cfg s.mode i s.handed = true) :
    ∃ t, exec i s = .next t ∧ t.mem = (s.notified (s.submission s.handed)).mem := by
  have hs := pseq_none_of_accepts ha
  obtain ⟨hcount, hshape⟩ := Bool.and_eq_true_iff.1 hrec
  cases i with
  | enqueue n =>
    have hmode := henq ⟨n, rfl⟩
    rw [hmode] at hshape
    exact ⟨_, carryProducer_starts (op := .enqueue) _ ha hcount hshape,
      runP_mem_of_passesChecks (u := s.takeCommand) _ _ hw hs ⟨hconf, hmode⟩⟩
  | submitBatch n =>
    obtain ⟨hmode, hroom⟩ := hsub ⟨n, rfl⟩
    rw [hmode] at hshape
    refine ⟨_, carryProducer_starts (op := .submitBatch) _ ha hcount hshape,
      runP_mem_of_passesChecks (u := s.takeCommand) _ _ hw hs ⟨hconf, hmode, ?_⟩⟩
    exact Nat.sub_ne_zero_of_lt hroom
  | _ => cases hi

/-- Settles O23: what the slots hold after the fill loop and the notify flag, under both commands. -/
theorem submissionFillsSlotsInOrder : Obligations.SubmissionFillsSlotsInOrder := by
  intro s i hi hp hwf hr ha hw hconf henq hsub hrec
  obtain ⟨t, ht, hmem⟩ := exec_submission_mem hi ha hw hconf henq hsub hrec
  obtain ⟨-, hshape⟩ := recordsWf_iff.1 hrec
  obtain ⟨-, hsize, -⟩ := Params.wf_bounds hp
  have hcontents := filledSlots_eq_slotContents (recordShapeOk_take hshape (s.submission s.handed).taken)
  refine ⟨t, ht, ?_, fun k c hc => ?_⟩
  · rw [← hcontents, filledSlots_length]
    exact (s.submission_spec s.handed).written.symm
  · rw [← hcontents] at hc
    obtain ⟨href, hpayload, hreserved, hctrl⟩ := State.notified_holds hsize hwf hr hconf hshape hc
    rw [hmem]
    exact ⟨href, hpayload, hreserved, hctrl⟩

end Sys2Proof.Machine

/-!
DEQUEUE carried through (43_completion.md R211 to R223), and what one step of PSEQ, of CSEQ and of the device does
to the pending references (R223, 10_state.md R39).
-/

namespace Sys2Proof.Machine

/-! ### Where the pending references stand -/

/-- The ring registers are as before and so are the references of the pending slots. -/
structure PendingKept (s t : State) : Prop where
  cfg : t.cfg = s.cfg
  wrapMask : t.wrapMask = s.wrapMask
  head : t.head = s.head
  tail : t.tail = s.tail
  refs : ∀ j, j < s.pending → slotRef s.cfg t.mem (s.pendingSlot j) = slotRef s.cfg s.mem (s.pendingSlot j)

/-- A step that moves no index and writes no byte. -/
theorem PendingKept.of_mem {s t : State} (hcfg : t.cfg = s.cfg) (hmask : t.wrapMask = s.wrapMask)
    (hhead : t.head = s.head) (htail : t.tail = s.tail) (hmem : t.mem = s.mem) : PendingKept s t :=
  ⟨hcfg, hmask, hhead, htail, fun _ _ => by rw [hmem]⟩

theorem PendingKept.pendingRefs {s t : State} (h : PendingKept s t) : t.pendingRefs = s.pendingRefs := by
  obtain ⟨hcfg, hmask, hhead, htail, hrefs⟩ := h
  have hpend : t.pending = s.pending := by rw [State.pending, State.pending, hmask, hhead, htail]
  rw [State.pendingRefs_eq, State.pendingRefs_eq, hpend, hcfg, hmask, hhead]
  exact ringRefs_congr fun j _ hj => hrefs j (by omega)

section Ring

variable {s t : State} {n : Nat}

/-- Publishing `n` free slots appends `n` references behind the pending ones. -/
theorem pendingRefs_advance_tail (hr : s.ringInv) (hconf : s.configured = true) (hn : n ≤ s.free)
    (hcfg : t.cfg = s.cfg) (hmem : t.mem = s.mem) (hmask : t.wrapMask = s.wrapMask) (hhead : t.head = s.head)
    (htail : t.tail = wrapAdd s.wrapMask s.tail n) :
    ∃ l, t.pendingRefs = s.pendingRefs ++ l ∧ l.length = n := by
  refine ⟨ringRefs s.cfg s.mem s.wrapMask s.head (0 + s.pending) n, ?_, by simp [ringRefs]⟩
  rw [State.pendingRefs_eq, State.pendingRefs_eq, pending_advance_tail hr hconf hn hmask hhead htail, hcfg, hmem,
    hmask, hhead, ringRefs_add]

/-- Releasing `n` pending slots drops the `n` oldest references (43_completion.md R223). -/
theorem pendingRefs_advance_head (hr : s.ringInv) (hconf : s.configured = true) (hn : n ≤ s.pending)
    (hcfg : t.cfg = s.cfg) (hmem : t.mem = s.mem) (hmask : t.wrapMask = s.wrapMask) (htail : t.tail = s.tail)
    (hhead : t.head = wrapAdd s.wrapMask s.head n) : t.pendingRefs = s.pendingRefs.drop n := by
  obtain ⟨k, hk, hcap, hm, -⟩ := s.ringInv_pow hr hconf
  have hsplit : s.pendingRefs = ringRefs s.cfg s.mem s.wrapMask s.head 0 n ++
      ringRefs s.cfg s.mem s.wrapMask s.head n (s.pending - n) := by
    rw [State.pendingRefs_eq, ← Nat.add_sub_cancel' hn, ringRefs_add, Nat.zero_add, Nat.add_sub_cancel_left]
  have hrest : t.pendingRefs = ringRefs s.cfg s.mem s.wrapMask s.head n (s.pending - n) := by
    rw [State.pendingRefs_eq, pending_advance_head hr hconf hn hmask htail hhead, hcfg, hmem, hmask, hhead, hm,
      ringRefs_shift _ _ _ _ _ _ hk hcap, Nat.add_zero]
  rw [hrest, hsplit, List.drop_left' (by simp [ringRefs])]

/-- A free slot is no pending one: the two counts leave one slot of the ring between them. -/
theorem pendingSlot_ne_free (hr : s.ringInv) (hconf : s.configured = true) {i j : Nat} (hi : i < s.pending)
    (hj : j < s.free) : wrapAdd s.wrapMask s.tail j ≠ s.pendingSlot i := by
  have hsum := State.free_add_pending hr hconf
  obtain ⟨k, hk, hcap, hm, -⟩ := s.ringInv_pow hr hconf
  intro e
  rw [State.tail_eq_wrapAdd hr hconf, State.pendingSlot, hm, wrapAdd_wrapAdd _ _ _ hk hcap] at e
  have := wrapAdd_inj s.head hk hcap (by omega) (by omega) e
  omega

end Ring

/-! ### DEQUEUE carried through (43_completion.md R211) -/

theorem cseq_none_of_accepts {s : State} (ha : s.accepts .consumer = true) : s.cseq = none := by
  rw [State.accepts_consumer, Bool.and_eq_true, Option.isNone_iff_eq_none] at ha
  exact ha.1

/-- An accepted class C command starts on CSEQ and is carried on. -/
theorem carryConsumer_starts {s : State} (op : COp) (word : Word32) (ha : s.accepts .consumer = true) :
    s.carryConsumer op word = .next (State.runC stepsC (s.takeCommand.setCseq (some (CCtx.start op word)))) := by
  rw [State.carryConsumer, if_pos ha, State.acceptConsumer, if_pos ha, onNext_next]

section Steps

variable (u : State) (n : Nat) (op : COp) (word : Word32) (avail limit confirmed : Nat) (hw_ : Word32)
  (out : List OutRecord)

/-- Step Q2 counts how many of the first `limit` pending slots are done in a row and leaves the reads of its scan
(R213, R214). -/
theorem runC_q2_scanned (hw : u.window = []) :
    ∃ k, k ≤ limit ∧ (∀ i, i < k → ctrlDone (slotCtrl u.cfg u.mem (u.pendingSlot i)) = true) ∧
      (k < limit → ctrlDone (slotCtrl u.cfg u.mem (u.pendingSlot k)) = false) ∧
      State.runC (n + 1) (u.setCseq (some ⟨op, word, .q2, avail, limit, confirmed, hw_, out⟩)) =
        State.runC n ((u.setTrace (u.scanReads (min (k + 1) limit) ++ u.trace)).setCseq (some
          ⟨op, word, .q3, avail, limit, k, hw_, out⟩)) := by
  obtain ⟨k, hk, hle, hbus, hdone, hstop⟩ := scanDone_spec u.cfg u.wrapMask u.head limit 0 u.bus
  simp only [Nat.zero_add] at hk hbus hdone hstop
  refine ⟨k, hle, hdone, hstop, ?_⟩
  rw [runC_q2 _ _ _ _ _ _ _ _ _ hw, hk, hbus]
  rfl

/-- Step Q4 takes the records of the confirmed slots in slot order and leaves the reads of its extraction
(R216, R217). -/
theorem runC_q4_extracted (hw : u.window = []) :
    State.runC (n + 1) (u.setCseq (some ⟨op, word, .q4, avail, limit, confirmed, hw_, out⟩)) =
      State.runC n ((u.setTrace (u.extractReads confirmed ++ u.trace)).setCseq (some
        ⟨op, word, .q5, avail, limit, confirmed, hw_,
          (List.range confirmed).map fun i => completionOf u.cfg u.mem (u.pendingSlot i)⟩)) := by
  obtain ⟨hout, hbus⟩ := extract_spec u.cfg u.wrapMask u.head confirmed 0 u.bus
  simp only [Nat.zero_add] at hout hbus
  rw [runC_q4 _ _ _ _ _ _ _ _ _ hw, hout, hbus]
  rfl

end Steps

/-- Settles O27: acceptance, then steps Q1 to Q6 in a row. -/
theorem dequeueHandsBackTheDonePrefix : Obligations.DequeueHandsBackTheDonePrefix := by
  intro s max ha hw hconf hmode
  have hs := cseq_none_of_accepts ha
  have hlimit : min (argField (encode (.dequeue max))).toNat s.takeCommand.pending = min max.toNat s.pending := by
    rw [encode, argField_commandWord]
    rfl
  obtain ⟨c, hle, hdone, hstop, hscan⟩ := runC_q2_scanned s.takeCommand 5 .dequeue (encode (.dequeue max))
    s.takeCommand.pending (min max.toNat s.pending) 0 0 [] hw
  refine ⟨c, hle, hdone, hstop, ?_⟩
  rw [exec, execDequeue, carryConsumer_starts _ _ ha]
  unfold stepsC CCtx.start
  rw [runC_q1 s.takeCommand 6 _ _ _ _ _ _ _ hw hconf hmode, hlimit, hscan,
    runC_q3 _ _ _ _ _ _ _ _ _ (by simpa using hw), runC_q4_extracted _ _ _ _ _ _ _ _ _ (by simpa using hw),
    runC_q5 _ _ _ _ _ _ _ _ _ (by simpa using hw),
    runC_q6 _ _ _ _ _ _ _ _ _ (by simpa using hw) (by simpa using hs)]
  simp only [State.respond, State.log, State.setTrace, State.setHead, State.takeCommand, State.setPort]
  rfl

/-- Settles O28: O27's next state hands out the references of the slots that its `head` has passed. -/
theorem dequeueRemovesTheOldest : Obligations.DequeueRemovesTheOldest := by
  intro s t max hr ha hw hconf hmode ht
  obtain ⟨c, hle, -, -, hexec⟩ := dequeueHandsBackTheDonePrefix s max ha hw hconf hmode
  cases ht.symm.trans hexec
  have hc : c ≤ s.pending := by omega
  refine ⟨c, _, hc, rfl, ?_, pendingRefs_advance_head hr hconf hc rfl rfl rfl rfl rfl,
    pending_advance_head hr hconf hc rfl rfl rfl⟩
  rw [State.pendingRefs, ← List.map_take, List.take_range, Nat.min_eq_left hc, List.map_map, List.map_map]
  rfl

/-! ### One step of each actor -/

/-- The fill loop leaves the references of the pending slots alone: it fills free slots only (42_submission.md
R192). -/
theorem stepE2_pendingKept {s : State} {c : PCtx} (h : s.Inv) (hs : s.pseq = some c) (hp : c.pos = .e2) :
    PendingKept s (s.stepE2 c) := by
  have hctx := pctxInv_of_inv h hs
  obtain ⟨hconf, -, hshape, -⟩ := PCtx.Ready.of_inv hctx (by rw [hp]; cases c.op <;> decide)
  obtain ⟨-, -, -, hfree⟩ := fill_counts hp hctx
  obtain ⟨-, -, -, p4, -⟩ := hctx
  obtain ⟨-, -, -, htaken, -⟩ := p4 hp
  obtain ⟨hparams, -, -, hr, -⟩ := h
  obtain ⟨-, hsize, -⟩ := Params.wf_bounds hparams
  refine ⟨rfl, rfl, rfl, rfl, fun i hi => slotRef_fillLoop_other hsize (by simpa [htaken] using hshape) ?_⟩
  exact fun j _ hj => pendingSlot_ne_free hr hconf hi (Nat.lt_of_lt_of_le hj hfree)

/-- The notify flag stands in the `ctrl` word (42_submission.md R198). -/
theorem stepE4_pendingKept (s : State) (c : PCtx) (hsize : 16 ≤ s.cfg.descSize) : PendingKept s (s.stepE4 c) := by
  unfold State.stepE4
  dsimp only
  split
  · exact ⟨rfl, rfl, rfl, rfl, fun _ _ => slotRef_writeCtrl .pseq _ hsize⟩
  · exact .of_mem rfl rfl rfl rfl rfl

/-- PSEQ changes the pending references at step E5 only (10_state.md R39). -/
theorem pStep_pendingKept {s : State} {c : PCtx} (h : s.Inv) (hs : s.pseq = some c) (hne : c.pos ≠ .e5) :
    PendingKept s (s.pStep c) := by
  unfold State.pStep
  cases hp : c.pos <;> dsimp only
  case s1 =>
    unfold State.stepS1
    split
    · split <;> exact .of_mem rfl rfl rfl rfl rfl
    · exact .of_mem rfl rfl rfl rfl rfl
  case e1 =>
    split
    · unfold State.stepE1Checked
      split <;> exact .of_mem rfl rfl rfl rfl rfl
    · exact .of_mem rfl rfl rfl rfl rfl
  case e2 => exact stepE2_pendingKept h hs hp
  case e4 =>
    obtain ⟨hparams, -⟩ := h
    obtain ⟨-, hsize, -⟩ := Params.wf_bounds hparams
    exact stepE4_pendingKept s c hsize
  case e5 => exact absurd hp hne
  case s3 =>
    unfold State.stepS3
    split <;> exact .of_mem rfl rfl rfl rfl rfl
  case s4 =>
    rw [stepS4_eq]
    exact .of_mem rfl rfl rfl rfl rfl
  case e7 => refine .of_mem ?_ ?_ ?_ ?_ ?_ <;> simp [State.stepE7]
  case e6 | e8 => exact .of_mem rfl rfl rfl rfl rfl

/-- How many slots the step of a PSEQ in context `c` publishes (42_submission.md R199). -/
def PCtx.published (c : PCtx) : Nat := if c.pos = .e5 then c.written else 0

/-- A step of PSEQ appends the references of the slots it publishes. -/
theorem pStep_pendingRefs {s : State} {c : PCtx} (h : s.Inv) (hs : s.pseq = some c) (hconf : s.configured = true) :
    ∃ l, (s.pStep c).pendingRefs = s.pendingRefs ++ l ∧ l.length = c.published := by
  unfold PCtx.published
  split
  next hp =>
    obtain ⟨-, -, -, -, p5, -⟩ := pctxInv_of_inv h hs
    obtain ⟨-, -, -, hr, -⟩ := h
    rw [State.pStep, hp]
    exact pendingRefs_advance_tail hr hconf (p5 (.inr hp)) rfl rfl rfl rfl rfl
  next hne => exact ⟨[], by rw [(pStep_pendingKept h hs hne).pendingRefs, List.append_nil], rfl⟩

/-- CSEQ moves `head` at steps Q5 and B5 only (43_completion.md R218, 44_batch.md R246). -/
theorem cStep_head {s : State} {c : CCtx} (hq : c.pos ≠ .q5) (hb : c.pos ≠ .b5) : (s.cStep c).head = s.head := by
  have hfront {f : Batch → List Batch → State} (hf : ∀ b rest, (f b rest).head = s.head) :
      (s.withFront c f).head = s.head := by
    unfold State.withFront
    split
    · rfl
    · exact hf _ _
  unfold State.cStep
  cases hp : c.pos <;> dsimp only
  case q1 =>
    unfold State.stepQ1
    split <;> rfl
  case q5 => exact absurd hp hq
  case b1 =>
    unfold State.stepB1
    split
    · split <;> rfl
    · rfl
  case b2 | b6 => exact hfront fun _ _ => rfl
  case b4 =>
    refine hfront fun b _ => ?_
    unfold State.stepB4
    split <;> rfl
  case b5 => exact absurd hp hb
  case b7 =>
    refine hfront fun b rest => ?_
    unfold State.stepB7
    dsimp only
    split <;> rfl
  case q2 | q3 | q4 | q6 | b3 => rfl

/-- A step of CSEQ that leaves `head` leaves the pending references: it writes no byte. -/
theorem CChange.pendingKept {c : CCtx} {s t : State} (h : CChange c s t) (hhead : t.head = s.head) :
    PendingKept s t := by
  refine .of_mem ?_ ?_ hhead ?_ ?_ <;> rw [h.frame]

/-- Step Q5 releases the confirmed slots. -/
theorem stepQ5_pendingRefs {s : State} {c : CCtx} (h : s.Inv) (hc : s.cseq = some c) (hp : c.pos = .q5)
    (hconf : s.configured = true) : (s.stepQ5 c).pendingRefs = s.pendingRefs.drop c.confirmed := by
  obtain ⟨-, -, -, -, q5, -⟩ := cctxInv_of_inv h hc
  obtain ⟨-, -, -, hr, -⟩ := h
  exact pendingRefs_advance_head hr hconf (q5 (by simp [hp])) rfl rfl rfl rfl rfl

/-- Step B5 releases the slots of the front batch, which are pending since it is not latched (10_state.md R46). -/
theorem stepB5_pendingRefs {s : State} {c : CCtx} {b : Batch} {rest : List Batch} (h : s.Inv) (hc : s.cseq = some c)
    (hp : c.pos = .b5) (hl : s.fifo = b :: rest) :
    (s.stepB5 c b rest).pendingRefs = s.pendingRefs.drop b.descCount := by
  obtain ⟨-, hconf, hmode, -⟩ := ready_of_pollBatch h hc (by simp [hp])
  obtain ⟨-, -, -, -, -, q6, -⟩ := cctxInv_of_inv h hc
  have hopen : b.complete = false := q6 (by simp [hp]) b (by simp [hl])
  obtain ⟨-, -, -, hr, -, ⟨-, -, -, -, -, -, f7⟩, -⟩ := h
  obtain ⟨hsum, -⟩ := f7 hmode
  simp only [hl, pendingDesc, hopen, Bool.false_eq_true, if_false] at hsum
  exact pendingRefs_advance_head hr hconf (by omega) rfl rfl rfl rfl rfl

/-- How many pending slots the step of a CSEQ in context `c` releases (43_completion.md R218, 44_batch.md R246). -/
def State.released (s : State) (c : CCtx) : Nat :=
  if c.pos = .q5 then c.confirmed else if c.pos = .b5 then s.fifo.head?.elim 0 Batch.descCount else 0

/-- A step of CSEQ takes the references of the slots it releases from the front. -/
theorem cStep_pendingRefs {s : State} {c : CCtx} (h : s.Inv) (hc : s.cseq = some c) (hconf : s.configured = true) :
    (s.cStep c).pendingRefs = s.pendingRefs.drop (s.released c) := by
  unfold State.released
  split
  next hq =>
    rw [State.cStep, hq]
    exact stepQ5_pendingRefs h hc hq hconf
  next hq =>
    split
    next hb =>
      obtain ⟨-, -, -, b, rest, hl⟩ := ready_of_pollBatch h hc (by simp [hb])
      rw [State.cStep, hb]
      dsimp only
      rw [State.withFront_cons hl, stepB5_pendingRefs h hc hb hl, hl]
      rfl
    next hb => rw [((s.cStep_change c).pendingKept (cStep_head hq hb)).pendingRefs, List.drop_zero]

/-- A completion writes the payload area and the `ctrl` word of its slot; no reference stands there
(46_actors.md R304, 30_encoding.md R121). -/
theorem slotRef_completion {p : Params} {m : Memory} {i x : Idx} {r : List Byte} {w : Word32}
    (hsize : 16 ≤ p.descSize) (hr : r.length ≤ p.payloadBytes) :
    slotRef p ((m.writeBytes (slotAddr p i + offPayload) r).writeBytes (slotAddr p i + offCtrl)
      (leBytes 4 w.toNat)) x = slotRef p m x := by
  have hfit := Params.payloadBytes_add hsize
  have hsep : x = i ∨ slotAddr p x + p.descSize ≤ slotAddr p i ∨ slotAddr p i + p.descSize ≤ slotAddr p x :=
    (em (x = i)).imp_right slotAddr_separated
  have hout : slotAddr p x + offRef + 8 ≤ slotAddr p i + offPayload ∨
      slotAddr p i + offPayload + r.length ≤ slotAddr p x + offRef := by
    simp only [offRef, offPayload]
    rcases hsep with rfl | hsep <;> omega
  have hout' : slotAddr p x + offRef + 8 ≤ slotAddr p i + offCtrl ∨
      slotAddr p i + offCtrl + 4 ≤ slotAddr p x + offRef := by
    simp only [offRef, offCtrl]
    rcases hsep with rfl | hsep <;> omega
  rw [slotRef, Memory.readBytes_writeBytes_other (by simpa using hout'), Memory.readBytes_writeBytes_other hout,
    ← slotRef]

theorem devStep_pendingKept (s : State) (d : DevStep) (hsize : 16 ≤ s.cfg.descSize) :
    PendingKept s (s.devStep d) := by
  obtain ⟨m, tr, v, e, -, hm⟩ := s.devStep_eq d
  rw [e]
  refine ⟨rfl, rfl, rfl, rfl, fun i _ => ?_⟩
  obtain rfl | ⟨-, r, w, -, rfl⟩ := hm
  · rfl
  · exact slotRef_completion hsize (List.length_take_le _ _)

/-- Settles O60, actor by actor. -/
theorem pendingReferencesMoveInOrder : Obligations.PendingReferencesMoveInOrder := by
  intro s h hconf
  refine ⟨?_, ?_, fun d => ?_⟩
  · cases hs : s.pseq with
    | none => exact ⟨[], by rw [State.pseqStep_idle hs, List.append_nil], nofun, fun _ => rfl⟩
    | some c =>
      obtain ⟨l, hl, hlen⟩ := pStep_pendingRefs h hs hconf
      rw [State.pseqStep_running hs]
      refine ⟨l, hl, ?_, fun hne => ?_⟩
      · rintro _ ⟨⟩ hp
        rw [hlen, PCtx.published, if_pos hp]
      · rw [PCtx.published, if_neg (hne c rfl)] at hlen
        exact List.length_eq_zero_iff.1 hlen
  · cases hc : s.cseq with
    | none => exact ⟨0, by rw [State.cseqStep_idle hc, List.drop_zero], nofun, nofun, fun _ => rfl⟩
    | some c =>
      rw [State.cseqStep_running hc]
      refine ⟨s.released c, cStep_pendingRefs h hc hconf, ?_, ?_, fun hne => ?_⟩
      · rintro _ ⟨⟩ hq
        rw [State.released, if_pos hq]
      · rintro _ b rest ⟨⟩ hb hl
        simp [State.released, hb, hl]
      · obtain ⟨hq, hb⟩ := hne c rfl
        rw [State.released, if_neg hq, if_neg hb]
  · obtain ⟨hparams, -⟩ := h
    obtain ⟨-, hsize, -⟩ := Params.wf_bounds hparams
    exact (devStep_pendingKept s d hsize).pendingRefs

end Sys2Proof.Machine

/-!
The Batch Coordinator (44_batch.md): where the span of a batch lies and what the completion test says of it, and
SUBMIT_BATCH, POLL_BATCH and BATCH_AGE carried through.
-/

namespace Sys2Proof.Machine

/-! ### Byte offsets (20_memory.md R71, 30_encoding.md R123) -/

section Offsets

variable {p : Params} {i j : Idx}

/-- The byte offsets of a ring within bounds fit into 32 bits (00_scope.md R10). -/
theorem byteOffset_toNat (hp : p.wf = true) (hi : i.toNat < p.capMax) :
    (byteOffset p i).toNat = i.toNat * p.descSize := by
  obtain ⟨-, hsize, hring, -⟩ := Params.wf_bounds hp
  have hlt : i.toNat * p.descSize < p.capMax * p.descSize := Nat.mul_lt_mul_of_pos_right hi (by omega)
  rw [byteOffset, BitVec.toNat_ofNat, Nat.mod_eq_of_lt (by omega)]

/-- Byte offsets are ordered as the slots are. -/
theorem byteOffset_lt_iff (hp : p.wf = true) (hi : i.toNat < p.capMax) (hj : j.toNat < p.capMax) :
    (byteOffset p i).toNat < (byteOffset p j).toNat ↔ i.toNat < j.toNat := by
  obtain ⟨-, hsize, -, -⟩ := Params.wf_bounds hp
  rw [byteOffset_toNat hp hi, byteOffset_toNat hp hj, Nat.mul_lt_mul_right (by omega)]

theorem byteOffset_zero (p : Params) : byteOffset p 0 = 0 := by
  simp [byteOffset]

end Offsets

/-! ### Spans around the ring (R236, R244, R253) -/

section Span

variable {capacity first at_ : Idx} {k n : Nat}

/-- An advance by less than a lap passes the end of the ring at most once. -/
theorem wrapAdd_toNat_of_lt (hk : k < 24) (hc : capacity.toNat = 2 ^ k) (hfirst : first.toNat < 2 ^ k)
    (hn : n < 2 ^ k) :
    (wrapAdd (capacity - 1) first n).toNat =
      if first.toNat + n < 2 ^ k then first.toNat + n else first.toNat + n - 2 ^ k := by
  rw [wrapAdd_toNat _ _ hk hc]
  split
  · exact Nat.mod_eq_of_lt ‹_›
  · rw [Nat.mod_eq_sub_mod (by omega), Nat.mod_eq_of_lt (by omega)]

/-- Advancing by the distance to a slot leads to that slot (R176). -/
theorem wrapAdd_wrapSub (hk : k < 24) (hc : capacity.toNat = 2 ^ k) (hfirst : first.toNat < 2 ^ k)
    (hat : at_.toNat < 2 ^ k) :
    wrapAdd (capacity - 1) first (wrapSub (capacity - 1) at_ first).toNat = at_ := by
  have hdist := wrapSub_toNat hk hc hat hfirst
  apply BitVec.eq_of_toNat_eq
  rw [wrapAdd_toNat_of_lt hk hc hfirst (by split at hdist <;> omega), hdist]
  split <;> split <;> omega

/-- The slots of a span are those at a distance of less than its length from its first slot. -/
theorem exists_wrapAdd_eq_iff (hk : k < 24) (hc : capacity.toNat = 2 ^ k) (hfirst : first.toNat < 2 ^ k)
    (hat : at_.toNat < 2 ^ k) (hn : n < 2 ^ k) :
    (∃ j, j < n ∧ at_ = wrapAdd (capacity - 1) first j) ↔ (wrapSub (capacity - 1) at_ first).toNat < n := by
  refine ⟨?_, fun h => ⟨_, h, (wrapAdd_wrapSub hk hc hfirst hat).symm⟩⟩
  rintro ⟨j, hj, hat_eq⟩
  have hdist : (wrapSub (capacity - 1) at_ first).toNat < 2 ^ k := by
    rw [wrapSub_toNat hk hc hat hfirst]
    split <;> omega
  have hsame := (wrapAdd_wrapSub hk hc hfirst hat).trans hat_eq
  rwa [wrapAdd_inj first hk hc hdist (by omega) hsame]

/-- Settles O32: the offsets are ordered as the slots are, and the end of the span lies behind its first slot or
has passed the end of the ring. -/
theorem spanOffsets : Obligations.SpanOffsets := by
  intro p capacity first k n hp hk hcap hmax hfirst hn hlen last
  have hlast_lt : last.toNat < p.capMax := Nat.lt_of_lt_of_le (wrapAdd_lt first n hk hcap) hmax
  have hfirst_lt : first.toNat < p.capMax := Nat.lt_of_lt_of_le hfirst hmax
  rw [hcap] at hfirst hlen ⊢
  have hlast : last.toNat = _ := wrapAdd_toNat_of_lt hk hcap hfirst (n := n) (by omega)
  have hup := byteOffset_lt_iff hp hfirst_lt hlast_lt
  have hdown := byteOffset_lt_iff hp hlast_lt hfirst_lt
  refine ⟨fun e => ?_, fun h => ?_, fun h => ?_, fun h => ?_⟩
  · rw [e] at hup hdown
    split at hlast <;> omega
  · rw [hup, hlast, if_pos h]
    omega
  · rw [hdown, hlast, if_neg (by omega)]
    omega
  · have hzero : last = 0 := BitVec.eq_of_toNat_eq <| by
      rw [hlast, if_neg (by omega), h, Nat.sub_self]
      rfl
    rw [hzero, byteOffset_zero]

/-- The completion test compares slots where all three offsets are slot boundaries of the ring (R244). -/
theorem inProgress_byteOffset_iff {p : Params} {last : Idx} (hp : p.wf = true) (hfirst : first.toNat < p.capMax)
    (hlast : last.toNat < p.capMax) (hat : at_.toNat < p.capMax) :
    inProgress (byteOffset p first) (byteOffset p last) (byteOffset p at_) = true ↔
      if first.toNat < last.toNat then first.toNat ≤ at_.toNat ∧ at_.toNat < last.toNat
      else first.toNat ≤ at_.toNat ∨ at_.toNat < last.toNat := by
  simp only [inProgress, ← Nat.not_lt, byteOffset_lt_iff hp hfirst hlast, byteOffset_lt_iff hp hat hfirst,
    byteOffset_lt_iff hp hat hlast]
  split <;> simp

/-- Settles O33: both sides say that the distance from the first slot to the head is less than `n`. -/
theorem inProgressInsideTheSpan : Obligations.InProgressInsideTheSpan := by
  intro p capacity first at_ k n hp hk hcap hmax hfirst hat hn hlen
  have hlast := wrapAdd_lt first n hk hcap
  rw [inProgress_byteOffset_iff hp (by omega) (by omega) (by omega)]
  rw [hcap] at hfirst hat hlen
  rw [exists_wrapAdd_eq_iff hk hcap hfirst hat (by omega), wrapSub_toNat hk hcap hat hfirst,
    wrapAdd_toNat_of_lt hk hcap hfirst (by omega)]
  by_cases hwrap : first.toNat + n < 2 ^ k
  · rw [if_pos hwrap, if_pos (by omega)]
    split <;> omega
  · rw [if_neg hwrap, if_neg (by omega)]
    split <;> omega

end Span

/-! ### SUBMIT_BATCH carried through (R233) -/

theorem State.freeRecords_eq_zero_iff {s : State} : s.freeRecords = 0 ↔ s.cfg.poolSize ≤ s.fifo.length :=
  Nat.sub_eq_zero_iff_le

/-- Steps S1 and E1 to E7 in a row: with a free record the requests are submitted, and S3 is next. -/
theorem runP_submitBatch_to_s3 {u : State} (word : Word32) (rs : List ReqRecord) (hw : u.window = [])
    (hconf : u.configured = true) (hmode : u.mode = .batch) (hfree : u.freeRecords ≠ 0) :
    State.runP stepsP (u.setPseq (some (PCtx.start .submitBatch word rs))) =
      State.runP 2 (({ u.submitted (u.submission rs) with port := u.port }).setPseq (some
        ⟨.submitBatch, word, rs, .s3, u.tail, (u.submission rs).avail, (u.submission rs).written,
          (u.submission rs).accepted, (u.submission rs).taken, (u.submission rs).disp⟩)) := by
  unfold stepsP PCtx.start
  rw [runP_s1 u 8 _ _ _ _ _ _ _ _ _ hw hconf hmode hfree, runP_e1_submitBatch u 7 _ _ _ _ _ _ _ _ hw,
    runP_submission_submitBatch u 2 _ _ _ hw]

/-- Settles O29, by what ends the operation: step S1, step S3 or step S4. -/
theorem submitBatchCompletes : Obligations.SubmitBatchCompletes := by
  intro s n ha hw hconf hmode hrec f u
  have hs := pseq_none_of_accepts ha
  obtain ⟨hcount, hshape⟩ := Bool.and_eq_true_iff.1 hrec
  have hstart : exec (.submitBatch n) s = _ :=
    carryProducer_starts (op := .submitBatch) (encode (.submitBatch n)) ha hcount hshape
  have hfree (h : s.fifo.length < s.cfg.poolSize) : s.takeCommand.freeRecords ≠ 0 := by
    rw [Ne, State.freeRecords_eq_zero_iff]
    exact Nat.not_le.2 h
  refine ⟨fun hfull => ?_, fun hroom hacc => ?_, fun hroom hacc => ?_⟩
  · rw [hstart]
    unfold stepsP PCtx.start
    rw [runP_s1_noRecord s.takeCommand 8 _ _ _ _ _ _ _ _ _ hw hs hconf hmode
      (State.freeRecords_eq_zero_iff.2 hfull)]
    rfl
  · have hacc' : (s.takeCommand.submission s.handed).accepted = 0 := hacc
    rw [hstart, runP_submitBatch_to_s3 (u := s.takeCommand) _ _ hw hconf hmode (hfree hroom), hacc',
      runP_s3_empty _ _ _ _ _ _ _ _ _ _ (by exact hw) (by exact hs)]
    rfl
  · rw [hstart, runP_submitBatch_to_s3 (u := s.takeCommand) _ _ hw hconf hmode (hfree hroom),
      runP_s3 _ _ _ _ _ _ _ _ _ _ _ (by exact hw) (by exact hacc),
      runP_s4 _ _ _ _ _ _ _ _ _ _ _ (by exact hw) (by exact hs)]
    rfl

/-! ### POLL_BATCH carried through (R241) -/

/-- The context of a POLL_BATCH that stands at step `pos` with `hw` read from `HW_HEAD` and nothing handed out. -/
def CCtx.polling (word : Word32) (pos : CPos) (hw : Word32) : CCtx := ⟨.pollBatch, word, pos, 0, 0, 0, hw, []⟩

theorem CCtx.start_pollBatch (word : Word32) : CCtx.start .pollBatch word = .polling word .b1 0 := rfl

/-- Steps B1 and B2: a latched front batch goes to the drain, another one to the test (R252). -/
theorem exec_pollBatch_front {s : State} {b : Batch} {rest : List Batch} (max : Idx)
    (ha : s.accepts .consumer = true) (hw : s.window = []) (hconf : s.configured = true) (hmode : s.mode = .batch)
    (hf : s.fifo = b :: rest) :
    exec (.pollBatch max) s = .next (State.runC 5 (s.takeCommand.setCseq (some
      (.polling (encode (.pollBatch max)) (if b.complete then .b6 else .b3) 0)))) := by
  rw [exec, execPollBatch, carryConsumer_starts _ _ ha, CCtx.start_pollBatch]
  unfold stepsC CCtx.polling
  rw [runC_b1 s.takeCommand 6 _ _ _ _ _ _ _ b rest hw hconf hmode hf,
    runC_b2 s.takeCommand 5 _ _ _ _ _ _ _ b rest hw hf]

/-- Settles O34: step B1 ends the operation on an empty FIFO, step B4 on an unfinished front batch. -/
theorem pollBatchWithoutResult : Obligations.PollBatchWithoutResult := by
  intro s max ha hw hconf hmode
  have hs := cseq_none_of_accepts ha
  refine ⟨fun hf => ?_, fun b rest hf hlatch hprog => ?_⟩
  · rw [exec, execPollBatch, carryConsumer_starts _ _ ha]
    unfold stepsC CCtx.start
    rw [runC_b1_empty s.takeCommand 6 _ _ _ _ _ _ _ hw hs hconf hmode hf]
    rfl
  · rw [exec_pollBatch_front max ha hw hconf hmode hf, hlatch, if_neg Bool.false_ne_true]
    unfold CCtx.polling
    rw [runC_b3 s.takeCommand 4 _ _ _ _ _ _ _ hw,
      runC_b4_inProgress s.takeCommand.logHwHead 3 _ _ _ _ _ _ _ b rest hw hs hf (by exact hprog)]
    rfl

/-- Steps B6 and B7: the remaining references go out, up to `max`, and a drained batch is popped (R247 to R251). -/
theorem runC_drain {u : State} {b : Batch} {rest : List Batch} (n : Nat) (max : Idx) (hw_ : Word32)
    (hw : u.window = []) (hs : u.cseq = none) (hf : u.fifo = b :: rest) :
    let k := min max.toNat (b.n - b.consumed)
    State.runC (n + 2) (u.setCseq (some (.polling (encode (.pollBatch max)) .b6 hw_))) =
      (u.setFifo (if b.consumed + k = b.n then rest else { b with consumed := b.consumed + k } :: rest)).respond
        (encode (.pollBatch max))
        ⟨.ok, BitVec.ofNat 24 k, ((b.refs.drop b.consumed).take k).map fun r => .compl r .ok 0⟩ := by
  have hmax : argField (encode (.pollBatch max)) = max := argField_commandWord _ _ _
  unfold CCtx.polling
  rw [runC_b6 u (n + 1) _ _ _ _ _ _ _ b rest hw hf, hmax]
  exact runC_b7 (u.setFifo ({ b with consumed := b.consumed + min max.toNat (b.n - b.consumed) } :: rest)) n
    _ _ _ _ _ _ _ _ rest hw hs rfl

/-- Steps B3 to B5: a front batch that is no longer in progress is latched and its slots are released (R246). -/
theorem runC_latch {u : State} {b : Batch} {rest : List Batch} (n : Nat) (word hw_ : Word32) (hw : u.window = [])
    (hf : u.fifo = b :: rest) (hdone : inProgress b.headOffset b.tailOffset u.dev.hwHead = false) :
    State.runC (n + 3) (u.setCseq (some (.polling word .b3 hw_))) =
      State.runC n (((u.logHwHead.setFifo ({ b with complete := true } :: rest)).setHead
        (wrapAdd u.wrapMask u.head b.descCount)).setCseq (some (.polling word .b6 u.dev.hwHead))) := by
  unfold CCtx.polling
  rw [runC_b3 u (n + 2) _ _ _ _ _ _ _ hw, runC_b4 u.logHwHead (n + 1) _ _ _ _ _ _ _ b rest hw hf hdone,
    runC_b5 u.logHwHead n _ _ _ _ _ _ _ b rest hw hf]
  rfl

/-- Settles O35: a latched batch is drained, another one is latched first. -/
theorem pollBatchDrainsTheFront : Obligations.PollBatchDrainsTheFront := by
  intro s max b rest ha hw hconf hmode hf hdone k
  have hs := cseq_none_of_accepts ha
  rw [exec_pollBatch_front max ha hw hconf hmode hf]
  cases hlatch : b.complete with
  | true =>
    have hb : { b with complete := true } = b := by rw [← hlatch]
    rw [if_pos rfl, runC_drain 3 max 0 (u := s.takeCommand) hw hs hf, ← hb]
    rfl
  | false =>
    rw [if_neg Bool.false_ne_true, runC_latch 2 _ 0 (u := s.takeCommand) hw hf (hdone hlatch),
      runC_drain 0 max _ (by exact hw) (by exact hs) rfl]
    simp only [State.respond, State.log, State.setTrace, State.setFifo, State.setHead, State.logHwHead,
      State.takeCommand, State.setPort]
    rfl

/-! ### BATCH_AGE (R255) -/

theorem encode_batchAge : encode .batchAge = 0x80000000#32 := by decide

/-- Settles O36: step G1 by the three cases of its answer. -/
theorem batchAgeAnswers : Obligations.BatchAgeAnswers := by
  intro s ha
  rw [exec, execBatchAge, State.answer_of_accepts ha, encode_batchAge, State.batchAgeResponse]
  refine ⟨fun hc => ?_, fun hc hf => ?_, fun b rest hc hf => ?_⟩
  · rw [hc]
    rfl
  · rw [hc, hf]
    rfl
  · rw [hc, hf]
    rfl

end Sys2Proof.Machine

/-!
The administrative operations and RDREG (45_admin.md): START, STOP and FLUSH from their acceptance to the
acknowledgement or the end of the poll window, the registers RDREG answers, and the batch pool by count.
-/

namespace Sys2Proof.Machine

/-! ### The records of the pool (R291) -/

/-- The free indices and the indices in the FIFO are those of the pool, each once. -/
theorem State.freeBids_append_perm {s : State} (h : s.fifoInv) :
    (s.freeBids ++ s.fifo.map (fun b => b.bid.toNat)).Perm (List.range s.cfg.poolSize) := by
  obtain ⟨-, -, hnodup, hpool, -⟩ := h
  have hdisjoint : s.freeBids.Disjoint (s.fifo.map (fun b => b.bid.toNat)) := by
    intro k hfree hused
    obtain ⟨b, hb, e⟩ := List.mem_map.1 hused
    exact (State.mem_freeBids.1 hfree).2 b hb e
  have hall : (s.freeBids ++ s.fifo.map (fun b => b.bid.toNat)).Nodup :=
    (List.nodup_range.filter _).append hnodup hdisjoint
  refine (List.perm_ext_iff_of_nodup hall List.nodup_range).2 fun k => ?_
  rw [List.mem_append, State.mem_freeBids, List.mem_range, List.mem_map]
  constructor
  · rintro (⟨hk, -⟩ | ⟨b, hb, rfl⟩)
    · exact hk
    · exact hpool b hb
  · intro hk
    by_cases hused : ∃ b ∈ s.fifo, b.bid.toNat = k
    · exact .inr hused
    · exact .inl ⟨hk, fun b hb e => hused ⟨b, hb, e⟩⟩

/-- Settles O31: the FIFO is no longer than the pool, and the free indices are counted by what the FIFO
leaves of it. -/
theorem poolCountsAddUp : Obligations.PoolCountsAddUp := by
  intro s h
  have hcount := (State.freeBids_append_perm h).length_eq
  obtain ⟨-, hle, -⟩ := h
  rw [List.length_append, List.length_map, List.length_range] at hcount
  unfold State.freeRecords
  omega

/-! ### RDREG (R290) -/

/-- RDREG accepted is answered with the register in its one step D1. -/
theorem exec_rdreg {s : State} (sel : BitVec 3) (ha : s.accepts .query = true) :
    exec (.rdreg sel) s = .next (s.answered (encode (.rdreg sel)) ⟨.ok, s.register sel, []⟩) := by
  rw [exec, execRdreg, State.answer_of_accepts ha]

theorem bitOfMode_eq (m : Mode) : bitOfMode m = decide (m = .batch) := by cases m <;> rfl

theorem bitOfPolicy_eq (p : Policy) : bitOfPolicy p = decide (p = .bestEffort) := by cases p <;> rfl

theorem bitOfKind_eq (k : Kind) : bitOfKind k = decide (k = .decode) := by cases k <;> rfl

/-- The bits of CTRLSTAT: seven flags from bit 0 on and zeros above. -/
theorem State.ctrlstat_getLsbD (s : State) (i : Nat) :
    s.ctrlstat.getLsbD i = [s.configured, s.enabled, bitOfMode s.mode, bitOfPolicy s.policy,
      bitOfKind s.kind, s.pbusy, s.cbusy].getD i false := by
  have h : s.ctrlstat.getLsbD i = (0#17 ++ BitVec.ofBool s.cbusy ++ BitVec.ofBool s.pbusy ++
      BitVec.ofBool (bitOfKind s.kind) ++ BitVec.ofBool (bitOfPolicy s.policy) ++
      BitVec.ofBool (bitOfMode s.mode) ++ BitVec.ofBool s.enabled ++
      BitVec.ofBool s.configured).getLsbD i := rfl
  simp only [h, BitVec.getLsbD_append]
  match i with
  | 0 | 1 | 2 | 3 | 4 | 5 | 6 => simp
  | i + 7 => simp

/-- Above its flags CTRLSTAT is zero. -/
theorem State.ctrlstat_high (s : State) : s.ctrlstat.extractLsb' 7 17 = 0#17 := by
  apply BitVec.eq_of_getLsbD_eq
  intro i _
  rw [BitVec.getLsbD_extractLsb', State.ctrlstat_getLsbD, List.getD_eq_default _ _ (Nat.le_add_right 7 i),
    Bool.and_false, BitVec.getLsbD_zero]

/-- Settles O42: the answer is the register of each selector. -/
theorem rdregAnswersTheRegister : Obligations.RdregAnswersTheRegister := by
  intro s ha
  have hbit := s.ctrlstat_getLsbD
  refine ⟨⟨s.ctrlstat, exec_rdreg 0 ha, hbit 0, hbit 1, ?_, ?_, ?_, hbit 5, hbit 6, s.ctrlstat_high⟩,
    exec_rdreg 1 ha, exec_rdreg 2 ha, exec_rdreg 3 ha, exec_rdreg 4 ha, exec_rdreg 5 ha, exec_rdreg 6 ha,
    exec_rdreg 7 ha⟩
  · exact (hbit 2).trans (bitOfMode_eq s.mode)
  · exact (hbit 3).trans (bitOfPolicy_eq s.policy)
  · exact (hbit 4).trans (bitOfKind_eq s.kind)

/-! ### The bits of ADMIN_STATUS (30_encoding.md R124, 46_actors.md R306) -/

theorem withEnabledAck_getLsbD (w : Word32) (b : Bool) (i : Nat) :
    (withEnabledAck w b).getLsbD i = if i = 0 then b else w.getLsbD i := by
  have h : (withEnabledAck w b).getLsbD i = (w.extractLsb' 1 31 ++ BitVec.ofBool b).getLsbD i := rfl
  rw [h, BitVec.getLsbD_append]
  match i with
  | 0 => simp
  | i + 1 =>
    by_cases hi : i < 31
    · simp [hi, Nat.add_comm]
    · simp [hi, BitVec.getLsbD_of_ge w (i + 1) (by omega)]

theorem withFlushDone_getLsbD (w : Word32) (b : Bool) (i : Nat) :
    (withFlushDone w b).getLsbD i = if i = 1 then b else w.getLsbD i := by
  have h : (withFlushDone w b).getLsbD i =
      (w.extractLsb' 2 30 ++ BitVec.ofBool b ++ BitVec.ofBool (w.getLsbD 0)).getLsbD i := rfl
  rw [h, BitVec.getLsbD_append, BitVec.getLsbD_append]
  match i with
  | 0 => simp
  | 1 => simp
  | i + 2 =>
    by_cases hi : i < 30
    · simp [hi, Nat.add_comm]
    · simp [hi, BitVec.getLsbD_of_ge w (i + 2) (by omega)]

@[simp] theorem enabledAck_withEnabledAck (w : Word32) (b : Bool) : enabledAck (withEnabledAck w b) = b :=
  withEnabledAck_getLsbD w b 0

@[simp] theorem flushDone_withFlushDone (w : Word32) (b : Bool) : flushDone (withFlushDone w b) = b :=
  withFlushDone_getLsbD w b 1

/-- Of two writes of `flush_done` the later one stands. -/
@[simp] theorem withFlushDone_withFlushDone (w : Word32) (b b' : Bool) :
    withFlushDone (withFlushDone w b) b' = withFlushDone w b' := by
  apply BitVec.eq_of_getLsbD_eq
  intro i _
  simp only [withFlushDone_getLsbD]
  split <;> rfl

/-! ### Requests and acknowledgements (46_actors.md R306) -/

theorem Device.admin_start (d : Device) :
    d.admin (adminCode .start) = { d with adminCtrl := 1#32, startsOwed := d.startsOwed + 1 } := rfl

theorem Device.admin_stop (d : Device) :
    d.admin (adminCode .stop) = { d with adminCtrl := 2#32, stopsOwed := d.stopsOwed + 1 } := rfl

theorem Device.admin_flush (d : Device) :
    d.admin (adminCode .flush) = { d with
      adminCtrl := 3#32, flushesOwed := d.flushesOwed + 1
      adminStatus := withFlushDone d.adminStatus false } := rfl

section Owed

variable {u : State} {dev : Device} {n : Nat}

/-- A start request that is owed an acknowledgement gets it. -/
theorem devStep_ackEnabled_true (hu : u.dev = dev) (h : dev.startsOwed = n + 1) :
    u.devStep (.ackEnabled true) = u.setDev { dev with
      adminStatus := withEnabledAck dev.adminStatus true, startsOwed := n } := by
  rw [State.devStep, hu, if_neg (by omega), h, Nat.add_sub_cancel]

/-- A stop request that is owed an acknowledgement gets it. -/
theorem devStep_ackEnabled_false (hu : u.dev = dev) (h : dev.stopsOwed = n + 1) :
    u.devStep (.ackEnabled false) = u.setDev { dev with
      adminStatus := withEnabledAck dev.adminStatus false, stopsOwed := n } := by
  rw [State.devStep, hu, if_neg (by omega), h, Nat.add_sub_cancel]

/-- A flush request that is owed an acknowledgement gets it. -/
theorem devStep_ackFlush (hu : u.dev = dev) (h : dev.flushesOwed = n + 1) :
    u.devStep .ackFlush = u.setDev { dev with
      adminStatus := withFlushDone dev.adminStatus true, flushesOwed := n } := by
  rw [State.devStep, hu, if_neg (by omega), h, Nat.add_sub_cancel]

end Owed

/-! ### From acceptance to the first poll (R272 to R274, steps 1 and 2) -/

theorem aseq_none_of_accepts {s : State} (ha : s.accepts .admin = true) : s.aseq = none := by
  rw [State.accepts_admin, Bool.and_eq_true, Option.isNone_iff_eq_none] at ha
  exact ha.2

/-- An accepted class A command starts on ASEQ and is carried on. -/
theorem carryAdmin_starts {s : State} (op : AOp) (word : Word32) (ha : s.accepts .admin = true) :
    s.carryAdmin op word =
      .next (State.runA (stepsA s.cfg) (s.takeCommand.setAseq (some (ACtx.start op word)))) := by
  rw [State.carryAdmin, if_pos ha, State.acceptAdmin, if_pos ha, onNext_next]

theorem State.setAseq_setAseq (u : State) (c c' : Option ACtx) : (u.setAseq c).setAseq c' = u.setAseq c' := rfl

/-- One own step of ASEQ before which the schedule has no device step or has come to its end. -/
theorem runA_unscheduled {u : State} {c : ACtx} (n : Nat) (h : u.window.headD [] = []) :
    State.runA (n + 1) (u.setAseq (some c)) =
      State.runA n (((u.setWindow u.window.tail).setAseq (some c)).aStep c) := by
  cases hw : u.window with
  | nil =>
    rw [runA_step n hw, List.tail_nil, ← hw]
    rfl
  | cons ds w =>
    rw [hw, List.headD_cons] at h
    subst h
    exact runA_quiet n hw

/-- The state after the request of `op` is written: the command has left the port and the device, which has
recorded the request, is `dev`. -/
def State.requested (s : State) (op : AOp) (dev : Device) : State :=
  { s with
    port := s.port.tail
    dev := dev
    trace := .mmioWrite .aseq s.cfg.regBase s.cfg.offAdminCtrl (adminCode op) :: s.trace }

section Operation

variable {s : State} {op : AOp} {dev : Device} (word : Word32)

/-- Steps T1, P1, L1 on a configured ring. -/
theorem aStep_check_configured {u : State} (hop : adminCode op ≠ 0) (hc : u.configured = true) :
    u.aStep ⟨op, word, .check, 0⟩ = u.setAseq (some ⟨op, word, .write, 0⟩) := by
  cases op with
  | configure k p m r => exact absurd rfl hop
  | start | stop | flush => exact if_pos hc

/-- An accepted START, STOP or FLUSH on a configured ring, with no device step before its first two own steps,
writes its request and comes to the poll loop. -/
theorem carryAdmin_requests (ha : s.accepts .admin = true) (hc : s.configured = true)
    (hop : adminCode op ≠ 0) (hdev : s.dev.admin (adminCode op) = dev)
    (hfirst : s.window.headD [] = []) (hsecond : s.window.tail.headD [] = []) :
    s.carryAdmin op word = .next (State.runA (s.cfg.pollMax + 1)
      (((s.requested op dev).setWindow s.window.tail.tail).setAseq (some ⟨op, word, pollPos s.cfg 0, 0⟩))) := by
  rw [carryAdmin_starts op word ha, stepsA, ACtx.start,
    runA_unscheduled (u := s.takeCommand) (s.cfg.pollMax + 2) hfirst, aStep_check_configured word hop (by exact hc),
    State.setAseq_setAseq, State.takeCommand_window,
    runA_unscheduled (u := s.takeCommand.setWindow s.window.tail) (s.cfg.pollMax + 1) hsecond]
  simp only [State.aStep, State.stepAdminWrite, State.writeAdminCtrl, State.requested, State.takeCommand, State.log,
    State.setTrace, State.setPort, State.setWindow, State.setAseq, State.setDev, hdev]

/-- The same on an empty schedule. -/
theorem carryAdmin_requests_quiet (ha : s.accepts .admin = true) (hc : s.configured = true) (hw : s.window = [])
    (hop : adminCode op ≠ 0) (hdev : s.dev.admin (adminCode op) = dev) :
    s.carryAdmin op word = .next (State.runA (s.cfg.pollMax + 1)
      ((s.requested op dev).setAseq (some ⟨op, word, pollPos s.cfg 0, 0⟩))) := by
  have hrest : (s.requested op dev).setWindow s.window.tail.tail = s.requested op dev := by
    rw [hw, List.tail_nil, List.tail_nil, ← hw]
    rfl
  rw [carryAdmin_requests word ha hc hop hdev (by rw [hw]; rfl) (by rw [hw]; rfl), hrest]

/-- The poll loop with no device step and without the awaited value: every read of the poll window, then expiry. -/
theorem runA_expires {u : State} (hw : u.window = []) (hu : u.aseq = none)
    (hk : acknowledged op u.dev.adminStatus = false) :
    State.runA (u.cfg.pollMax + 1) (u.setAseq (some ⟨op, word, pollPos u.cfg 0, 0⟩)) =
      ((u.polled u.cfg.pollMax []).setEnabled false).respond word (Response.bare .errTimeout) := by
  cases hp : u.cfg.pollMax with
  | zero =>
    have e : u.polled 0 [] = u := by
      rw [← hw]
      rfl
    rw [e, pollPos, hp, if_neg (Nat.lt_irrefl 0), runA_expire u 0 op word 0 hw hu]
  | succ k =>
    rw [pollPos, hp, if_pos k.succ_pos, Nat.add_comm, runA_polls_to_expiry 1 k 0 hk hw (by omega),
      runA_expire (u.polled (k + 1) []) 0 op word _ rfl hu]

/-- With no device step inside it and the awaited value not shown, the operation reads to the end of the poll
window and times out (R277). -/
theorem carryAdmin_expires (ha : s.accepts .admin = true) (hc : s.configured = true) (hw : s.window = [])
    (hop : adminCode op ≠ 0) (hdev : s.dev.admin (adminCode op) = dev)
    (hk : acknowledged op dev.adminStatus = false) :
    s.carryAdmin op word = .next { s with
      port := s.port.tail
      enabled := false
      dev := dev
      trace := .respond word ⟨.errTimeout, 0, []⟩ ::
        statusReads s.cfg dev.adminStatus s.cfg.pollMax
          (.mmioWrite .aseq s.cfg.regBase s.cfg.offAdminCtrl (adminCode op) :: s.trace) } := by
  have hpolls : State.runA (s.cfg.pollMax + 1)
      ((s.requested op dev).setAseq (some ⟨op, word, pollPos s.cfg 0, 0⟩)) = _ :=
    runA_expires (u := s.requested op dev) word hw (aseq_none_of_accepts ha) hk
  rw [carryAdmin_requests_quiet word ha hc hw hop hdev, hpolls, ← hw]
  simp only [State.respond, State.log, State.setTrace, State.setEnabled, State.polled, State.setWindow]
  rfl

/-- With no device step inside it and the awaited value shown once the request is written, the operation ends at
its first read (R278). -/
theorem carryAdmin_firstRead (ha : s.accepts .admin = true) (hc : s.configured = true) (hw : s.window = [])
    (hop : adminCode op ≠ 0) (hdev : s.dev.admin (adminCode op) = dev) (hp : 1 ≤ s.cfg.pollMax)
    (hk : acknowledged op dev.adminStatus = true) :
    s.carryAdmin op word = .next { s with
      port := s.port.tail
      enabled := enabledAfter op s.enabled
      dev := dev
      trace := .respond word ⟨.ok, 0, []⟩ ::
        .mmioRead .aseq s.cfg.regBase s.cfg.offAdminStatus dev.adminStatus ::
        .mmioWrite .aseq s.cfg.regBase s.cfg.offAdminCtrl (adminCode op) :: s.trace } := by
  rw [carryAdmin_requests_quiet word ha hc hw hop hdev, pollPos,
    if_pos (Nat.succ_le_iff.1 hp), runA_poll_acknowledged (s.requested op dev) _ op word 0 hw
      (aseq_none_of_accepts ha) hk]
  simp only [State.respond, State.log, State.setTrace, State.setEnabled, State.logAdminStatus]
  rfl

/-- Device steps scheduled last, before an own step of ASEQ, may as well have come before the operation went on. -/
theorem runA_last_window {u v : State} {c : ACtx} {ds : List DevStep} (n : Nat) (h : u.window = [ds])
    (hv : ((u.setAseq (some c)).setWindow []).devSteps ds = v.setAseq (some c)) (hw : v.window = []) :
    State.runA (n + 1) (u.setAseq (some c)) = State.runA (n + 1) (v.setAseq (some c)) :=
  (runA_after n h hv).trans (runA_step n hw).symm

/-- The device is silent for `k` polls that do not show the awaited value and then, by its step `d`, shows it:
the operation ends at the next read. -/
theorem carryAdmin_acknowledged {k : Nat} {d : DevStep} {dev' : Device} (ha : s.accepts .admin = true)
    (hc : s.configured = true) (hop : adminCode op ≠ 0)
    (hdev : s.dev.admin (adminCode op) = dev) (hp : k < s.cfg.pollMax)
    (hw : s.window = List.replicate (k + 2) [] ++ [[d]]) (hsilent : acknowledged op dev.adminStatus = false)
    (hd : ∀ u : State, u.dev = dev → u.devStep d = u.setDev dev')
    (hack : acknowledged op dev'.adminStatus = true) :
    s.carryAdmin op word = .next { s with
      port := s.port.tail
      window := []
      enabled := enabledAfter op s.enabled
      dev := dev'
      trace := .respond word ⟨.ok, 0, []⟩ ::
        .mmioRead .aseq s.cfg.regBase s.cfg.offAdminStatus dev'.adminStatus ::
        statusReads s.cfg dev.adminStatus k
          (.mmioWrite .aseq s.cfg.regBase s.cfg.offAdminCtrl (adminCode op) :: s.trace) } := by
  have hrest : s.window.tail.tail = List.replicate k [] ++ [[d]] := by rw [hw]; rfl
  obtain ⟨n, hn⟩ : ∃ n, s.cfg.pollMax + 1 = n + 1 + k := ⟨s.cfg.pollMax - k, by omega⟩
  have hpolled : ((s.requested op dev).setWindow (List.replicate k [] ++ [[d]])).polled k [[d]] =
      (s.requested op dev).polled k [[d]] := rfl
  have hstep : ∀ c, ((((s.requested op dev).polled k [[d]]).setAseq c).setWindow []).devSteps [d] =
      (((s.requested op dev).polled k []).setDev dev').setAseq c := fun c => hd _ rfl
  rw [carryAdmin_requests word ha hc hop hdev (by rw [hw]; rfl) (by rw [hw]; rfl), hrest, pollPos,
    if_pos (by omega), hn,
    runA_silent_polls (u := (s.requested op dev).setWindow (List.replicate k [] ++ [[d]])) (w := [[d]]) (n + 1)
      k 0 hsilent rfl (by rw [Nat.zero_add]; exact hp),
    hpolled, runA_last_window n rfl (hstep _) rfl,
    runA_poll_acknowledged (((s.requested op dev).polled k []).setDev dev') n op word (0 + k) rfl
      (aseq_none_of_accepts ha) hack]
  simp only [State.respond, State.log, State.setTrace, State.setEnabled, State.logAdminStatus, State.polled,
    State.setWindow, State.setDev]
  rfl

end Operation

/-! ### START, STOP and FLUSH (R272 to R274) -/

theorem encode_start : encode .start = 0x90000000#32 := by decide

theorem encode_stop : encode .stop = 0xA0000000#32 := by decide

theorem encode_flush : encode .flush = 0xB0000000#32 := by decide

theorem exec_start (s : State) : exec .start s = s.carryAdmin .start 0x90000000#32 := by
  rw [exec, execStart, encode_start]

theorem exec_stop (s : State) : exec .stop s = s.carryAdmin .stop 0xA0000000#32 := by
  rw [exec, execStop, encode_stop]

theorem exec_flush (s : State) : exec .flush s = s.carryAdmin .flush 0xB0000000#32 := by
  rw [exec, execFlush, encode_flush]

/-- Settles O37: the request written is the one the device acknowledges. -/
theorem startAcknowledged : Obligations.StartAcknowledged := by
  intro s k ha hc hk hbit hw
  rw [exec_start, carryAdmin_acknowledged _ ha hc (by decide) s.dev.admin_start hk hw hbit
    (fun _ hu => devStep_ackEnabled_true hu rfl) (enabledAck_withEnabledAck _ true)]
  rfl

/-- Settles O38: the request written is the one the device acknowledges. -/
theorem stopAcknowledged : Obligations.StopAcknowledged := by
  intro s k ha hc hk hbit hw
  rw [exec_stop, carryAdmin_acknowledged _ ha hc (by decide) s.dev.admin_stop hk hw (congrArg not hbit)
    (fun _ hu => devStep_ackEnabled_false hu rfl) (congrArg not (enabledAck_withEnabledAck _ false))]
  rfl

/-- Settles O39: the request clears a stale `flush_done`, so that only the acknowledgement of this request is
awaited. -/
theorem flushAcknowledged : Obligations.FlushAcknowledged := by
  intro s k ha hc hk hw
  rw [exec_flush, carryAdmin_acknowledged _ ha hc (by decide) s.dev.admin_flush hk hw
    (flushDone_withFlushDone _ false) (fun _ hu => devStep_ackFlush hu rfl) (flushDone_withFlushDone _ true)]
  simp only [withFlushDone_withFlushDone]
  rfl

/-- Settles O40: without a device step the value shown after the request is the one every poll reads. -/
theorem adminTimesOut : Obligations.AdminTimesOut := by
  intro s ha hc hw
  rw [exec_start, exec_stop, exec_flush]
  refine ⟨fun hbit => ?_, fun hbit => ?_, ?_⟩
  · rw [carryAdmin_expires _ ha hc hw (by decide) s.dev.admin_start hbit]
    rfl
  · rw [carryAdmin_expires _ ha hc hw (by decide) s.dev.admin_stop (congrArg not hbit)]
    rfl
  · rw [carryAdmin_expires _ ha hc hw (by decide) s.dev.admin_flush (flushDone_withFlushDone _ false)]
    rfl

/-- Settles O41: the requests of START and STOP leave the bit they wait for as it is. -/
theorem adminSucceedsAtFirstRead : Obligations.AdminSucceedsAtFirstRead := by
  intro s ha hc hw hp
  rw [exec_start, exec_stop]
  refine ⟨fun hbit => ?_, fun hbit => ?_⟩
  · rw [carryAdmin_firstRead _ ha hc hw (by decide) s.dev.admin_start hp hbit]
    rfl
  · rw [carryAdmin_firstRead _ ha hc hw (by decide) s.dev.admin_stop hp (congrArg not hbit)]
    rfl

end Sys2Proof.Machine

/-!
Commands taken one transition at a time (46_actors.md R315, R316, R318): a command carried through by `exec` is its
acceptance and then the own steps of its sequencer, none of which reads the agenda.
-/

namespace Sys2Proof.Machine

/-! ### A step takes its transition off the agenda (R315) -/

theorem State.withFrontCommand_of_decode {s : State} {c : Command} {rest : List Command} {i : Instr}
    (hport : s.port = c :: rest) (hd : decode c.word = .command i) (f : Instr → State → Result) :
    s.withFrontCommand f = f i s := by
  simp only [State.withFrontCommand, hport, hd]

theorem step_of_agenda {s : State} {a : Act} {rest : List Act} (h : s.agenda = a :: rest) :
    step s = (s.setAgenda rest).perform a := by
  simp only [step, State.nextTransition, h]

/-- Settles O7: the front command of the port decodes to the instruction that is run. -/
theorem stepRunsTheDecodedInstruction : Obligations.StepRunsTheDecodedInstruction := by
  intro s k w acts c others i hagenda hport hd
  have hport' : (((s.setAgenda acts).select k).setWindow w).port = c :: others := hport
  rw [step_of_agenda hagenda, State.perform, State.withFrontCommand_of_decode hport' hd]

/-! ### No own step reads the agenda -/

section Agenda

variable (s : State) (l : List Act)

theorem stepS1_setAgenda (c : PCtx) : (s.setAgenda l).stepS1 c = (s.stepS1 c).setAgenda l := by
  unfold State.stepS1
  rw [apply_ite (State.setAgenda · l), apply_ite (State.setAgenda · l)]
  rfl

theorem stepE1Checked_setAgenda (c : PCtx) :
    (s.setAgenda l).stepE1Checked c = (s.stepE1Checked c).setAgenda l := by
  unfold State.stepE1Checked
  rw [apply_ite (State.setAgenda · l)]
  rfl

theorem stepE4_setAgenda (c : PCtx) : (s.setAgenda l).stepE4 c = (s.stepE4 c).setAgenda l := by
  unfold State.stepE4
  rw [apply_ite (State.setAgenda · l)]
  rfl

theorem stepS3_setAgenda (c : PCtx) : (s.setAgenda l).stepS3 c = (s.stepS3 c).setAgenda l := by
  unfold State.stepS3
  rw [apply_ite (State.setAgenda · l)]
  rfl

theorem pStep_setAgenda (c : PCtx) : (s.setAgenda l).pStep c = (s.pStep c).setAgenda l := by
  unfold State.pStep
  cases c.pos with
  | s1 => exact stepS1_setAgenda s l c
  | e1 =>
    cases c.op with
    | enqueue => exact stepE1Checked_setAgenda s l c
    | submitBatch => rfl
  | e4 => exact stepE4_setAgenda s l c
  | s3 => exact stepS3_setAgenda s l c
  | e2 | e5 | e6 | e7 | e8 | s4 => rfl

/-- A step on the front batch reads the agenda only where the step itself does. -/
theorem withFront_setAgenda {c : CCtx} {f g : Batch → List Batch → State}
    (h : ∀ b rest, g b rest = (f b rest).setAgenda l) :
    (s.setAgenda l).withFront c g = (s.withFront c f).setAgenda l := by
  unfold State.withFront
  rw [State.setAgenda_fifo]
  cases s.fifo with
  | nil => rfl
  | cons b rest => exact h b rest

theorem stepQ1_setAgenda (c : CCtx) : (s.setAgenda l).stepQ1 c = (s.stepQ1 c).setAgenda l := by
  unfold State.stepQ1
  rw [apply_ite (State.setAgenda · l)]
  rfl

theorem stepB1_setAgenda (c : CCtx) : (s.setAgenda l).stepB1 c = (s.stepB1 c).setAgenda l := by
  unfold State.stepB1
  rw [apply_ite (State.setAgenda · l), apply_ite (State.setAgenda · l)]
  rfl

theorem stepB4_setAgenda (c : CCtx) (b : Batch) : (s.setAgenda l).stepB4 c b = (s.stepB4 c b).setAgenda l := by
  unfold State.stepB4
  rw [apply_ite (State.setAgenda · l)]
  rfl

theorem stepB7_setAgenda (c : CCtx) (b : Batch) (rest : List Batch) :
    (s.setAgenda l).stepB7 c b rest = (s.stepB7 c b rest).setAgenda l := by
  unfold State.stepB7
  split <;> rfl

theorem cStep_setAgenda (c : CCtx) : (s.setAgenda l).cStep c = (s.cStep c).setAgenda l := by
  unfold State.cStep
  cases c.pos with
  | q1 => exact stepQ1_setAgenda s l c
  | b1 => exact stepB1_setAgenda s l c
  | b4 => exact withFront_setAgenda s l fun b _ => stepB4_setAgenda s l c b
  | b7 => exact withFront_setAgenda s l fun b rest => stepB7_setAgenda s l c b rest
  | b2 | b5 | b6 => exact withFront_setAgenda s l fun _ _ => rfl
  | q2 | q3 | q4 | q5 | q6 | b3 => rfl

theorem stepA1_setAgenda (c : ACtx) (k : Kind) (p : Policy) (m : Mode) (r : Idx) :
    (s.setAgenda l).stepA1 c k p m r = (s.stepA1 c k p m r).setAgenda l := by
  unfold State.stepA1
  rw [State.setAgenda_configured, State.setAgenda_cfg]
  split
  · rfl
  · split <;> rfl

theorem stepAdminCheck_setAgenda (c : ACtx) :
    (s.setAgenda l).stepAdminCheck c = (s.stepAdminCheck c).setAgenda l := by
  unfold State.stepAdminCheck
  rw [apply_ite (State.setAgenda · l)]
  rfl

theorem stepAdminPoll_setAgenda (c : ACtx) :
    (s.setAgenda l).stepAdminPoll c = (s.stepAdminPoll c).setAgenda l := by
  unfold State.stepAdminPoll
  rw [apply_ite (State.setAgenda · l)]
  rfl

theorem aStep_setAgenda (c : ACtx) : (s.setAgenda l).aStep c = (s.aStep c).setAgenda l := by
  unfold State.aStep
  cases c.pos with
  | check =>
    cases c.op with
    | configure k p m r => exact stepA1_setAgenda s l c k p m r
    | start | stop | flush => exact stepAdminCheck_setAgenda s l c
  | poll => exact stepAdminPoll_setAgenda s l c
  | write | expire => rfl

theorem pseqStep_setAgenda : (s.setAgenda l).pseqStep = s.pseqStep.setAgenda l := by
  unfold State.pseqStep
  rw [State.setAgenda_pseq]
  cases s.pseq with
  | none => rfl
  | some c => exact pStep_setAgenda s l c

theorem cseqStep_setAgenda : (s.setAgenda l).cseqStep = s.cseqStep.setAgenda l := by
  unfold State.cseqStep
  rw [State.setAgenda_cseq]
  cases s.cseq with
  | none => rfl
  | some c => exact cStep_setAgenda s l c

theorem aseqStep_setAgenda : (s.setAgenda l).aseqStep = s.aseqStep.setAgenda l := by
  unfold State.aseqStep
  rw [State.setAgenda_aseq]
  cases s.aseq with
  | none => rfl
  | some c => exact aStep_setAgenda s l c

/-- Acceptance does not read the agenda either. -/
theorem acceptInstr_setAgenda (i : Instr) :
    acceptInstr i (s.setAgenda l) = onNext (acceptInstr i s) (State.setAgenda · l) := by
  have hP (op : POp) (mode : Mode) (n : Nat) (w : Word32) : (s.setAgenda l).acceptProducer op mode n w =
      onNext (s.acceptProducer op mode n w) (State.setAgenda · l) := by
    simp only [State.acceptProducer, apply_ite (onNext · (State.setAgenda · l))]
    rfl
  have hC (op : COp) (w : Word32) : (s.setAgenda l).acceptConsumer op w =
      onNext (s.acceptConsumer op w) (State.setAgenda · l) := by
    simp only [State.acceptConsumer, apply_ite (onNext · (State.setAgenda · l))]
    rfl
  have hA (op : AOp) (w : Word32) : (s.setAgenda l).acceptAdmin op w =
      onNext (s.acceptAdmin op w) (State.setAgenda · l) := by
    simp only [State.acceptAdmin, apply_ite (onNext · (State.setAgenda · l))]
    rfl
  have hQ (w : Word32) (r : Response) : (.next ((s.setAgenda l).answer w r) : Result) =
      onNext (.next (s.answer w r)) (State.setAgenda · l) := by
    rw [onNext_next, State.answer, State.answer, apply_ite (State.setAgenda · l)]
    rfl
  cases i with
  | configure | start | stop | flush => exact hA _ _
  | enqueue | submitBatch => exact hP _ _ _ _
  | dequeue | pollBatch => exact hC _ _
  | freeCount | pendingCount | batchAge | rdreg => exact hQ _ _

end Agenda

/-! ### An operation carried on is its own steps, one after the other (R316) -/

/-- One own step of the sequencer an instruction runs on. -/
def ownStep (i : Instr) (s : State) : State :=
  match i.cls with
  | .producer => s.pseqStep
  | .consumer => s.cseqStep
  | .admin => s.aseqStep
  | .query => s.aseqStep

theorem perform_ownAct (i : Instr) (s : State) : s.perform (ownAct i) = .next (ownStep i s) := by
  cases i <;> rfl

theorem ownStep_setAgenda (i : Instr) (s : State) (l : List Act) :
    ownStep i (s.setAgenda l) = (ownStep i s).setAgenda l := by
  unfold ownStep
  cases i.cls with
  | producer => exact pseqStep_setAgenda s l
  | consumer => exact cseqStep_setAgenda s l
  | admin | query => exact aseqStep_setAgenda s l

/-- `run` carries an operation on by the own steps `own`, the scheduled device steps before each, until `idle`. -/
structure Carries (run : Nat → State → State) (idle : State → Prop) (own : State → State) : Prop where
  zero : ∀ s, run 0 s = s
  stops : ∀ n s, idle s → run n s = s
  goes : ∀ n s, ¬ idle s → run (n + 1) s = run n (own s.openWindow)
  rests : ∀ s, idle s → own s = s
  window : ∀ s, (own s).window = s.window

theorem State.pseqStep_window (s : State) : s.pseqStep.window = s.window := by
  obtain e | ⟨c, -, hch⟩ := s.pseqStep_change
  · rw [e]
  · rw [hch.frame]

theorem runP_carries : Carries State.runP (fun s => s.pseq = none) State.pseqStep where
  zero _ := rfl
  stops n _ := State.runP_idle n
  goes n _ h := by
    obtain ⟨c, hc⟩ := Option.ne_none_iff_exists'.1 h
    exact State.runP_running n hc
  rests _ := State.pseqStep_idle
  window := State.pseqStep_window

theorem runC_carries : Carries State.runC (fun s => s.cseq = none) State.cseqStep where
  zero _ := rfl
  stops n _ := State.runC_idle n
  goes n _ h := by
    obtain ⟨c, hc⟩ := Option.ne_none_iff_exists'.1 h
    exact State.runC_running n hc
  rests _ := State.cseqStep_idle
  window s := s.cseqStep_mem_window.2

theorem runA_carries : Carries State.runA (fun s => s.aseq = none) State.aseqStep where
  zero _ := rfl
  stops n _ := State.runA_idle n
  goes n _ h := by
    obtain ⟨c, hc⟩ := Option.ne_none_iff_exists'.1 h
    exact State.runA_running n hc
  rests _ := State.aseqStep_idle
  window s := s.aseqStep_mem_window.2

section Carries

variable {run : Nat → State → State} {idle : State → Prop} {own : State → State} {s : State}

/-- With no device step scheduled, an operation is carried on by its own steps alone. -/
theorem Carries.eq_iterate (h : Carries run idle own) (n : Nat) (hw : s.window = []) : run n s = own^[n] s := by
  induction n generalizing s with
  | zero => exact h.zero s
  | succ n ih =>
    by_cases hs : idle s
    · rw [h.stops _ s hs, Function.iterate_fixed (h.rests s hs)]
    · rw [h.goes n s hs, State.openWindow_nil hw, ih ((h.window s).trans hw), Function.iterate_succ_apply]

/-- An operation that has ended takes no further step. -/
theorem Carries.add_of_idle (h : Carries run idle own) {n : Nat} (k : Nat) (hi : idle (run n s)) :
    run (n + k) s = run n s := by
  induction n generalizing s with
  | zero =>
    rw [h.zero] at hi ⊢
    exact h.stops _ s hi
  | succ n ih =>
    by_cases hs : idle s
    · rw [h.stops _ s hs, h.stops _ s hs]
    · rw [h.goes n s hs] at hi ⊢
      rw [Nat.add_right_comm, h.goes _ s hs, ih hi]

end Carries

/-- With no device step scheduled, an instruction's operation is its own steps in a row. -/
theorem carryOn_eq_iterate {s : State} (i : Instr) (p : Params) (hw : s.window = []) :
    carryOn i (ownSteps p i) s = (ownStep i)^[ownSteps p i] s := by
  cases i with
  | configure | start | stop | flush => exact runA_carries.eq_iterate _ hw
  | enqueue | submitBatch => exact runP_carries.eq_iterate _ hw
  | dequeue | pollBatch => exact runC_carries.eq_iterate _ hw
  | freeCount | pendingCount | batchAge | rdreg => rfl

/-! ### `exec` is the acceptance and the own steps (R318) -/

/-- DEQUEUE has ended after its six steps, the seventh is POLL_BATCH's. -/
theorem runC_dequeue_steps (s : State) (word : Word32) :
    State.runC stepsC (s.setCseq (some (CCtx.start .dequeue word))) =
      State.runC 6 (s.setCseq (some (CCtx.start .dequeue word))) := by
  refine runC_carries.add_of_idle (n := 6) 1 (runC_ends _ _ ?_)
  rintro _ ⟨⟩
  simp [CCtx.start, CPos.left]

/-- CONFIGURE has ended after step A1. -/
theorem runA_configure_steps (s : State) (word : Word32) (k : Kind) (p : Policy) (m : Mode) (r : Idx) (q : Params) :
    State.runA (stepsA q) (s.setAseq (some (ACtx.start (.configure k p m r) word))) =
      State.runA 1 (s.setAseq (some (ACtx.start (.configure k p m r) word))) := by
  rw [stepsA, show q.pollMax + 3 = 1 + (q.pollMax + 2) by omega]
  refine runA_carries.add_of_idle _ ?_
  have hopen : (s.setAseq (some (ACtx.start (.configure k p m r) word))).openWindow.aseq =
      some (ACtx.start (.configure k p m r) word) := by
    rw [(State.openWindow_eq _).1, State.setAseq_aseq]
  rw [State.runA_running 0 rfl, State.aseqStep_running hopen]
  exact stepA1_aseq _ _ k p m r

/-- An accepted command carried through is accepted and then carried on for its own steps, with any device steps
inside it. -/
theorem exec_eq_acceptInstr_carryOn {i : Instr} {s : State} (ha : s.accepts i.cls = true) :
    exec i s = onNext (acceptInstr i s) (carryOn i (ownSteps s.cfg i)) := by
  cases i with
  | enqueue | submitBatch | pollBatch | start | stop | flush => exact if_pos ha
  | freeCount | pendingCount | batchAge | rdreg => rfl
  | dequeue max =>
    have haccept : acceptInstr (.dequeue max) s =
        .next (s.takeCommand.setCseq (some (CCtx.start .dequeue (encode (.dequeue max))))) := if_pos ha
    rw [haccept, onNext_next]
    exact (carryConsumer_starts .dequeue _ ha).trans (congrArg _ (runC_dequeue_steps _ _))
  | configure k p m r =>
    have haccept : acceptInstr (.configure k p m r) s = .next (s.takeCommand.setAseq
        (some (ACtx.start (.configure k p m r) (encode (.configure k p m r))))) := if_pos ha
    rw [haccept, onNext_next]
    exact (carryAdmin_starts _ _ ha).trans (congrArg _ (runA_configure_steps _ _ k p m r _))

/-! ### The machine on an agenda of own steps (R315) -/

theorem core_run_of_step {s t : State} (n : Nat) (h : step s = .next t) :
    Host.Core.run Sys2Proof.core (n + 1) s = Host.Core.run Sys2Proof.core n t := by
  have h' : Sys2Proof.core.step s = .next t := h
  simp only [Host.Core.run, h']

/-- A machine whose agenda begins with `n` own steps takes them one after the other. -/
theorem core_run_ownActs (i : Instr) (n : Nat) (s : State) (acts : List Act) :
    Host.Core.run Sys2Proof.core n (s.setAgenda (List.replicate n (ownAct i) ++ acts)) =
      .next ((ownStep i)^[n] (s.setAgenda acts)) := by
  induction n generalizing s with
  | zero => rfl
  | succ n ih =>
    have hstep : step (s.setAgenda (List.replicate (n + 1) (ownAct i) ++ acts)) =
        .next ((ownStep i s).setAgenda (List.replicate n (ownAct i) ++ acts)) := by
      rw [step_of_agenda (a := ownAct i) (rest := List.replicate n (ownAct i) ++ acts) rfl, perform_ownAct,
        ownStep_setAgenda, ownStep_setAgenda]
      rfl
    rw [core_run_of_step n hstep, ih, Function.iterate_succ_apply, ownStep_setAgenda]

/-- Acceptance of the front command is one step. -/
theorem step_accept {s u : State} {c : Command} {rest : List Command} {i : Instr} (acts : List Act)
    (hport : s.port = c :: rest) (hd : decode c.word = .command i) (hu : acceptInstr i s = .next u) :
    step (s.setAgenda (.accept 0 :: acts)) = .next (u.setAgenda acts) := by
  have hport' : (s.setAgenda acts).port = c :: rest := hport
  calc step (s.setAgenda (.accept 0 :: acts))
      = (s.setAgenda acts).perform (.accept 0) := step_of_agenda rfl
    _ = acceptInstr i (s.setAgenda acts) := by
        rw [State.perform, State.select_zero, State.withFrontCommand_of_decode hport' hd]
    _ = .next (u.setAgenda acts) := by rw [acceptInstr_setAgenda, hu, onNext_next]

/-- Acceptance leaves the schedule of device steps. -/
theorem acceptInstr_window {i : Instr} {s u : State} (hu : acceptInstr i s = .next u) : u.window = s.window := by
  have hQ (w : Word32) (r : Response) : (s.answer w r).window = s.window := by
    obtain ⟨-, e⟩ | ⟨-, e⟩ := answer_cases s w r <;> rw [e]
    rfl
  cases i with
  | configure | start | stop | flush => obtain ⟨-, rfl⟩ | ⟨-, rfl⟩ := acceptAdmin_next hu <;> rfl
  | enqueue | submitBatch => obtain ⟨-, rfl⟩ | ⟨-, -, -, rfl⟩ := acceptProducer_next hu <;> rfl
  | dequeue | pollBatch => obtain ⟨-, rfl⟩ | ⟨-, rfl⟩ := acceptConsumer_next hu <;> rfl
  | freeCount | pendingCount | batchAge | rdreg =>
    cases hu
    exact hQ _ _

/-- Settles O8: acceptance is the first step, and the own steps that follow never read the agenda. -/
theorem carriedThroughIsOwnSteps : Obligations.CarriedThroughIsOwnSteps := by
  intro s t c rest i acts hport hd ha hw ht
  rw [exec_eq_acceptInstr_carryOn (s := s.setAgenda acts) ha, acceptInstr_setAgenda] at ht
  obtain ⟨v, hv, rfl⟩ := onNext_eq_next ht
  obtain ⟨u, hu, rfl⟩ := onNext_eq_next hv
  have hwin : (u.setAgenda acts).window = [] := (acceptInstr_window hu).trans hw
  rw [core_run_of_step _ (step_accept _ hport hd hu), core_run_ownActs, State.setAgenda_cfg,
    carryOn_eq_iterate i _ hwin]

end Sys2Proof.Machine

/-!
The device (46_actors.md R300 to R307): what a completion leaves in ring memory, which registers and bytes no device
step writes, how the reported head moves, and which request an acknowledgement answers.
-/

namespace Sys2Proof.Machine

/-! ### The fields of a `ctrl` word (30_encoding.md R122) -/

theorem ctrlWord_getLsbD (h : HwStat) (n e d : Bool) (i : Nat) :
    (ctrlWord h n e d).getLsbD i =
      if i < 1 then (BitVec.ofBool d).getLsbD i
      else if i - 1 < 1 then (BitVec.ofBool e).getLsbD (i - 1)
      else if i - 2 < 1 then (BitVec.ofBool n).getLsbD (i - 2) else (h ++ 0#13).getLsbD (i - 3) := by
  have hw : (ctrlWord h n e d).getLsbD i =
      (h ++ 0#13 ++ BitVec.ofBool n ++ BitVec.ofBool e ++ BitVec.ofBool d).getLsbD i := rfl
  rw [hw, BitVec.getLsbD_append, BitVec.getLsbD_append, BitVec.getLsbD_append, Nat.sub_sub, Nat.sub_sub]

@[simp] theorem ctrlDone_ctrlWord (h : HwStat) (n e d : Bool) : ctrlDone (ctrlWord h n e d) = d := by
  rw [ctrlDone, ctrlWord_getLsbD]
  simp

@[simp] theorem ctrlError_ctrlWord (h : HwStat) (n e d : Bool) : ctrlError (ctrlWord h n e d) = e := by
  rw [ctrlError, ctrlWord_getLsbD]
  simp

@[simp] theorem ctrlNotify_ctrlWord (h : HwStat) (n e d : Bool) : ctrlNotify (ctrlWord h n e d) = n := by
  rw [ctrlNotify, ctrlWord_getLsbD]
  simp

@[simp] theorem ctrlHwstat_ctrlWord (h : HwStat) (n e d : Bool) : ctrlHwstat (ctrlWord h n e d) = h := by
  apply BitVec.eq_of_getLsbD_eq
  intro i hi
  rw [ctrlHwstat, BitVec.getLsbD_extractLsb', ctrlWord_getLsbD, if_neg (by omega), if_neg (by omega),
    if_neg (by omega), BitVec.getLsbD_append, if_neg (by omega), show 16 + i - 3 - 13 = i by omega]
  simp [hi]

/-! ### A completed slot (R303) -/

/-- Ring memory after result bytes and the `ctrl` word of a slot were written. -/
def Memory.complete (m : Memory) (p : Params) (i : Idx) (result : List Byte) (w : Word32) : Memory :=
  (m.writeBytes (slotAddr p i + offPayload) (result.take p.payloadBytes)).writeBytes (slotAddr p i + offCtrl)
    (leBytes 4 w.toNat)

section Complete

variable {p : Params} {m : Memory} {i j : Idx} {result : List Byte} {w w' : Word32}

theorem State.devWriteSlot_mem (s : State) (h : HwStat) (n e d : Bool) (r : List Byte) :
    (s.devWriteSlot h n e d r).mem = s.mem.complete s.cfg s.dev.devHead r (ctrlWord h n e d) := by
  obtain ⟨tr, hw⟩ := s.devWriteSlot_eq h n e d r
  rw [hw]
  rfl

theorem slotCtrl_complete (hm : Memory.wf m = true) : slotCtrl p (m.complete p i result w) i = w := by
  rw [slotCtrl, Memory.complete, leValue_readBytes_writeBytes _ _ _ (Memory.writeBytes_wf _ _ hm)]
  apply BitVec.eq_of_toNat_eq
  rw [BitVec.toNat_ofNat]
  have := w.isLt
  omega

/-- A completion leaves every byte outside its slot alone. -/
theorem read_complete_outside {a : Nat} (hsize : 16 ≤ p.descSize) (ha : ¬ inSlot p i a) :
    Memory.read (m.complete p i result w) a = Memory.read m a := by
  have hfit := Params.payloadBytes_add hsize
  have hlen := List.length_take_le p.payloadBytes result
  have hout := not_inSlot ha
  rw [Memory.complete, Memory.read_writeBytes_outside (by simp only [leBytes_length, offCtrl]; omega),
    Memory.read_writeBytes_outside (by simp only [offPayload]; omega)]

theorem slotCtrl_complete_other (hsize : 16 ≤ p.descSize) (hij : j ≠ i) :
    slotCtrl p (m.complete p i result w) j = slotCtrl p m j := by
  refine slotCtrl_congr fun k hk => read_complete_outside hsize ?_
  have hsep := slotAddr_separated (p := p) hij
  simp only [inSlot, offCtrl]
  omega

/-- The reference of the completed slot itself stays whatever the size of a slot. -/
theorem slotRef_complete_same : slotRef p (m.complete p i result w) i = slotRef p m i := by
  refine slotRef_congr fun k hk => ?_
  rw [Memory.complete, Memory.read_writeBytes_outside (by simp only [leBytes_length, offCtrl, offRef]; omega),
    Memory.read_writeBytes_outside (by simp only [offRef, offPayload]; omega)]

theorem Memory.getElem_readBytes {m : Memory} {a n k : Nat} (hk : k < (m.readBytes a n).length) :
    (m.readBytes a n)[k] = Memory.read m (a + k) := by
  induction n generalizing a k with
  | zero => simp [Memory.readBytes] at hk
  | succ n ih =>
    cases k with
    | zero => rfl
    | succ k =>
      rw [show a + (k + 1) = a + 1 + k by omega]
      exact ih (by simpa using hk)

/-- The result bytes stand at the front of the payload area, the rest of it stays (log 17). -/
theorem slotPayload_complete (hm : Memory.wf m = true) : slotPayload p (m.complete p i result w) i =
    result.take p.payloadBytes ++ (slotPayload p m i).drop result.length := by
  refine List.ext_getElem (by simp [slotPayload]; omega) fun k hk _ => ?_
  have hk' : k < p.payloadBytes := by simpa [slotPayload] using hk
  have hread : (slotPayload p (m.complete p i result w) i)[k] = Memory.read
      (m.writeBytes (slotAddr p i + offPayload) (result.take p.payloadBytes)) (slotAddr p i + offPayload + k) := by
    refine (Memory.getElem_readBytes hk).trans (Memory.read_writeBytes_outside (.inr ?_))
    simp only [leBytes_length, offCtrl, offPayload]
    omega
  rw [hread, List.getElem_append]
  split
  next hin => exact Memory.read_writeBytes_inside hm hin
  next hout =>
    rw [List.length_take] at hout
    simp only [List.getElem_drop, slotPayload, Memory.getElem_readBytes, List.length_take]
    rw [Memory.read_writeBytes_outside (.inr (by rw [List.length_take]; omega))]
    congr 1
    omega

/-- Of two `ctrl` writes the later one stands. -/
theorem read_writeBytes_overwritten {a y : Nat} {bs bs' : List Byte} (hm : Memory.wf m = true)
    (hlen : bs.length = bs'.length) :
    Memory.read ((m.writeBytes a bs).writeBytes a bs') y = Memory.read (m.writeBytes a bs') y := by
  by_cases hy : y < a ∨ a + bs'.length ≤ y
  · rw [Memory.read_writeBytes_outside hy, Memory.read_writeBytes_outside hy,
      Memory.read_writeBytes_outside (by omega)]
  · obtain ⟨k, rfl⟩ : ∃ k, y = a + k := ⟨y - a, by omega⟩
    rw [Memory.read_writeBytes_inside (Memory.writeBytes_wf _ _ hm) (by omega),
      Memory.read_writeBytes_inside hm (by omega)]

/-- A completion in two writes of the `ctrl` word, the result bytes with the first, leaves the bytes of one write. -/
theorem read_complete_complete (hm : Memory.wf m = true) (a : Nat) :
    Memory.read ((m.complete p i result w).complete p i [] w') a = Memory.read (m.complete p i result w') a := by
  rw [Memory.complete, Memory.complete, Memory.complete, List.take_nil, Memory.writeBytes,
    read_writeBytes_overwritten (Memory.writeBytes_wf _ _ hm) (by simp only [leBytes_length])]

end Complete

/-! ### The steps of the device, one equation each (R303) -/

section Steps

variable {s : State}

theorem State.devSignal_mem (s : State) (n irq : Bool) (j : Idx) : (s.devSignal n irq j).mem = s.mem := by
  unfold State.devSignal
  split <;> rfl

@[simp] theorem State.devAdvance_mem (s : State) : s.devAdvance.mem = s.mem := rfl

theorem devStep_cfg (s : State) (d : DevStep) : (s.devStep d).cfg = s.cfg := by
  obtain ⟨m, tr, v, e, -⟩ := s.devStep_eq d
  rw [e]
  rfl

/-- A completion in one write. -/
theorem devStep_complete (e keep irq : Bool) (h : HwStat) (result : List Byte) (hwork : s.dev.hasWork = true) :
    (s.devStep (.complete e h result keep irq)).mem = s.mem.complete s.cfg s.dev.devHead result
      (ctrlWord h (ctrlNotify s.devCtrl && keep) e true) ∧
    (s.devStep (.complete e h result keep irq)).dev = s.devAdvance.dev := by
  rw [State.devStep, if_pos hwork]
  dsimp only
  rw [State.devSignal_mem, State.devSignal_dev, State.devAdvance_mem, State.devAdvance_dev, State.devAdvance_dev,
    State.devWriteSlot_mem, State.devWriteSlot_dev]
  exact ⟨rfl, rfl⟩

/-- The first half of a completion. -/
theorem devStep_writeStatus (e : Bool) (h : HwStat) (result : List Byte) (hwork : s.dev.hasWork = true) :
    (s.devStep (.writeStatus e h result)).mem = s.mem.complete s.cfg s.dev.devHead result
      (ctrlWord h (ctrlNotify s.devCtrl) e (ctrlDone s.devCtrl)) ∧
    (s.devStep (.writeStatus e h result)).dev = { s.dev with statusWritten := true } := by
  rw [State.devStep, if_pos hwork]
  dsimp only
  rw [State.setDev_mem, State.setDev_dev, State.devWriteSlot_mem, State.devWriteSlot_dev]
  exact ⟨rfl, rfl⟩

/-- The second half of a completion. -/
theorem devStep_setDone (keep irq : Bool) (hwork : s.dev.hasWork = true) (hst : s.dev.statusWritten = true) :
    (s.devStep (.setDone keep irq)).mem = s.mem.complete s.cfg s.dev.devHead []
      (ctrlWord (ctrlHwstat s.devCtrl) (ctrlNotify s.devCtrl && keep) (ctrlError s.devCtrl) true) ∧
    (s.devStep (.setDone keep irq)).dev = s.devAdvance.dev := by
  rw [State.devStep, if_pos (Bool.and_eq_true_iff.2 ⟨hwork, hst⟩)]
  dsimp only
  rw [State.devSignal_mem, State.devSignal_dev, State.devAdvance_mem, State.devAdvance_dev, State.devAdvance_dev,
    State.devWriteSlot_mem, State.devWriteSlot_dev]
  exact ⟨rfl, rfl⟩

/-- The two halves of a completion leave the bytes and the device of the one write: the second half reads back the
status fields the first one wrote. -/
theorem devStep_halves (e keep irq : Bool) (h : HwStat) (result : List Byte) (hm : Memory.wf s.mem = true)
    (hwork : s.dev.hasWork = true) :
    (∀ a, Memory.read ((s.devStep (.writeStatus e h result)).devStep (.setDone keep irq)).mem a =
      Memory.read (s.devStep (.complete e h result keep irq)).mem a) ∧
    ((s.devStep (.writeStatus e h result)).devStep (.setDone keep irq)).dev =
      (s.devStep (.complete e h result keep irq)).dev := by
  obtain ⟨hmem, hdev⟩ := devStep_writeStatus e h result hwork
  obtain ⟨hmem', hdev'⟩ := devStep_complete e keep irq h result hwork
  have hcfg := devStep_cfg s (.writeStatus e h result)
  generalize s.devStep (.writeStatus e h result) = half at hmem hdev hcfg ⊢
  have hctrl : half.devCtrl = ctrlWord h (ctrlNotify s.devCtrl) e (ctrlDone s.devCtrl) := by
    rw [State.devCtrl, hcfg, hdev, hmem]
    exact slotCtrl_complete hm
  obtain ⟨hmem'', hdev''⟩ := devStep_setDone (s := half) keep irq (by rw [hdev]; exact hwork) (by rw [hdev])
  rw [hmem'', hmem', hdev'', hdev', State.devAdvance_dev, State.devAdvance_dev, hctrl, hcfg, hdev, hmem,
    ctrlHwstat_ctrlWord, ctrlNotify_ctrlWord, ctrlError_ctrlWord]
  exact ⟨read_complete_complete hm, rfl⟩

end Steps

/-- Settles O46, field by field of the completed slot. -/
theorem deviceCompletesTheNextSlot : Obligations.DeviceCompletesTheNextSlot := by
  intro s e keep irq h result hm t half whole
  refine ⟨fun hwork => ?_, fun hst => if_neg (by simp [hst]), fun hidle => ?_⟩
  · obtain ⟨hmem, hdev⟩ : t.mem = _ ∧ t.dev = _ := devStep_complete e keep irq h result hwork
    obtain ⟨hmem', hdev'⟩ : half.mem = _ ∧ half.dev = _ := devStep_writeStatus e h result hwork
    rw [hmem, hmem', slotCtrl_complete hm, slotCtrl_complete hm, slotRef_complete_same, slotPayload_complete hm,
      ← hmem]
    exact ⟨rfl, rfl, rfl, hdev, rfl, hdev', devStep_halves e keep irq h result hm hwork⟩
  · have hstays (u : State) : (if s.dev.hasWork = true then u else s) = s := if_neg (by simp [hidle])
    exact ⟨hstays _, hstays _, if_neg (by simp [hidle])⟩

/-! ### What no device step writes (R304) -/

/-- The memory a device step leaves: as it was, or with the slot at `dev_head` completed, `done` kept or set. -/
theorem devStep_mem (s : State) (d : DevStep) :
    (s.devStep d).mem = s.mem ∨ s.dev.hasWork = true ∧ ∃ (r : List Byte) (w : Word32),
      (ctrlDone s.devCtrl = true → ctrlDone w = true) ∧
      (s.devStep d).mem = s.mem.complete s.cfg s.dev.devHead r w := by
  obtain ⟨m, tr, v, e, -, hm⟩ := s.devStep_eq d
  rw [e]
  exact hm

/-- Settles O47: what a device step writes to ring memory is a completion of the slot at `dev_head`. -/
theorem deviceNeverWrites : Obligations.DeviceNeverWrites := by
  intro s d hsize t
  have hread (a : Nat) (ha : ¬ inSlot s.cfg s.dev.devHead a) : Memory.read t.mem a = Memory.read s.mem a := by
    obtain e | ⟨-, r, w, -, e⟩ := devStep_mem s d
    · rw [e]
    · rw [e, read_complete_outside hsize ha]
  have href (i : Idx) : slotRef s.cfg t.mem i = slotRef s.cfg s.mem i := by
    obtain e | ⟨-, r, w, -, e⟩ := devStep_mem s d
    · rw [e]
    · rw [e]
      exact slotRef_completion hsize (List.length_take_le _ _)
  have hidle (h : s.dev.hasWork = false) : t.mem = s.mem := by
    obtain e | ⟨hwork, -⟩ := devStep_mem s d
    · exact e
    · exact absurd (hwork.symm.trans h) nofun
  obtain ⟨m, tr, v, e, hdb, -⟩ := s.devStep_eq d
  have ht : t = ((s.setMem m).setTrace tr).setDev v := e
  refine ⟨hread, href, hidle, ?_⟩
  rw [ht]
  exact ⟨rfl, rfl, rfl, rfl, rfl, rfl, rfl, rfl, rfl, rfl, rfl, hdb⟩

/-- Settles O48: the slot at `dev_head` keeps its `done` bit or gets it, the other slots are left alone. -/
theorem deviceNeverClearsDone : Obligations.DeviceNeverClearsDone := by
  intro s d i hm hsize hdone
  obtain e | ⟨-, r, w, hkeep, e⟩ := devStep_mem s d
  · rw [e]
    exact hdone
  · rw [e]
    by_cases hi : i = s.dev.devHead
    · subst hi
      rw [slotCtrl_complete hm]
      exact hkeep hdone
    · rw [slotCtrl_complete_other hsize hi]
      exact hdone

/-! ### The reported head (R305) -/

/-- Only a report writes HW_HEAD. -/
theorem devStep_hwHead (s : State) {d : DevStep} (hd : ∀ n, d ≠ .report n) :
    (s.devStep d).dev.hwHead = s.dev.hwHead := by
  cases d with
  | report n => exact absurd rfl (hd n)
  | readCtrl | readPayload =>
    simp only [State.devStep]
    split <;> rfl
  | complete | setDone =>
    simp only [State.devStep]
    split
    · rw [State.devSignal_dev, State.devAdvance_dev, State.devWriteSlot_dev]
    · rfl
  | writeStatus e h r =>
    simp only [State.devStep]
    split <;> rfl
  | ackEnabled b => cases b <;> simp only [State.devStep] <;> split <;> rfl
  | ackFlush =>
    simp only [State.devStep]
    split <;> rfl

/-- Settles O49: a report that is enabled names a slot boundary of the ring, and a boundary is read back. -/
theorem deviceReportMovesForward : Obligations.DeviceReportMovesForward := by
  intro s d hp hpath t
  refine ⟨State.devStep_pathInv d hp hpath, devStep_hwHead s, ?_, ?_⟩
  · rintro n rfl hno
    refine if_neg ?_
    simp only [Device.mayReport, Bool.and_eq_true, bne_iff_ne, decide_eq_true_eq]
    rintro ⟨hcap, hle⟩
    exact hno.elim hcap fun hlt => Nat.not_le_of_lt hlt hle
  · rintro n rfl hcap hn
    have hreport : t = s.setDev { s.dev with
        hwHead := byteOffset s.cfg (s.dev.reportedAfter s.cfg n), unreported := s.dev.unreported - n } :=
      if_pos (by simpa [Device.mayReport, hn] using hcap)
    obtain ⟨⟨k, hk, hpow⟩, hmax, -⟩ := hpath hcap
    have hlt : (s.dev.reportedAfter s.cfg n).toNat < s.cfg.capMax :=
      Nat.lt_of_lt_of_le (wrapAdd_lt _ _ hk hpow) hmax
    rw [hreport]
    exact ⟨rfl, Device.reported_of_byteOffset hp hlt rfl, rfl, Nat.sub_add_cancel hn⟩

/-! ### Acknowledgements (R306) -/

/-- How one device step can change the bits of ADMIN_STATUS and the requests owed an answer, from `d` to `u`: not at
all, or by the answer to one request. -/
inductive Device.Answers (d u : Device) : Prop where
  | silent (status : u.adminStatus = d.adminStatus) (starts : u.startsOwed = d.startsOwed)
      (stops : u.stopsOwed = d.stopsOwed) (flushes : u.flushesOwed = d.flushesOwed)
  | start (bits : ∀ j, u.adminStatus.getLsbD j = if j = 0 then true else d.adminStatus.getLsbD j)
      (starts : d.startsOwed = u.startsOwed + 1) (stops : u.stopsOwed = d.stopsOwed)
      (flushes : u.flushesOwed = d.flushesOwed)
  | stop (bits : ∀ j, u.adminStatus.getLsbD j = if j = 0 then false else d.adminStatus.getLsbD j)
      (starts : u.startsOwed = d.startsOwed) (stops : d.stopsOwed = u.stopsOwed + 1)
      (flushes : u.flushesOwed = d.flushesOwed)
  | flush (bits : ∀ j, u.adminStatus.getLsbD j = if j = 1 then true else d.adminStatus.getLsbD j)
      (starts : u.startsOwed = d.startsOwed) (stops : u.stopsOwed = d.stopsOwed)
      (flushes : d.flushesOwed = u.flushesOwed + 1)

theorem devStep_answers (s : State) (d : DevStep) : s.dev.Answers (s.devStep d).dev := by
  cases d with
  | readCtrl | readPayload | writeStatus | report =>
    simp only [State.devStep]
    split <;> exact .silent rfl rfl rfl rfl
  | complete | setDone =>
    simp only [State.devStep]
    split
    · rw [State.devSignal_dev, State.devAdvance_dev, State.devWriteSlot_dev]
      exact .silent rfl rfl rfl rfl
    · exact .silent rfl rfl rfl rfl
  | ackEnabled b =>
    cases b with
    | true =>
      simp only [State.devStep]
      split
      · exact .silent rfl rfl rfl rfl
      next h => exact .start (withEnabledAck_getLsbD _ _) (Nat.succ_pred_eq_of_ne_zero h).symm rfl rfl
    | false =>
      simp only [State.devStep]
      split
      · exact .silent rfl rfl rfl rfl
      next h => exact .stop (withEnabledAck_getLsbD _ _) rfl (Nat.succ_pred_eq_of_ne_zero h).symm rfl
  | ackFlush =>
    simp only [State.devStep]
    split
    · exact .silent rfl rfl rfl rfl
    next h => exact .flush (withFlushDone_getLsbD _ _) rfl rfl (Nat.succ_pred_eq_of_ne_zero h).symm

theorem Device.admin_other (d : Device) {code : Word32} (h1 : code ≠ 1#32) (h2 : code ≠ 2#32)
    (h3 : code ≠ 3#32) : d.admin code = { d with adminCtrl := code } := by
  simp only [Device.admin, if_neg h1, if_neg h2, if_neg h3]

/-- Settles O50: a device step answers at most one request, and a request is counted under its own code. -/
theorem deviceAcksOnRequest : Obligations.DeviceAcksOnRequest := by
  refine ⟨fun s d => ?_, fun s code => ?_⟩
  · intro a u b
    cases devStep_answers s d with
    | silent hb hstarts hstops hflushes =>
      have hb : b = a := hb
      rw [hb]
      exact ⟨fun h => absurd rfl h, fun h => absurd rfl h, hstarts.le, hstops.le, hflushes.le, fun _ _ => rfl⟩
    | start hbit hstarts hstops hflushes =>
      exact ⟨fun _ => ⟨fun _ => hstarts, fun h => absurd ((hbit 0).symm.trans h) nofun⟩,
        fun h => absurd (hbit 1) h, Nat.le.intro hstarts.symm, hstops.le, hflushes.le,
        fun j hj => (hbit j).trans (if_neg (by omega))⟩
    | stop hbit hstarts hstops hflushes =>
      exact ⟨fun _ => ⟨fun h => absurd ((hbit 0).symm.trans h) nofun, fun _ => hstops⟩,
        fun h => absurd (hbit 1) h, hstarts.le, Nat.le.intro hstops.symm, hflushes.le,
        fun j hj => (hbit j).trans (if_neg (by omega))⟩
    | flush hbit hstarts hstops hflushes =>
      exact ⟨fun h => absurd (hbit 0) h, fun _ => ⟨hbit 1, hflushes⟩, hstarts.le, hstops.le,
        Nat.le.intro hflushes.symm, fun j hj => (hbit j).trans (if_neg (by omega))⟩
  · by_cases h1 : code = 1#32
    · subst h1
      exact ⟨rfl, rfl, rfl, rfl, nofun, fun _ _ => rfl⟩
    by_cases h2 : code = 2#32
    · subst h2
      exact ⟨rfl, rfl, rfl, rfl, nofun, fun _ _ => rfl⟩
    by_cases h3 : code = 3#32
    · subst h3
      refine ⟨rfl, rfl, rfl, rfl, fun _ => flushDone_withFlushDone _ false, fun j hj => ?_⟩
      exact (withFlushDone_getLsbD _ _ j).trans (if_neg (hj.resolve_left fun h => h rfl))
    · have hdev : (s.writeAdminCtrl code).dev = { s.dev with adminCtrl := code } := s.dev.admin_other h1 h2 h3
      rw [hdev, if_neg h1, if_neg h2, if_neg h3]
      exact ⟨rfl, rfl, rfl, rfl, fun h => absurd h h3, fun _ _ => rfl⟩

end Sys2Proof.Machine

/-!
The time input (60_exceptions.md R356).
-/

namespace Sys2Proof.Machine

/-- No elementary change but the time input writes `now`, and that input never takes it back. -/
theorem now_kept (n : Nat) : Kept (fun t => n ≤ t.now.toNat) where
  port _ _ h := h
  agenda _ _ h := h
  window _ _ h := h
  now _ _ hle h := Nat.le_trans h hle
  respond _ _ _ h := h
  dev s d h := by
    obtain ⟨m, tr, v, e, -⟩ := s.devStep_eq d
    rw [e]
    exact h
  program s h := by
    unfold State.programDevice
    split <;> exact h
  startP _ _ _ _ _ _ _ h := h
  startC _ _ _ _ _ h := h
  startA _ _ _ _ _ _ h := h
  pseq s h := by
    obtain e | ⟨c, -, hch⟩ := s.pseqStep_change
    · rwa [e]
    · rwa [hch.frame]
  cseq s h := by
    obtain e | ⟨c, -, hch⟩ := s.cseqStep_change
    · rwa [e]
    · rwa [hch.frame]
  aseq s h := by
    obtain e | ⟨c, -, hch | ⟨-, _, _, _, _, _, -, -, e⟩⟩ := s.aseqStep_change
    · rwa [e]
    · rwa [hch.frame]
    · rwa [e, State.constructRing_eq]

/-- Settles O51, by the induction over all transitions; the reset input leaves the time. -/
theorem timeNeverGoesBack : Obligations.TimeNeverGoesBack :=
  fun s _ => step_keeps (now_kept s.now.toNat) (fun _ h => h) (Nat.le_refl _)

end Sys2Proof.Machine

/-!
The responses (60_exceptions.md R330 to R340, 46_actors.md R316): which answers each command can get, and that it
gets one and no second.
-/

namespace Sys2Proof.Machine

/-! ### Accesses hand out no response (00_scope.md R16, 46_actors.md R317) -/

@[simp] theorem Bus.write_responseCount (b : Bus) (g : Agent) (a : Nat) (bs : List Byte) :
    responseCount (b.write g a bs).trace = responseCount b.trace := by
  cases bs <;> rfl

@[simp] theorem Bus.writeCtrl_responseCount (b : Bus) (g : Agent) (p : Params) (i : Idx) (w : Word32) :
    responseCount (b.writeCtrl g p i w).trace = responseCount b.trace :=
  b.write_responseCount g _ _

@[simp] theorem Bus.logPayload_responseCount (b : Bus) (g : Agent) (p : Params) (i : Idx) :
    responseCount (b.logPayload g p i).trace = responseCount b.trace := by
  unfold Bus.logPayload
  split <;> rfl

theorem fillSlots_responseCount (p : Params) (mask tail : Idx) (ref : Ref) (n : Nat) (blobs : List (List Byte))
    (f : Fill) : responseCount (fillSlots p mask tail ref n blobs f).bus.trace = responseCount f.bus.trace := by
  induction n generalizing blobs f with
  | zero => rfl
  | succ n ih => simp [fillSlots, ih, fillSlot]

theorem State.fill_responseCount (s : State) (c : PCtx) :
    responseCount (s.fill c).bus.trace = responseCount s.trace :=
  fillLoop_induction (fun f => responseCount f.bus.trace = responseCount s.trace) (fun _ _ _ _ h => h)
    (fun _ _ _ _ _ h => (fillSlots_responseCount ..).trans h) _ _ rfl

theorem scanDone_responseCount (p : Params) (mask head : Idx) (n i : Nat) (b : Bus) :
    responseCount (scanDone p mask head n i b).2.trace = responseCount b.trace := by
  induction n generalizing i b with
  | zero => rfl
  | succ n ih =>
    unfold scanDone
    dsimp only
    split
    · exact ih _ _
    · rfl

theorem extract_responseCount (p : Params) (mask head : Idx) (n i : Nat) (b : Bus) :
    responseCount (extract p mask head n i b).2.trace = responseCount b.trace := by
  induction n generalizing i b with
  | zero => rfl
  | succ n ih => exact ih _ _

/-- No device step hands out a response (46_actors.md R307). -/
theorem State.devStep_responseCount (s : State) (d : DevStep) :
    responseCount (s.devStep d).trace = responseCount s.trace := by
  have hwrite (h : HwStat) (n e b : Bool) (r : List Byte) :
      responseCount (s.devWriteSlot h n e b r).trace = responseCount s.trace := by
    simp [State.devWriteSlot]
  have hsignal (t : State) (n irq : Bool) (slot : Idx) :
      responseCount (t.devSignal n irq slot).trace = responseCount t.trace := by
    unfold State.devSignal
    split <;> rfl
  unfold State.devStep
  cases d with
  | readCtrl | report | ackFlush =>
    dsimp only
    split <;> rfl
  | readPayload slot =>
    dsimp only
    split
    · exact s.bus.logPayload_responseCount ..
    · rfl
  | writeStatus =>
    dsimp only
    split
    · exact hwrite ..
    · rfl
  | complete | setDone =>
    dsimp only
    split
    · exact (hsignal ..).trans (hwrite ..)
    · rfl
  | ackEnabled b => cases b <;> dsimp only <;> split <;> rfl

/-! ### The answers (R332 to R338) -/

/-- The mode an operation of CSEQ belongs to. -/
def COp.mode : COp → Mode
  | .dequeue => .slot
  | .pollBatch => .batch

/-- The instruction an operation of PSEQ carries out. -/
def POp.instr (n : Idx) : POp → Instr
  | .enqueue => .enqueue n
  | .submitBatch => .submitBatch n

/-- The instruction an operation of CSEQ carries out. -/
def COp.instr (max : Idx) : COp → Instr
  | .dequeue => .dequeue max
  | .pollBatch => .pollBatch max

/-- The instruction an operation of ASEQ carries out. -/
def AOp.instr : AOp → Instr
  | .configure k p m r => .configure k p m r
  | .start => .start
  | .stop => .stop
  | .flush => .flush

/-- A response an instruction can get in a state `s`: the raisers of every status. -/
inductive Answer (s : State) (i : Instr) : Response → Prop where
  | ok (value : Idx) (out : List OutRecord) : Answer s i ⟨.ok, value, out⟩
  | errState (h : errStateCase s.configured s.mode i) : Answer s i (.bare .errState)
  | errGeometry (h : ∃ k p m r, i = .configure k p m r) : Answer s i (.bare .errGeometry)
  | errTimeout (h : i = .start ∨ i = .stop ∨ i = .flush) : Answer s i (.bare .errTimeout)
  | errNoBatch (h : ∃ n, i = .submitBatch n) : Answer s i (.bare .errNoBatch)
  | notReady (h : ∃ max, i = .pollBatch max) : Answer s i (.bare .notReady)
  | empty (h : i = .batchAge ∨ ∃ max, i = .pollBatch max) : Answer s i (.bare .empty)

/-- From `s` to `t` the client has been handed one response, an answer to `i`, and it is the last event. -/
def Answered (s : State) (i : Instr) (t : State) : Prop :=
  ∃ r, Answer s i r ∧ t.trace.head? = some (.respond (encode i) r) ∧
    responseCount t.trace = responseCount s.trace + 1

/-- Since `s` no response has been handed out, and what decides `ERR_STATE` is as it was. -/
structure Unanswered (s t : State) : Prop where
  configured : t.configured = s.configured
  mode : t.mode = s.mode
  responses : responseCount t.trace = responseCount s.trace

theorem Unanswered.openWindow (s : State) : Unanswered s s.openWindow :=
  ⟨by rw [s.openWindow_eq.1], by rw [s.openWindow_eq.1],
    openWindow_keeps (P := fun t => responseCount t.trace = responseCount s.trace) (fun _ _ h => h)
      (fun t d h => (t.devStep_responseCount d).trans h) s rfl⟩

/-- The answer that is the last event. -/
theorem Answered.of_respond {s t : State} {i : Instr} {r : Response} {l : List Event} (h : Answer s i r)
    (ht : t.trace = .respond (encode i) r :: l) (hl : responseCount l = responseCount s.trace) : Answered s i t := by
  refine ⟨r, h, ?_, ?_⟩ <;> rw [ht]
  · rfl
  · exact congrArg (· + 1) hl

theorem Answered.of_unanswered {s u t : State} {i : Instr} (h : Answered u i t) (hu : Unanswered s u) :
    Answered s i t := by
  obtain ⟨r, hr, hhead, hcount⟩ := h
  rw [hu.responses] at hcount
  refine ⟨r, ?_, hhead, hcount⟩
  cases hr with
  | errState h => exact .errState (hu.mode ▸ hu.configured ▸ h)
  | ok v out => exact .ok v out
  | errGeometry h => exact .errGeometry h
  | errTimeout h => exact .errTimeout h
  | errNoBatch h => exact .errNoBatch h
  | notReady h => exact .notReady h
  | empty h => exact .empty h

/-! ### What one own step hands out -/

/-- From `s` to `t` the command `i` goes on, its word still that of a running operation, and no response is handed
out; or the operation has ended with an answer. -/
inductive Progress (s t : State) (i : Instr) : Option Word32 → Prop where
  | goesOn (h : Unanswered s t) : Progress s t i (some (encode i))
  | ends (h : Answered s i t) : Progress s t i none

theorem Progress.of_some {s t : State} {i : Instr} {w : Word32} (h : Progress s t i (some w)) :
    w = encode i ∧ Unanswered s t := by
  cases h with
  | goesOn h => exact ⟨rfl, h⟩

theorem Progress.of_none {s t : State} {i : Instr} (h : Progress s t i none) : Answered s i t := by
  cases h with
  | ends h => exact h

/-- The command goes on: the word of the running operation is its word. -/
theorem Progress.of_running {s t : State} {i : Instr} {w : Word32} {o : Option Word32} (hw : w = encode i)
    (ho : o = some w) (h : Unanswered s t) : Progress s t i o := by
  rw [ho, hw]
  exact .goesOn h

/-- The command ends: its response is the last event. -/
theorem Progress.of_respond {s t : State} {i : Instr} {w : Word32} {r : Response} {l : List Event}
    (hw : w = encode i) (ht : t.trace = .respond w r :: l) (hl : responseCount l = responseCount s.trace)
    (hr : Answer s i r) : Progress s t i none := by
  rw [hw] at ht
  exact .ends (.of_respond hr ht hl)

theorem errStateCase_pop_iff {configured : Bool} {mode : Mode} {op : POp} {n : Idx} :
    errStateCase configured mode (op.instr n) ↔ (configured && mode == op.mode) = false := by
  cases op <;> cases mode <;> simp [POp.mode, POp.instr, errStateCase]

theorem errStateCase_cop_iff {configured : Bool} {mode : Mode} {op : COp} {max : Idx} :
    errStateCase configured mode (op.instr max) ↔ (configured && mode == op.mode) = false := by
  cases op <;> cases mode <;> simp [COp.mode, COp.instr, errStateCase]

/-- A step of PSEQ hands out nothing and the command goes on, or it ends with an answer. -/
theorem State.pStep_progress {s : State} {c : PCtx} (n : Idx) (hpass : c.op.passes c.pos = true)
    (hword : c.word = encode (c.op.instr n)) :
    Progress s (s.pStep c) (c.op.instr n) ((s.pStep c).pseq.map PCtx.word) := by
  have hmode {op : POp} (hop : c.op = op) (hbad : ¬ (s.configured && s.mode == op.mode) = true) :
      Progress s (s.respondP c.word (.bare .errState)) (c.op.instr n) none :=
    .of_respond hword rfl rfl (.errState (errStateCase_pop_iff.2 (hop ▸ Bool.eq_false_iff.2 hbad)))
  unfold State.pStep
  cases hp : c.pos <;> dsimp only
  case s1 =>
    have hop : c.op = .submitBatch := POp.eq_submitBatch hpass (.inl hp)
    unfold State.stepS1
    split
    · split
      · exact .of_respond hword rfl rfl (.errNoBatch ⟨n, congrArg (POp.instr n) hop⟩)
      · exact .of_running hword rfl ⟨rfl, rfl, rfl⟩
    next hbad => exact hmode hop hbad
  case e1 =>
    split
    next hop =>
      unfold State.stepE1Checked
      split
      · exact .of_running hword rfl ⟨rfl, rfl, rfl⟩
      next hbad => exact hmode hop hbad
    · exact .of_running hword rfl ⟨rfl, rfl, rfl⟩
  case e2 => exact .of_running hword rfl ⟨rfl, rfl, s.fill_responseCount c⟩
  case e4 =>
    unfold State.stepE4
    dsimp only
    split
    · exact .of_running hword rfl ⟨rfl, rfl, Bus.writeCtrl_responseCount ..⟩
    · exact .of_running hword rfl ⟨rfl, rfl, rfl⟩
  case e5 | e6 | e7 => exact .of_running hword rfl ⟨rfl, rfl, rfl⟩
  case s3 =>
    unfold State.stepS3
    split
    · exact .of_respond hword rfl rfl (.ok ..)
    · exact .of_running hword rfl ⟨rfl, rfl, rfl⟩
  case e8 | s4 => exact .of_respond hword rfl rfl (.ok ..)

/-- The steps that DEQUEUE does not pass are those of POLL_BATCH. -/
theorem COp.eq_pollBatch {op : COp} {pos : CPos} (h : op.passes pos = true)
    (hpos : COp.dequeue.passes pos = false) : op = .pollBatch := by
  cases op with
  | dequeue => exact absurd (hpos.symm.trans h) nofun
  | pollBatch => rfl

/-- A step of CSEQ hands out nothing and the command goes on, or it ends with an answer. -/
theorem State.cStep_progress {s : State} {c : CCtx} (max : Idx) (hpass : c.op.passes c.pos = true)
    (hword : c.word = encode (c.op.instr max)) :
    Progress s (s.cStep c) (c.op.instr max) ((s.cStep c).cseq.map CCtx.word) := by
  have hmode {op : COp} (hop : c.op = op) (hbad : ¬ (s.configured && s.mode == op.mode) = true) :
      Progress s (s.respondC c.word (.bare .errState)) (c.op.instr max) none :=
    .of_respond hword rfl rfl (.errState (errStateCase_cop_iff.2 (hop ▸ Bool.eq_false_iff.2 hbad)))
  have hbatch (hpos : COp.dequeue.passes c.pos = false) : ∃ m, c.op.instr max = .pollBatch m :=
    ⟨max, congrArg (COp.instr max) (COp.eq_pollBatch hpass hpos)⟩
  have hfront {f : Batch → List Batch → State} (hpos : COp.dequeue.passes c.pos = false)
      (hf : ∀ b rest, Progress s (f b rest) (c.op.instr max) ((f b rest).cseq.map CCtx.word)) :
      Progress s (s.withFront c f) (c.op.instr max) ((s.withFront c f).cseq.map CCtx.word) := by
    unfold State.withFront
    split
    · exact .of_respond hword rfl rfl (.empty (.inr (hbatch hpos)))
    · exact hf _ _
  unfold State.cStep
  cases hp : c.pos <;> dsimp only
  case q1 =>
    have hop : c.op = .dequeue := COp.eq_dequeue hpass (.inl hp)
    unfold State.stepQ1
    split
    · exact .of_running hword rfl ⟨rfl, rfl, rfl⟩
    next hbad => exact hmode hop hbad
  case q2 => exact .of_running hword rfl ⟨rfl, rfl, scanDone_responseCount ..⟩
  case q4 => exact .of_running hword rfl ⟨rfl, rfl, extract_responseCount ..⟩
  case q3 | q5 | b3 => exact .of_running hword rfl ⟨rfl, rfl, rfl⟩
  case q6 => exact .of_respond hword rfl rfl (.ok ..)
  case b1 =>
    unfold State.stepB1
    split
    · split
      · exact .of_respond hword rfl rfl (.empty (.inr (hbatch (congrArg _ hp))))
      · exact .of_running hword rfl ⟨rfl, rfl, rfl⟩
    next hbad => exact hmode (COp.eq_pollBatch hpass (congrArg _ hp)) hbad
  case b2 | b5 | b6 => exact hfront (congrArg _ hp) fun b rest => .of_running hword rfl ⟨rfl, rfl, rfl⟩
  case b4 =>
    refine hfront (congrArg _ hp) fun b rest => ?_
    unfold State.stepB4
    split
    · exact .of_respond hword rfl rfl (.notReady (hbatch (congrArg _ hp)))
    · exact .of_running hword rfl ⟨rfl, rfl, rfl⟩
  case b7 =>
    refine hfront (congrArg _ hp) fun b rest => ?_
    unfold State.stepB7
    dsimp only
    split <;> exact .of_respond hword rfl rfl (.ok ..)

/-- A step of ASEQ hands out nothing and the command goes on, or it ends with an answer. -/
theorem State.aStep_progress {s : State} {c : ACtx}
    (hpos : c.pos = .check ∨ ∀ k p m r, c.op ≠ .configure k p m r) (hword : c.word = encode c.op.instr) :
    Progress s (s.aStep c) c.op.instr ((s.aStep c).aseq.map ACtx.word) := by
  have hcheck (hcase : s.configured = false → errStateCase s.configured s.mode c.op.instr) :
      Progress s (s.stepAdminCheck c) c.op.instr ((s.stepAdminCheck c).aseq.map ACtx.word) := by
    unfold State.stepAdminCheck
    split
    · exact .of_running hword rfl ⟨rfl, rfl, rfl⟩
    next hc => exact .of_respond hword rfl rfl (.errState (hcase (Bool.eq_false_iff.2 hc)))
  unfold State.aStep
  cases hp : c.pos <;> dsimp only
  case check =>
    split
    next k p m r hop =>
      unfold State.stepA1
      split
      next hc => exact .of_respond hword rfl rfl (.errState (by rw [hop]; exact hc))
      · split
        · exact .of_respond hword rfl rfl (.errGeometry ⟨k, p, m, r, congrArg AOp.instr hop⟩)
        · exact .of_respond hword rfl (by rw [State.constructRing_eq]) (.ok ..)
    all_goals
      next hop => exact hcheck fun hc => by rw [hop]; exact hc
  case write => exact .of_running hword rfl ⟨rfl, rfl, rfl⟩
  case poll =>
    unfold State.stepAdminPoll
    dsimp only
    split
    · exact .of_respond hword rfl rfl (.ok ..)
    · exact .of_running hword rfl ⟨rfl, rfl, rfl⟩
  case expire =>
    refine .of_respond hword rfl rfl (.errTimeout ?_)
    cases hop : c.op with
    | configure k p m r => exact absurd hop (hpos.resolve_left (by rw [hp]; nofun) k p m r)
    | start => exact .inl rfl
    | stop => exact .inr (.inl rfl)
    | flush => exact .inr (.inr rfl)

/-! ### What an operation carried on hands out (R316) -/

/-- An operation each of whose own steps makes progress is answered when it is carried on to its end. `ctx` is the
context of the sequencer, `good` what holds of every context that the operation passes. -/
theorem Carries.answered {γ : Type} {run : Nat → State → State} {own : State → State} {ctx : State → Option γ}
    {word : γ → Word32} {step : State → γ → State} {good : γ → Prop} {i : Instr}
    (h : Carries run (fun s => ctx s = none) own) (hopen : ∀ s, ctx s.openWindow = ctx s)
    (hown : ∀ s c, ctx s = some c → own s = step s c)
    (hstep : ∀ s c, good c → Progress s (step s c) i ((ctx (step s c)).map word))
    (hnext : ∀ s c c', good c → ctx (step s c) = some c' → word c' = encode i → good c')
    {n : Nat} {s : State} {c : γ} (hs : ctx s = some c) (hc : good c) (hend : ctx (run n s) = none) :
    Answered s i (run n s) := by
  induction n generalizing s c with
  | zero =>
    rw [h.zero, hs] at hend
    cases hend
  | succ n ih =>
    have hprog := hstep s.openWindow c hc
    rw [h.goes n s (by rw [hs]; nofun), hown _ _ ((hopen s).trans hs)] at hend ⊢
    refine .of_unanswered ?_ (.openWindow s)
    cases hctx : ctx (step s.openWindow c) with
    | none =>
      rw [hctx] at hprog
      rw [h.stops _ _ hctx]
      exact hprog.of_none
    | some c' =>
      rw [hctx] at hprog
      obtain ⟨hword, hun⟩ := hprog.of_some
      exact (ih hctx (hnext _ _ _ hc hctx hword) hend).of_unanswered hun

/-- An operation of PSEQ carried on from its acceptance to its end is answered. -/
theorem runP_answered {s : State} {op : POp} {rs : List ReqRecord} {k : Nat} (n : Idx)
    (hs : s.pseq = some (.start op (encode (op.instr n)) rs)) (hend : (State.runP k s).pseq = none) :
    Answered s (op.instr n) (State.runP k s) := by
  refine runP_carries.answered (word := PCtx.word) (step := State.pStep)
    (good := fun c => c.op = op ∧ op.passes c.pos = true ∧ c.word = encode (op.instr n))
    (fun v => by rw [v.openWindow_eq.1]) (fun _ _ => State.pseqStep_running) ?_ ?_ hs
    ⟨rfl, by cases op <;> rfl, rfl⟩ hend
  · rintro v c ⟨rfl, hpass, hword⟩
    exact v.pStep_progress n hpass hword
  · rintro v c c' ⟨rfl, hpass, -⟩ hctx hword
    obtain ⟨hop, -, hpass'⟩ := State.pStep_next hctx
    exact ⟨hop, hop ▸ hpass' hpass, hword⟩

/-- An operation of CSEQ carried on from its acceptance to its end is answered. -/
theorem runC_answered {s : State} {op : COp} {k : Nat} (max : Idx)
    (hs : s.cseq = some (.start op (encode (op.instr max)))) (hend : (State.runC k s).cseq = none) :
    Answered s (op.instr max) (State.runC k s) := by
  refine runC_carries.answered (word := CCtx.word) (step := State.cStep)
    (good := fun c => c.op = op ∧ op.passes c.pos = true ∧ c.word = encode (op.instr max))
    (fun v => by rw [v.openWindow_eq.1]) (fun _ _ => State.cseqStep_running) ?_ ?_ hs
    ⟨rfl, by cases op <;> rfl, rfl⟩ hend
  · rintro v c ⟨rfl, hpass, hword⟩
    exact v.cStep_progress max hpass hword
  · rintro v c c' ⟨rfl, hpass, -⟩ hctx hword
    obtain ⟨hop, -, hpass'⟩ := State.cStep_next hctx
    exact ⟨hop, hop ▸ hpass' hpass, hword⟩

/-- CONFIGURE does not go on past its one step. -/
theorem State.aStep_goes_on {s : State} {c c' : ACtx} (h : (s.aStep c).aseq = some c')
    (hpos : c.pos = .check ∨ ∀ k p m r, c.op ≠ .configure k p m r) : ∀ k p m r, c.op ≠ .configure k p m r := by
  intro k p m r hop
  have hcheck : c.pos = .check := hpos.resolve_right fun hne => hne k p m r hop
  have hend : (s.aStep c).aseq = none := by
    unfold State.aStep
    simp only [hcheck, hop]
    exact stepA1_aseq ..
  cases h.symm.trans hend

/-- An operation of ASEQ carried on from its acceptance to its end is answered. -/
theorem runA_answered {s : State} {op : AOp} {k : Nat} (hs : s.aseq = some (.start op (encode op.instr)))
    (hend : (State.runA k s).aseq = none) : Answered s op.instr (State.runA k s) := by
  refine runA_carries.answered (word := ACtx.word) (step := State.aStep)
    (good := fun c => c.op = op ∧ (c.pos = .check ∨ ∀ k p m r, op ≠ .configure k p m r) ∧ c.word = encode op.instr)
    (fun v => by rw [v.openWindow_eq.1]) (fun _ _ => State.aseqStep_running) ?_ ?_ hs ⟨rfl, .inl rfl, rfl⟩ hend
  · rintro v c ⟨rfl, hpos, hword⟩
    exact v.aStep_progress hpos hword
  · rintro v c c' ⟨rfl, hpos, -⟩ hctx hword
    exact ⟨(State.aStep_next hctx).1, .inr (State.aStep_goes_on hctx hpos), hword⟩

/-! ### Every command is answered (R330, R316) -/

/-- An accepted class P command whose records keep the port protocol starts on PSEQ and is carried on. -/
theorem carryProducer_of_records {s : State} {mode : Mode} {n : Nat} (op : POp) (word : Word32)
    (ha : s.accepts .producer = true) (hcount : s.handed.length = n)
    (hshape : (s.configured && s.mode == mode && !recordShapeOk s.cfg mode s.handed) = false) :
    s.carryProducer op mode n word =
      .next (State.runP stepsP (s.takeCommand.setPseq (some (PCtx.start op word s.handed)))) := by
  have hok : recordCountOk n s.handed = true := beq_iff_eq.2 hcount
  rw [State.carryProducer, if_pos ha, State.acceptProducer, if_pos ha, hok, hshape]
  rfl

/-- An accepted class P command that completes came with records that keep the port protocol. -/
theorem carryProducer_records {s t : State} {op : POp} {mode : Mode} {n : Nat} {word : Word32}
    (ha : s.accepts .producer = true) (h : s.carryProducer op mode n word = .next t) :
    s.handed.length = n ∧ (s.configured && s.mode == mode && !recordShapeOk s.cfg mode s.handed) = false := by
  rw [State.carryProducer, if_pos ha, State.acceptProducer, if_pos ha] at h
  split at h
  · cases h
  next hcount =>
    split at h
    · cases h
    next hshape => exact ⟨by simpa [recordCountOk] using hcount, Bool.eq_false_iff.2 hshape⟩

theorem carryProducer_answered {s t : State} {op : POp} (n : Idx) (ha : s.accepts .producer = true)
    (h : s.carryProducer op op.mode n.toNat (encode (op.instr n)) = .next t) : Answered s (op.instr n) t := by
  have hidle := (carryProducer_frame h).2.1.trans (pseq_none_of_accepts ha)
  obtain ⟨hcount, hshape⟩ := carryProducer_records ha h
  cases (carryProducer_of_records op _ ha hcount hshape).symm.trans h
  exact (runP_answered (op := op) n rfl hidle).of_unanswered ⟨rfl, rfl, rfl⟩

theorem carryConsumer_answered {s t : State} {op : COp} (max : Idx) (ha : s.accepts .consumer = true)
    (h : s.carryConsumer op (encode (op.instr max)) = .next t) : Answered s (op.instr max) t := by
  have hidle := (carryConsumer_frame h).2.1.trans (cseq_none_of_accepts ha)
  cases (carryConsumer_starts op _ ha).symm.trans h
  exact (runC_answered (op := op) max rfl hidle).of_unanswered ⟨rfl, rfl, rfl⟩

theorem carryAdmin_answered {s t : State} {op : AOp} (ha : s.accepts .admin = true)
    (h : s.carryAdmin op (encode op.instr) = .next t) : Answered s op.instr t := by
  have hidle := (carryAdmin_frame h).2.1.trans (aseq_none_of_accepts ha)
  cases (carryAdmin_starts op _ ha).symm.trans h
  exact (runA_answered (op := op) rfl hidle).of_unanswered ⟨rfl, rfl, rfl⟩

/-- A class Q command is answered with the response of its one step. -/
theorem answered_of_answer {s t : State} {i : Instr} {r : Response} (ha : s.accepts .query = true)
    (hr : Answer s i r) (h : (.next (s.answer (encode i) r) : Result) = .next t) : Answered s i t := by
  rw [State.answer_of_accepts ha] at h
  cases h
  exact .of_respond hr rfl rfl

theorem freeCountResponse_answer (s : State) : Answer s .freeCount s.freeCountResponse := by
  unfold State.freeCountResponse
  split
  · exact .ok ..
  next hc => exact .errState (Bool.eq_false_iff.2 hc)

theorem pendingCountResponse_answer (s : State) : Answer s .pendingCount s.pendingCountResponse := by
  unfold State.pendingCountResponse
  split
  · exact .ok ..
  next hc => exact .errState (Bool.eq_false_iff.2 hc)

theorem batchAgeResponse_answer (s : State) : Answer s .batchAge s.batchAgeResponse := by
  unfold State.batchAgeResponse
  split
  · split
    · exact .empty (.inl rfl)
    · exact .ok ..
  next hc => exact .errState (Bool.eq_false_iff.2 hc)

/-- An accepted command that completes has been answered once. -/
theorem exec_answered {s t : State} {i : Instr} (ha : s.accepts i.cls = true) (h : exec i s = .next t) :
    Answered s i t := by
  cases i with
  | configure k p m r => exact carryAdmin_answered (op := .configure k p m r) ha h
  | freeCount => exact answered_of_answer ha (freeCountResponse_answer s) h
  | pendingCount => exact answered_of_answer ha (pendingCountResponse_answer s) h
  | enqueue n => exact carryProducer_answered (op := .enqueue) n ha h
  | dequeue max => exact carryConsumer_answered (op := .dequeue) max ha h
  | submitBatch n => exact carryProducer_answered (op := .submitBatch) n ha h
  | pollBatch max => exact carryConsumer_answered (op := .pollBatch) max ha h
  | batchAge => exact answered_of_answer ha (batchAgeResponse_answer s) h
  | start => exact carryAdmin_answered (op := .start) ha h
  | stop => exact carryAdmin_answered (op := .stop) ha h
  | flush => exact carryAdmin_answered (op := .flush) ha h
  | rdreg sel => exact answered_of_answer ha (.ok ..) h

/-- The response at the head of the trace is the answer. -/
theorem answer_of_head {s t : State} {i : Instr} {r : Response} (ha : s.accepts i.cls = true)
    (h : exec i s = .next t) (hr : t.trace.head? = some (.respond (encode i) r)) : Answer s i r := by
  obtain ⟨r', hr', hhead, -⟩ := exec_answered ha h
  cases hhead.symm.trans hr
  exact hr'

/-- A command that is no submission, or one whose records keep the port protocol, completes. -/
theorem exec_completes {s : State} {i : Instr}
    (hrec : i.cls = .producer → recordsWf s.cfg s.mode i s.handed = true) : ∃ t, exec i s = .next t := by
  have hP (op : POp) (n : Nat) (word : Word32) (hn : s.handed.length = n)
      (hshape : recordShapeOk s.cfg s.mode s.handed = true) : ∃ t, s.carryProducer op op.mode n word = .next t := by
    by_cases ha : s.accepts .producer = true
    · refine ⟨_, carryProducer_of_records op word ha hn ?_⟩
      by_cases hm : s.mode = op.mode
      · rw [← hm, hshape, Bool.not_true, Bool.and_false]
      · simp [hm]
    · exact ⟨s, if_neg ha⟩
  have hC (op : COp) (word : Word32) : ∃ t, s.carryConsumer op word = .next t := by
    by_cases ha : s.accepts .consumer = true
    · exact ⟨_, carryConsumer_starts op word ha⟩
    · exact ⟨s, if_neg ha⟩
  have hA (op : AOp) (word : Word32) : ∃ t, s.carryAdmin op word = .next t := by
    by_cases ha : s.accepts .admin = true
    · exact ⟨_, carryAdmin_starts op word ha⟩
    · exact ⟨s, if_neg ha⟩
  cases i with
  | configure | start | stop | flush => exact hA _ _
  | enqueue n =>
    obtain ⟨hn, hshape⟩ := recordsWf_iff.1 (hrec rfl)
    exact hP .enqueue _ _ hn hshape
  | submitBatch n =>
    obtain ⟨hn, hshape⟩ := recordsWf_iff.1 (hrec rfl)
    exact hP .submitBatch _ _ hn hshape
  | dequeue | pollBatch => exact hC _ _
  | freeCount | pendingCount | batchAge | rdreg => exact ⟨_, rfl⟩

/-- Settles O9: the answer of `exec`, which is the acceptance and the own steps carried on. -/
theorem everyCommandRespondsOnce : Obligations.EveryCommandRespondsOnce := by
  refine ⟨fun _ _ f => (nomatch f), fun s i => exec_completes, fun s t i ha h => ?_, fun s u i ha hu => ?_⟩
  · obtain ⟨r, -, hhead, hcount⟩ := exec_answered ha h
    exact ⟨hcount, r, hhead⟩
  · have h : exec i s = .next (carryOn i (ownSteps s.cfg i) u) := by
      rw [exec_eq_acceptInstr_carryOn ha, hu, onNext_next]
    obtain ⟨-, -, -, hcount⟩ := exec_answered ha h
    obtain ⟨⟨-, -, -, hseq⟩, -⟩ := registerFrameOfInstructions s _ i h
    exact ⟨hcount, hseq⟩

/-- Settles O44: a status is raised only where the answer of its kind is. -/
theorem statusesAreRaisedBy : Obligations.StatusesAreRaisedBy := by
  intro s t i r ha h hr
  cases answer_of_head ha h hr with
  | ok => exact ⟨nofun, nofun, nofun, nofun, nofun, nofun, fun hne => absurd rfl hne⟩
  | errState => exact ⟨nofun, nofun, nofun, nofun, nofun, nofun, fun _ => ⟨rfl, rfl⟩⟩
  | errGeometry hi => exact ⟨fun _ => hi, nofun, nofun, nofun, nofun, nofun, fun _ => ⟨rfl, rfl⟩⟩
  | errTimeout hi => exact ⟨nofun, fun _ => hi, nofun, nofun, nofun, nofun, fun _ => ⟨rfl, rfl⟩⟩
  | errNoBatch hi => exact ⟨nofun, nofun, fun _ => hi, nofun, nofun, nofun, fun _ => ⟨rfl, rfl⟩⟩
  | notReady hi => exact ⟨nofun, nofun, nofun, fun _ => hi, nofun, nofun, fun _ => ⟨rfl, rfl⟩⟩
  | empty hi => exact ⟨nofun, nofun, nofun, nofun, fun _ => hi, nofun, fun _ => ⟨rfl, rfl⟩⟩

end Sys2Proof.Machine

/-!
The errors (60_exceptions.md R335, R340): when a command is answered `ERR_STATE`, and what each error leaves.
-/

namespace Sys2Proof.Machine

/-! ### ERR_STATE (R335) -/

section ErrState

variable {s : State}

/-- A class P command outside its mode ends at its first step. -/
theorem carryProducer_errState {n : Nat} (op : POp) (word : Word32) (ha : s.accepts .producer = true)
    (hw : s.window = []) (hcount : s.handed.length = n) (hbad : (s.configured && s.mode == op.mode) = false) :
    s.carryProducer op op.mode n word = .next (s.answered word ⟨.errState, 0, []⟩) := by
  have hs := pseq_none_of_accepts ha
  rw [carryProducer_of_records op word ha hcount (by rw [hbad, Bool.false_and])]
  unfold stepsP PCtx.start
  cases op with
  | enqueue =>
    rw [runP_e1_refused s.takeCommand 8 _ _ _ _ _ _ _ _ hw hs hbad]
    rfl
  | submitBatch =>
    rw [runP_s1_refused s.takeCommand 8 _ _ _ _ _ _ _ _ _ hw hs hbad]
    rfl

/-- A class C command outside its mode ends at its first step. -/
theorem carryConsumer_errState (op : COp) (word : Word32) (ha : s.accepts .consumer = true) (hw : s.window = [])
    (hbad : (s.configured && s.mode == op.mode) = false) :
    s.carryConsumer op word = .next (s.answered word ⟨.errState, 0, []⟩) := by
  have hs := cseq_none_of_accepts ha
  rw [carryConsumer_starts op word ha]
  unfold stepsC CCtx.start
  cases op with
  | dequeue =>
    rw [runC_q1_refused s.takeCommand 6 _ _ _ _ _ _ _ hw hs hbad]
    rfl
  | pollBatch =>
    rw [runC_b1_refused s.takeCommand 6 _ _ _ _ _ _ _ hw hs hbad]
    rfl

/-- START, STOP and FLUSH before CONFIGURE end at their first step. -/
theorem carryAdmin_errState {op : AOp} (word : Word32) (ha : s.accepts .admin = true) (hw : s.window = [])
    (hop : ∀ k p m r, op ≠ .configure k p m r) (hc : s.configured = false) :
    s.carryAdmin op word = .next (s.answered word ⟨.errState, 0, []⟩) := by
  rw [carryAdmin_starts op word ha]
  unfold stepsA ACtx.start
  rw [runA_check_refused s.takeCommand _ op word 0 hw (aseq_none_of_accepts ha) hc hop]
  rfl

/-- In the listed cases an accepted command is answered `ERR_STATE`, and nothing else happens. -/
theorem exec_errState {i : Instr} (ha : s.accepts i.cls = true) (hw : s.window = [])
    (hcase : errStateCase s.configured s.mode i) (hcount : i.cls = .producer → s.handed.length = i.recordCount) :
    exec i s = .next (s.answered (encode i) ⟨.errState, 0, []⟩) := by
  have hQ {r : Response} (hr : r = ⟨.errState, 0, []⟩) (ha : s.accepts .query = true) :
      (.next (s.answer (encode i) r) : Result) = .next (s.answered (encode i) ⟨.errState, 0, []⟩) := by
    rw [State.answer_of_accepts ha, hr]
  cases i with
  | configure k p m r => exact (configureConstructsTheRing.2 s k p m r ha hw).1 hcase
  | freeCount =>
    have hc : s.configured = false := hcase
    exact hQ (by rw [State.freeCountResponse, hc]; rfl) ha
  | pendingCount =>
    have hc : s.configured = false := hcase
    exact hQ (by rw [State.pendingCountResponse, hc]; rfl) ha
  | batchAge =>
    have hc : s.configured = false := hcase
    exact hQ (by rw [State.batchAgeResponse, hc]; rfl) ha
  | enqueue n =>
    exact carryProducer_errState .enqueue _ ha hw (hcount rfl) ((errStateCase_pop_iff (n := n)).1 hcase)
  | submitBatch n =>
    exact carryProducer_errState .submitBatch _ ha hw (hcount rfl) ((errStateCase_pop_iff (n := n)).1 hcase)
  | dequeue max => exact carryConsumer_errState .dequeue _ ha hw ((errStateCase_cop_iff (max := max)).1 hcase)
  | pollBatch max => exact carryConsumer_errState .pollBatch _ ha hw ((errStateCase_cop_iff (max := max)).1 hcase)
  | start | stop | flush => exact carryAdmin_errState _ ha hw nofun hcase
  | rdreg sel => exact hcase.elim

end ErrState

/-- Settles O43: the listed cases by the first step of each command, the others by the raisers of the answer. -/
theorem errStateExactly : Obligations.ErrStateExactly := by
  refine fun s i ha hw => ⟨exec_errState ha hw, fun hcase t r h hr hstatus => ?_⟩
  cases answer_of_head ha h hr with
  | errState hc => exact hcase hc
  | _ => cases hstatus

/-! ### What an error leaves (R340) -/

section Errors

variable {s t : State} {i : Instr} {r : Response}

/-- A submission that completes came with the records its word asks for (30_encoding.md R128). -/
theorem handed_of_exec (ha : s.accepts i.cls = true) (h : exec i s = .next t) (hi : i.cls = .producer) :
    s.handed.length = i.recordCount := by
  cases i with
  | enqueue n | submitBatch n => exact (carryProducer_records ha h).1
  | _ => cases hi

/-- A command known to be answered with `r'` alone was answered with `r'`. -/
theorem answered_eq {r' : Response} (h : exec i s = .next t) (hr : t.trace.head? = some (.respond (encode i) r))
    (he : exec i s = .next (s.answered (encode i) r')) : t = s.answered (encode i) r := by
  cases h.symm.trans he
  cases hr
  rfl

/-- `ERR_GEOMETRY` leaves the state (40_geometry_config.md R155). -/
theorem errGeometry_changes_nothing (ha : s.accepts i.cls = true) (hw : s.window = []) (h : exec i s = .next t)
    (hr : t.trace.head? = some (.respond (encode i) (.bare .errGeometry)))
    (hi : ∃ k p m n, i = .configure k p m n) : t = s.answered (encode i) (.bare .errGeometry) := by
  obtain ⟨k, p, m, n, rfl⟩ := hi
  obtain ⟨hstate, hgeometry, hok⟩ := configureConstructsTheRing.2 s k p m n ha hw
  cases hc : s.configured with
  | true => exact answered_eq h hr (hstate hc)
  | false =>
    cases hsize : ringSize n.toNat s.cfg.capMax with
    | none => exact answered_eq h hr (hgeometry hc hsize)
    | some cap =>
      cases h.symm.trans (hok cap hc hsize)
      cases hr

/-- `ERR_NOBATCH` leaves the state (44_batch.md R234). -/
theorem errNoBatch_changes_nothing (ha : s.accepts i.cls = true) (hw : s.window = []) (h : exec i s = .next t)
    (hr : t.trace.head? = some (.respond (encode i) (.bare .errNoBatch))) (hi : ∃ n, i = .submitBatch n) :
    t = s.answered (encode i) (.bare .errNoBatch) := by
  obtain ⟨n, rfl⟩ := hi
  obtain ⟨hcount, hshape⟩ := carryProducer_records ha h
  by_cases hcase : errStateCase s.configured s.mode (.submitBatch n)
  · exact answered_eq h hr (exec_errState ha hw hcase fun _ => hcount)
  · have hready := mt (errStateCase_pop_iff (op := .submitBatch) (n := n)).2 hcase
    simp only [Bool.not_eq_false, Bool.and_eq_true, beq_iff_eq] at hready
    obtain ⟨hc, hm⟩ : s.configured = true ∧ s.mode = .batch := hready
    have hrec : recordsWf s.cfg .batch (.submitBatch n) s.handed = true :=
      recordsWf_iff.2 ⟨hcount, by simpa [hc, hm] using hshape⟩
    obtain ⟨hfull, hnone, hsome⟩ := submitBatchCompletes s n ha hw hc hm hrec
    by_cases hpool : s.cfg.poolSize ≤ s.fifo.length
    · exact answered_eq h hr (hfull hpool)
    · have hroom := Nat.not_le.1 hpool
      by_cases hacc : (s.submission s.handed).accepted = 0
      · cases h.symm.trans (hnone hroom hacc)
        cases hr
      · cases h.symm.trans (hsome hroom hacc)
        cases hr

/-- On a configured ring START, STOP and FLUSH end with `OK`, or leave `enabled` 0 and change no other register. -/
theorem carryAdmin_ends {op : AOp} (word : Word32) (ha : s.accepts .admin = true) (hc : s.configured = true)
    (hw : s.window = []) (hop : adminCode op ≠ 0) :
    ∃ t, s.carryAdmin op word = .next t ∧
      (t.trace.head? = some (.respond word ⟨.ok, 0, []⟩) ∨
        t = { s with port := s.port.tail, enabled := false, dev := t.dev, trace := t.trace }) := by
  cases hk : acknowledged op (s.dev.admin (adminCode op)).adminStatus with
  | false => exact ⟨_, carryAdmin_expires word ha hc hw hop rfl hk, .inr rfl⟩
  | true =>
    by_cases hp : 1 ≤ s.cfg.pollMax
    · exact ⟨_, carryAdmin_firstRead word ha hc hw hop rfl hp hk, .inl rfl⟩
    · have hzero : s.cfg.pollMax = 0 := by omega
      refine ⟨_, carryAdmin_requests_quiet word ha hc hw hop rfl, .inr ?_⟩
      rw [hzero, pollPos, hzero, if_neg (Nat.lt_irrefl 0), runA_expire (s.requested op _) 0 op word 0 hw
        (aseq_none_of_accepts ha)]
      rfl

/-- `ERR_TIMEOUT` leaves `enabled` 0 and the accesses of the poll loop (45_admin.md R277). -/
theorem errTimeout_disables (ha : s.accepts i.cls = true) (hw : s.window = []) (h : exec i s = .next t)
    (hr : t.trace.head? = some (.respond (encode i) (.bare .errTimeout)))
    (hi : i = .start ∨ i = .stop ∨ i = .flush) :
    t = { s.answered (encode i) (.bare .errTimeout) with enabled := false, dev := t.dev, trace := t.trace } := by
  obtain ⟨op, hop, hcls, hexec⟩ :
      ∃ op, adminCode op ≠ 0 ∧ i.cls = .admin ∧ exec i s = s.carryAdmin op (encode i) := by
    rcases hi with rfl | rfl | rfl
    · exact ⟨.start, by decide, rfl, rfl⟩
    · exact ⟨.stop, by decide, rfl, rfl⟩
    · exact ⟨.flush, by decide, rfl, rfl⟩
  rw [hcls] at ha
  rw [hexec] at h
  cases hc : s.configured with
  | false =>
    cases h.symm.trans (carryAdmin_errState (encode i) ha hw (by rintro k p m n rfl; exact hop rfl) hc)
    cases hr
  | true =>
    obtain ⟨t', ht', hend⟩ := carryAdmin_ends (encode i) ha hc hw hop
    cases h.symm.trans ht'
    obtain hok | hexpired := hend
    · cases hok.symm.trans hr
    · exact hexpired

end Errors

/-- Settles O45, by the raisers of each error. -/
theorem errorsChangeNothing : Obligations.ErrorsChangeNothing := by
  intro s t i r ha hw h hr
  cases answer_of_head ha h hr with
  | errState hcase =>
    refine ⟨fun _ => ?_, nofun⟩
    exact answered_eq h hr (exec_errState ha hw hcase (handed_of_exec ha h))
  | errGeometry hi => exact ⟨fun _ => errGeometry_changes_nothing ha hw h hr hi, nofun⟩
  | errNoBatch hi => exact ⟨fun _ => errNoBatch_changes_nothing ha hw h hr hi, nofun⟩
  | errTimeout hi => exact ⟨fun he => by simp [Response.bare] at he, fun _ => errTimeout_disables ha hw h hr hi⟩
  | ok | notReady | empty => exact ⟨fun he => by simp [Response.bare] at he, nofun⟩

end Sys2Proof.Machine

/-!
The reset input (70_reset_and_hazards.md R370, R372) and the canonical form of ring memory (log 3).
-/

namespace Sys2Proof.Machine

/-- Settles O53: what the reset input writes are the values after reset, the rest is named by the statement. -/
theorem resetInput : Obligations.ResetInput := fun s => congrArg Host.Outcome.next s.applyReset_eq

/-! ### What PSEQ writes to ring memory -/

/-- PSEQ writes ring memory at step E2, the fill loop, and at step E4, the notify flag, and nowhere else
(42_submission.md R192, R198). -/
theorem State.pStep_mem_cases (s : State) (c : PCtx) :
    (s.pStep c).mem = s.mem ∨
    (c.pos = .e2 ∧ (s.pStep c).mem = (s.fill c).bus.mem) ∨
    (c.pos = .e4 ∧ (s.pStep c).mem = (s.bus.writeCtrl .pseq s.cfg
      (wrapAdd s.wrapMask s.tail (c.written - 1)) ctrlNotifyOnly).mem) := by
  unfold State.pStep
  cases c.pos <;> dsimp only
  case s1 =>
    unfold State.stepS1
    split
    · split <;> exact .inl rfl
    · exact .inl rfl
  case e1 =>
    split
    · unfold State.stepE1Checked
      split <;> exact .inl rfl
    · exact .inl rfl
  case e2 => exact .inr (.inl ⟨rfl, rfl⟩)
  case e4 =>
    unfold State.stepE4
    dsimp only
    split
    · exact .inr (.inr ⟨rfl, rfl⟩)
    · exact .inl rfl
  case s3 =>
    unfold State.stepS3
    split <;> exact .inl rfl
  case e5 | e6 | e7 | e8 | s4 => exact .inl rfl

/-! ### The canonical form (log 3) -/

/-- Ring memory in its canonical form: what O54 asks every step to keep. -/
def State.memWf (s : State) : Prop := Memory.wf s.mem = true

/-- The property speaks of ring memory alone. -/
theorem State.memWf_of_mem {s t : State} (hmem : t.mem = s.mem) (h : s.memWf) : t.memWf := by
  rwa [State.memWf, hmem]

theorem pStep_memWf {s : State} (c : PCtx) (h : s.memWf) : (s.pStep c).memWf := by
  obtain e | ⟨-, e⟩ | ⟨-, e⟩ := s.pStep_mem_cases c
  · exact State.memWf_of_mem e h
  · rw [State.memWf, e]
    exact fillLoop_wf h
  · rw [State.memWf, e]
    exact Bus.writeCtrl_wf (b := s.bus) _ _ _ _ h

theorem pseqStep_memWf (s : State) (h : s.memWf) : s.pseqStep.memWf := by
  cases hs : s.pseq with
  | none => rwa [State.pseqStep_idle hs]
  | some c =>
    rw [State.pseqStep_running hs]
    exact pStep_memWf c h

theorem programDevice_mem (s : State) : s.programDevice.mem = s.mem := by
  unfold State.programDevice
  split <;> rfl

theorem memWf_kept : Kept State.memWf where
  port _ _ h := h
  agenda _ _ h := h
  window _ _ h := h
  now _ _ _ h := h
  respond _ _ _ h := h
  dev _ d h := State.devStep_wf d h
  program s := State.memWf_of_mem (programDevice_mem s)
  startP _ _ _ _ _ _ _ h := h
  startC _ _ _ _ _ h := h
  startA _ _ _ _ _ _ h := h
  pseq := pseqStep_memWf
  cseq s := State.memWf_of_mem s.cseqStep_mem_window.1
  aseq s := State.memWf_of_mem s.aseqStep_mem_window.1

/-- Settles O54, by the induction over all transitions: PSEQ and the device write through operations that keep
the form, nothing else writes a byte. -/
theorem memoryStaysCanonical : Obligations.MemoryStaysCanonical := fun _ _ h ht =>
  step_keeps memWf_kept (fun _ hs => hs) h ht

end Sys2Proof.Machine
